-- ==== Sys2Proof/Word.lean ====
section
/-! DEFINITION. The word types of the machine and their plainest arithmetic. -/
namespace Sys2Proof

/-- A byte of memory. -/
abbrev Byte := BitVec 8
/-- An instruction word, or one lane of a word register (R36, R80). -/
abbrev W32 := BitVec 32
/-- A scalar register, queue entry or virtual address (R13, R15). -/
abbrev Word := BitVec 64
/-- A 5-bit register field (R14, R82). -/
abbrev Reg := BitVec 5

end Sys2Proof
end

