-- ==== Sys2Proof/Config.lean ====
section
/-! DEFINITION. What an implementation fixes, and the values the manual leaves open: opaque constants,
so that no proof can see what they are (log entries 5, 10, 11, 15, 16, 17, 18). -/
namespace Sys2Proof.Config

/-- Width of the core's lane array (R11). -/
def laneCount : Nat := 16384
/-- The core data cache: 64 KiB of 128-byte lines, 8 ways of 64 sets (R313). -/
def cacheWays : Nat := 8
def cacheSets : Nat := 64
/-- Pins a core holds at most (R333). -/
def maxPins : Nat := 64
/-- Entries of the core TLB and of a die's last-level TLB (R363). -/
def coreTlb : Nat := 512
def dieTlb : Nat := 16384
/-- Key-table entries (R47). -/
def keySlots : Nat := 4096
/-- Validate-set entries (R45). -/
def vsetSize : Nat := 64
/-- Interlock-table entries (R46). -/
def ilockSize : Nat := 32
/-- Matrix-queue operations (R223). -/
def mqSize : Nat := 32
/-- Copy-channel queue, the running command counted (R242). -/
def chanSize : Nat := 8
/-- Queue entries and reserved places (R15, R431). -/
def queueSize : Nat := 16
/-- Messages an endpoint holds that have not been accepted (R282). -/
def epSize : Nat := 8
/-- Submissions the device inlet holds (R291). -/
def inletSize : Nat := 256
/-- Records a collapsed VD's window holds in the hub (R395). -/
def hubRecords : Nat := 64
/-- Module power in milliwatts (R1, R405). -/
def modulePower : Nat := 2000000

/-- Free value: the set of its bank that a line falls in; the manual gives a bank's size and not its geometry (R313, log 56). -/
opaque bankSet : Nat → Nat
/-- Free value: a line that is not retained is resident in bank memory at a range's n-th counted access (R321, log 56). -/
opaque bankHolds : Nat → Nat → Bool
/-- Free value: which line a full set of a core data cache gives up (log 10). -/
opaque cacheVictim : Nat → Nat
/-- Free value: which TLB entry a full TLB gives up (log 11). -/
opaque tlbVictim : Nat → Nat
/-- Free value: nanoseconds by which TIME has advanced since it was last read (log 15). -/
opaque timeAdvance : Nat → Nat
/-- Free value: the candidate result of wun exp2, log2, rcp and rsqrt, by operation and the operand's bits (log 16). -/
opaque wunValue : Nat → W32 → W32
/-- Free value: what kf holds after an element of a vldff has faulted (R27, R206, log 71). -/
opaque firstFaultKf : Nat → Nat
/-- Free value: what s1 holds for a grid whose descriptor has no virtual address, one taken from the host ring or sent by
another module (R19, log 22). -/
opaque descAddress : Nat → Word
/-- The energy table: picojoules added at an event, by operation class, voltage step and operand widths (log 17). -/
opaque energyOf : Nat → Nat
/-- Leakage in picojoules per microsecond, by cluster and voltage step (log 17). -/
opaque leakageOf : Nat → Nat
/-- Measured power in milliwatts, by measured unit and reading (log 17). -/
opaque measuredPower : Nat → Nat → Nat
/-- The implementation code of save areas (R351; log 18). -/
opaque implCode : W32
/-- Free value: what an expand stage takes for the bytes beyond a ZB slot that its map asks for (log 23). -/
opaque zbOverrun : Nat → Byte
/-- Free value: bytes of a save area whose layout belongs to the implementation (R350, log 18). -/
opaque saveByte : Nat → Nat → Byte
/-- Free value: bytes per second of a derated HBM stack (R385, log 17). -/
opaque deratedRate : Nat → Nat
/-- Bytes per second of an HBM stack: an eighth of 20 TB/s (00, Module). -/
def stackRate : Nat := 2500000000000
/-- Free value: the SHA3-256 digest of a module's own image, and the bytes measured of its ROM and root-of-trust configuration (R412,
R413, log 18). -/
opaque imageDigest : Nat → List Byte
opaque romBytes : List Byte
/-- Free values: a byte of the HBM and a version after the HBM was off, by the time of that and the address (R392, log 83). -/
opaque hbmByte : Nat → Nat → Byte
opaque hbmVersion : Nat → Nat → Nat
/-- Free value: degrees that a sensor reads, by sensor and reading (R414, log 18). -/
opaque degrees : Nat → Nat → Nat
/-- Free value: a word of the state that a team has after a restore from an area whose bytes were altered (R350, log 18). -/
opaque alteredWord : Nat → Nat → Nat
/-- Free value: bytes of a certificate, digest, signature or platform report (log 18). -/
opaque trustBytes : Nat → List Byte → List Byte

end Sys2Proof.Config
end

