-- ==== Sys2Proof/Syntax.lean ====
section
/-! DEFINITION. The instructions and events of spec/opcode_table.json: one constructor of `Instr` per row. -/
namespace Sys2Proof

/-- Ordering scopes (R85, R324). -/
inductive Scope where
  | hart | core | clus | die | module | sys
  deriving DecidableEq, Repr

/-- Orders (R85, R325). -/
inductive Order where
  | rlx | acq | rel | ar
  deriving DecidableEq, Repr

/-- Conditions of bcc, vcmp and wcmp (R85). -/
inductive Cond where
  | eq | ne | lt | ge | ltu | geu
  deriving DecidableEq, Repr

/-- Word-unit formats (R54, R85). -/
inductive Fmt where
  | f32 | bf16 | f16 | i32
  deriving DecidableEq, Repr

/-- Sub-operations of amo and vamo (R85, R148). -/
inductive AmoOp where
  | add | min | max | minu | maxu | and | or | xor | swap | fadd
  deriving DecidableEq, Repr

/-- Bitwise sub-operations of vlog and vmlog (R85). -/
inductive LogOp where
  | and | or | xor | andn | orn | xnor
  deriving DecidableEq, Repr

/-- Reductions of vred and vgred (R85). -/
inductive RedOp where
  | sum | max | min | maxu | minu | or | and
  deriving DecidableEq, Repr

/-- Unary word-unit operations (R85, R234). -/
inductive WunOp where
  | abs | neg | exp2 | log2 | rcp | rsqrt
  deriving DecidableEq, Repr

/-- Word-unit reductions (R85, R236). -/
inductive WRedOp where
  | sum | max | min | maxu | minu
  deriving DecidableEq, Repr

/-- Sub-operations of wmov (R85, R236). -/
inductive WmovOp where
  | ts | st | bc
  deriving DecidableEq, Repr

/-- Sub-operations of kacc (R267). -/
inductive KaccOp where
  | add | max | min | or
  deriving DecidableEq, Repr

/-- Access sizes of 1, 2, 4 and 8 bytes (R84). -/
inductive Size where
  | b | h | w | d
  deriving DecidableEq, Repr

/-- The kinds of tlbinv (R136). -/
inductive TlbKind where
  | va | vd | all
  deriving DecidableEq, Repr

/-- Access kinds of TSTAT.AK (R340). -/
inductive Acc where
  | read | write | fetch | atomic
  deriving DecidableEq, Repr

/-- Reductions of cpyo (R251). -/
inductive CopyRed where
  | none | addi | addf | maxi | mini | maxf | minf
  deriving DecidableEq, Repr

/-- Operands common to the copy commands of R241. -/
structure CopyOps where
  ch : BitVec 3
  tb : BitVec 4
  b : Reg
  a : Reg
  d : Reg
  deriving DecidableEq, Repr

/-- A team, by virtual device, GRIDID and TEAMID (R292, R297). -/
structure TeamKey where
  vd : Nat
  gid : Nat
  tid : Nat
  deriving DecidableEq, Repr

/-- What the partition supervisor fixes when it creates a VD (R386, R387, R368, R359, R384). -/
structure VdParams where
  part : Nat
  nmw : Nat
  idleMs : Nat
  wc : BitVec 2
  root : Nat
  control : Nat
  trapent : Word
  ringhdr : Nat
  evbase : Word
  deriving DecidableEq, Repr

/-- The fields that the source fills in a media-window record (R370). -/
structure Rec where
  t : Word
  seq : W32
  sid : BitVec 16
  len : Byte
  payload : List Byte
  deriving DecidableEq, Repr

/-- A signed firmware image (R412). `sigOk` says whether its ML-DSA-44 signature verifies. -/
structure Image where
  slot : BitVec 3
  digest : List Byte
  secVersion : Nat
  sigOk : Bool
  deriving DecidableEq, Repr

/-- Where a link endpoint leads (R402). -/
structure EpConfig where
  node : Nat
  remoteEp : Nat
  ports : List Nat
  remoteVd : Nat
  /-- the remote end lies on another die of this module -/
  onModule : Bool
  deriving DecidableEq, Repr

/-- A thermal sensor (R408). -/
inductive Sensor where
  | stack (n : BitVec 3) | die (n : BitVec 2) | other
  deriving DecidableEq, Repr

/-- A register named by REGISTER_WRITE: of the focused stream, of a VD's control page, or one that only the partition supervisor
reaches (R6, R320, R322, R404). -/
inductive RegTarget where
  | system (num : BitVec 12) | control (vd : Nat) (off : Nat)
  /-- RRBASEn or RRLIMn of a die -/
  | residency (die : BitVec 2) (n : BitVec 4) (limit : Bool)
  /-- VERLO, VERHI or VERBASE of the HBM or LPDDR tier -/
  | verLo (lpddr : Bool) | verHi (lpddr : Bool) | verBase (lpddr : Bool)
  | railDwell
  deriving DecidableEq, Repr

/-- The instructions (03 to 08) and the events (95) of the device, in the table's order. -/
inductive Instr where
  -- L=00 scalar register class (R93, R108)
  | add (w : Bool) (d a b : Reg)
  | sub (w : Bool) (d a b : Reg)
  | and (w : Bool) (d a b : Reg)
  | or (w : Bool) (d a b : Reg)
  | xor (w : Bool) (d a b : Reg)
  | andn (w : Bool) (d a b : Reg)
  | shl (w : Bool) (d a b : Reg)
  | shr (w : Bool) (d a b : Reg)
  | sar (w : Bool) (d a b : Reg)
  | rol (w : Bool) (d a b : Reg)
  | mul (w : Bool) (d a b : Reg)
  | mulh (w : Bool) (d a b : Reg)
  | mulhu (w : Bool) (d a b : Reg)
  | div (w : Bool) (d a b : Reg)
  | divu (w : Bool) (d a b : Reg)
  | rem (w : Bool) (d a b : Reg)
  | remu (w : Bool) (d a b : Reg)
  | min (w : Bool) (d a b : Reg)
  | max (w : Bool) (d a b : Reg)
  | minu (w : Bool) (d a b : Reg)
  | maxu (w : Bool) (d a b : Reg)
  | slt (w : Bool) (d a b : Reg)
  | sltu (w : Bool) (d a b : Reg)
  | seq (w : Bool) (d a b : Reg)
  | clz (w : Bool) (d a : Reg)
  | ctz (w : Bool) (d a : Reg)
  | popc (w : Bool) (d a : Reg)
  | bswap (w : Bool) (d a : Reg)
  | sext (z : Size) (d a : Reg)
  | zext (z : Size) (d a : Reg)
  | qstat (d : Reg) (q : BitVec 3)
  -- L=00 lane array (R180); ca and cb consume A and B, k is the mask
  | vadd (cb ca : Bool) (k : BitVec 3) (d a b : Reg)
  | vsub (cb ca : Bool) (k : BitVec 3) (d a b : Reg)
  | vmul (cb ca : Bool) (k : BitVec 3) (d a b : Reg)
  | vmac (cb ca : Bool) (k : BitVec 3) (d a b : Reg)
  | vmin (cb ca : Bool) (k : BitVec 3) (d a b : Reg)
  | vmax (cb ca : Bool) (k : BitVec 3) (d a b : Reg)
  | vlog (op : LogOp) (cb ca : Bool) (k : BitVec 3) (d a b : Reg)
  | vneg (ca : Bool) (k : BitVec 3) (d a : Reg)
  | vabs (ca : Bool) (k : BitVec 3) (d a : Reg)
  | vshl (cb ca : Bool) (k : BitVec 3) (d a b : Reg)
  | vshr (cb ca : Bool) (k : BitVec 3) (d a b : Reg)
  | vsar (cb ca : Bool) (k : BitVec 3) (d a b : Reg)
  | vcmp (c : Cond) (cb ca : Bool) (k : BitVec 3) (d : BitVec 3) (a b : Reg)
  | vsel (cb ca : Bool) (k : BitVec 3) (d a b : Reg)
  | vmv (ca : Bool) (k : BitVec 3) (d a : Reg)
  | vbc (k : BitVec 3) (d a : Reg)
  | vid (k : BitVec 3) (d : Reg)
  | vext (ca : Bool) (d a b : Reg)
  | vins (d a b : Reg)
  | vslide (up : Bool) (ca : Bool) (k : BitVec 3) (d a b : Reg)
  | vdot (cb ca : Bool) (k : BitVec 3) (d a b : Reg)
  | vred (op : RedOp) (ca : Bool) (k : BitVec 3) (d a : Reg)
  | vgred (op : RedOp) (ca : Bool) (k : BitVec 3) (g : BitVec 3) (d a : Reg)
  | vmlog (op : LogOp) (k d a b : BitVec 3)
  | vmpop (k : BitVec 3) (d : Reg) (a : BitVec 3)
  | vmfirst (k : BitVec 3) (d : Reg) (a : BitVec 3)
  | vcompact (ca : Bool) (k : BitVec 3) (d a : Reg)
  | vexpand (ca : Bool) (k : BitVec 3) (d a : Reg)
  | vclz (ca : Bool) (k : BitVec 3) (d a : Reg)
  | vcvtw (ca : Bool) (k : BitVec 3) (n : BitVec 5) (d a : Reg)
  | vxq (ca : Bool) (k : BitVec 3) (d a : Reg)
  | vzp (ca : Bool) (d a : Reg)
  -- L=01 immediate (R112)
  | addi (d a : Reg) (imm : BitVec 14)
  | andi (d a : Reg) (imm : BitVec 14)
  | ori (d a : Reg) (imm : BitVec 14)
  | xori (d a : Reg) (imm : BitVec 14)
  | shli (d a : Reg) (sh : BitVec 6)
  | shri (d a : Reg) (sh : BitVec 6)
  | sari (d a : Reg) (sh : BitVec 6)
  | slti (d a : Reg) (imm : BitVec 14)
  | sltiu (d a : Reg) (imm : BitVec 14)
  | movi (d : Reg) (imm : BitVec 19)
  -- L=01 memory, atomic, version, fence, cache (R142 to R157)
  | ld (u : Bool) (z : Size) (d a : Reg) (ofs : BitVec 11)
  | st (z : Size) (d a : Reg) (ofs : BitVec 11)
  | amo (op : AmoOp) (o : Order) (c : Scope) (d a b : Reg)
  | ldv (d a : Reg) (ofs : BitVec 11)
  | vval (d : Reg)
  | vclr
  | fence (o : Order) (c : Scope)
  | cflush (a : Reg)
  | cinv (a : Reg)
  -- L=01 word unit (R231 to R237)
  | wld (f : Fmt) (d a : Reg) (ofs : BitVec 7)
  | wst (f : Fmt) (d a b : Reg) (ofs : BitVec 7)
  | wadd (f : Fmt) (d a b : Reg)
  | wsub (f : Fmt) (d a b : Reg)
  | wmul (f : Fmt) (d a b : Reg)
  | wfma (f : Fmt) (d a b : Reg)
  | wmin (f : Fmt) (d a b : Reg)
  | wmax (f : Fmt) (d a b : Reg)
  | wun (op : WunOp) (f : Fmt) (d a : Reg)
  | wcvt (g f : Fmt) (d a : Reg)
  | wcmp (c : Cond) (f : Fmt) (d a b : Reg)
  | wsel (d a b : Reg)
  | wred (op : WRedOp) (f : Fmt) (g : BitVec 3) (d a : Reg)
  | wperm (d a b : Reg)
  | wmov (op : WmovOp) (f : Fmt) (d a b : Reg)
  | wq (dq : Bool) (d a b : Reg)
  -- L=01 synchronisation and set-up (R161 to R168, R127 to R130)
  | semtas (c : Scope) (n : BitVec 6)
  | semtry (c : Scope) (n : BitVec 6) (d : Reg)
  | semclr (c : Scope) (n : BitVec 6)
  | crd (n : BitVec 6) (d : Reg)
  | cwr (n : BitVec 6) (a : Reg)
  | tbar (c : Scope)
  | bexp (n : BitVec 4) (a : Reg)
  | barv (c : Scope) (n : BitVec 4) (a : Reg)
  | bwait (c : Scope) (n : BitVec 4) (d a : Reg)
  | qflush (q : BitVec 3)
  | setvl (d a : Reg)
  | setvtReg (d a : Reg)
  | setvtImm (sat : BitVec 2) (sd : Bool) (wd : BitVec 5) (sb : Bool) (wb : BitVec 4) (sa : Bool) (wa : BitVec 4) (d : Reg)
  -- L=10 control and system (R117 to R140)
  | b (ofs : BitVec 24)
  | jal (d : Reg) (ofs : BitVec 19)
  | jalr (d a : Reg) (ofs : BitVec 14)
  | bcc (c : Cond) (a b : Reg) (ofs : BitVec 11)
  | loop (l : BitVec 3) (a : Reg) (n : BitVec 14)
  | lstride (l : BitVec 3) (a : Reg) (imm : BitVec 14)
  | ecall (code : BitVec 14)
  | ebreak
  | eret
  | wfi
  | mfsr (d : Reg) (num : BitVec 12)
  | mtsr (a : Reg) (num : BitVec 12)
  | tlbinv (k : TlbKind) (a : Reg)
  | nop
  | launch (d a : Reg)
  | signal (a b : Reg)
  | exit
  | yield
  -- L=10 matrix (R214 to R239)
  | mcfg (a : Reg)
  | mma (c f z : Bool) (d a b : Reg)
  | mmas (c f z : Bool) (d a b : Reg)
  | mwait (done : Bool) (a : Reg)
  | mprog (d : Reg)
  | mclr
  | vtow (ca : Bool) (f : Fmt) (d a b : Reg)
  | wtov (f : Fmt) (d a b : Reg)
  -- L=10 key table, windows, rings, pools, links (R267 to R284)
  | kins (cb ca : Bool) (k : BitVec 3) (d : BitVec 3) (a b : Reg)
  | klook (ca : Bool) (k : BitVec 3) (d a : Reg) (b : BitVec 3)
  | kacc (op : KaccOp) (cb ca : Bool) (k : BitVec 3) (d : BitVec 3) (a b : Reg)
  | kdrain (d a : Reg)
  | kclr
  | twin (timer : Bool) (n : BitVec 6) (item : BitVec 3) (d : Reg)
  | twtake (n : BitVec 6) (d : Reg)
  | twack (n : BitVec 6) (d a : Reg)
  | kvapp (d a : Reg)
  | pgget (run : Bool) (d a b : Reg)
  | pgput (d a b : Reg)
  | send (e : BitVec 8) (a b : Reg)
  | recv (e : BitVec 8) (d a : Reg)
  | lnkwait (e : BitVec 8)
  | pfx (lvl : BitVec 3) (iter : BitVec 2) (fz : Bool) (sat : BitVec 2) (rm : BitVec 3)
  -- L=11 scalar (R113, R117, R142, R151, R160)
  | movl (d : Reg) (imm : W32)
  | movh (d : Reg) (imm : W32)
  | addl (d a : Reg) (imm : W32)
  | fshl (d a b : Reg) (i : Bool) (sh : BitVec 6) (c : Reg)
  | fshr (d a b : Reg) (i : Bool) (sh : BitVec 6) (c : Reg)
  | bext (d a : Reg) (s : Bool) (len : BitVec 7) (pos : BitVec 6)
  | bins (d a : Reg) (len : BitVec 7) (pos : BitVec 6)
  | sel (d a b c : Reg)
  | cas (z : Size) (o : Order) (sc : Scope) (d a b c : Reg)
  | casv (z : Size) (o : Order) (sc : Scope) (d a b c : Reg)
  | ldo (u : Bool) (z : Size) (o : Order) (sc : Scope) (d a : Reg) (disp : W32)
  | sto (z : Size) (o : Order) (sc : Scope) (d a : Reg) (disp : W32)
  | jl (d : Reg) (ofs : W32)
  -- L=11 vector memory (R198)
  | vld (ord u : Bool) (z : Size) (k : BitVec 3) (d a : Reg) (disp : W32)
  | vlds (ord u : Bool) (z : Size) (k : BitVec 3) (d a b : Reg) (disp : W32)
  | vldx (ord u : Bool) (z : Size) (cb : Bool) (k : BitVec 3) (d a b : Reg) (disp : W32)
  | vldff (ord u : Bool) (z : Size) (k : BitVec 3) (d a : Reg) (disp : W32)
  | vst (ord : Bool) (z : Size) (cd : Bool) (k : BitVec 3) (d a : Reg) (disp : W32)
  | vsts (ord : Bool) (z : Size) (cd : Bool) (k : BitVec 3) (d a b : Reg) (disp : W32)
  | vstx (ord : Bool) (z : Size) (cd cb : Bool) (k : BitVec 3) (d a b : Reg) (disp : W32)
  | vstb (cd : Bool) (k : BitVec 3) (d a b : Reg) (disp : W32)
  | vamo (op : AmoOp) (ord : Bool) (cd cb : Bool) (o : Order) (sc : Scope) (k : BitVec 3) (d a b : Reg)
  -- L=11 copy commands (R241 to R266)
  | cpy (o : CopyOps) (lk : Bool)
  | cpys (o : CopyOps) (rby : BitVec 16) (c : Reg)
  | cpyt (o : CopyOps) (x t : Bool) (dq : BitVec 2) (xf : BitVec 3) (pw : BitVec 5) (kb : BitVec 11) (c : Reg)
  | cpyo (o : CopyOps) (z q : Bool) (red : CopyRed) (xf : BitVec 3) (kb : BitVec 11) (c : Reg)
  | cpyg (o : CopyOps) (nm : BitVec 3) (qm rng iw : Bool) (fill : Byte) (sw : Bool) (srow : BitVec 4) (c : Reg)
  | cpwait (ch : BitVec 3) (a : Reg) (sc : Scope) (drain : Bool)
  | cpstat (ch : BitVec 3) (d : Reg) (item : BitVec 3)
  -- events of the streams and engines of a hart
  | fetchLine
  | asyncDelivery
  | vloadCompletion
  | laneCompletion
  | matrixRowStep
  | matrixDone
  | copyChunk (ch : BitVec 3)
  | pageWalk (va : Word) (acc : Acc)
  | trapEntry
  | queueWatchdog
  | wfiTimeout
  | pinExpiry (line : Nat)
  | cacheEviction (line : Nat)
  | streamStop
  -- events of the scheduler and of Cloche
  | placementOffer
  | quantumExpiry (teams : List TeamKey)
  | aging (vd gid : Nat)
  | energyWindow (die : BitVec 2)
  | powerGrant (available : Nat)
  | clocheSave (team : TeamKey) (area : Word) (limit : Nat)
  | clocheRestore (team : TeamKey)
  | stopWalk (vd : Nat) (graph : Nat)
  | partitionResize (part : Nat) (clusters : List Nat) (powerShare : Nat) (shares : List Nat)
  | vdCreation (vd : Nat) (p : VdParams)
  | vdDestruction (vd : Nat)
  | versionedPageMove (vd : Nat) (old new : Nat) (bytes : Nat)
  -- events of time, windows and virtual devices
  | tick (vd : Nat) (timer : BitVec 4)
  | stepFire (vd : Nat) (timer : BitVec 4)
  | holdExpiry (vd : Nat) (timer : BitVec 4)
  | recordAcceptance (vd : Nat) (window : BitVec 6) (r : Rec)
  | collapse (vd : Nat)
  | wakeComplete (vd : Nat)
  | wakeWrite (vd : Nat)
  -- events of the host, of other modules and of the links
  | hostMemoryWrite (pa : Nat) (bytes : List (Option Byte))
  | hostMemoryRead (pa : Nat) (len : Nat)
  | remoteLaunch (vd : Nat) (desc : List Word)
  | messageAcceptance (vd : Nat) (ep : BitVec 8) (incoming : Option (List Byte))
  | linkEndpointDown (vd : Nat) (ep : BitVec 8)
  | linkEndpointUp (vd : Nat) (ep : BitVec 8)
  | ptpMessage (offset : Int) (elapsed : Nat)
  | timeStep (ns : Nat)
  | timeHoldover
  | timeLocked (offset : Int)
  -- events of heat, power and clocks
  | thermalThreshold (sensor : Sensor) (degrees : Nat) (above : Bool)
  | railVote (die rail : BitVec 2) (part : Nat) (vote : Option Nat)
  | railDwell (die rail : BitVec 2)
  | railStep (die rail : BitVec 2)
  | currentLimit (die : BitVec 2) (level : BitVec 2)
  | leakageAccounting
  | laneTest (lane : Nat) (pass : Bool)
  -- resets, root of trust, Hatband
  | coldReset
  | cxlHotReset
  | functionLevelResetVf (vd : Nat)
  | functionLevelResetPf
  | getVersion
  | getCapabilities
  | negotiateAlgorithms
  | getDigests
  | getCertificate (slot : BitVec 3)
  | challenge (nonce : List Byte)
  | getMeasurements (index : BitVec 8)
  | keyExchange (session : Nat)
  | finish (session : Nat)
  | mctpControl (request : List Byte)
  | pldmMonitoring (request : List Byte)
  | pldmFirmwareUpdate (img : Image)
  | hatbandWake (vd : Nat)
  | recoveryImage (img : Image)
  -- writes of registers that have rows of their own
  | mwctlWrite (vd : Nat) (window : BitVec 6) (v : Word)
  | mwbaseWrite (vd : Nat) (window : BitVec 6) (v : Word)
  | ttctlWrite (vd : Nat) (timer : BitVec 4) (v : Word)
  | rrctlWrite (die : BitVec 2) (n : BitVec 4) (v : Word)
  | cpstatFltRestart (ch : BitVec 3)
  | cpstatAbtClear (ch : BitVec 3)
  | cpstatOobClear (ch : BitVec 3)
  | cpstatRperrClear (ch : BitVec 3)
  | mprogWrite (v : Word)
  | registerWrite (r : RegTarget) (v : Word)
  | reservedOpcode (w : W32)
  | vectorMemoryCompletion
  | linkEndpointConfiguration (vd : Nat) (ep : BitVec 8) (c : EpConfig)
  | remoteLaunchAnswer (answer : Word)
  | remoteStopRequest (vd : Nat) (gid : Nat)
  deriving DecidableEq, Repr

end Sys2Proof
end

