-- ==== Sys2Proof/Machine/State.lean ====
section
/-! DEFINITION. The state of the machine as plain data, the reasons a step can stop, and the state after reset. -/
namespace Sys2Proof.Machine

/-- Why the machine stops. No rule of the manual stops it: there is no such reason, which is safe. -/
inductive Fault where
  deriving DecidableEq, Repr

/-- Why the model gives no next state. -/
inductive Refusal where
  /-- Raised by `exec` for an instruction that has no meaning yet. Safe. -/
  | notModelled (mnemonic : String)
  /-- Raised by `step` when the agenda names, as an event, an instruction that only a stream issues. Safe. -/
  | notAnEvent
  deriving DecidableEq, Repr

/-- One row of the lane store or one mask: bit e is hart lane e (R21, R27). Bits at or beyond LANES are 0. -/
abbrev Row := Nat
/-- Bytes by address, addresses strictly rising, no byte that is 0 listed (an unlisted byte reads 0). -/
abbrev Memory := List Host.Cell

inductive Mode where
  | u | s
  deriving DecidableEq, Repr

/-- An active level of the loop sequencer (R120, R122). -/
structure Loop where
  first : Word
  last : Word
  left : Word
  iter : Word
  mode : Mode
  strides : List (Reg × Word)
  deriving DecidableEq, Repr

/-- One level: the pairs registered for its next activation (R121) and its activation. -/
structure Level where
  pairs : List (Reg × Word)
  act : Option Loop
  deriving DecidableEq, Repr

/-- A fetched line: its address and its 16 words, the header first (R75, R78). -/
structure FetchLine where
  base : Word
  words : List W32
  deriving DecidableEq, Repr

/-- A result on its way to a scalar register or reserved queue place (R115, R431). -/
structure Delivery where
  dst : Reg
  val : Word
  deriving DecidableEq, Repr

/-- The fields of a prefix word that has executed and whose instruction is next (R87). -/
structure Pfx where
  addr : Word
  fz : Bool
  sat : BitVec 2
  rm : BitVec 3
  deriving DecidableEq, Repr

/-- A cause and what trap entry writes beside it (R339 to R341). -/
structure TrapInfo where
  cause : BitVec 8
  tval : Word
  wlvl : BitVec 3
  ak : BitVec 2
  ech : BitVec 3
  ef : Bool
  mh : Bool
  deriving DecidableEq, Repr

/-- What a stalled stream waits for; queue and presence waits carry the fields of R128. `sync` covers semtas, tbar, bwait,
cpwait and recv (R389). -/
inductive Wait where
  | queue (write : Bool) (r : Reg)
  | presence (write : Bool) (v : Reg)
  | scoreboard
  | interlock
  | channel
  | sync
  | engine
  /-- suspended by the wfi at this address; the stream stands at the beginning of the instruction or prefixed pair (R87, R134) -/
  | wfi (at_ : Word)
  | remote
  /-- the homes of these lines have answered the access's requests with a retry; the requests stay until the access is performed, and those
  of one line are served in the order of their arrival stamps (R319, R333, R337) -/
  | pinned (lines : List Nat) (arrival : Nat)
  /-- a launch with RMT = 1, at this address, has been sent and awaits the other module's answer, for its destination (R137, R293) -/
  | answer (d : Reg) (at_ : Word)
  /-- the launch at this address is held in the inlet of a VD that is mitten or waking, its GRIDID still to come (R291, R391) -/
  | inlet (d : Reg) (at_ : Word)
  deriving DecidableEq, Repr

/-- A vector store, scatter or vamo whose completion is outstanding (R200, R208); `asked`: the dirty lines that its acquire waits for at their
homes, and the requests' arrival (R318, R333). -/
structure VMem where
  acq : Option Scope
  asked : Option (List Nat × Nat)
  deriving DecidableEq, Repr

/-- One instruction stream of a hart (R13). -/
structure Strm where
  pc : Word
  regs : Vector Word 24
  mode : Mode
  vl : BitVec 15
  vtype : BitVec 21
  vstart : BitVec 14
  vstat : BitVec 5
  hvl : BitVec 15
  hvtype : BitVec 21
  hvstart : BitVec 14
  tcause : BitVec 8
  tpc : Word
  tval : Word
  tvec : Word
  tstat : BitVec 16
  loops : Vector Level 6
  fetchBuf : List FetchLine
  pend : List Delivery
  pfx : Option Pfx
  wait : Option Wait
  inHandler : Bool
  faults : List TrapInfo
  arrive : Option Nat
  /-- a cpwait in progress: commands with a lower id were issued before it (R266) -/
  cpMark : Option Nat
  vmem : List VMem
  age : Nat
  /-- turns of its class and core for which it has been ready to issue without a break (R309) -/
  ready : Nat
  exiting : Bool
  stopped : Bool
  deriving DecidableEq, Repr

/-- A queue holds entries and places reserved for results not yet delivered (R15, R431). -/
inductive QEnt where
  | val (w : Word)
  | reserved
  deriving DecidableEq, Repr

/-- Who made an interlock entry (R46). -/
inductive Owner where
  | cmd (id : Nat)
  | op (id : Nat)
  deriving DecidableEq, Repr

/-- An address range an engine reads or writes (R46, R242, R224). -/
structure Ilock where
  owner : Owner
  lo : Nat
  len : Nat
  write : Bool
  deriving DecidableEq, Repr

/-- How far a matrix operation has come (R224). -/
inductive OpStage where
  | posted | running | consumed
  deriving DecidableEq, Repr

/-- A posted matrix operation with everything it sampled (R219, R223, R225). -/
structure MatOp where
  id : Nat
  masked : Bool
  fp32 : Bool
  zero : Bool
  cons : Bool
  tile : Nat
  m0 : Nat
  kchunk : Nat
  breg : Reg
  cfg : Vector Word 8
  vtype : BitVec 21
  sat : BitVec 2
  rows : Nat
  cols : Nat
  pitch : Nat
  stage : OpStage
  chain : List Nat
  deriving DecidableEq, Repr

/-- A vector load whose elements are written but whose register is not FULL yet (R23, R200). -/
structure VLoad where
  reg : Reg
  pair : Bool
  deriving DecidableEq, Repr

/-- What the two streams of a hart share (R13), with the hart's identity (R48). -/
structure Hart where
  id : BitVec 14
  team : W32
  grid : W32
  vd : BitVec 10
  lph : BitVec 2
  sph : BitVec 7
  cf : Bool
  planes : Vector Row 512
  pres : Vector Bool 32
  masks : Vector Row 8
  kf : Row
  queues : Vector (List QEnt) 8
  wregs : Vector (Vector W32 64) 32
  scratch : Memory
  vset : List (Nat × BitVec 48)
  vovf : Bool
  mcfg : Option (Vector Word 8)
  mq : List MatOp
  mprog : Nat
  mhalt : Option Word
  /-- the halt has been reported by the instruction at this address; an eret to it resumes the operation (R229) -/
  mtold : Option Word
  ilocks : List Ilock
  vloads : List VLoad
  /-- cycles for which the lanes are occupied; 0 when they are free (R178, R222) -/
  laneBusy : Nat
  /-- 64-bit words of the scratchpad partition with an uncorrectable error (R229, R409) -/
  scratchBad : List Nat
  /-- row words of the lane store with an uncorrectable error: plane row × 16,384 + the affected lane (R409 to R411) -/
  laneBad : List Nat
  /-- residue mismatches that the hart's next word-unit instruction meets (R410) -/
  residue : Nat
  /-- tests that the hart's lane work waits for: each affected lane; 16,384 for the word lanes (R411) -/
  tests : List Nat
  /-- the team of the hart has not ended -/
  live : Bool
  /-- what VSETCNT.COUNT read and the presence bits were when the hart ended; its set and its bits are discarded (R139, R421, R430) -/
  endCount : Nat
  endPres : Vector Bool 32
  deriving DecidableEq, Repr

/-- A hart that is resident but not in focus: its A-stream, its E-stream and what they share. -/
structure Ctx where
  a : Strm
  e : Strm
  hart : Hart
  deriving DecidableEq, Repr

/-- A transfer barrier (R43). The expected count is unbounded: the manual gives it no width (log 92). -/
structure Barrier where
  phase : Bool
  posted : Bool
  expected : Nat
  arrived : BitVec 40
  deriving DecidableEq, Repr

/-- The five copy commands with the fields of their EXT words (R247 to R254). -/
inductive CopyKind where
  | cpy (link : Option (BitVec 8))
  | cpys (rby : Nat) (srcStride : Int) (dstStride : Nat)
  | cpyt (x t : Bool) (dq xf pw kb : Nat) (scale : Nat)
  | cpyo (z q : Bool) (red : CopyRed) (xf kb : Nat) (scale : Nat)
  /-- `list`: the address of the index list when it lies in memory; `pitch` in bytes -/
  | cpyg (n : Nat) (list : Option Nat) (rng iw : Bool) (fill : Byte) (sw : Bool) (srow rb pitch rc : Nat)
  deriving DecidableEq, Repr

/-- The plane rows that a transpose under way writes, by index, as they stood before its first slice, and the lanes that it writes (R179). -/
structure Shadow where
  lanes : Row
  rows : List (Nat × Row)
  deriving DecidableEq, Repr

/-- A queued copy command: operands, recorded barrier phase and progress (R242, R263). -/
structure CopyCmd where
  id : Nat
  hart : BitVec 14
  /-- the mode of the stream that issued it was U -/
  user : Bool
  kind : CopyKind
  dst : Nat
  src : Nat
  len : Nat
  /-- addresses from the first to the last of the destination range, for cpwait (R266) -/
  span : Nat
  tb : BitVec 4
  phase : Bool
  started : Bool
  /-- next destination offset; for cpys the bytes delivered; for cpyg the next byte of the current row -/
  pos : Nat
  /-- counted length as far as it is known, and whether more ranges are to be read (R243, R433) -/
  counted : Nat
  more : Bool
  credited : Nat
  /-- cpyg: list entries read, current range, rows of it delivered, rows delivered (R255, R433) -/
  got : List Nat
  gj : Nat
  gx : Nat
  gt : Nat
  /-- what a lane-array instruction still reads of the rows that a transpose under way writes (R179) -/
  before : Option Shadow
  deriving DecidableEq, Repr

/-- The abandonment record of cpstat item 6 (R265). -/
structure Abandon where
  phase : Bool
  tb : BitVec 4
  bytes : BitVec 40
  deriving DecidableEq, Repr

/-- A copy channel with its CPSTAT byte's flags and records (R44, R256, R260 to R265). -/
structure Channel where
  queue : List CopyCmd
  cpwp : Word
  flt : Bool
  fltCause : BitVec 8
  fltAddr : Word
  oob : Option (Word × Nat)
  rperr : Option Nat
  abt : Option Abandon
  /-- the lines that the running command has asked for at their homes and been answered with a retry, and the requests' arrival (R333) -/
  pinWait : Option (List Nat × Nat)
  deriving DecidableEq, Repr

/-- A line of the core data cache: line number, bytes, dirty mask, pin order if pinned, retried (R316, R333). -/
structure CLine where
  line : Nat
  data : List Byte
  dirty : List Bool
  pin : Option Nat
  retried : Bool
  deriving DecidableEq, Repr

/-- A leaf held by a TLB (R363): its VD, the virtual page number at its level, and the entry. -/
structure TlbEntry where
  vd : Nat
  lvl : Nat
  vpn : Nat
  pte : Word
  deriving DecidableEq, Repr

/-- What the harts of a core share (R12). -/
structure Core where
  keytab : List (W32 × W32)
  tbs : Vector Barrier 16
  chans : Vector Channel 8
  dcache : List CLine
  tlb : List TlbEntry
  wordLast : BitVec 3
  deriving DecidableEq, Repr

/-- A stream of the cluster, by hart and class. -/
structure StreamId where
  hart : BitVec 14
  e : Bool
  deriving DecidableEq, Repr

/-- The communication file and team barrier of a cluster (R42, R161, R163). -/
structure CommFile where
  sems : Vector Bool 64
  cws : Vector Word 64
  semq : List (BitVec 6 × StreamId)
  gen : Nat
  arrived : List StreamId
  deriving DecidableEq, Repr

/-- A cluster (R42, R403, R406, R390). `freq` counts steps of 25 MHz. -/
structure Clus where
  comm : CommFile
  energy : Nat
  energyMark : Nat
  freq : Nat
  retention : Bool
  gated : Bool
  deriving DecidableEq, Repr

/-- A residency range's three registers, its access counter, and the lines in its reserved ways, the least recently used first
(R320, R321). -/
structure RRange where
  base : Word
  limit : Word
  ctl : Word
  count : Nat
  kept : List Nat
  deriving DecidableEq, Repr

/-- A rail: voltage in steps of 6.25 mV above 0.600 V, the votes in force, dwell and descent (R404). -/
structure Rail where
  volt : Nat
  votes : List (Nat × Nat)
  dwell : Bool
  falling : Bool
  deriving DecidableEq, Repr

/-- A compute die. Powers are in milliwatts. -/
structure Die where
  rr : Vector RRange 16
  tlb : List TlbEntry
  rails : Vector Rail 4
  grant : Nat
  cl : BitVec 2
  hot : Bool
  deriving DecidableEq, Repr

/-- VERLO, VERHI and VERBASE of a device tier (R322). -/
structure VerRange where
  lo : Nat
  hi : Nat
  base : Nat
  deriving DecidableEq, Repr

/-- A step of a VD's timers: the timer and the step's number (R374). -/
abbrev StepId := BitVec 4 × Nat

/-- A slot of a media window's ring (R372, R374 to R377). -/
inductive SlotState where
  | free
  | untaken
  | assigned (step : StepId)
  | taken (step : StepId)
  deriving DecidableEq, Repr

/-- A record the ring holds: where, its T, acceptance order and state. -/
structure WSlot where
  slot : Nat
  t : Word
  order : Nat
  st : SlotState
  late : Bool
  deriving DecidableEq, Repr

/-- A record that the hub accepted while the ring was out of reach: its stamp, whether it is late, the step it is assigned to, and its
place in the order of acceptance (R395). -/
structure HubRec where
  r : Rec
  arr : Word
  late : Bool
  step : Option StepId
  order : Nat
  deriving DecidableEq, Repr

/-- A media window's registers, ring contents and hub-held records (R371, R372, R395). -/
structure Window where
  base : Word
  ctl : Word
  hold : Word
  cnt : Word
  slots : List WSlot
  /-- the slot last used; 65,535, before slot 0 in every ring, when none was -/
  lastSlot : Nat
  accepted : Nat
  /-- the highest cutoff of a step that has fired with the window bound (R375) -/
  cut : Option Int
  held : List HubRec
  deriving DecidableEq, Repr

/-- A step of a timer: its number, and the GRIDID of its grid once it runs (R374 to R378). -/
structure Step where
  k : Nat
  gid : Option Nat
  wins : List (BitVec 6)
  deriving DecidableEq, Repr

/-- A tick timer (R373). -/
structure Timer where
  period : Word
  phase : Word
  guardNs : Word
  desc : Word
  ctl : Word
  ovr : Word
  k : Word
  /-- cutoff and tick time of the step most recently fired (R379) -/
  fired : Option (Int × Nat)
  next : Nat
  held : Option Step
  running : Option Step
  pending : Option Step
  deriving DecidableEq, Repr

/-- States of a VD (R388). -/
inductive VdState where
  | created | active | idle | mitten | waking | destroyed
  deriving DecidableEq, Repr

/-- A message of a stage link (R282): its bytes, the team and hart that sent it, and the channel and command of a linked cpy. -/
structure Msg where
  bytes : List Byte
  from_ : TeamKey
  /-- the sending hart's index in its team -/
  hartIx : Nat
  credit : Option (BitVec 3 × Nat)
  deriving DecidableEq, Repr

/-- A link endpoint (R281, R402). -/
structure Endpoint where
  cfg : Option EpConfig
  out : List Msg
  inn : List (List Byte)
  down : Bool
  deriving DecidableEq, Repr

/-- A submission waiting in a VD's device inlet, or held there while the VD is mitten or waking (R291, R391): its descriptor and
the address it was read at, its priority, its timer. -/
structure Submission where
  desc : Vector Word 16
  va : Word
  prio : Nat
  timer : Option (BitVec 4 × Nat)
  /-- it came from another module, which awaits the answer (R293) -/
  remote : Bool
  /-- the stream whose launch awaits the GRIDID: its team, its hart's index there, and its class -/
  asker : Option (TeamKey × Nat × Bool)
  deriving DecidableEq, Repr

/-- A grid with RMT = 1 that the VD has sent to another module, for the stop walk: its GRIDID there, if an answer gave one; whether a stop was
asked for, and when it was acknowledged; whether its resumption awaits the acknowledgement (R293, R356). -/
structure Remote where
  desc : Vector Word 16
  gid : Nat
  asked : Bool
  stopped : Option Nat
  resuming : Bool
  deriving DecidableEq, Repr

/-- A virtual device with its control page (R369, R386, R387, R393). -/
structure Vd where
  id : Nat
  st : VdState
  root : Nat
  control : Nat
  vdcfg : Word
  evbase : Word
  evhead : Word
  evlost : Word
  evCount : Nat
  trapent : Word
  ringhdr : Word
  wins : Vector Window 64
  timers : Vector Timer 16
  eps : List (BitVec 8 × Endpoint)
  inlet : List Submission
  remotes : List Remote
  nextGid : Nat
  remain : Nat
  col : Bool
  wpend : Bool
  /-- a wake write came while the VD met R389: it stays active until the condition begins anew (R388) -/
  roused : Bool
  /-- TIME of the wake write that began waking (R394) -/
  wakeAt : Nat
  /-- a take of slots stopped at a full inlet (R290, R391) -/
  ringDue : Bool
  /-- frames of the LPDDR tier to which a collapse has moved frames of the HBM, with their bytes (R390) -/
  moved : List (Nat × Nat)
  deriving DecidableEq, Repr

/-- States of a grid (R294); a grid that is Done is no longer listed. -/
inductive GridState where
  | pending | ready | running
  deriving DecidableEq, Repr

/-- A grid; `held` marks one that a stop walk holds, `stopped` one that the walk has visited, in which order (R356), `unhandled` one with
a team that ended without a handler (R344). -/
structure Grid where
  vd : Nat
  gid : Nat
  desc : Vector Word 16
  descVa : Word
  prio : Nat
  aged : Nat
  st : GridState
  held : Bool
  stopped : Option Nat
  /-- endpoints that its teams have sent on (R355) -/
  sent : List (BitVec 8)
  nextTeam : Nat
  ended : Nat
  unhandled : Bool
  readyAt : Nat
  timer : Option (BitVec 4 × Nat)
  deriving DecidableEq, Repr

/-- A team's saved context (R350): its harts, its cores' shared objects and its communication file. -/
structure Saved where
  ctxs : List Ctx
  cores : List Core
  comm : Option CommFile
  deriving DecidableEq, Repr

/-- Where a team is (R297, R307, R347). -/
inductive TeamState where
  | resident
  | stopping
  | saved (image : Saved)
  /-- the scheduler has chosen cores and Cloche is to restore the image onto them (R354) -/
  | restoring (image : Saved)
  deriving DecidableEq, Repr

/-- A team that has been placed at least once and has not ended. -/
structure Team where
  key : TeamKey
  st : TeamState
  clus : Nat
  core : Nat
  cores : Nat
  since : Nat
  placedAt : Nat
  charge : Nat
  area : Word
  limit : Nat
  gen : Nat
  /-- names the bytes that Cloche wrote into the area -/
  seed : Nat
  /-- its last save failed, and the partition supervisor has not dealt with the event (R307, R353) -/
  faulted : Bool
  /-- the scheduler swaps it out, or has (R304, R305, R311): it waits for a place, and is not what a collapse keeps or moves (log 98) -/
  out : Bool
  deriving DecidableEq, Repr

/-- A partition's quotas that are counts (R383). -/
structure Quota where
  frames : Nat
  vds : Nat
  ways : Nat
  endpoints : Nat
  deriving DecidableEq, Repr

/-- A hardware partition (R383, R385); `leaving` are clusters removed from it whose teams are still to be saved (R357). -/
structure Part where
  id : Nat
  clusters : List Nat
  leaving : List Nat
  powerShare : Nat
  /-- shares of the eight HBM stacks, of the LPDDR tier and of the host port, in 256ths (R385) -/
  shares : List Nat
  quota : Quota
  deriving DecidableEq, Repr

/-- An HBM stack's thermal state (R385, R408). -/
structure Stack where
  derated : Bool
  hot : Bool
  deriving DecidableEq, Repr

/-- How far an SPDM connection has come (R413). -/
inductive SpdmPhase where
  | start | version | capabilities | negotiated
  deriving DecidableEq, Repr

/-- Messages the module gives to the outside: to the partition supervisor, host, Hatband's bus and SPDM
requesters, and to other modules. -/
inductive Report where
  | unhandledTrap (cause : BitVec 8) (tpc tval : Word) (hart : BitVec 14) (e : Bool) (key : TeamKey)
  | saveFault (key : TeamKey) (cause : Nat) (addr : Word) (bytes : Nat)
  | restoreFault (key : TeamKey) (cause : Nat) (addr : Word)
  | hostRead (pa : Nat) (bytes : List Byte) (poisoned : Bool)
  /-- the completion of a host write to device memory: the write is performed (R399) -/
  | hostWritten (pa n : Nat)
  | message (etherType : BitVec 16) (vd : Nat) (ep : BitVec 8) (bytes : List Byte)
  | remoteLaunch (ep : BitVec 8) (desc : Vector Word 16)
  | remoteAnswer (w : Word)
  /-- a stop request for a grid that runs on another module, sent through its endpoint (R356) -/
  | remoteStop (ep : BitVec 8) (vd gid : Nat)
  | stopAck (vd gid : Nat)
  | stopWalkDone (vd graph : Nat)
  | laneFault (hart : BitVec 14) (lane : Nat)
  | coreFault (core : Nat)
  /-- an error that its code corrected; a residue mismatch cured by executing again (R409, R410) -/
  | corrected (at_ : Nat)
  | residueCured (hart : BitVec 14)
  /-- a frame or an endpoint goes back to the partition supervisor (R390, R396) -/
  | released (vd : Nat) (frame : Option Nat)
  | remoteResume (ep : BitVec 8) (vd gid : Nat)
  /-- a grid that another module resumed here has its teams resident (R356) -/
  | resumeAck (vd gid : Nat)
  | controlRead (vd off size : Nat) (v : Word)
  | response (kind : Nat) (bytes : List Byte)
  | powerOff (sensor : Sensor)
  deriving DecidableEq, Repr

/-- The root of trust, the SPDM responder and Hatband (R412 to R414). -/
structure Trust where
  images : List Image
  fused : List Nat
  recovery : Bool
  spdm : SpdmPhase
  session : Option Nat
  finished : Bool
  staged : List Image
  /-- uncorrectable and corrected errors since bring-up (R414) -/
  errors : Nat
  fixed : Nat
  deriving DecidableEq, Repr

/-- What reaches the machine from outside, or befalls it, and has no row of the opcode table (log 73). -/
inductive Input where
  /-- errors: of a memory line, of a side slot, of a scratchpad word, of a row word of the lane store, of a word-unit result (R409, R410) -/
  | lineError (line : Nat)
  | slotError (slot : Nat)
  | scratchError (hart : BitVec 14) (word : Nat)
  | laneError (hart : BitVec 14) (row lane : Nat)
  | residueError (hart : BitVec 14)
  /-- corrected errors: of a row word, in a lane (R409, R411), and of another storage -/
  | laneFixed (hart : BitVec 14) (row lane : Nat)
  | correctedError (at_ : Nat)
  /-- the partition supervisor: removes a core (R357), replaces the charge figures (R302), sets quotas (R383), exposes device memory to the
  host (R398), has dealt with a save fault (R307), gives Cloche an area that a save area was copied to (R350), resumes a stopped graph
  (R356), moves a frame of a collapsed or waking VD (R390) -/
  | removeCore (core : Nat)
  | figures (ec : Vector Nat 4)
  | quotas (part : Nat) (q : Quota)
  | decoder (lo len : Nat)
  | saveDealt (team : TeamKey)
  | areaMoved (team : TeamKey) (area : Word) (limit : Nat)
  | resumeGraph (vd graph : Nat)
  | moveFrame (vd old new : Nat)
  /-- another module has stopped a grid (R356) -/
  | stopAcked (vd gid : Nat)
  /-- another module has a grid resident again that it was asked to resume; another module resumes a grid that it had stopped here (R356) -/
  | resumeAcked (vd gid : Nat)
  | resumeGrid (vd gid : Nat)
  /-- the host reads a VD's control page through BAR0 (R368, R396) -/
  | controlRead (vd off size : Nat)
  /-- the partition supervisor sets the EtherType of the stage links (R401) -/
  | etherType (e : BitVec 16)
  /-- the partition-supervisor firmware starts: the end of bring-up (R416) -/
  | supervisorStarts
  deriving DecidableEq, Repr

/-- A request of the hub's that a home answers with a retry (R333, R399): an event of the host, of another module, of a record's source or
of Cloche; a grid's DONE add (R296); the scheduler's look at a grid's counter (R295) or its take of slots from a VD's ring (R290); an event
record with its TIME (R384). -/
inductive HubOp where
  | act (i : Instr)
  | done (vd gid : Nat)
  | look (vd gid : Nat)
  | take (vd : Nat)
  | event (vd code time : Nat) (a0 a1 : Word)
  deriving DecidableEq, Repr

/-- A held request: the lines whose homes sent a retry, and its place in the order of arrival. -/
structure HubReq where
  op : HubOp
  lines : List Nat
  arrival : Nat
  deriving DecidableEq, Repr

/-- What the agenda asks of a step: a change of focus; that the stream in focus issues, whatever the selection; a vector memory
instruction of a stopped stream performed up to an element; an event row; an input (log 2, log 8, log 73). -/
inductive Move where
  | focus (hart : BitVec 14) (e : Bool)
  | issue
  | part (n : Nat)
  | event (i : Instr)
  | input (x : Input)
  deriving DecidableEq, Repr

/-- The state of the machine. `me` is the stream in focus, `peer` the other stream of its hart; the
hart's core and cluster are in focus with it, every other resident hart is parked. -/
structure State where
  agenda : List Move
  tick : Nat
  isE : Bool
  me : Strm
  peer : Strm
  hart : Hart
  core : Core
  clus : Clus
  parked : List Ctx
  cores : List (Nat × Core)
  cluss : List (Nat × Clus)
  dies : Vector Die 4
  mem : Memory
  /-- the versions, by the address of their side slots (R322) -/
  vers : List (Nat × BitVec 48)
  /-- side slots with an uncorrectable error (R323) -/
  slotBad : List Nat
  poison : List Nat
  raw : List Nat
  verRegs : Vector VerRange 2
  dirtyLog : List (Nat × Nat)
  /-- requests of the hub held by a pin (R333, R399) -/
  hubq : List HubReq
  vds : List Vd
  grids : List Grid
  teams : List Team
  parts : List Part
  /-- cores removed after a lasting fault (R357) -/
  removed : List Nat
  /-- device memory that the host's decoders cover: first address and length (R398) -/
  decoders : List (Nat × Nat)
  stamp : Nat
  ecFig : Vector Nat 4
  time : Nat
  timeLocked : Bool
  moduleCollapsed : Bool
  powered : Bool
  /-- bring-up is complete: the partition-supervisor firmware runs and virtual functions are enabled (R416) -/
  booted : Bool
  railDwellUs : Nat
  hbm : Vector Stack 8
  /-- lanes remapped for good, core × 16,384 + lane, each with its spare of the slice's two (R411) -/
  spares : List (Nat × Nat)
  /-- the EtherType of the stage links (R401) -/
  etherType : BitVec 16
  trust : Trust
  out : List Report
  nextId : Nat
  /-- THE MODEL'S OWN: moves of streams since an engine or the hub last moved, and the slot, core × 2 + class, that last had its turn
  (log 8) -/
  turn : Nat
  slot : Nat
  deriving DecidableEq, Repr

/-- A level that is not active and has no registered pair. -/
def Level.idle : Level := { pairs := [], act := none }

/-- A stream as R50 starts it, with the given program counter, s1, LANES and handler line. -/
def Strm.start (pc desc : Word) (lanes : Nat) (tvec : Word) : Strm :=
  { pc := pc, regs := (Vector.replicate 24 0).set 1 desc, mode := .u, vl := BitVec.ofNat 15 lanes, vtype := 0, vstart := 0,
    vstat := 0, hvl := 0, hvtype := 0, hvstart := 0, tcause := 0, tpc := 0, tval := 0, tvec := tvec, tstat := 0,
    loops := Vector.replicate 6 Level.idle, fetchBuf := [], pend := [], pfx := none, wait := none, inHandler := false,
    faults := [], arrive := none, cpMark := none, vmem := [], age := 0, ready := 0, exiting := false, stopped := false }

/-- A stream that no hart start has reached (R416: no team is placed after a cold reset). -/
def Strm.off : Strm := { Strm.start 4 0 16384 0 with stopped := true }

/-- What a hart's streams share at hart start (R50). -/
def Hart.start (id : BitVec 14) (team grid : W32) (vd : BitVec 10) (lph : BitVec 2) (sph : BitVec 7) (cf : Bool) : Hart :=
  { id := id, team := team, grid := grid, vd := vd, lph := lph, sph := sph, cf := cf,
    planes := Vector.replicate 512 0, pres := Vector.replicate 32 false, masks := Vector.replicate 8 0, kf := 0,
    queues := Vector.replicate 8 [], wregs := Vector.replicate 32 (Vector.replicate 64 0), scratch := [],
    vset := [], vovf := false, mcfg := none, mq := [], mprog := 0, mhalt := none, mtold := none, ilocks := [], vloads := [], laneBusy := 0,
    scratchBad := [], laneBad := [], residue := 0, tests := [], live := true, endCount := 0,
    endPres := Vector.replicate 32 false }

def Barrier.idle : Barrier := { phase := false, posted := false, expected := 0, arrived := 0 }

def Channel.idle : Channel :=
  { queue := [], cpwp := 0, flt := false, fltCause := 0, fltAddr := 0, oob := none, rperr := none, abt := none, pinWait := none }

/-- A core at team start: key table empty, barriers and channels idle (R43, R44, R47), no line cached; hart 0 counts as the last that issued
a word-unit instruction (R310, log 86). -/
def Core.start : Core :=
  { keytab := [], tbs := Vector.replicate 16 Barrier.idle, chans := Vector.replicate 8 Channel.idle, dcache := [], tlb := [],
    wordLast := 0 }

/-- The communication file when a declaring team starts (R42). -/
def CommFile.start : CommFile :=
  { sems := Vector.replicate 64 false, cws := Vector.replicate 64 0, semq := [], gen := 0, arrived := [] }

/-- A cluster after reset: 0.6 GHz (24 steps of 25 MHz), legal at the rail's 0.600 V (R403, R404). -/
def Clus.start : Clus :=
  { comm := CommFile.start, energy := 0, energyMark := 0, freq := 24, retention := false, gated := false }

def Die.start : Die :=
  { rr := Vector.replicate 16 { base := 0, limit := 0, ctl := 0, count := 0, kept := [] }, tlb := [],
    rails := Vector.replicate 4 { volt := 0, votes := [], dwell := false, falling := false }, grant := 0, cl := 0, hot := false }

/-- The four images of R412, in the order in which they run: Hatband, hub and partition-supervisor firmware and the energy table. -/
def firmware : List Image :=
  [0, 1, 2, 3].map fun i => { slot := i, digest := Config.imageDigest i.toNat, secVersion := 0, sigOk := true }

def Trust.start : Trust :=
  { images := firmware, fused := [], recovery := false, spdm := .start, session := none, finished := false, staged := [], errors := 0,
    fixed := 0 }

/-- The machine right after a cold reset (R415, R416): no partition, no VD, no team, TIME in holdover. -/
def State.reset : State :=
  { agenda := [], tick := 0, isE := false, me := Strm.off, peer := Strm.off,
    hart := { Hart.start 0 0 0 0 0 0 false with live := false }, core := Core.start, clus := Clus.start, parked := [], cores := [],
    cluss := [], dies := Vector.replicate 4 Die.start, mem := [], vers := [], slotBad := [], poison := [], raw := [],
    verRegs := Vector.replicate 2 { lo := 0, hi := 0, base := 0 }, dirtyLog := [], hubq := [], vds := [], grids := [], teams := [],
    parts := [], removed := [], decoders := [], stamp := 0, ecFig := #v[200, 350, 500, 650], time := 0, timeLocked := false,
    moduleCollapsed := false, powered := true, booted := true, railDwellUs := 500,
    hbm := Vector.replicate 8 { derated := false, hot := false }, spares := [], etherType := 0, trust := Trust.start, out := [], nextId := 0, turn := 0,
    slot := 0 }

end Sys2Proof.Machine
end

