-- ==== Sys2Proof/Machine/Bits.lean ====
section
/-! DEFINITION. Bit fields, sign extension, byte order and the canonical lists of memory (R4, R5). -/
namespace Sys2Proof.Machine

/-- The value of the low `w` bits of `x` read as two's complement (R51). -/
def signed (w x : Nat) : Int :=
  if w = 0 then 0
  else if 2 ^ (w - 1) ≤ x % 2 ^ w then (x % 2 ^ w : Nat) - (2 ^ w : Nat) else (x % 2 ^ w : Nat)

/-- The value of the low `w` bits of `x` in the given signedness (R51). -/
def valueOf (sg : Bool) (w x : Nat) : Int := if sg then signed w x else (x % 2 ^ w : Nat)

/-- The w-bit pattern of an integer: its residue modulo 2^w (R52). -/
def pat (w : Nat) (x : Int) : Nat := (x % (2 ^ w : Nat)).toNat

def clampInt (lo hi x : Int) : Int := if x < lo then lo else if hi < x then hi else x

/-- A word of 64 bits from an exact integer, modulo 2^64. -/
def wordOf (x : Int) : Word := BitVec.ofInt 64 x

/-- Sign-extension of a field to 64 bits (R83). -/
def sx {n : Nat} (x : BitVec n) : Word := x.signExtend 64

/-- Bits `lo + len - 1` to `lo` of a word. -/
def fld (x : Word) (lo len : Nat) : Nat := (x.toNat / 2 ^ lo) % 2 ^ len

/-- One bit of a word. -/
def bit (x : Word) (i : Nat) : Bool := x.toNat.testBit i

def boolNat (b : Bool) : Nat := if b then 1 else 0

/-- The word with `len` bits from `lo` replaced by `v`. -/
def setFld (x : Word) (lo len v : Nat) : Word :=
  BitVec.ofNat 64 (x.toNat - fld x lo len * 2 ^ lo + (v % 2 ^ len) * 2 ^ lo)

/-- A row with bit `e` set to `b` (R21). -/
def Row.put (r : Row) (e : Nat) (b : Bool) : Row := if Nat.testBit r e = b then r else Nat.xor r (Nat.shiftLeft 1 e)

/-- Number of ones among the low `n` bits. -/
def popCount (x : Nat) : Nat → Nat
  | 0 => 0
  | n + 1 => popCount x n + boolNat (x.testBit n)

/-- Leading zero bits of an n-bit pattern (R108, R194). -/
def leadZeros (x : Nat) : Nat → Nat
  | 0 => 0
  | n + 1 => if x.testBit n then 0 else leadZeros x n + 1

/-- Trailing zero bits, looking at `n` bits from bit `i`. -/
def trailZeros (x : Nat) : Nat → Nat → Nat
  | 0, _ => 0
  | n + 1, i => if x.testBit i then 0 else trailZeros x n (i + 1) + 1

/-- `n` bytes of `v`, the least significant first (R5). -/
def leBytes : Nat → Nat → List Byte
  | 0, _ => []
  | n + 1, v => BitVec.ofNat 8 v :: leBytes n (v / 256)

/-- The value of bytes listed least significant first (R5). -/
def ofLe : List Byte → Nat
  | [] => 0
  | b :: bs => b.toNat + 256 * ofLe bs

/-- Rounds up: ⌈a / b⌉. -/
def ceilDiv (a b : Nat) : Nat := (a + b - 1) / b

/-- The byte at an address; an unlisted byte reads 0 (log 3). -/
def Memory.get : Memory → Nat → Byte
  | [], _ => 0
  | (a, b) :: m, x => if x = a then b else Memory.get m x

/-- Lists a byte at its place. -/
def Memory.put : Memory → Nat → Byte → Memory
  | [], x, v => [(x, v)]
  | (a, b) :: m, x, v => if x < a then (x, v) :: (a, b) :: m else if x = a then (x, v) :: m else (a, b) :: Memory.put m x v

/-- The memory with one byte written, in canonical form: a byte that becomes 0 is no longer listed. -/
def Memory.set (m : Memory) (x : Nat) (v : Byte) : Memory := if v = 0 then m.filter (fun c => c.1 ≠ x) else m.put x v

/-- The canonical form: addresses strictly rising, no listed byte 0. -/
abbrev Memory.wf (m : Memory) : Prop := m.Pairwise (fun x y => x.1 < y.1) ∧ ∀ c ∈ m, c.2 ≠ 0

/-- `n` bytes from `a` upward. -/
def Memory.bytes (m : Memory) (a : Nat) : Nat → List Byte
  | 0 => []
  | n + 1 => m.get a :: Memory.bytes m (a + 1) n

/-- `n` bytes from `a` as a little-endian number (R5). -/
def Memory.rd (m : Memory) (a n : Nat) : Nat := ofLe (m.bytes a n)

/-- Writes bytes from `a` upward. -/
def Memory.puts : Memory → Nat → List Byte → Memory
  | m, _, [] => m
  | m, a, b :: bs => Memory.puts (m.set a b) (a + 1) bs

/-- Writes the low `n` bytes of `v` at `a`, little-endian (R5). -/
def Memory.wr (m : Memory) (a n v : Nat) : Memory := m.puts a (leBytes n v)

/-- Keyed lists with a default, kept with rising keys and no default listed. -/
def kget {α : Type} (dflt : α) : List (Nat × α) → Nat → α
  | [], _ => dflt
  | (a, b) :: m, x => if x = a then b else kget dflt m x

def kput {α : Type} : List (Nat × α) → Nat → α → List (Nat × α)
  | [], x, v => [(x, v)]
  | (a, b) :: m, x, v => if x < a then (x, v) :: (a, b) :: m else if x = a then (x, v) :: m else (a, b) :: kput m x v

def kset {α : Type} [DecidableEq α] (dflt : α) (m : List (Nat × α)) (x : Nat) (v : α) : List (Nat × α) :=
  if v = dflt then m.filter (fun c => c.1 ≠ x) else kput m x v

/-- Replaces the elements that meet `p`. -/
def upd {α : Type} (p : α → Bool) (f : α → α) (l : List α) : List α := l.map (fun x => if p x then f x else x)

/-- The list with its element at `i` changed. -/
def modNth {α : Type} (l : List α) (i : Nat) (f : α → α) : List α :=
  match l[i]? with
  | some x => l.set i (f x)
  | none => l

/-- Keeps the first of the elements that `better` ranks highest. -/
def best {α : Type} (better : α → α → Bool) : List α → Option α
  | [] => none
  | a :: l =>
    match best better l with
    | none => some a
    | some b => if better b a then some b else some a

/-- Insertion sort by `le`, stable. -/
def insertBy {α : Type} (le : α → α → Bool) (x : α) : List α → List α
  | [] => [x]
  | a :: l => if le x a then x :: a :: l else a :: insertBy le x l

def sortBy {α : Type} (le : α → α → Bool) : List α → List α
  | [] => []
  | a :: l => insertBy le a (sortBy le l)

end Sys2Proof.Machine
end

