-- ==== Sys2Proof/Machine/Fp.lean ====
section
/-! DEFINITION. FP32, BF16 and FP16 as exact numbers, rounded once (R54 to R60); MX element codes (R63, R64)
and quantisation (R67). -/
namespace Sys2Proof.Machine

/-- Rounding modes (R56). -/
inductive Rm where
  | rne | rtz | rdn | rup | rna
  deriving DecidableEq, Repr

/-- The mode of a prefix's RM field; 0b101 to 0b111 are refused before an instruction runs (R89). -/
def Rm.ofBits (x : BitVec 3) : Rm :=
  if x = 1 then .rtz else if x = 2 then .rdn else if x = 3 then .rup else if x = 4 then .rna else .rne

/-- Fraction bits (R54). -/
def fracBits : Fmt → Nat
  | .f32 => 23
  | .bf16 => 7
  | .f16 => 10
  | .i32 => 0
/-- Exponent bits (R54). -/
def expBits : Fmt → Nat
  | .f32 => 8
  | .bf16 => 8
  | .f16 => 5
  | .i32 => 0
/-- Exponent bias (R54). -/
def fpBias (f : Fmt) : Nat := 2 ^ (expBits f - 1) - 1
/-- Width of an encoding (R54). -/
def fpWidth (f : Fmt) : Nat := if f = .i32 then 32 else 1 + expBits f + fracBits f
/-- Bytes of an element in memory (R232). -/
def fmtBytes (f : Fmt) : Nat := if f = .f32 ∨ f = .i32 then 4 else 2

/-- An exact value: `fin m e` is m × 2^e with m not 0. -/
inductive Fv where
  | nan
  | inf (neg : Bool)
  | zero (neg : Bool)
  | fin (m : Int) (e : Int)
  deriving DecidableEq, Repr

/-- The value of an encoding; bits above the format's width are ignored (R54, R55); with `fz` a subnormal
reads as a zero of its sign (R58). -/
def fpDecode (f : Fmt) (fz : Bool) (x : Nat) : Fv :=
  let fb := fracBits f
  let frac := x % 2 ^ fb
  let ex := (x / 2 ^ fb) % 2 ^ expBits f
  let neg := x.testBit (fpWidth f - 1)
  if ex = 2 ^ expBits f - 1 then (if frac = 0 then .inf neg else .nan)
  else if ex = 0 then
    if frac = 0 || fz then .zero neg
    else .fin (if neg then -(frac : Int) else frac) (1 - (fpBias f : Int) - fb)
  else
    let m : Int := (2 ^ fb + frac : Nat)
    .fin (if neg then -m else m) ((ex : Int) - fpBias f - fb)

def signBit (f : Fmt) (neg : Bool) : Nat := if neg then 2 ^ (fpWidth f - 1) else 0
/-- The canonical quiet NaN (R55). -/
def fpNan (f : Fmt) : Nat := (2 ^ (expBits f + 1) - 1) * 2 ^ (fracBits f - 1)
def fpInf (f : Fmt) (neg : Bool) : Nat := signBit f neg + (2 ^ expBits f - 1) * 2 ^ fracBits f
def fpMax (f : Fmt) (neg : Bool) : Nat := fpInf f neg - 1

/-- n / 2^k rounded under `rm` for a value of sign `neg` (R56). -/
def roundShift (rm : Rm) (neg : Bool) (n k : Nat) : Nat :=
  let q := n / 2 ^ k
  let r := n % 2 ^ k
  if r = 0 then q
  else match rm with
    | .rtz => q
    | .rdn => if neg then q + 1 else q
    | .rup => if neg then q else q + 1
    | .rna => if 2 ^ k ≤ 2 * r then q + 1 else q
    | .rne => if 2 ^ k < 2 * r ∨ (2 * r = 2 ^ k ∧ q % 2 = 1) then q + 1 else q

/-- What an overflow becomes (R57). -/
def fpOverflow (f : Fmt) (rm : Rm) (neg : Bool) : Nat :=
  match rm with
  | .rne | .rna => fpInf f neg
  | .rtz => fpMax f neg
  | .rdn => if neg then fpInf f true else fpMax f false
  | .rup => if neg then fpMax f true else fpInf f false

/-- Rounds n × 2^e (n > 0) of sign `neg` to the format (R56, R57), flushing a subnormal result under `fz` (R58). -/
def fpPack (f : Fmt) (rm : Rm) (fz neg : Bool) (n : Nat) (e : Int) : Nat :=
  let fb := fracBits f
  let emin : Int := 1 - (fpBias f : Int) - fb
  let q0 := max (e + (Nat.log2 n : Int) - fb) emin
  let m0 := if q0 ≤ e then n * 2 ^ (e - q0).toNat else roundShift rm neg n (q0 - e).toNat
  let m := if m0 = 2 ^ (fb + 1) then 2 ^ fb else m0
  let q := if m0 = 2 ^ (fb + 1) then q0 + 1 else q0
  if m < 2 ^ fb then signBit f neg + (if fz then 0 else m)
  else
    let ex := (q + fb + fpBias f).toNat
    if 2 ^ expBits f - 1 ≤ ex then fpOverflow f rm neg
    else signBit f neg + ex * 2 ^ fb + (m - 2 ^ fb)

/-- The encoding of an exact value, rounded once. -/
def fpEncode (f : Fmt) (rm : Rm) (fz : Bool) : Fv → Nat
  | .nan => fpNan f
  | .inf neg => fpInf f neg
  | .zero neg => signBit f neg
  | .fin m e => if m = 0 then 0 else fpPack f rm fz (m < 0) m.natAbs e

/-- The exact value of an integer. -/
def Fv.ofInt (x : Int) : Fv := if x = 0 then .zero false else .fin x 0

def Fv.neg? : Fv → Bool
  | .nan => false
  | .inf n => n
  | .zero n => n
  | .fin m _ => m < 0

def Fv.negate : Fv → Fv
  | .nan => .nan
  | .inf n => .inf !n
  | .zero n => .zero !n
  | .fin m e => .fin (-m) e

/-- Exact product (R60: 0 × infinity is invalid). -/
def Fv.mul : Fv → Fv → Fv
  | .nan, _ => .nan
  | _, .nan => .nan
  | .inf _, .zero _ => .nan
  | .zero _, .inf _ => .nan
  | .inf a, b => .inf (a != b.neg?)
  | a, .inf b => .inf (a.neg? != b)
  | .zero a, b => .zero (a != b.neg?)
  | a, .zero b => .zero (a.neg? != b)
  | .fin m e, .fin n g => .fin (m * n) (e + g)

/-- m × 2^e + n × 2^g with one exponent. -/
def alignAdd (m e n g : Int) : Int × Int :=
  let q := min e g
  (m * 2 ^ (e - q).toNat + n * 2 ^ (g - q).toNat, q)

/-- Exact sum, with the zero signs of R57 (R60: infinity − infinity is invalid). -/
def Fv.add (rm : Rm) : Fv → Fv → Fv
  | .nan, _ => .nan
  | _, .nan => .nan
  | .inf a, .inf b => if a = b then .inf a else .nan
  | .inf a, _ => .inf a
  | _, .inf b => .inf b
  | .zero a, .zero b => .zero (if a = b then a else rm = .rdn)
  | .zero _, b => b
  | a, .zero _ => a
  | .fin m e, .fin n g =>
    let r := alignAdd m e n g
    if r.1 = 0 then .zero (rm = .rdn) else .fin r.1 r.2

/-- Compares two values that are not NaN; the zeros are equal. -/
def Fv.lt : Fv → Fv → Bool
  | .nan, _ => false
  | _, .nan => false
  | .inf a, .inf b => a && !b
  | .inf a, _ => a
  | _, .inf b => !b
  | .zero _, .zero _ => false
  | .zero _, .fin n _ => 0 < n
  | .fin m _, .zero _ => m < 0
  | .fin m e, .fin n g => (alignAdd m e (-n) g).1 < 0

def Fv.eq (a b : Fv) : Bool := a != .nan && b != .nan && !a.lt b && !b.lt a

/-- Rounds to an integer under `rm` (R59). -/
def roundInt (rm : Rm) (m e : Int) : Int :=
  if 0 ≤ e then m * 2 ^ e.toNat
  else
    let q := roundShift rm (m < 0) m.natAbs (-e).toNat
    if m < 0 then -(q : Int) else q

/-- Conversion to an integer clamped to lo … hi: NaN gives 0, infinities the extremes (R59, R239). -/
def Fv.toInt (rm : Rm) (lo hi : Int) : Fv → Int
  | .nan => 0
  | .inf neg => if neg then lo else hi
  | .zero _ => 0
  | .fin m e => clampInt lo hi (roundInt rm m e)

/-- Lesser or greater of two values: a NaN gives NaN, −0 is less than +0 (R233, R252). -/
def Fv.minMax (isMax : Bool) (a b : Fv) : Fv :=
  if a = .nan ∨ b = .nan then .nan
  else
    let less := a.lt b || (a.eq b && a.neg? && !b.neg?)
    if less = isMax then b else a

/-- Sum of two FP32 patterns rounded with RNE, subnormals kept (R148, R208, R252). -/
def fadd32 (x y : Nat) : Nat :=
  fpEncode .f32 .rne false (Fv.add .rne (fpDecode .f32 false x) (fpDecode .f32 false y))

/-- An encoding counts as zero (R73). -/
def encZero (f : Fmt) (x : Nat) : Bool :=
  if f = .i32 then x % 2 ^ 32 = 0 else x % 2 ^ (fpWidth f - 1) = 0

-- Microscaling formats, by VTYPE.XF code (R63)

/-- Code width of element format XF (R63). -/
def mxWidth (xf : Nat) : Nat := if xf = 1 then 4 else if xf = 2 ∨ xf = 3 then 6 else 8
/-- Expanded width (R63). -/
def mxExp (xf : Nat) : Nat := if xf = 1 then 5 else if xf = 2 then 7 else if xf = 3 then 10 else 8
/-- Implied fraction exponent f; 0 for INT (R63). -/
def mxFrac (xf : Nat) : Nat := if xf = 1 then 1 else if xf = 2 then 3 else if xf = 3 then 4 else if xf = 4 then 6 else 0
/-- Mantissa bits of a code (R63). -/
def mxMant (xf : Nat) : Nat := if xf = 1 then 1 else if xf = 2 then 3 else 2
/-- The largest scale exponent's offset emax (R67). -/
def mxEmax (xf : Nat) : Int := if xf = 1 ∨ xf = 2 then 2 else if xf = 3 then 4 else 0

/-- The integer that a code expands to (R64). -/
def mxExpand (xf code : Nat) : Int :=
  if xf = 4 then signed 8 code
  else
    let mb := mxMant xf
    let m := code % 2 ^ mb
    let e := (code / 2 ^ mb) % 2 ^ (mxWidth xf - 1 - mb)
    let n : Int := if e = 0 then m else ((2 ^ mb + m) * 2 ^ (e - 1) : Nat)
    if code.testBit (mxWidth xf - 1) then -n else n

/-- The magnitude codes of a floating element format, in ascending value: the code with sign 0 is the value's rank. -/
def mxTop (xf : Nat) : Nat := 2 ^ (mxWidth xf - 1) - 1

/-- The code nearest to n × 2^e in magnitude, ties to an even code, at most `top`: searches from code `c` down. -/
def mxNearest (xf : Nat) (n : Nat) (e : Int) : Nat → Nat
  | 0 => 0
  | c + 1 =>
    -- midpoint of codes c and c+1 in units of 2^-(f+1)
    let mid := mxExpand xf c + mxExpand xf (c + 1)
    let d := (alignAdd n e (-mid) (-(mxFrac xf : Int) - 1)).1
    if 0 < d ∨ (d = 0 ∧ (c + 1) % 2 = 0) then c + 1 else mxNearest xf n e c

/-- One FP32 value × 2^-X as an element code (R67). -/
def mxQuantElem (xf : Nat) (x : Int) : Fv → Nat
  | .fin m e =>
    if xf = 4 then pat 8 (clampInt (-127) 127 (roundInt .rne m (e - x + 6)))
    else mxNearest xf m.natAbs (e - x) (mxTop xf) + (if m < 0 then 2 ^ (mxWidth xf - 1) else 0)
  | .zero neg => if xf = 4 then 0 else if neg then 2 ^ (mxWidth xf - 1) else 0
  | _ => 0

/-- The exponent of the leading one of |v|, if v is finite and not 0. -/
def Fv.top : Fv → Option Int
  | .fin m e => some (e + (Nat.log2 m.natAbs : Int))
  | _ => none

def Fv.special : Fv → Bool
  | .nan => true
  | .inf _ => true
  | _ => false

/-- Quantises one block: its scale code and element codes (R67). -/
def mxQuant (xf : Nat) (vs : List Fv) : Nat × List Nat :=
  if vs.any Fv.special then (0xFF, vs.map fun _ => 0)
  else match (vs.filterMap Fv.top).foldl (fun (a : Option Int) t => some (match a with | none => t | some b => max b t)) none with
    | none => (0, vs.map (mxQuantElem xf 0))
    | some t =>
      let x := clampInt (-127) 127 (t - mxEmax xf)
      ((x + 127).toNat, vs.map (mxQuantElem xf x))

/-- One element dequantised: n × 2^(x − 127 − f) rounded to FP32 and flushed if asked, or NaN under a scale of 0xFF (R58, R237, R250). -/
def mxDequant (fz : Bool) (xf scale code : Nat) : Nat :=
  if scale = 0xFF then fpNan .f32
  else
    let n := mxExpand xf code
    if n = 0 then 0 else fpEncode .f32 .rne fz (.fin n ((scale : Int) - 127 - mxFrac xf))

-- wun exp2, log2, rcp and rsqrt: a free value within 2 units of the exact result (R234, log 16)

/-- Bounds lo < v < hi, both times 2^e, of an exact positive result v that no format holds. -/
structure Bounds where
  lo : Nat
  hi : Nat
  e : Int

/-- Product over the bits of `f` (128 fraction bits, from bit 127 down) of the roots of 2 (all with 128 fraction bits). -/
def exp2Frac (f : Nat) : Nat → Nat → Nat → Nat → Nat
  | 0, _, _, acc => acc
  | k + 1, i, root, acc =>
    exp2Frac f k (i - 1) (Nat.sqrt (root * 2 ^ 128)) (if f.testBit i then acc * root / 2 ^ 128 else acc)

/-- 2^(m × 2^e) for |m × 2^e| below 512. -/
def exp2Bounds (m e : Int) : Bounds :=
  let x := if 0 ≤ e + 128 then m * 2 ^ (e + 128).toNat else m / 2 ^ (-(e + 128)).toNat
  let i := x / 2 ^ 128
  let f := (x % 2 ^ 128).toNat
  let r := exp2Frac f 96 127 (Nat.sqrt (2 ^ 257)) (2 ^ 128)
  { lo := r, hi := min (r + 2 ^ 40) (2 ^ 129), e := i - 128 }

/-- Fraction bits of log2 of a number in [1, 2) with 128 fraction bits. -/
def log2Frac : Nat → Nat → Nat → Nat
  | 0, _, acc => acc
  | k + 1, m, acc =>
    let s := m * m / 2 ^ 128
    if 2 ^ 129 ≤ s then log2Frac k (s / 2) (2 * acc + 1) else log2Frac k s (2 * acc)

/-- log2 of n × 2^e (n > 0), times 2^100, rounded down. -/
def log2Fixed (n : Nat) (e : Int) : Int :=
  let t := Nat.log2 n
  (e + t) * 2 ^ 100 + log2Frac 100 (n * 2 ^ 128 / 2 ^ t) 0

def rcpBounds (n : Nat) (e : Int) : Bounds :=
  let q := 2 ^ 200 / n
  { lo := q, hi := q + 1, e := -200 - e }

def rsqrtBounds (n : Nat) (e : Int) : Bounds :=
  let n' := if e % 2 = 0 then n else 2 * n
  let e' := if e % 2 = 0 then e else e - 1
  let q := Nat.sqrt (2 ^ 400 / n')
  { lo := q, hi := q + 1, e := -200 - e' / 2 }

/-- The candidate if it lies within 2 units in the last place of the exact value between the bounds, else the bounds' RNE value. No number of
the format lies between the bounds, so a number above lo − 2 units is one at or above the exact value less 2 units. -/
def withinUlp (neg : Bool) (b : Bounds) (cand : Nat) : Nat :=
  let r := fpPack .f32 .rne false neg b.lo b.e
  match fpDecode .f32 false cand with
  | .fin m e =>
    let unit := max (b.e + (Nat.log2 b.lo : Int) - 23) (-149)
    let m' := if neg then -m else m
    let lo := alignAdd b.lo b.e (-2) unit
    let hi := alignAdd b.hi b.e 2 unit
    if (alignAdd m' e (-lo.1) lo.2).1 ≤ 0 ∨ 0 ≤ (alignAdd m' e (-hi.1) hi.2).1 then r else cand % 2 ^ 32
  | .zero n =>
    let unit := max (b.e + (Nat.log2 b.lo : Int) - 23) (-149)
    if n = neg ∧ (alignAdd b.lo b.e (-2) unit).1 < 0 then cand % 2 ^ 32 else r
  | _ => r

/-- ±2^n: exact where FP32 represents it, else the candidate if it lies within 2 units (R234, log 16). -/
def withinPower (neg : Bool) (n : Int) (cand : Nat) : Nat :=
  if -149 ≤ n ∧ n ≤ 127 then fpPack .f32 .rne false neg 1 n else withinUlp neg { lo := 1, hi := 1, e := n } cand

/-- m is a power of 2 in magnitude. -/
def powerOfTwo (m : Int) : Bool := m.natAbs = 2 ^ Nat.log2 m.natAbs

/-- The FP32 result of exp2, log2, rcp or rsqrt, `cand` being the free value (R234). -/
def wunFp (op : WunOp) (cand : Nat) (v : Fv) : Nat :=
  match op, v with
  | _, .nan => fpNan .f32
  | .exp2, .zero _ => fpEncode .f32 .rne false (Fv.ofInt 1)
  | .exp2, .inf neg => if neg then 0 else fpInf .f32 false
  | .exp2, .fin m e =>
    if 0 ≤ e ∨ m % 2 ^ (-e).toNat = 0 then
      withinPower false (clampInt (-300) 300 (roundInt .rtz m e)) cand
    else if (alignAdd m e (-200) 0).1 < 0 ∧ 0 < (alignAdd m e 200 0).1 then withinUlp false (exp2Bounds m e) cand
    else if m < 0 then withinUlp false { lo := 1, hi := 1, e := -200 } cand else fpInf .f32 false
  | .log2, .zero _ => fpInf .f32 true
  | .log2, .inf neg => if neg then fpNan .f32 else fpInf .f32 false
  | .log2, .fin m e =>
    if m < 0 then fpNan .f32
    else if powerOfTwo m then fpEncode .f32 .rne false (Fv.ofInt (e + Nat.log2 m.natAbs))
    else
      let x := log2Fixed m.natAbs e
      if x < 0 then withinUlp true { lo := (-(x + 2)).toNat, hi := (-x).toNat, e := -100 } cand
      else withinUlp false { lo := x.toNat, hi := x.toNat + 2, e := -100 } cand
  | .rcp, .zero neg => fpInf .f32 neg
  | .rcp, .inf neg => signBit .f32 neg
  | .rcp, .fin m e =>
    if powerOfTwo m then withinPower (m < 0) (-(e + Nat.log2 m.natAbs)) cand
    else withinUlp (m < 0) (rcpBounds m.natAbs e) cand
  | .rsqrt, .zero neg => fpInf .f32 neg
  | .rsqrt, .inf neg => if neg then fpNan .f32 else 0
  | .rsqrt, .fin m e =>
    if m < 0 then fpNan .f32
    else if powerOfTwo m ∧ (e + Nat.log2 m.natAbs) % 2 = 0 then fpPack .f32 .rne false false 1 (-(e + Nat.log2 m.natAbs) / 2)
    else withinUlp false (rsqrtBounds m.natAbs e) cand
  | .abs, v => fpEncode .f32 .rne false v
  | .neg, v => fpEncode .f32 .rne false v

end Sys2Proof.Machine
end

