-- ==== Sys2Proof/Machine/Ops.lean ====
section
/-! DEFINITION. The named operations over registers, queues, memory at its homes, the core data cache,
taking a trap and returning from one, issue, stall and completion in sequence. -/
namespace Sys2Proof.Machine

abbrev Res := Host.Outcome State Fault Refusal

-- Identity (R48)

def State.clusId (s : State) : Nat := s.hart.id.toNat / 64
def State.coreId (s : State) : Nat := s.hart.id.toNat / 8
def State.dieId (s : State) : Nat := s.hart.id.toNat / 4096
/-- Harts per core, n = 2^LPH (R287). -/
def Hart.n (h : Hart) : Nat := 2 ^ h.lph.toNat
/-- SR[LANES] (R11). -/
def Hart.lanes (h : Hart) : Nat := Config.laneCount / h.n
/-- Bytes of the scratchpad partition (R37, R287). -/
def Hart.scratchSize (h : Hart) : Nat := 4096 * h.sph.toNat
def State.lanes (s : State) : Nat := s.hart.lanes
def State.key (s : State) : TeamKey := ⟨s.hart.vd.toNat, s.hart.grid.toNat, s.hart.team.toNat⟩
def Ctx.key (c : Ctx) : TeamKey := ⟨c.hart.vd.toNat, c.hart.grid.toNat, c.hart.team.toNat⟩
/-- The hart in focus as a context. -/
def State.ctx (s : State) : Ctx :=
  if s.isE then { a := s.peer, e := s.me, hart := s.hart } else { a := s.me, e := s.peer, hart := s.hart }
def State.streamId (s : State) : StreamId := ⟨s.hart.id, s.isE⟩
def State.vd? (s : State) : Option Vd := s.vds.find? (fun v => v.id = s.hart.vd.toNat)
def State.mapVd (s : State) (id : Nat) (f : Vd → Vd) : State := { s with vds := upd (fun v => v.id = id) f s.vds }
def State.report (s : State) (r : Report) : State := { s with out := s.out ++ [r] }

/-- The team of the hart in focus is not resident, or a stop request holds it (R347). -/
def State.held (s : State) : Bool := s.teams.any fun t => t.key = s.key && t.st != .resident

/-- The index of a hart within its team (R298). -/
def State.ixOf (s : State) (c : Ctx) : Nat :=
  let c0 := ((s.teams.find? (fun t => t.key = c.key)).map (·.core)).getD 0
  (c.hart.id.toNat / 8 % 8 - c0) * c.hart.n + c.hart.id.toNat % 8
def State.hartIx (s : State) : Nat := s.ixOf s.ctx

-- Scalar registers and queues (R14 to R18, R431)

/-- Register fields 24 to 31 name q0 to q7 (R14). -/
def isQ (r : Reg) : Bool := 24 ≤ r.toNat
/-- The queue index of a register field that names a queue. -/
def qIdx (r : Reg) : Fin 8 := ⟨(r.toNat - 24) % 8, Nat.mod_lt _ (by decide)⟩
/-- A stream of class `e` may pop this queue: q0–q3 on the E-stream, q4–q7 on the A-stream (R14). -/
def popOk (e : Bool) (r : Reg) : Bool := !isQ r || (decide (r.toNat < 28) == e)
/-- A stream of class `e` may push this queue (R14). -/
def pushOk (e : Bool) (r : Reg) : Bool := !isQ r || (decide (r.toNat < 28) != e)

/-- The stream's own register; s0 reads 0 (R14). -/
def Strm.reg (t : Strm) (r : Reg) : Word :=
  if r = 0 then 0 else if h : r.toNat < 24 then t.regs[r.toNat] else 0
/-- Writes the stream's own register; s0 discards (R14). -/
def Strm.setReg (t : Strm) (r : Reg) (v : Word) : Strm :=
  if r = 0 then t else if h : r.toNat < 24 then { t with regs := t.regs.set r.toNat v h } else t

def Hart.q (h : Hart) (i : Fin 8) : List QEnt := h.queues[i]
def Hart.setQ (h : Hart) (i : Fin 8) (q : List QEnt) : Hart := { h with queues := h.queues.set i q }

/-- Entries, reserved places not counted (R111, R431). -/
def entries (q : List QEnt) : Nat := (q.filter (fun e => e != .reserved)).length
/-- The value of the oldest entry, if nothing reserved stands before it (R115). -/
def headVal : List QEnt → Option Word
  | .val w :: _ => some w
  | _ => none

/-- Replaces the oldest reserved place by its value (R431). -/
def fillPlace : List QEnt → Word → List QEnt
  | [], _ => []
  | .reserved :: q, v => .val v :: q
  | e :: q, v => e :: fillPlace q v

/-- Writes a result at once: a register, nothing for s0, or a new queue entry (R14, R431). -/
def State.wr (s : State) (d : Reg) (v : Word) : State :=
  if isQ d then { s with hart := s.hart.setQ (qIdx d) (s.hart.q (qIdx d) ++ [.val v]) }
  else { s with me := s.me.setReg d v }

/-- Delivers a result later: the register is scoreboarded, or a queue place reserved, until ASYNCHRONOUS_RESULT_DELIVERY
(R115, R431). A result for s0 is discarded. -/
def State.deliverLater (s : State) (d : Reg) (v : Word) : State :=
  if d = 0 then s
  else if isQ d then
    { s with hart := s.hart.setQ (qIdx d) (s.hart.q (qIdx d) ++ [.reserved]), me := { s.me with pend := s.me.pend ++ [⟨d, v⟩] } }
  else { s with me := { s.me with pend := s.me.pend ++ [⟨d, v⟩] } }

/-- Puts one delivered result in its place (R115). -/
def State.place (s : State) (p : Delivery) : State :=
  if isQ p.dst then { s with hart := s.hart.setQ (qIdx p.dst) (fillPlace (s.hart.q (qIdx p.dst)) p.val) }
  else { s with me := s.me.setReg p.dst p.val }

/-- The oldest pending delivery of the stream in focus takes place (R115). -/
def State.deliverOne (s : State) : State :=
  match s.me.pend with
  | [] => s
  | p :: ps => State.place { s with me := { s.me with pend := ps } } p

/-- The result of the newest push of a queue that is still to come: its place, with nothing behind it, becomes an entry; a saved queue holds
no reserved place, and the result is its newest entry (R115, R431). -/
def fillNewest (q : List QEnt) (v : Word) : List QEnt := (if q.getLast? = some .reserved then q.dropLast else q) ++ [.val v]

/-- A place is reserved for a result that comes later without a delivery of its own (R431). -/
def State.reserve (s : State) (d : Reg) : State :=
  if isQ d then { s with hart := s.hart.setQ (qIdx d) (s.hart.q (qIdx d) ++ [.reserved]) } else s

/-- Every pending delivery of the stream in focus takes place (R339). -/
def State.deliverAll (s : State) : State :=
  s.me.pend.foldl State.place { s with me := { s.me with pend := [] } }

/-- A register with a delivery outstanding (R115). -/
def Strm.scoreboarded (t : Strm) (r : Reg) : Bool := t.pend.any (fun p => p.dst = r && !isQ r)

/-- Pops the sources in the given order; a register is read, a queue gives its oldest entry (R17). -/
def popAll : List Reg → Strm → Hart → List Word × Hart
  | [], _, h => ([], h)
  | r :: rs, t, h =>
    if isQ r then
      let v := (headVal (h.q (qIdx r))).getD 0
      let x := popAll rs t (h.setQ (qIdx r) ((h.q (qIdx r)).drop 1))
      (v :: x.1, x.2)
    else
      let x := popAll rs t h
      (t.reg r :: x.1, x.2)

/-- The first source queue that holds too few entries for the instruction's pops (R16, R17). -/
def missing : List Reg → Hart → Option Reg
  | [], _ => none
  | r :: rs, h =>
    if isQ r then
      match headVal (h.q (qIdx r)) with
      | none => some r
      | some _ => missing rs (h.setQ (qIdx r) ((h.q (qIdx r)).drop 1))
    else missing rs h

/-- The first destination queue without room; reserved places count (R17, R431). -/
def noRoom (ds : List Reg) (h : Hart) : Option Reg :=
  ds.find? (fun d => isQ d && decide (Config.queueSize ≤ (h.q (qIdx d)).length))

-- Memory at the homes (R313 to R319, R154, R145)

def lineOf (pa : Nat) : Nat := pa / 128

/-- Home die of a line of the HBM and LPDDR ranges: PA[8:7] xor PA[16:15] xor PA[24:23] xor PA[32:31] (R315). -/
def homeDie (pa : Nat) : Fin 4 := ⟨(pa / 2 ^ 7 ^^^ pa / 2 ^ 15 ^^^ pa / 2 ^ 23 ^^^ pa / 2 ^ 31) % 4, Nat.mod_lt _ (by decide)⟩
/-- Bank within the home die: PA[16:9] xor PA[24:17] (R315). -/
def homeBank (pa : Nat) : Fin 256 := ⟨(pa / 2 ^ 9 ^^^ pa / 2 ^ 17) % 256, Nat.mod_lt _ (by decide)⟩

/-- The home of a line: a bank of a compute die, or the hub's coherence agent for the host window (R315). -/
inductive Home where
  | bank (die : Fin 4) (bank : Fin 256)
  | hub
  deriving DecidableEq, Repr

def homeOf (pa : Nat) : Home := if 2 ^ 51 ≤ pa then .hub else .bank (homeDie pa) (homeBank pa)

/-- The device tier of a physical address: 0 HBM, 1 LPDDR (R314). -/
def tierOf (pa : Nat) : Option (Fin 2) :=
  if pa < 2 ^ 39 then some 0 else if 0x40000000000 ≤ pa ∧ pa < 0x60000000000 then some 1 else none

/-- The side slot of a line of its tier's version range, at VERBASE + ((PA − VERLO) >> 7) × 8 (R322). -/
def State.sideSlot (s : State) (pa : Nat) : Option Nat :=
  (tierOf pa).bind fun i =>
    let r := s.verRegs[i]
    if r.lo ≤ pa ∧ pa < r.hi then some (r.base + (pa - r.lo) / 128 * 8) else none

/-- A physical address inside its tier's version range (R322). -/
def State.versioned (s : State) (pa : Nat) : Bool := (s.sideSlot pa).isSome

/-- The version of a line, held in its side slot (R154, R322). -/
def State.version (s : State) (line : Nat) : BitVec 48 :=
  match s.sideSlot (line * 128) with
  | some a => kget 0 s.vers a
  | none => 0

/-- The line's side slot has an uncorrectable error (R323). -/
def State.slotError (s : State) (line : Nat) : Bool := (s.sideSlot (line * 128)).any (fun a => s.slotBad.contains a)

/-- Raises a versioned line's version by 1, modulo 2^48 (R154). -/
def State.raise (s : State) (line : Nat) : State :=
  match s.sideSlot (line * 128) with
  | some a => { s with vers := kset 0 s.vers a (kget 0 s.vers a + 1) }
  | none => s

def State.poisoned (s : State) (pa n : Nat) : Bool :=
  s.poison.any (fun l => decide (lineOf pa ≤ l ∧ l ≤ lineOf (pa + n - 1)))

/-- The lines that `n` bytes from `pa` touch. -/
def linesOf (pa n : Nat) : List Nat := if n = 0 then [] else List.range' (lineOf pa) (lineOf (pa + n - 1) + 1 - lineOf pa)

/-- A write performed at the home of its lines, one write per line, which raises the line's version (R154, R319); the scheduler is shown
it at the end of the step (R295, R290). -/
def State.homePut (s : State) (pa : Nat) (bs : List Byte) : State :=
  (linesOf pa bs.length).foldl State.raise { s with mem := s.mem.puts pa bs, dirtyLog := s.dirtyLog ++ [(pa, bs.length)] }

/-- The lines that `n` bytes from `pa` cover whole lose their poison: a vector store's, a copy delivery's (R145). -/
def State.clearWhole (s : State) (pa n : Nat) : State :=
  { s with poison := s.poison.filter fun l => !decide (pa ≤ l * 128 ∧ l * 128 + 128 ≤ pa + n) }

-- The core data cache (R316 to R318, R333)

def State.cached (s : State) (line : Nat) : Option CLine := s.core.dcache.find? (fun l => l.line = line)
def CLine.isDirty (l : CLine) : Bool := l.dirty.any id

/-- The bytes of `old` with those under the mask replaced. -/
def maskBytes : List Bool → List Byte → List Byte → List Byte
  | d :: ds, ns, o :: os => (if d then ns.headD 0 else o) :: maskBytes ds ns.tail os
  | _, _, os => os

/-- The doublewords of a line that hold a dirty byte, as ranges. -/
def dirtyRanges (line : Nat) : Nat → List Bool → List (Nat × Nat)
  | 0, _ => []
  | k + 1, ds => (if (ds.take 8).any id then [(line * 128 + 8 * (15 - k), 8)] else []) ++ dirtyRanges line k (ds.drop 8)

/-- Writes a line's dirty bytes back to its home as one write (R316). -/
def State.writeBack (s : State) (l : CLine) : State :=
  if l.isDirty then
    let pa := l.line * 128
    let all := l.dirty.all id
    let s1 := { s with mem := s.mem.puts pa (maskBytes l.dirty l.data (s.mem.bytes pa 128)) }
    let s2 := s1.raise l.line
    { s2 with
      poison := if all then s2.poison.filter (fun x => x ≠ l.line) else s2.poison
      dirtyLog := s2.dirtyLog ++ dirtyRanges l.line 16 l.dirty }
  else s

def CLine.clean (l : CLine) : CLine := { l with dirty := l.dirty.map (fun _ => false) }
def State.setCache (s : State) (c : List CLine) : State := { s with core := { s.core with dcache := c } }

/-- Writes back the lines that meet `p`, leaving them valid and clean. -/
def State.cleanLines (s : State) (p : CLine → Bool) : State :=
  let s1 := (s.core.dcache.filter p).foldl State.writeBack s
  s1.setCache (upd p CLine.clean s1.core.dcache)

/-- Ends the pins of the lines that meet `p`: a die-scope release of those lines alone (R333). -/
def State.unpin (s : State) (p : CLine → Bool) : State :=
  let s1 := s.cleanLines p
  s1.setCache (upd p (fun l => { l with pin := none, retried := false }) s1.core.dcache)

def wideScope : Scope → Bool
  | .die | .module | .sys => true
  | _ => false

/-- The release part at a scope (R318): at die scope or wider every dirty byte is written back and every pin ends. -/
def State.release (s : State) (c : Scope) : State := if wideScope c then s.unpin (fun _ => true) else s

/-- The acquire part at a scope (R318, R78): at die scope or wider the unpinned lines are written back and invalidated,
and the stream's fetch buffer is discarded. -/
def State.acquire (s : State) (c : Scope) : State :=
  if wideScope c then
    let s1 := s.cleanLines (fun l => l.pin.isNone)
    let s2 := s1.setCache (s1.core.dcache.filter (fun l => l.pin.isSome))
    { s2 with me := { s2.me with fetchBuf := [] } }
  else s

def acqOf : Order → Bool
  | .acq | .ar => true
  | _ => false
def relOf : Order → Bool
  | .rel | .ar => true
  | _ => false

/-- The line is pinned by another core: its home answers with a retry (R333). -/
def State.pinnedElsewhere (s : State) (pa n : Nat) : Bool :=
  s.cores.any (fun c => c.1 != s.coreId && c.2.dcache.any (fun l => l.pin.isSome && decide (lineOf pa ≤ l.line ∧ l.line ≤ lineOf (pa + n - 1))))

/-- Some core has pinned a line of the range. -/
def State.pinnedAnywhere (s : State) (pa n : Nat) : Bool :=
  s.pinnedElsewhere pa n || s.core.dcache.any (fun l => l.pin.isSome && decide (lineOf pa ≤ l.line ∧ l.line ≤ lineOf (pa + n - 1)))

/-- When the acquire of an outstanding completion came to the homes: at its first retry, or now. -/
def VMem.since (m : VMem) (now : Nat) : Nat := (m.asked.map (·.2)).getD now

/-- The requests of one access: each line with the access's arrival. -/
def askList (x : Option (List Nat × Nat)) : List (Nat × Nat) :=
  match x with
  | some (ls, a) => ls.map (·, a)
  | none => []

/-- What the access of a stream has asked for at the homes. -/
def Strm.ask (t : Strm) : Option (List Nat × Nat) :=
  match t.wait with
  | some (.pinned ls a) => some (ls, a)
  | _ => none

/-- The requests that a stream, a channel or the hub has at the homes. -/
def Strm.request (t : Strm) : List (Nat × Nat) := askList t.ask ++ t.vmem.flatMap fun m => askList m.asked
def Channel.request (c : Channel) : List (Nat × Nat) := askList c.pinWait
def HubReq.request (r : HubReq) : List (Nat × Nat) := r.lines.map (·, r.arrival)
def Core.requests (c : Core) : List (Nat × Nat) := c.chans.toList.flatMap Channel.request

/-- The team of a context takes part: it is resident and no stop request holds it (R347). -/
def State.notHeld (s : State) (k : TeamKey) : Bool := !s.teams.any fun t => t.key = k && t.st != .resident

/-- Every request that waits at a home: its line and its arrival (R319, R333, R337). -/
def State.requests (s : State) : List (Nat × Nat) :=
  (if s.held then [] else s.me.request ++ s.peer.request) ++
  s.parked.flatMap (fun c => if s.notHeld c.key then c.a.request ++ c.e.request else []) ++
  s.core.requests ++ s.cores.flatMap (fun c => c.2.requests) ++ s.hubq.flatMap HubReq.request

/-- A request for a line of the range arrived before `arrival` and is not performed yet. -/
def State.askedBefore (s : State) (pa n arrival : Nat) : Bool :=
  s.requests.any fun r => decide (lineOf pa ≤ r.1 ∧ r.1 ≤ lineOf (pa + n - 1) ∧ r.2 < arrival)

/-- When the access of the stream in focus came to the homes: at its first retry, or now. All its requests have this place (log 48). -/
def State.arrival (s : State) : Nat := (s.me.ask.map (·.2)).getD s.stamp

/-- The lines with one more of them. -/
def addLine (ls : List Nat) (line : Nat) : List Nat := if ls.contains line then ls else ls ++ [line]

/-- The core in focus has pinned the line: only requests from outside the core wait (R333). -/
def State.ownPin (s : State) (line : Nat) : Bool := s.core.dcache.any fun l => l.line == line && l.pin.isSome

/-- The first line of the range that an access of the core in focus, come at the given time, must wait for: another core has pinned it, or an
earlier request for it is still to be performed (R319, R333, R337). -/
def State.waitsFor (s : State) (arrival pa n : Nat) : Option Nat :=
  (linesOf pa n).find? fun l => s.pinnedElsewhere (l * 128) 1 || (!s.ownPin l && s.askedBefore (l * 128) 1 arrival)

/-- The line that an access of the stream in focus must wait for. -/
def State.mustWait (s : State) (pa n : Nat) : Option Nat := s.waitsFor s.arrival pa n

/-- The wait for a line, beside those that the access already waits for: it keeps its place at their homes until it is performed, so that no
later request is performed before it and no other core pins them again (R333, R336, R337). -/
def State.pinWait (s : State) (line : Nat) : Wait := .pinned (addLine ((s.me.ask.map (·.1)).getD []) line) s.arrival

/-- The home of a pinned line has sent a retry: the pin's time runs (R333). -/
def State.markRetried (s : State) (line : Nat) : State :=
  let mark (c : Core) : Core := { c with dcache := upd (fun l => l.line = line && l.pin.isSome) (fun l => { l with retried := true }) c.dcache }
  { s with core := mark s.core, cores := s.cores.map fun c => (c.1, mark c.2) }

/-- A stall for a pinned line is a retry that the home sends. -/
def State.noteWait (s : State) (w : Wait) : State :=
  match w with
  | .pinned ls _ => { ls.foldl State.markRetried s with stamp := s.stamp + 1 }
  | _ => s

/-- The stream in focus waits for a line whose home answers with a retry. -/
def State.asks (s : State) (line : Nat) : State :=
  ({ s with me := { s.me with wait := some (s.pinWait line) } } : State).noteWait (s.pinWait line)

/-- A dirty line of the core that cannot be written back yet, its home answering a write-back that came at `arrival` with a retry. -/
def State.dirtyWaitsAt (s : State) (arrival : Nat) : Option Nat :=
  (s.core.dcache.filter CLine.isDirty).findSome? fun l => s.waitsFor arrival (l.line * 128) 1
def State.dirtyWaits (s : State) : Option Nat := s.dirtyWaitsAt s.arrival

-- Requests of the hub (R333, R399)

/-- The first line of the range for which a request of the hub that came at `arrival` must wait. -/
def State.hubWaits (s : State) (pa n arrival : Nat) : Option Nat :=
  (linesOf pa n).find? fun l => s.pinnedAnywhere (l * 128) 1 || s.askedBefore (l * 128) 1 arrival

/-- The hub holds a request for a line that came at `arrival`. -/
def State.hubKeep (s : State) (op : HubOp) (line arrival : Nat) : State :=
  { s.markRetried line with hubq := s.hubq ++ [⟨op, [line], arrival⟩], stamp := max s.stamp (arrival + 1) }

/-- The oldest request of the hub that its home takes (R333). -/
def State.hubDue (s : State) : Option HubReq :=
  s.hubq.find? fun r => r.lines.all fun l => !s.pinnedAnywhere (l * 128) 1 && !s.askedBefore (l * 128) 1 r.arrival

/-- An access of this core that is performed at the home first writes the line's dirty bytes back (R317). -/
def State.beforeHome (s : State) (pa n : Nat) : State :=
  s.cleanLines (fun l => decide (lineOf pa ≤ l.line ∧ l.line ≤ lineOf (pa + n - 1)))

/-- A copy of written lines held in the same core's cache takes the new bytes (R317). -/
def State.refresh (s : State) (pa n : Nat) : State :=
  s.setCache (upd (fun l => decide (lineOf pa ≤ l.line ∧ l.line ≤ lineOf (pa + n - 1)))
    (fun l => { l with data := s.mem.bytes (l.line * 128) 128 }) s.core.dcache)

/-- A read of this core performed at the home. -/
def State.homeRead (s : State) (pa n : Nat) : Nat × State :=
  let s1 := s.beforeHome pa n
  (s1.mem.rd pa n, s1)

/-- A write of this core performed at the home (R317, R319). -/
def State.homeWrite (s : State) (pa : Nat) (bs : List Byte) : State :=
  ((s.beforeHome pa bs.length).homePut pa bs).refresh pa bs.length

/-- The lines that the cache holds in the set of a line: 8 ways of 64 sets (R313, log 10). -/
def State.inSet (s : State) (line : Nat) : List CLine := s.core.dcache.filter (fun l => l.line % Config.cacheSets = line % Config.cacheSets)

/-- The line may leave the cache: no pin holds it, and a dirty byte of it can be written back (R316, R333). -/
def State.canLeave (s : State) (l : CLine) : Bool := l.pin.isNone && (!l.isDirty || (s.mustWait (l.line * 128) 1).isNone)

/-- The line that a full set gives up: the one that the free value names among those that may leave; with none the set's oldest pin ends
(R313, R316, log 10). -/
def State.victim (s : State) (line : Nat) : Option CLine :=
  if (s.inSet line).length < Config.cacheWays then none
  else
    let open_ := (s.inSet line).filter s.canLeave
    match open_[Config.cacheVictim s.tick % open_.length]? with
    | some v => some v
    | none => best (fun x y => decide (x.pin.getD 0 < y.pin.getD 0)) ((s.inSet line).filter (fun l => l.pin.isSome))

/-- No way of the line's set can be had until a line of the set is written back: the line to wait for. -/
def State.setWaits (s : State) (line : Nat) : Option Nat :=
  if (s.cached line).isNone && decide (Config.cacheWays ≤ (s.inSet line).length) && (s.victim line).isNone then
    (s.inSet line).findSome? fun l => s.mustWait (l.line * 128) 1
  else none

/-- Makes room in a full set, writing back the line that leaves (R316). -/
def State.makeRoom (s : State) (line : Nat) : State :=
  match s.victim line with
  | none => s
  | some v =>
    let s1 := s.writeBack v
    { s1.setCache (s1.core.dcache.filter (fun l => l.line ≠ v.line)) with tick := s1.tick + 1 }

/-- The line, filled from its home if the cache does not hold it (R316). -/
def State.fill (s : State) (line : Nat) : CLine × State :=
  match s.cached line with
  | some l => (l, s)
  | none =>
    let s1 := s.makeRoom line
    let l : CLine := { line := line, data := s1.mem.bytes (line * 128) 128, dirty := List.replicate 128 false, pin := none, retried := false }
    (l, s1.setCache (s1.core.dcache ++ [l]))

/-- A read performed in the core data cache; it lies within one line. -/
def State.cacheRead (s : State) (pa n : Nat) : Nat × State :=
  let x := s.fill (lineOf pa)
  (ofLe ((x.1.data.drop (pa % 128)).take n), x.2)

/-- The list with `xs` from place `i` on. -/
def putAt {α : Type} (dflt : α) (l : List α) (i : Nat) (xs : List α) : List α :=
  l.take i ++ List.replicate (i - l.length) dflt ++ xs ++ l.drop (i + xs.length)

/-- A write performed in the core data cache; it lies within one line (write-allocate, R316). -/
def State.cacheWrite (s : State) (pa : Nat) (bs : List Byte) : State :=
  let x := s.fill (lineOf pa)
  x.2.setCache (upd (fun l => l.line = lineOf pa)
    (fun l => { l with data := putAt 0 l.data (pa % 128) bs, dirty := putAt false l.dirty (pa % 128) (bs.map (fun _ => true)) })
    x.2.core.dcache)

/-- Pins a line after a release or atomic performed in the cache; a 65th pin first ends the oldest (R333). One on a line that is pinned
already makes its pin the newest (log 92). -/
def State.pin (s : State) (line : Nat) : State :=
  let pins := s.core.dcache.filterMap (fun l => if l.line = line then none else l.pin)
  let s1 := if pins.length < Config.maxPins then s else
    match pins.foldl (fun (a : Option Nat) x => some (match a with | none => x | some y => min x y)) none with
    | none => s
    | some o => s.unpin (fun l => l.pin = some o)
  { s1.setCache (upd (fun l => l.line = line) (fun l => { l with pin := some s1.stamp }) s1.core.dcache) with stamp := s1.stamp + 1 }

-- Taking a trap and returning from one (R338 to R345)

/-- Trap information for a cause with a value and no address. -/
def TrapInfo.plain (cause : BitVec 8) (tval : Word) : TrapInfo :=
  { cause := cause, tval := tval, wlvl := 0, ak := 0, ech := 0, ef := false, mh := false }

def accCode : Acc → BitVec 2
  | .read => 0
  | .write => 1
  | .fetch => 2
  | .atomic => 3

/-- Trap information for an address cause, 0x06 to 0x0B (R340). -/
def TrapInfo.addr (cause : BitVec 8) (va : Word) (acc : Acc) : TrapInfo :=
  { TrapInfo.plain cause va with ak := accCode acc }

def illegalInstruction : BitVec 8 := 0x01
def wrongStream : BitVec 8 := 0x02
def illegalTarget : BitVec 8 := 0x03
def orphanPfx : BitVec 8 := 0x04
def fetchParity : BitVec 8 := 0x05
def misaligned : BitVec 8 := 0x06
def pageNotPresent : BitVec 8 := 0x07
def protection : BitVec 8 := 0x08
def compressedPage : BitVec 8 := 0x09
def versionUnavailable : BitVec 8 := 0x0A
def memoryError : BitVec 8 := 0x0B
def scaleLayout : BitVec 8 := 0x0C
def formatMismatch : BitVec 8 := 0x0D
def widthError : BitVec 8 := 0x0E
def ecallCause : BitVec 8 := 0x10
def ebreakCause : BitVec 8 := 0x11
def watchdogCause : BitVec 8 := 0x12

def Mode.bit : Mode → Bool
  | .u => false
  | .s => true

def b01 (b : Bool) : BitVec 1 := if b then 1 else 0

/-- TSTAT as trap entry writes it (R340). -/
def tstatOf (t : TrapInfo) (e : Bool) (m : Mode) : BitVec 16 :=
  t.wlvl ++ t.ak ++ t.ech ++ b01 t.ef ++ b01 t.mh ++ (0 : BitVec 4) ++ b01 e ++ b01 m.bit

/-- VSTAT's bits (R34). -/
def Strm.hbusy (t : Strm) : Bool := t.vstat.getLsbD 2
def Strm.resume (t : Strm) : Bool := t.vstat.getLsbD 0
def vstatSet (v : BitVec 5) (i : Nat) (b : Bool) : BitVec 5 :=
  if b then v ||| BitVec.ofNat 5 (2 ^ i) else v &&& ~~~(BitVec.ofNat 5 (2 ^ i))

/-- The handler-bank step of R35. -/
def Strm.bank (t : Strm) : Strm :=
  { t with
    hvl := t.vl, hvtype := t.vtype, hvstart := t.vstart, vstart := 0,
    vstat := vstatSet (if t.hbusy then vstatSet t.vstat 1 true else t.vstat) 2 true }

/-- The address that TPC names: the instruction's, or its prefix's (R87). -/
def Strm.issueAddr (t : Strm) : Word :=
  match t.pfx with
  | some p => p.addr
  | none => t.pc

/-- Slot 1 of the TVEC line (R339). -/
def handlerEntry (tvec : Word) : Word := (tvec &&& ~~~(0x3F : Word)) ||| 4

/-- The registers that trap entry writes (R339). -/
def Strm.enterTrap (t : Strm) (i : TrapInfo) (e : Bool) : Strm :=
  { t.bank with
    tcause := i.cause, tpc := t.issueAddr, tval := i.tval, tstat := tstatOf i e t.mode, mode := .s,
    pc := handlerEntry t.tvec, pfx := none, wait := none, cpMark := none, inHandler := true, age := 0 }

/-- A hart that holds no team. -/
def Hart.vacant (id : BitVec 14) : Hart := { Hart.start id 0 0 0 0 0 false with live := false }

/-- A hart of a team that has not ended. -/
def Ctx.of (c : Ctx) (k : TeamKey) : Bool := c.hart.live && c.key = k

/-- Removes the harts that meet `p` from the cores; the hart in focus becomes idle if it is one of them. -/
def State.dropHarts (s : State) (p : Ctx → Bool) : State :=
  let s1 := { s with parked := s.parked.filter (fun c => !p c) }
  if p s.ctx then { s1 with me := Strm.off, peer := Strm.off, hart := Hart.vacant s.hart.id } else s1

/-- Removes a team's harts from the cores. -/
def State.dropTeam (s : State) (k : TeamKey) : State := s.dropHarts (·.of k)

/-- The harts of a team that has ended keep what they hold until their cores start or restore a team (R139). -/
def State.retireTeam (s : State) (k : TeamKey) : State :=
  let rest (c : Ctx) : Ctx := if c.of k then { c with hart := { c.hart with live := false } } else c
  { s with hart := (rest s.ctx).hart, parked := s.parked.map rest }

/-- The cores that a team occupies. -/
def Team.coreIds (t : Team) : List Nat := List.range' (t.clus * 8 + t.core) t.cores

/-- A core as a team finds it: what the last team shared is gone, translations too (R365); lines still to be written back stay. -/
def Core.cleared (c : Core) : Core := { Core.start with dcache := c.dcache }

/-- A line that a core other than `core` has pinned. -/
def State.pinnedBeside (s : State) (core line : Nat) : Bool :=
  (core != s.coreId && s.core.dcache.any (fun l => l.line == line && l.pin.isSome)) ||
    s.cores.any (fun c => c.1 != core && c.1 != s.coreId && c.2.dcache.any (fun l => l.line == line && l.pin.isSome))

/-- A core's dirty line that its home does not take yet. -/
def State.stuck (s : State) (core : Nat) (l : CLine) : Bool := l.isDirty && s.pinnedBeside core l.line

/-- Writes back every dirty byte of the listed cores' data caches; their pins end and the lines are dropped (R318, R347). A dirty line
whose home answers with a retry stays (R333). -/
def State.flushCores (s : State) (ids : List Nat) : State :=
  let s1 := s.cores.foldl (fun s1 c => if ids.contains c.1 then (c.2.dcache.filter (fun l => !s.stuck c.1 l)).foldl State.writeBack s1 else s1) s
  let keep (c : Nat × Core) : Nat × Core :=
    if ids.contains c.1 then (c.1, { c.2 with dcache := c.2.dcache.filter (fun l => s.stuck c.1 l) }) else c
  let s2 := { s1 with cores := s1.cores.map keep }
  if ids.contains s.coreId then
    let s3 := s2.unpin (fun l => !s.stuck s.coreId l)
    s3.setCache ((s2.core.dcache.filter (fun l => s.stuck s.coreId l)))
  else s2

/-- A line that keeps a flush of the listed cores from being complete (R333). -/
def State.flushWaits (s : State) (ids : List Nat) : Option Nat :=
  ((s.coreId, s.core) :: s.cores.filter (fun c => c.1 != s.coreId)).findSome? fun c =>
    if ids.contains c.1 then (c.2.dcache.find? (fun l => s.stuck c.1 l)).map (·.line) else none

/-- What the last team held in the listed cores is discarded, its ended harts among it. -/
def State.clearCores (s : State) (ids : List Nat) : State :=
  let s1 := s.dropHarts (fun c => !c.hart.live && ids.contains (c.hart.id.toNat / 8))
  let s2 := { s1 with cores := s1.cores.map fun c => if ids.contains c.1 then (c.1, c.2.cleared) else c }
  if ids.contains s2.coreId then { s2 with core := s2.core.cleared } else s2

/-- The cores that the team occupies. -/
def State.coresOf (s : State) (k : TeamKey) : List Nat :=
  (s.teams.filter (fun t => t.key = k && match t.st with | .saved _ => false | _ => true)).flatMap Team.coreIds

/-- Ends a team without a save, its state discarded (R344, R396). -/
def State.discardTeam (s : State) (k : TeamKey) : State :=
  let ids := s.coresOf k
  State.dropTeam { (s.flushCores ids).clearCores ids with teams := s.teams.filter (fun t => t.key ≠ k) } k

/-- A trap with TVEC.LINE = 0 ends the team without a save and without its DONE add (R344). -/
def State.unhandledTrap (s : State) (i : TrapInfo) : State :=
  let k := s.key
  let r := Report.unhandledTrap i.cause s.me.issueAddr i.tval s.hart.id s.isE k
  let s1 := s.discardTeam k
  State.report { s1 with
    grids := upd (fun g => g.vd = k.vd ∧ g.gid = k.gid) (fun g => { g with ended := g.ended + 1, unhandled := true }) s1.grids } r

/-- TAKING A TRAP, for the stream in focus (R339, R344). -/
def State.takeTrap (s : State) (i : TrapInfo) : State :=
  let s1 := s.deliverAll
  if s1.me.tvec &&& ~~~(0x3F : Word) = 0 then s1.unhandledTrap i
  else { s1 with me := s1.me.enterTrap i s1.isE }

/-- The next state is the entry of a trap. -/
def State.trap (s : State) (i : TrapInfo) : Res := .next (s.takeTrap i)

/-- THE RETURN FROM A TRAP: eret in mode S (R133, R35). -/
def Strm.eret (t : Strm) : Strm :=
  { t with
    pc := t.tpc, mode := if t.tstat.getLsbD 0 then .s else .u, vl := t.hvl, vtype := t.hvtype, vstart := t.hvstart,
    vstat := vstatSet t.vstat 2 false, inHandler := false, wait := none, pfx := none, age := 0 }

-- Fetch lines and slots (R75, R76, R83)

def lineBase (a : Word) : Word := a &&& ~~~(0x3F : Word)
def slotOf (a : Word) : Nat := (a.toNat / 4) % 16

/-- The slot after `n` words in sequence, header words skipped (R76). -/
def nextSlot (a : Word) (n : Nat) : Word :=
  let b := a + BitVec.ofNat 64 (4 * n)
  if slotOf b = 0 then b + 4 else b

/-- The address `n` slots further on in sequence (R122). -/
def slotsOn (a : Word) (n : Nat) : Word :=
  let k := slotOf a - 1 + n
  lineBase a + BitVec.ofNat 64 (64 * (k / 15) + 4 * (k % 15 + 1))

def Strm.line? (t : Strm) (a : Word) : Option FetchLine := t.fetchBuf.find? (fun l => l.base = lineBase a)
/-- The word in a slot of a fetched line. -/
def Strm.word (t : Strm) (a : Word) : W32 :=
  match t.line? a with
  | some l => l.words.getD (slotOf a) 0
  | none => 0
/-- The first word of the instruction at the program counter. -/
def State.insWord (s : State) : Word := (s.me.word s.me.pc).zeroExtend 64

-- The loop sequencer (R120 to R126)

def Strm.level (t : Strm) (l : BitVec 3) : Option Level := t.loops[l.toNat]?

/-- The level's activation, if it was recorded in the stream's current mode (R120). -/
def Strm.active (t : Strm) (i : Fin 6) : Option Loop :=
  match t.loops[i].act with
  | some a => if a.mode = t.mode then some a else none
  | none => none

def Strm.setAct (t : Strm) (i : Fin 6) (a : Option Loop) : Strm :=
  { t with loops := t.loops.set i { t.loops[i] with act := a } }

/-- A pending delivery to the register takes place. -/
def Strm.land (t : Strm) (r : Reg) : Strm :=
  match t.pend.find? (fun p => p.dst = r && !isQ r) with
  | some p => { t.setReg r p.val with pend := t.pend.filter (fun p => !(p.dst = r && !isQ r)) }
  | none => t

/-- Applies a level's strides in registration order, each on top of the value written in the body (R123). -/
def stepStrides (ps : List (Reg × Word)) (t : Strm) : Strm :=
  ps.foldl (fun t p => (t.land p.1).setReg p.1 ((t.land p.1).reg p.1 + p.2)) t

/-- Ends the iteration of the levels whose body ends at slot `last`, deepest first; control goes to `next` when none
returns to its top (R123). The levels are listed deepest first. -/
def loopEnd (last : Word) : List (Fin 6) → Word → Strm → Strm
  | [], next, t => { t with pc := next }
  | i :: is, next, t =>
    match t.active i with
    | some a =>
      if a.last = last then
        let t1 := stepStrides a.strides t
        if a.left = 1 then loopEnd last is next (t1.setAct i none)
        else { t1.setAct i (some { a with left := a.left - 1, iter := a.iter + 1 }) with pc := a.first }
      else loopEnd last is next t
    | none => loopEnd last is next t

def deepFirst : List (Fin 6) := [5, 4, 3, 2, 1, 0]

/-- Completion in sequence of the instruction of `n` words at the program counter (R76, R123). -/
def Strm.advance (t : Strm) (n : Nat) : Strm :=
  loopEnd (if n = 2 then t.pc + 4 else t.pc) deepFirst (nextSlot t.pc n)
    { t with pfx := none, wait := none, age := 0 }

/-- The suspended instruction of one word at `at_` completes (R134, R137). -/
def Strm.completes (t : Strm) (at_ : Word) : Strm := Strm.advance { t with pc := at_ } 1

/-- The result of the launch at `at_` that the stream waits for is written, and the launch completes (R137); of the stream's pushes to a
queue it is the last (R115). -/
def Strm.answered (t : Strm) (h : Hart) (d : Reg) (at_ w : Word) : Strm × Hart :=
  if isQ d then (t.completes at_, h.setQ (qIdx d) (fillNewest (h.q (qIdx d)) w)) else ((t.setReg d w).completes at_, h)

/-- The instruction completes and control passes to the next slot in sequence. -/
def State.retire (s : State) (n : Nat) : State := { s with me := s.me.advance n }
def State.done (s : State) (n : Nat) : Res := .next (s.retire n)

/-- A transfer of control to `target`: ends the active levels of the current mode whose body it leaves (R124). -/
def leaveLoops (target : Word) : List (Fin 6) → Strm → Strm
  | [], t => t
  | i :: is, t =>
    match t.active i with
    | some a =>
      if a.first ≤ target ∧ target ≤ a.last then leaveLoops target is t
      else leaveLoops target is
        ((List.finRange 6).foldl (fun t j => if i ≤ j ∧ (t.active j).isSome then t.setAct j none else t) t)
    | none => leaveLoops target is t

def Strm.jumpTo (t : Strm) (target : Word) : Strm :=
  { leaveLoops target (List.finRange 6) t with pc := target, pfx := none, wait := none, age := 0 }

/-- The slot is the last of an active body (R126). -/
def Strm.lastOfBody (t : Strm) (a : Word) : Bool :=
  (List.finRange 6).any (fun i => match t.active i with | some l => l.last == a | none => false)

-- Issue (R92, R98) and stalls (R16)

/-- The instruction does not issue: the stream waits, and a prefix will be applied again (R16, R87). -/
def State.stall (s : State) (w : Wait) : Res :=
  .next (({ s with me := { s.me with wait := some w, pc := s.me.issueAddr, pfx := none } } : State).noteWait w)

/-- The instruction has had its effect but not completed: the stream waits, at the instruction's address or at its prefix's, where a stop or
a trap finds it (R87, R134, R137). `w` gets the instruction's own address. -/
def State.suspend (s : State) (w : Word → Wait) : Res :=
  .next { s with me := { s.me with wait := some (w s.me.pc), pc := s.me.issueAddr, pfx := none, age := 0 } }

/-- Which streams an instruction executes on (R98). -/
inductive Class where
  | both | aOnly | eOnly
  deriving DecidableEq, Repr

def Class.ok : Class → Bool → Bool
  | .both, _ => true
  | .aOnly, e => !e
  | .eOnly, e => e

/-- Issue checks common to every instruction: a 64-bit instruction may not begin in the last slot of an active
body (R126), and the stream must be of the instruction's class (R98). -/
def State.issue (s : State) (c : Class) (n : Nat) (k : Res) : Res :=
  if n = 2 ∧ s.me.lastOfBody s.me.pc then s.trap (.plain illegalInstruction s.insWord)
  else if c.ok s.isE then k
  else s.trap (.plain wrongStream s.insWord)

/-- Reads the sources and checks the destinations of an instruction; `k` gets the values in order and the state with
the pops made (R15 to R17, R107, R115). A trap that `k` takes on the state before the pops pops nothing. -/
def State.operands (s : State) (srcs dsts : List Reg) (k : List Word → State → Res) : Res :=
  if srcs.all (popOk s.isE) && dsts.all (pushOk s.isE) then
    if (srcs ++ dsts).any s.me.scoreboarded then s.stall .scoreboard
    else match missing srcs s.hart with
      | some r => s.stall (.queue false r)
      | none =>
        match noRoom dsts s.hart with
        | some r => s.stall (.queue true r)
        | none => k (popAll srcs s.me s.hart).1 { s with hart := (popAll srcs s.me s.hart).2 }
  else s.trap (.plain wrongStream s.insWord)

/-- The queues named stand in their directions; otherwise "wrong stream", which precedes every other check at issue (R15, R92). -/
def State.direction (s : State) (srcs dsts : List Reg) (k : Res) : Res :=
  if srcs.all (popOk s.isE) && dsts.all (pushOk s.isE) then k else s.trap (.plain wrongStream s.insWord)

/-- The n-th source value. -/
def nth (v : List Word) (i : Nat) : Word := v.getD i 0

/-- Results of a check that may trap or stall. -/
inductive Chk (α : Type) where
  | ok (v : α)
  | trap (t : TrapInfo)
  | stall (w : Wait)

def Chk.bind {α β : Type} (c : Chk α) (f : α → Chk β) : Chk β :=
  match c with
  | .ok v => f v
  | .trap t => .trap t
  | .stall w => .stall w

/-- Continues after a check; a trap or stall acts on `s`. -/
def Chk.run {α : Type} (c : Chk α) (s : State) (k : α → Res) : Res :=
  match c with
  | .ok v => k v
  | .trap t => s.trap t
  | .stall w => s.stall w

/-- The prefix in force for the instruction (R87). -/
def State.rm (s : State) : Rm := match s.me.pfx with | some p => Rm.ofBits p.rm | none => .rne
def State.fz (s : State) : Bool := match s.me.pfx with | some p => p.fz | none => false
def State.pfxSat (s : State) : BitVec 2 := match s.me.pfx with | some p => p.sat | none => 0

/-- A command of the hart's own stream that is still queued or running: a release waits for it (R146, R325). -/
def State.copiesOutstanding (s : State) : Bool :=
  !s.isE && (List.finRange 8).any (fun i => s.core.chans[i].queue.any (fun c => c.hart = s.hart.id))

/-- A command of the hart's own stream that still has source bytes to read (R146, R329). -/
def State.copiesReading (s : State) : Bool :=
  !s.isE && (List.finRange 8).any fun i => s.core.chans[i].queue.any fun c =>
    c.hart = s.hart.id && match c.kind with | .cpy (some _) => decide (c.pos < c.len) | _ => true

/-- A matrix operation of the stream that is not done: its D tile is still to be written (R325, R329). -/
def State.opsOutstanding (s : State) : Bool := s.isE && !s.hart.mq.isEmpty
/-- A matrix operation of the stream whose operands are still to be read (R329). -/
def State.opsUnread (s : State) : Bool := s.isE && s.hart.mq.any (fun o => o.stage != .consumed)

/-- What the parts of an order wait for before the instruction may be performed: a release for every earlier copy command and matrix
operation of the stream, either part at die scope or wider for the dirty lines whose homes answer with a retry (R146, R318, R325, R329,
R333). -/
def State.orderWaits (s : State) (rel acq : Bool) (c : Scope) : Option Wait :=
  if rel && s.copiesOutstanding then some .channel
  else if rel && s.opsOutstanding then some .engine
  else if (rel || acq) && wideScope c then s.dirtyWaits.map s.pinWait
  else none

/-- `k` runs once the order's parts may be performed, its release performed. A stall acts on `s0`. -/
def State.orderThen (s0 s : State) (rel acq : Bool) (c : Scope) (k : State → Res) : Res :=
  match s0.orderWaits rel acq c with
  | some w => s0.stall w
  | none => k (if rel then s.release c else s)

/-- `k` runs once a release may be performed. -/
def State.releaseThen (s0 s : State) (rel : Bool) (c : Scope) (k : State → Res) : Res := s0.orderThen s rel false c k

/-- `k` runs once an acquire may be performed; it is performed with the instruction. -/
def State.acquireThen (s : State) (c : Scope) (k : Res) : Res :=
  match s.orderWaits false true c with
  | some w => s.stall w
  | none => k

/-- An access conflicts with an interlock entry: a read with a write entry, a write with either (R46, R242). -/
def State.interlocked (s : State) (lo len : Nat) (write : Bool) : Bool :=
  s.hart.ilocks.any (fun e => (e.write || write) && decide (lo < e.lo + e.len ∧ e.lo < lo + len))

def State.addIlocks (s : State) (es : List Ilock) : State :=
  { s with hart := { s.hart with ilocks := s.hart.ilocks ++ es.filter (fun e => e.len ≠ 0) } }
def State.dropIlocks (s : State) (p : Ilock → Bool) : State :=
  { s with hart := { s.hart with ilocks := s.hart.ilocks.filter (fun e => !p e) } }

end Sys2Proof.Machine
end

