-- ==== Sys2Proof/Machine/Mem.lean ====
section
/-! DEFINITION. Address windows, physical ranges, page tables, TLBs and translation (R38, R245, R314, R358 to R364). -/
namespace Sys2Proof.Machine

/-- First address of the local window (R38). -/
def localBase : Nat := 0xFFFFFFFF00000000
/-- First address of the lane-store window (R245). -/
def laneBase : Nat := 0xFFFFFFFE00000000
def inLocal (a : Nat) : Bool := localBase ≤ a
def inLane (a : Nat) : Bool := laneBase ≤ a && a < laneBase + 0x80000
/-- A sign-extended 57-bit address (R358). -/
def canonical (a : Nat) : Bool := a / 2 ^ 56 == 0 || a / 2 ^ 56 == 0xFF
/-- The 64-bit address of a number. -/
def va64 (a : Nat) : Word := BitVec.ofNat 64 a

/-- A status that reports a refusal (R137, R278, R280). -/
def refuseWord (code : Nat) : Word := 0x8000000000000000 ||| va64 code

/-- HBM, LPDDR tier and host window, with the memory types each allows (R314). -/
def mtAllowed (pa mt : Nat) : Bool :=
  if pa < 2 ^ 39 then mt == 0 || mt == 3
  else if 0x40000000000 ≤ pa ∧ pa < 0x60000000000 then mt == 1 || mt == 3
  else if 2 ^ 51 ≤ pa ∧ pa < 2 ^ 52 then mt == 2
  else false

/-- Device memory: the HBM or LPDDR range. -/
def inDevice (pa : Nat) : Bool := mtAllowed pa 3

-- Page-table entries (R360, R361)

def pteV (e : Word) : Bool := bit e 0
def pteR (e : Word) : Bool := bit e 1
def pteW (e : Word) : Bool := bit e 2
def pteX (e : Word) : Bool := bit e 3
def pteU (e : Word) : Bool := bit e 4
def pteG (e : Word) : Bool := bit e 5
def pteA (e : Word) : Bool := bit e 6
def pteD (e : Word) : Bool := bit e 7
def pteVer (e : Word) : Bool := bit e 8
def pteCmp (e : Word) : Bool := bit e 9
def ptePin (e : Word) : Bool := bit e 10
def pteSink (e : Word) : Bool := bit e 11
def pteMt (e : Word) : Nat := fld e 12 2
/-- The frame or next table that the entry names. -/
def pteBase (e : Word) : Nat := fld e 16 36 * 65536

/-- A pointer has none of R, W and X (R359). -/
def ptePointer (e : Word) : Bool := !pteR e && !pteW e && !pteX e

/-- Bytes that a leaf at a level maps (R359). -/
def leafSize (lvl : Nat) : Nat := 2 ^ (16 + 13 * lvl)

/-- A valid entry that no walk may use (R361). -/
def pteMalformed (lvl : Nat) (e : Word) : Bool :=
  bit e 63 || fld e 14 2 != 0 || (pteW e && !pteR e) ||
  if ptePointer e then lvl == 0 || fld e 4 10 != 0 || !inDevice (pteBase e)
  else lvl == 3 || pteBase e % leafSize lvl != 0 || !mtAllowed (pteBase e) (pteMt e)

/-- The index of an address in a table of a level (R359). -/
def pteIndex (va lvl : Nat) : Nat := va / 2 ^ (16 + 13 * lvl) % (if lvl = 3 then 4 else 8192)

/-- A leaf: its level, its entry's address and the entry. -/
structure Leaf where
  lvl : Nat
  addr : Nat
  pte : Word

/-- The walk from a table of level `lvl`, the first argument being lvl + 1 (R359). -/
def walk (m : Memory) (va : Nat) : Nat → Nat → Except (BitVec 8 × Nat) Leaf
  | 0, _ => .error (pageNotPresent, 0)
  | lvl + 1, t =>
    let a := t + pteIndex va lvl * 8
    let e := va64 (m.rd a 8)
    if !pteV e then .error (pageNotPresent, lvl + 1)
    else if pteMalformed lvl e then .error (protection, lvl + 1)
    else if ptePointer e then walk m va lvl (pteBase e)
    else .ok ⟨lvl, a, e⟩

/-- The walk from a VD's root; a hart whose VD does not exist finds no root table. -/
def State.walkVd (s : State) (vd va : Nat) : Except (BitVec 8 × Nat) Leaf :=
  match s.vds.find? (fun v => v.id = vd) with
  | some v => walk s.mem va 4 v.root
  | none => .error (pageNotPresent, 4)

/-- The leaf permits the access in the given mode (R362). -/
def permits (e : Word) (acc : Acc) (user : Bool) : Bool :=
  (!user || pteU e) &&
  match acc with
  | .read => pteR e
  | .write => pteW e
  | .fetch => pteX e
  | .atomic => pteR e && pteW e

def writes : Acc → Bool
  | .write | .atomic => true
  | _ => false

-- TLBs (R363)

def pageNum (va lvl : Nat) : Nat := va % 2 ^ 57 / leafSize lvl

def TlbEntry.covers (t : TlbEntry) (vd va : Nat) : Bool := t.vd == vd && t.vpn == pageNum va t.lvl

/-- Adds a translation; a full TLB gives up the entry that the free value names (log 11). -/
def tlbAdd (cap tick : Nat) (l : List TlbEntry) (t : TlbEntry) : List TlbEntry :=
  let l1 := l.filter (fun x => !(x.vd == t.vd && x.lvl == t.lvl && x.vpn == t.vpn))
  (if l1.length < cap then l1 else l1.eraseIdx (Config.tlbVictim tick % l1.length)) ++ [t]

def State.dieFin (s : State) : Fin 4 := ⟨s.dieId % 4, Nat.mod_lt _ (by decide)⟩
def State.die (s : State) : Die := s.dies[s.dieFin]
def State.setDie (s : State) (i : Fin 4) (d : Die) : State := { s with dies := s.dies.set i d }

/-- A translation held by the core's TLB or its die's. -/
def State.tlbFind (s : State) (vd va : Nat) : Option TlbEntry :=
  match s.core.tlb.find? (fun t => t.covers vd va) with
  | some t => some t
  | none => s.die.tlb.find? (fun t => t.covers vd va)

def State.tlbInsert (s : State) (t : TlbEntry) : State :=
  let s1 := { s with core := { s.core with tlb := tlbAdd Config.coreTlb s.tick s.core.tlb t } }
  let s2 := s1.setDie s1.dieFin { s1.die with tlb := tlbAdd Config.dieTlb s.tick s1.die.tlb t }
  { s2 with tick := s2.tick + 1 }

/-- The entry with A set, and D for a write (R362). -/
def pteUsed (e : Word) (acc : Acc) : Word := (e ||| 0x40) ||| (if writes acc then 0x80 else 0)

/-- A walk that ends in a leaf which permits the access sets A and D at the entry's home and fills the TLBs (R362, R363). -/
def State.useLeaf (s : State) (vd va : Nat) (l : Leaf) (acc : Acc) : State :=
  let e := pteUsed l.pte acc
  let s1 := if e = l.pte then s else s.homePut l.addr (leBytes 8 e.toNat)
  s1.tlbInsert ⟨vd, l.lvl, pageNum va l.lvl, e⟩

def physOf (lvl : Nat) (pte : Word) (va : Nat) : Nat := pteBase pte + va % leafSize lvl

/-- The frame of a physical address meets a side-slot array (R322). -/
def State.inSideSlots (s : State) (pa : Nat) : Bool :=
  (List.finRange 2).any fun i =>
    let r := s.verRegs[i]
    let f := pa / 65536 * 65536
    decide (r.lo < r.hi ∧ r.base < f + 65536 ∧ f < r.base + (r.hi - r.lo) / 128 * 8)

/-- The tests made on each access after translation: the range, and the side-slot arrays (R314, R322). -/
def State.reachable (s : State) (pa : Nat) (pte : Word) : Bool := mtAllowed pa (pteMt pte) && !s.inSideSlots pa

/-- Trap information of a failed walk (R340). -/
def walkTrap (c : BitVec 8 × Nat) (va : Nat) (acc : Acc) : TrapInfo :=
  { TrapInfo.addr c.1 (va64 va) acc with wlvl := BitVec.ofNat 3 c.2 }

-- Residency ranges (R320, R321)

/-- The range is in force for the partition and holds the address. -/
def RRange.covers (r : RRange) (part pa : Nat) : Bool :=
  bit r.ctl 31 && fld r.ctl 16 5 == part && decide (r.base.toNat / 65536 ≤ pa / 65536 ∧ pa / 65536 ≤ r.limit.toNat / 65536)

/-- One counted access to a line of the range. Every 2^RATIO-th receives the retained class: a line that it fills is placed in the range's
reserved ways, from which only such a fill evicts, the least recently used of its set first; a retained line that is hit stays (R321). -/
def RRange.access (r : RRange) (line : Nat) : RRange :=
  let n := r.count + 1
  if r.kept.contains line then { r with count := n, kept := r.kept.filter (fun l => l != line) ++ [line] }
  else if n % 2 ^ fld r.ctl 8 4 == 0 && !Config.bankHolds line n then
    let mates := r.kept.filter fun l => homeBank (l * 128) == homeBank (line * 128) && Config.bankSet l == Config.bankSet line
    let out := mates.take (mates.length + 1 - fld r.ctl 0 4)
    { r with count := n, kept := r.kept.filter (fun l => !out.contains l) ++ [line] }
  else { r with count := n }

/-- The ranges of a line's home die see one access of a partition (R315, R321). -/
def State.countLine (s : State) (part line : Nat) : State :=
  let i := homeDie (line * 128)
  { s with dies := s.dies.set i { s.dies[i] with
      rr := s.dies[i].rr.map fun r => if r.covers part (line * 128) then r.access line else r } }

/-- Accesses of the hart in focus that reach the home of each line of the range (R321, log 56). -/
def State.counted (s : State) (pa n : Nat) : State :=
  match s.vd? with
  | none => s
  | some v => if inDevice pa then (linesOf pa n).foldl (fun s l => s.countLine (fld v.vdcfg 8 5) l) s else s

/-- TRANSLATION of an address of the hart in focus, for an access in the given mode: the physical address, the leaf entry,
and the state with the TLBs filled (R144 checks 4 to 6, R314, R358 to R363). `cmpOk`: the page may be a CMP page. The protection of R314
and R322 is tested with check 5, before CMP (log 91). -/
def State.translate (s : State) (va : Nat) (acc : Acc) (user cmpOk : Bool) : Except TrapInfo (Nat × Word × State) :=
  let vd := s.hart.vd.toNat
  let found : Except TrapInfo (Nat × Word × State) :=
    match s.tlbFind vd va with
    | some t =>
      if writes acc && !pteD t.pte && permits t.pte acc user then
        match s.walkVd vd va with
        | .error c => .error (walkTrap c va acc)
        | .ok l => if permits l.pte acc user then .ok (physOf l.lvl l.pte va, l.pte, s.useLeaf vd va l acc)
            else .error (.addr protection (va64 va) acc)
      else if permits t.pte acc user then .ok (physOf t.lvl t.pte va, t.pte, s)
      else .error (.addr protection (va64 va) acc)
    | none =>
      match s.walkVd vd va with
      | .error c => .error (walkTrap c va acc)
      | .ok l => if permits l.pte acc user then .ok (physOf l.lvl l.pte va, l.pte, s.useLeaf vd va l acc)
          else .error (.addr protection (va64 va) acc)
  if !canonical va then .error (.addr protection (va64 va) acc)
  else match found with
    | .error t => .error t
    | .ok (pa, pte, s1) =>
      if !s.reachable pa pte then .error (.addr protection (va64 va) acc)
      else if pteCmp pte && !cmpOk then .error (.addr compressedPage (va64 va) acc)
      else .ok (pa, pte, s1)

/-- The addresses of the entries that a walk reads, in order, with those of tables of level `lvl` and below to come. -/
def walkReads (m : Memory) (va : Nat) : Nat → Nat → List Nat
  | 0, _ => []
  | lvl + 1, t =>
    let a := t + pteIndex va lvl * 8
    let e := va64 (m.rd a 8)
    a :: (if pteV e && !pteMalformed lvl e && ptePointer e then walkReads m va lvl (pteBase e) else [])

def State.walkLines (s : State) (vd va : Nat) : List Nat :=
  match s.vds.find? (fun v => v.id = vd) with
  | some v => walkReads s.mem va 4 v.root
  | none => []

/-- The access needs a walk: no TLB holds the page, or a write finds D = 0 (R362, R363). -/
def State.needsWalk (s : State) (va : Nat) (acc : Acc) (user : Bool) : Bool :=
  match s.tlbFind s.hart.vd.toNat va with
  | some t => writes acc && !pteD t.pte && permits t.pte acc user
  | none => true

/-- An entry that the walk of an access reads lies on a line whose home answers with a retry: the line to wait for (R333, R359). -/
def State.walkWaits (s : State) (va : Nat) (acc : Acc) (user : Bool) : Option Nat :=
  if canonical va && s.needsWalk va acc user then (s.walkLines s.hart.vd.toNat va).findSome? fun a => s.mustWait a 8 else none

def State.user (s : State) : Bool := s.me.mode == .u

/-- Translation of an access of the stream in focus: its result, its trap, or the wait for an entry's line. -/
def State.trans (s : State) (va : Nat) (acc : Acc) (user cmpOk : Bool) : Chk (Nat × Word × State) :=
  match s.walkWaits va acc user with
  | some l => .stall (s.pinWait l)
  | none =>
    match s.translate va acc user cmpOk with
    | .error t => .trap t
    | .ok x => .ok x

/-- Translation of an access that some pages protect against: `bad` is such a page, tested with check 5 of R144, before CMP (R155, R277,
R279). -/
def State.transBut (s : State) (va : Nat) (acc : Acc) (user : Bool) (bad : Nat → Word → State → Bool) : Chk (Nat × Word × State) :=
  (s.trans va acc user true).bind fun (pa, pte, s1) =>
    if bad pa pte s1 then .trap (.addr protection (va64 va) acc)
    else if pteCmp pte then .trap (.addr compressedPage (va64 va) acc)
    else .ok (pa, pte, s1)

/-- The entry of a leaf that the hub or an engine without a TLB uses, with A set and D for a write (R362). -/
def State.hubLeaf (s : State) (l : Leaf) (acc : Acc) : State :=
  let e := pteUsed l.pte acc
  if e = l.pte then s else s.homePut l.addr (leBytes 8 e.toNat)

/-- Translation under a VD by the hub or an engine that holds no TLB, with the permissions of mode S; the walk sets A and D (R362, R372,
R384). -/
def State.hubWalk (s : State) (vd va : Nat) (acc : Acc) : Option (Nat × Word × State) :=
  if !canonical va then none
  else match s.walkVd vd va with
    | .error _ => none
    | .ok l =>
      let pa := physOf l.lvl l.pte va
      if permits l.pte acc false && !pteCmp l.pte && s.reachable pa l.pte then some (pa, l.pte, s.hubLeaf l acc) else none

/-- What such a translation answers, before its walk has set any bit. -/
def State.hubTranslate (s : State) (vd va : Nat) (acc : Acc) : Option (Nat × Word) := (s.hubWalk vd va acc).map fun x => (x.1, x.2.1)

/-- A line that an access of the hub to `n` bytes of a VD's memory, with its walk, must wait for (R333, R359). -/
def State.hubAccessWaits (s : State) (vd va n : Nat) (acc : Acc) (arrival : Nat) : Option Nat :=
  match (s.walkLines vd va).findSome? fun a => s.hubWaits a 8 arrival with
  | some l => some l
  | none =>
    match s.hubTranslate vd va acc with
    | some (pa, _) => s.hubWaits pa n arrival
    | none => none

/-- The VD whose control page a translation with MT = 11 reaches (R368). -/
def State.controlOf (s : State) (pa : Nat) (pte : Word) : Option Vd :=
  if pteMt pte = 3 then s.vds.find? (fun v => v.control / 65536 = pa / 65536 && v.st != .destroyed) else none

/-- The translation reaches a control page (R155, R368). -/
def onControl (pa : Nat) (pte : Word) (s : State) : Bool := (s.controlOf pa pte).isSome

/-- A page whose versions an ldv or casv may use (R155, R322). -/
def State.hasVersion (s : State) (pa : Nat) (pte : Word) : Bool := pteVer pte && pteMt pte ≤ 1 && s.versioned pa

end Sys2Proof.Machine
end

