-- ==== Sys2Proof/Machine/Vd.lean ====
section
/-! DEFINITION. Virtual devices: the event ring, the wake states and the control page with its windows and timers
(R366 to R396). -/
namespace Sys2Proof.Machine

/-- TIME as a read finds it: it has advanced by a free value since the last read (R366, R367, log 15). -/
def State.now (s : State) : State := { s with time := s.time + Config.timeAdvance s.tick, tick := s.tick + 1 }

-- The event ring (R384)

/-- The virtual address of the next event record, if the ring takes one (R384). -/
def Vd.eventAddr (v : Vd) : Option Nat :=
  let log2e := fld v.evbase 0 4
  if log2e < 4 ∨ 12 < log2e then none
  else if 2 ^ log2e ≤ v.evCount - v.evhead.toNat then none
  else some (fld v.evbase 12 52 * 4096 + v.evCount % 2 ^ log2e * 32)

/-- An earlier event of the VD that the hub holds. -/
def State.heldEvent (s : State) (vd arrival : Nat) : Option HubReq :=
  s.hubq.find? fun r => decide (r.arrival < arrival) && match r.op with | .event v .. => v == vd | _ => false

/-- The record of an event that came at `arrival` is written, or EVLOST counts it, or the hub holds it for a pinned line or behind an earlier
event (R333, R384). -/
def State.putEvent (s : State) (vd code time : Nat) (a0 a1 : Word) (arrival : Nat) : State :=
  match s.vds.find? (fun v => v.id = vd) with
  | none => s
  | some v =>
    let lost (s : State) : State := s.mapVd vd fun v => { v with evlost := v.evlost + 1 }
    match v.eventAddr, s.heldEvent vd arrival with
    | _, some r => s.hubKeep (.event vd code time a0 a1) (r.lines.headD 0) arrival
    | none, none => lost s
    | some va, none =>
      match s.hubAccessWaits vd va 32 .write arrival with
      | some l => s.hubKeep (.event vd code time a0 a1) l arrival
      | none =>
        match s.hubWalk vd va .write with
        | some (pa, pte, s1) =>
          if pteMt pte ≤ 1 ∧ !s1.poisoned pa 32 then
            (s1.mapVd vd fun v => { v with evCount := v.evCount + 1 }).homePut pa
              (leBytes 8 (code % 65536) ++ leBytes 8 time ++ leBytes 8 a0.toNat ++ leBytes 8 a1.toNat)
          else lost s1
        | none => lost s

/-- A VD receives an event: its record holds TIME at the event (R384). -/
def State.event (s : State) (vd code : Nat) (a0 a1 : Word) : State :=
  match s.vds.find? (fun v => v.id = vd) with
  | none => s
  | some _ => let s1 := s.now; s1.putEvent vd code s1.time a0 a1 s1.stamp

-- Idleness and wake (R388 to R394)

/-- The stream waits at one of the instructions of R389. -/
def Strm.waits (t : Strm) : Bool :=
  t.stopped ||
  match t.wait with
  | some (.wfi _) => true
  | some (.queue false _) => true
  | some .sync => true
  | _ => false

/-- Every hart of a team that has not ended, the one in focus first. -/
def State.allCtxs (s : State) : List Ctx := (s.ctx :: s.parked).filter (·.hart.live)

def State.coreOf (s : State) (id : Nat) : Core := if id = s.coreId then s.core else kget Core.start s.cores id
def State.clusOf (s : State) (id : Nat) : Clus := if id = s.clusId then s.clus else kget Clus.start s.cluss id

/-- A hart's engines hold work of the VD. -/
def State.engineBusy (s : State) (c : Ctx) : Bool :=
  !c.hart.mq.isEmpty ||
  (List.finRange 8).any fun i => (s.coreOf (c.hart.id.toNat / 8)).chans[i].queue.any (fun q => q.hart = c.hart.id)

def State.findVd (s : State) (id : Nat) : Option Vd := s.vds.find? (fun v => v.id = id)

/-- A kept hub request brings the VD a submission: a take of its ring, a tick's firing or a launch from another module (R333, R389). -/
def HubReq.submits (vd : Nat) (x : HubReq) : Bool :=
  match x.op with
  | .take v => v == vd
  | .act (.stepFire v _) => v == vd
  | .act (.remoteLaunch v _) => v == vd
  | _ => false

/-- The VD is idle (R389). -/
def State.vdIdle (s : State) (v : Vd) : Bool :=
  !(s.grids.any fun g => g.vd == v.id && (g.st == .ready || (g.st == .running && decide (g.nextTeam < fld g.desc[1] 0 33)))) &&
  !(s.teams.any fun t => t.key.vd == v.id && t.st != .resident) &&
  v.inlet.isEmpty && !(s.hubq.any (HubReq.submits v.id)) &&
  !(v.eps.any fun e => !e.2.out.isEmpty) &&
  !(s.allCtxs.any fun c => c.hart.vd.toNat == v.id && c.hart.grid != 0 && (s.engineBusy c || !c.a.waits || !c.e.waits))

/-- The state that WAKESTAT reports: an active VD is idle from when it begins to meet R389, until a wake write (R388). -/
def State.vdState (s : State) (v : Vd) : VdState := if v.st = .active ∧ !v.roused ∧ s.vdIdle v then .idle else v.st

def VdState.code : VdState → Nat
  | .created => 0
  | .active => 1
  | .idle => 2
  | .mitten => 3
  | .waking => 4
  | .destroyed => 5

/-- A wake write (R388, R391, R394). -/
def Vd.woken (v : Vd) (time : Nat) : Vd :=
  match v.st with
  | .created => { v with st := .active }
  | .mitten => if v.col then { v with wpend := true, wakeAt := if v.wpend then v.wakeAt else time } else { v with st := .waking, wakeAt := time }
  | _ => v

/-- Bytes that Cloche saves for a team (R350). -/
def Saved.size (x : Saved) : Nat :=
  4096 + 49152 * x.cores.length + (x.ctxs.map fun c => 24576 + 72 * c.hart.lanes + c.hart.scratchSize).sum

/-- 64 KiB units that a VD's wake has to restore: its saved teams and its moved frames (R390, R393). -/
def State.savedUnits (s : State) (vd : Nat) : Nat :=
  (s.teams.map fun t => if t.key.vd = vd && !t.out then (match t.st with | .saved x | .restoring x => ceilDiv x.size 65536 | _ => 0) else 0).sum +
    (match s.findVd vd with | some v => (v.moved.map fun m => ceilDiv m.2 65536).sum | none => 0)

/-- A wake write to a VD; one to a mitten VD ends module collapse (R391, R392). -/
def State.wake (s : State) (vd : Nat) : State :=
  match s.findVd vd with
  | none => s
  | some v =>
    let units := s.savedUnits vd
    let idle := decide (s.vdState v = .idle)
    let s1 := s.mapVd vd fun v =>
      if v.st = .mitten ∧ !v.col then { v.woken s.time with remain := units }
      else if idle then { v with roused := true } else v.woken s.time
    if v.st = .mitten then { s1 with moduleCollapsed := false } else s1

-- Windows and timers (R371, R373, R380)

def winPol (c : Word) : Nat := fld c 0 2
def winLog2n (c : Word) : Nat := fld c 16 5
def winExpect (c : Word) : Nat := fld c 32 16
def winEn (c : Word) : Bool := bit c 63
def Window.dropc (w : Window) : Nat := fld w.cnt 32 32
def Window.latec (w : Window) : Nat := fld w.cnt 0 32
def Window.addDrop (w : Window) (n : Nat) : Window := { w with cnt := setFld w.cnt 32 32 (w.dropc + n) }
def Window.addLate (w : Window) : Window := { w with cnt := setFld w.cnt 0 32 (w.latec + 1) }
def winErr : Word := 0x2000000000000000

/-- A record of the window is assigned to a step, in the ring or in the hub, or taken and not returned (R380, R395). -/
def Window.busy (w : Window) : Bool :=
  w.slots.any (fun x => match x.st with | .assigned _ => true | .taken _ => true | _ => false) || w.held.any (·.step.isSome)
/-- Discards every record that the window holds, each counted in DROPC (R380, R395). -/
def Window.discard (w : Window) : Window :=
  { (w.addDrop (w.slots.length + w.held.length)) with slots := [], lastSlot := 65535, held := [] }
def Window.refuse (w : Window) : Window := { w with ctl := w.ctl ||| winErr }

/-- A write to MWBASE (R371, R380). -/
def Window.writeBase (w : Window) (v : Word) : Window :=
  let v := v &&& ~~~(0x3F : Word)
  if v = w.base then w
  else if winEn w.ctl || w.busy then w.refuse
  else { w.discard with base := v }

/-- A write to MWCTL (R371, R380). -/
def Window.writeCtl (w : Window) (v : Word) : Window :=
  let kept := w.ctl &&& 0x6000000000000000 &&& ~~~v
  let new := (v &&& 0x8000FFFF001F0003) ||| kept
  let changed := (v ^^^ w.ctl) &&& 0x0000FFFF001F0003 != 0
  let resized := winLog2n v != winLog2n w.ctl
  if winEn w.ctl && winEn v && changed then w.refuse
  else if winEn v && !winEn w.ctl && (winLog2n v < 4 || 16 < winLog2n v || winPol v == 3) then w.refuse
  else if resized && w.busy then w.refuse
  else if resized then { w.discard with ctl := new }
  else { w with ctl := new }

def ttEn (c : Word) : Bool := bit c 63
/-- The windows bound by a TTCTL value (R373). -/
def ttWins (c : Word) : List (BitVec 6) :=
  ([0, 1, 2, 3] : List Nat).filterMap fun i => if bit c (8 * i + 7) then some (BitVec.ofNat 6 (fld c (8 * i) 6)) else none
def ttPrio (c : Word) : Nat := if bit c 55 then fld c 52 3 else 7
def ttErr : Word := 0x4000000000000000
def Timer.refuse (t : Timer) : Timer := { t with ctl := t.ctl ||| ttErr }
/-- The tick time of step k (R374). -/
def Timer.tickAt (t : Timer) (k : Nat) : Nat := t.phase.toNat + k * t.period.toNat
/-- The cutoff of step k (R374). -/
def Timer.cutoff (t : Timer) (k : Nat) : Int := (t.tickAt k : Int) - (t.guardNs.toNat : Int)
/-- The first tick above a time (R374). -/
def Timer.firstTick (t : Timer) (time : Nat) : Nat :=
  if time < t.phase.toNat then 0 else if t.period = 0 then 0 else (time - t.phase.toNat) / t.period.toNat + 1

/-- A write to a register that may not change while the timer runs (R380). -/
def Timer.guarded (t : Timer) (old new : Word) (f : Timer → Timer) : Timer :=
  if old = new then t else if ttEn t.ctl then t.refuse else f t

/-- A write to TTCTL; `taken` says whether a window is bound to another enabled timer (R373, R374, R380). -/
def Timer.writeCtl (t : Timer) (v : Word) (time : Nat) (taken : BitVec 6 → Bool) : Timer :=
  let bindMask : Word := 0xBFBFBFBF
  let kept := t.ctl &&& ttErr &&& ~~~v
  let new := (v &&& (0x80F0000000000000 ||| bindMask)) ||| kept
  let changed := (v ^^^ t.ctl) &&& bindMask != 0
  if ttEn v then
    if ttEn t.ctl then (if changed then t.refuse else { t with ctl := new })
    else if t.period.toNat < 10000 || t.period ≤ t.guardNs || (ttWins v).any taken then t.refuse
    else { t with ctl := new, next := t.firstTick time }
  else { t with ctl := new, pending := none, held := none }

/-- TTCTL as it reads: PEND and RUN are computed (R373). -/
def Timer.readCtl (t : Timer) : Word :=
  t.ctl ||| (if t.pending.isSome then 0x2000000000000000 else 0)
    ||| (if t.held.isSome || t.running.isSome then 0x1000000000000000 else 0)

-- The control page (R368, R369)

def Vd.nmw (v : Vd) : Nat := fld v.vdcfg 16 11
def Vd.wc (v : Vd) : Nat := fld v.vdcfg 0 2
def Vd.part (v : Vd) : Nat := fld v.vdcfg 8 5
def Vd.idleMs (v : Vd) : Nat := fld v.vdcfg 48 16
def Vd.mapWin (v : Vd) (i : BitVec 6) (f : Window → Window) : Vd := { v with wins := v.wins.set i.toNat (f v.wins[i.toNat]) }
def Vd.win (v : Vd) (i : BitVec 6) : Window := v.wins[i.toNat]
def Vd.mapTimer (v : Vd) (i : BitVec 4) (f : Timer → Timer) : Vd := { v with timers := v.timers.set i.toNat (f v.timers[i.toNat]) }
def Vd.timer (v : Vd) (i : BitVec 4) : Timer := v.timers[i.toNat]

/-- The window is bound to an enabled timer other than `t` (R377, R380). -/
def Vd.boundElsewhere (v : Vd) (t : BitVec 4) (w : BitVec 6) : Bool :=
  (List.finRange 16).any fun i => i.val != t.toNat && ttEn v.timers[i].ctl && (ttWins v.timers[i].ctl).contains w

/-- WAKESTAT (R393). -/
def State.wakeStat (s : State) (v : Vd) : Word :=
  va64 (v.remain * 2 ^ 32 + v.inlet.length % 65536 * 65536 + boolNat v.col * 256 + boolNat v.wpend * 128
    + v.wc * 16 + (s.vdState v).code)

/-- A read of 8 aligned bytes of a control page; of a destroyed VD's only WAKESTAT is not 0 (R369, R396). -/
def State.ctlRead (s : State) (v : Vd) (off : Nat) : Word :=
  if off = 0x0008 then s.wakeStat v
  else if v.st = .destroyed then 0
  else if off = 0x0010 then v.vdcfg
  else if off = 0x0018 then v.evbase
  else if off = 0x0020 then v.evhead
  else if off = 0x0028 then v.evlost
  else if off = 0x0030 then v.trapent
  else if off = 0x0038 then v.ringhdr
  else if 0x1000 ≤ off ∧ off < 0x1000 + 0x40 * v.nmw then
    let w := v.win (BitVec.ofNat 6 ((off - 0x1000) / 0x40))
    match (off - 0x1000) % 0x40 with
    | 0x00 => w.base
    | 0x08 => w.ctl
    | 0x10 => w.hold
    | 0x18 => w.cnt
    | _ => 0
  else if 0x2000 ≤ off ∧ off < 0x2400 then
    let t := v.timer (BitVec.ofNat 4 ((off - 0x2000) / 0x40))
    match (off - 0x2000) % 0x40 with
    | 0x00 => t.period
    | 0x08 => t.phase
    | 0x10 => t.guardNs
    | 0x18 => t.desc
    | 0x20 => t.readCtl
    | 0x28 => t.ovr
    | 0x30 => t.k
    | _ => 0
  else 0

/-- A write of 8 aligned bytes of a control page other than WAKE (R369, R371, R373, R384, R387). -/
def Vd.ctlWrite (v : Vd) (time off : Nat) (x : Word) : Vd :=
  if off = 0x0018 then { v with evbase := x &&& 0xFFFFFFFFFFFFF00F }
  else if off = 0x0020 then { v with evhead := x }
  else if off = 0x0030 then { v with trapent := x &&& ~~~(0x3F : Word) }
  else if 0x1000 ≤ off ∧ off < 0x1000 + 0x40 * v.nmw then
    let i := BitVec.ofNat 6 ((off - 0x1000) / 0x40)
    match (off - 0x1000) % 0x40 with
    | 0x00 => v.mapWin i (fun w => w.writeBase x)
    | 0x08 => v.mapWin i (fun w => w.writeCtl x)
    | 0x10 => v.mapWin i (fun w => { w with hold := x &&& 0xFFFFFFFF })
    | 0x18 => v.mapWin i (fun w => { w with cnt := x })
    | _ => v
  else if 0x2000 ≤ off ∧ off < 0x2400 then
    let i := BitVec.ofNat 4 ((off - 0x2000) / 0x40)
    match (off - 0x2000) % 0x40 with
    | 0x00 => v.mapTimer i (fun t => t.guarded t.period x fun t => { t with period := x })
    | 0x08 => v.mapTimer i (fun t => t.guarded t.phase x fun t => { t with phase := x })
    | 0x10 => v.mapTimer i (fun t => t.guarded t.guardNs (x &&& 0xFFFFFFFF) fun t => { t with guardNs := x &&& 0xFFFFFFFF })
    | 0x18 => v.mapTimer i (fun t => { t with desc := x })
    | 0x20 => v.mapTimer i (fun t => t.writeCtl x time (v.boundElsewhere i))
    | 0x28 => v.mapTimer i (fun t => { t with ovr := x &&& 0xFFFFFFFF })
    | _ => v
  else v

/-- A write of 8 aligned bytes of a VD's control page, from a stream, the VD supervisor or the host (R368, R369, R396). -/
def State.ctlWrite (s : State) (vd off : Nat) (x : Word) : State :=
  match s.findVd vd with
  | none => s
  | some v =>
    if v.st = .destroyed then s
    else if off = 0 then s.wake vd
    else s.mapVd vd (fun v => v.ctlWrite s.time off x)

end Sys2Proof.Machine
end

