-- ==== Sys2Proof/Machine/Records.lean ====
section
/-! DEFINITION. Records of media windows: their place in the ring or in the hub (R370, R372, R395). -/
namespace Sys2Proof.Machine

/-- The 64 bytes of a record in the ring (R370). -/
def recBytes (r : Rec) (arr : Word) (late : Bool) : List Byte :=
  leBytes 8 r.t.toNat ++ leBytes 8 arr.toNat ++ leBytes 4 r.seq.toNat ++ leBytes 2 r.sid.toNat
    ++ [r.len, if late then 1 else 0] ++ (r.payload ++ List.replicate 40 0).take 40

def Window.ringSize (w : Window) : Nat := 2 ^ winLog2n w.ctl
/-- The lowest free slot after the one last used, in ring order (R372). -/
def Window.freeSlot (w : Window) : Option Nat :=
  let used := w.slots.map (·.slot)
  ((List.range w.ringSize).map fun i => (w.lastSlot + 1 + i) % w.ringSize).find? fun x => !used.contains x

def winOvf : Word := 0x4000000000000000

/-- A record is discarded for want of room: DROPC rises, OVF is set, and its change is reported (R372). -/
def State.overflow (s : State) (vd : Nat) (n : BitVec 6) : State :=
  match s.findVd vd with
  | none => s
  | some v =>
    let was := bit (v.win n).ctl 62
    let s1 := s.mapVd vd (·.mapWin n fun w => { (w.addDrop 1) with ctl := w.ctl ||| winOvf })
    if was then s1 else s1.event vd 4 (va64 n.toNat) (va64 (((v.win n).dropc + 1) % 2 ^ 32))

/-- The slot of a ring can be written: its physical address, and the state with the leaf marked (R362, R372). -/
def State.slotWritable (s : State) (vd : Nat) (va : Word) : Option (Nat × State) :=
  match s.hubWalk vd va.toNat .write with
  | some (pa, pte, s1) => if pteMt pte ≤ 1 then some (pa, s1) else none
  | none => none

/-- A line that the write of a window's next record must wait for (R333). -/
def State.recordWaits (s : State) (v : Vd) (n : BitVec 6) (arrival : Nat) : Option Nat :=
  match (v.win n).freeSlot with
  | none => none
  | some i => s.hubAccessWaits v.id ((v.win n).base + va64 (64 * i)).toNat 64 .write arrival

/-- An accepted record is placed in the ring, already assigned to its step if that has fired; otherwise it is discarded (R372). -/
def State.placeRecord (s : State) (vd : Nat) (n : BitVec 6) (h : HubRec) : State :=
  match s.findVd vd with
  | none => s
  | some v =>
    let w := v.win n
    match w.freeSlot with
    | none => s.overflow vd n
    | some i =>
      let va := w.base + va64 (64 * i)
      match s.slotWritable vd va with
      | none => (s.mapVd vd (·.mapWin n (·.addDrop 1))).event vd 0xB (va64 n.toNat) va
      | some (pa, s1) =>
        let x : WSlot := { slot := i, t := h.r.t, order := h.order, st := match h.step with | some k => .assigned k | none => .untaken, late := h.late }
        (s1.homePut pa (recBytes h.r h.arr h.late)).mapVd vd (·.mapWin n fun w => { w with slots := w.slots ++ [x], lastSlot := i })

def Vd.parked (v : Vd) : Bool := v.st = .mitten ∧ 2 ≤ v.wc

/-- The hub holds a record that it accepted for a collapsed VD (R395). -/
def State.holdRecord (s : State) (vd : Nat) (n : BitVec 6) (h : HubRec) : State :=
  match s.findVd vd with
  | none => s
  | some v =>
    if Config.hubRecords ≤ (v.win n).held.length then s.overflow vd n
    else s.mapVd vd (·.mapWin n fun w => { w with held := w.held ++ [h] })

/-- The hub writes the records that it held for a window to the ring, in order, as far as their lines can be written; `n` is their number
(R395). -/
def State.flushWindow (vd : Nat) (w : BitVec 6) : Nat → State → State
  | 0, s => s
  | n + 1, s =>
    match s.findVd vd with
    | none => s
    | some v =>
      match (v.win w).held with
      | [] => s
      | h :: rest =>
        match s.recordWaits v w s.stamp with
        | some l => s.markRetried l
        | none => State.flushWindow vd w n ((s.mapVd vd (·.mapWin w fun x => { x with held := rest })).placeRecord vd w h)

/-- Once a wake has begun the held records reach the ring, before any record accepted since (R395). -/
def State.flushVd (s : State) (v : Vd) : State :=
  if v.parked || v.st = .destroyed then s
  else (List.range 64).foldl (fun s i =>
    let w := BitVec.ofNat 6 i
    let n := (v.win w).held.length
    if n = 0 then s else State.flushWindow v.id w n s) s

def State.flushHeld (s : State) : State := s.vds.foldl State.flushVd s

end Sys2Proof.Machine
end

