-- ==== Sys2Proof/Machine/Sched.lean ====
section
/-! DEFINITION. The grid scheduler: descriptors, submissions, acceptance, dependence, completion, placement, stops and
moves of focus (R285 to R312, R347 to R357, R374 to R378). -/
namespace Sys2Proof.Machine

abbrev Desc := Vector Word 16

-- Fields of a launch descriptor (R287)

def dCode (d : Desc) : Word := d[0]
def dTeams (d : Desc) : Nat := fld d[1] 0 33
def dHarts (d : Desc) : Nat := fld d[2] 0 7
def dLph (d : Desc) : Nat := fld d[2] 8 2
def dSph (d : Desc) : Nat := fld d[2] 16 7
def dCf (d : Desc) : Bool := bit d[2] 23
def dPrio (d : Desc) : Nat := fld d[2] 24 3
def dEc (d : Desc) : Nat := fld d[2] 28 2
def dDep (d : Desc) : Word := d[3]
def dDone (d : Desc) : Word := d[4]
def dDoneVal (d : Desc) : Word := d[5]
def dGraph (d : Desc) : Nat := fld d[8] 32 16
def dNode (d : Desc) : Nat := fld d[8] 12 20
def dEp (d : Desc) : BitVec 8 := BitVec.ofNat 8 (fld d[8] 4 8)
def dRmt (d : Desc) : Bool := bit d[8] 3
def dDpin (d : Desc) : Bool := bit d[8] 2
def dDie (d : Desc) : Nat := fld d[8] 0 2
/-- Harts per core. -/
def dN (d : Desc) : Nat := 2 ^ dLph d
/-- Cores that a team occupies (R298). -/
def dCores (d : Desc) : Nat := ceilDiv (dHarts d) (dN d)

def descOf (ws : List Word) : Desc := Vector.ofFn (fun i => ws.getD i.val 0)
def descOfBytes (m : Memory) (pa : Nat) : Desc := Vector.ofFn (fun i : Fin 16 => va64 (m.rd (pa + 8 * i.val) 8))

/-- The device replaces DW9.VD at submission (R287). -/
def withVd (d : Desc) (vd : Nat) : Desc := d.set 9 (setFld d[9] 0 10 vd)

/-- DEPCTR or DONE may hold this address (R288). -/
def counterBad (a : Word) : Bool := a.toNat % 8 != 0 || inLocal a.toNat || inLane a.toNat

def Vd.ep (v : Vd) (e : BitVec 8) : Option Endpoint := (v.eps.find? (fun x => x.1 = e)).map (·.2)
def Vd.epConfig (v : Vd) (e : BitVec 8) : Option EpConfig := (v.ep e).bind (·.cfg)

/-- A field of the descriptor is reserved or out of range (R288). -/
def descBad (v : Vd) (d : Desc) : Bool :=
  fld d[1] 33 31 != 0 || fld d[2] 30 34 != 0 || bit d[2] 27 || fld d[2] 10 6 != 0 || bit d[2] 7 || fld d[8] 48 16 != 0
    || fld d[9] 10 54 != 0 || (d.toList.drop 10).any (· != 0)
    || (dCode d).toNat % 64 != 0 || !canonical (dCode d).toNat
    || dTeams d == 0 || decide (2 ^ 32 < dTeams d) || dHarts d == 0 || decide (8 * dN d < dHarts d) || decide (64 / dN d < dSph d)
    || counterBad (dDep d) || counterBad (dDone d)
    || (!dDpin d && dDie d != 0) || (!dRmt d && (dNode d != 0 || dEp d != 0))
    || (dRmt d && match v.epConfig (dEp d) with | some c => c.node != dNode d | none => true)

def State.findPart (s : State) (id : Nat) : Option Part := s.parts.find? (fun p => p.id = id)
def State.partClusters (s : State) (v : Vd) : List Nat := ((s.findPart v.part).map (·.clusters)).getD []

/-- A read of a dependence counter, if it can be read; its walk marks the leaf (R295, R362). -/
def State.readCounter (s : State) (vd : Nat) (a : Word) : Option Int × State :=
  match s.hubWalk vd a.toNat .read with
  | none => (none, s)
  | some (pa, pte, s1) => (if (s1.controlOf pa pte).isSome || s1.poisoned pa 8 then none else some (signed 64 (s1.mem.rd pa 8)), s1)

/-- A line that the read of a descriptor's counter must wait for (R333). -/
def State.counterWaits (s : State) (vd : Nat) (d : Desc) (arrival : Nat) : Option Nat :=
  if dRmt d || dDep d == 0 then none else s.hubAccessWaits vd (dDep d).toNat 8 .read arrival

/-- Cores 0 to 7 of a cluster that have been removed (R357). -/
def State.removedIn (s : State) (cl : Nat) : List Nat := (s.removed.filter (fun c => c / 8 == cl)).map (· % 8)

/-- The least power of 2 at or above m, for m up to 8. -/
def blockSize (m : Nat) : Nat := if m ≤ 1 then 1 else if m ≤ 2 then 2 else if m ≤ 4 then 4 else 8

/-- The lowest aligned block whose lowest m cores are idle (R298). -/
def freeBlock (busy : List Nat) (m : Nat) : Option Nat :=
  (List.range 8).find? fun b => b % blockSize m = 0 ∧ (List.range' b m).all (fun c => !busy.contains c)

/-- The shape of a team fits no cluster of the VD's partition, or its die holds none (R288, R311). -/
def State.shapeRefused (s : State) (v : Vd) (d : Desc) : Bool :=
  let cls := s.partClusters v
  !(cls.any fun c => (freeBlock (s.removedIn c) (dCores d)).isSome) || (dDpin d && !(cls.any fun c => c / 64 == dDie d))

/-- Why a submission is refused: code 2 or 3 (R288, R295, R311). -/
def State.refusalOf (s : State) (v : Vd) (d : Desc) : Option Nat :=
  if descBad v d then some 2
  else if !dRmt d && dDep d != 0 && (s.readCounter v.id (dDep d)).1.isNone then some 2
  else if !dRmt d && s.shapeRefused v d then some 3
  else none

/-- A launch with RMT = 1 leaves through its endpoint; the scheduler keeps it for a stop walk of its graph (R293, R356). -/
def State.sendRemote (s : State) (vd : Nat) (d : Desc) : State :=
  (s.mapVd vd fun v => { v with remotes := v.remotes ++ [{ desc := d, gid := 0, asked := false, stopped := none, resuming := false }] }).report
    (.remoteLaunch (dEp d) d)

-- GRIDIDs and acceptance (R292, R294)

/-- The first GRIDID at or after `g`, modulo 2^32, that is nonzero and not in use. -/
def freshGid (used : List Nat) : Nat → Nat → Nat
  | 0, g => g
  | n + 1, g => let g' := g % 2 ^ 32; if g' = 0 ∨ g' ∈ used then freshGid used n (g' + 1) else g'

def State.findGrid (s : State) (vd gid : Nat) : Option Grid := s.grids.find? (fun g => g.vd = vd ∧ g.gid = gid)
def State.mapGrid (s : State) (vd gid : Nat) (f : Grid → Grid) : State :=
  { s with grids := upd (fun g => g.vd = vd ∧ g.gid = gid) f s.grids }

/-- A submission is accepted: the grid is Pending, or Ready with no counter or one seen at or below 0 (R292, R294, R295). -/
def State.accept (s0 : State) (v : Vd) (sub : Submission) : Nat × State :=
  let seen := if dDep sub.desc = 0 then (some 0, s0) else s0.readCounter v.id (dDep sub.desc)
  let s := seen.2
  let used := (s.grids.filter (fun g => g.vd = v.id)).map (·.gid)
  let gid := freshGid used (used.length + 2) v.nextGid
  let ready := match seen.1 with | some x => decide (x ≤ 0) | none => false
  let g : Grid :=
    { vd := v.id, gid := gid, desc := sub.desc, descVa := sub.va, prio := sub.prio, aged := 0,
      st := if ready then .ready else .pending, held := false, stopped := none, sent := [], nextTeam := 0, ended := 0, unhandled := false, readyAt := s.stamp,
      timer := sub.timer }
  let s1 := s.mapVd v.id fun v =>
    let v1 := { v with nextGid := gid + 1 }
    match sub.timer with
    | none => v1
    | some (t, k) => v1.mapTimer t fun t => { t with running := t.running.map fun r => if r.k = k then { r with gid := some gid } else r }
  (gid, { s1 with grids := s1.grids ++ [g], stamp := s1.stamp + 1 })

def Vd.away (v : Vd) : Bool := v.st = .mitten ∨ v.st = .waking
/-- A submission to the VD is held in the inlet: the VD is away, or earlier ones are still held (R291, R292, R391). -/
def Vd.holds (v : Vd) : Bool := v.away || !v.inlet.isEmpty

-- Steps of timers (R374 to R378)

def holdPolicy (w : Window) : Bool := winPol w.ctl = 1

/-- Records that a step with cutoff c would assign. -/
def Window.assignable (w : Window) (c : Int) : Nat :=
  (w.slots.filter fun x => x.st = .untaken ∧ (x.t.toNat : Int) ≤ c).length
    + (w.held.filter fun x => x.step = none ∧ (x.r.t.toNat : Int) ≤ c).length

/-- The step may fire: its tick has come and every HOLD window is satisfied (R376). -/
def Vd.mayFire (v : Vd) (time : Nat) (t : Timer) (k : Nat) : Bool :=
  decide (t.tickAt k ≤ time) && (ttWins t.ctl).all fun i =>
    let w := v.win i
    !holdPolicy w || decide (winExpect w.ctl ≤ w.assignable (t.cutoff k)) || decide (t.tickAt k + fld w.hold 0 32 ≤ time)

/-- The firing assigns the records at or below the cutoff (R374). -/
def Window.assign (w : Window) (k : StepId) (c : Int) : Window :=
  { w with
    cut := some (match w.cut with | some x => max x c | none => c)
    slots := w.slots.map fun x => if x.st = .untaken ∧ (x.t.toNat : Int) ≤ c then { x with st := .assigned k } else x
    held := w.held.map fun x => if x.step = none ∧ (x.r.t.toNat : Int) ≤ c then { x with step := some k } else x }

/-- A slot whose record belongs to the step. -/
def WSlot.ofStep (x : WSlot) (k : StepId) : Bool := x.st = .assigned k ∨ x.st = .taken k

/-- The end of a step returns its records to the ring; untaken ones are counted in DROPC (R377). -/
def Window.returnStep (w : Window) (k : StepId) : Window :=
  { (w.addDrop ((w.slots.filter (fun x => x.st = .assigned k)).length + (w.held.filter (fun x => x.step = some k)).length)) with
    slots := w.slots.filter (fun x => !x.ofStep k), held := w.held.filter (fun x => x.step ≠ some k) }

def Vd.endRunning (v : Vd) (t : BitVec 4) : Vd :=
  match (v.timer t).running with
  | none => v
  | some r => (r.wins.foldl (fun v i => v.mapWin i (·.returnStep (t, r.k))) v).mapTimer t fun t => { t with running := none }

/-- The descriptor at DESC as the firing reads it: two halves, each of which may lie on a page of its own (R374, R375). -/
def State.tickDesc (s : State) (v : Vd) (a : Word) : Option Desc × State :=
  if a.toNat % 64 ≠ 0 then (none, s)
  else match s.hubWalk v.id a.toNat .read with
    | none => (none, s)
    | some (p0, e0, s1) =>
      match s1.hubWalk v.id ((a.toNat + 64) % 2 ^ 64) .read with
      | none => (none, s1)
      | some (p1, e1, s2) =>
        let bad (pa : Nat) (pte : Word) : Bool := (s2.controlOf pa pte).isSome || s2.poisoned pa 64
        let half (pa : Nat) : List Word := (List.range 8).map fun i => va64 (s2.mem.rd (pa + 8 * i) 8)
        (if bad p0 e0 || bad p1 e1 then none else some (descOf (half p0 ++ half p1)), s2)

/-- A line that the reading of a tick's descriptor, or of its counter, must wait for (R333). -/
def State.tickWaits (s : State) (v : Vd) (a : Word) (arrival : Nat) : Option Nat :=
  match s.hubAccessWaits v.id a.toNat 64 .read arrival with
  | some l => some l
  | none =>
    match s.hubAccessWaits v.id ((a.toNat + 64) % 2 ^ 64) 64 .read arrival with
    | some l => some l
    | none => (s.tickDesc v a).1.bind fun d => s.counterWaits v.id d arrival

/-- The hub already holds the request. -/
def State.hubHas (s : State) (op : HubOp) : Bool := s.hubq.any (·.op == op)

/-- Submits the running step's descriptor; a refusal ends the step with event 0x0005, a full inlet delays it, and the hub holds it for a
pinned line (R291, R333, R375). -/
def State.submitStep (s : State) (vd : Nat) (t : BitVec 4) (arrival : Nat) : State :=
  match s.findVd vd with
  | none => s
  | some v =>
    let tm := v.timer t
    match tm.running with
    | none => s
    | some r =>
      if Config.inletSize ≤ v.inlet.length || s.hubHas (.act (.stepFire vd t)) then s
      else match s.tickWaits v tm.desc arrival with
      | some l => s.hubKeep (.act (.stepFire vd t)) l arrival
      | none =>
        let got := s.tickDesc v tm.desc
        let refused (code : Nat) : State := (got.2.mapVd vd (·.endRunning t)).event vd 5 (va64 t.toNat) (va64 code)
        match got.1 with
        | none => refused 2
        | some d =>
          match got.2.refusalOf v d with
          | some c => refused c
          | none =>
            let sub : Submission :=
              { desc := withVd d vd, va := tm.desc, prio := ttPrio tm.ctl, timer := some (t, r.k), remote := false, asker := none }
            -- a remote launch leaves through its endpoint and no grid of this module runs the step
            if dRmt d then (got.2.mapVd vd (·.endRunning t)).sendRemote vd sub.desc
            else if v.holds then got.2.mapVd vd fun v => { v with inlet := v.inlet ++ [sub] } else (got.2.accept v sub).2

/-- A step fires: it assigns its records, writes K and enters the inlet (R374). -/
def State.fire (s : State) (vd : Nat) (t : BitVec 4) (k : Nat) : State :=
  let s1 := s.mapVd vd fun v =>
    let tm := v.timer t
    let ws := ttWins tm.ctl
    (ws.foldl (fun v i => v.mapWin i (·.assign (t, k) (tm.cutoff k))) v).mapTimer t fun tm =>
      { tm with k := va64 k, fired := some (tm.cutoff k, tm.tickAt k), held := none, running := some { k := k, gid := none, wins := ws } }
  s1.submitStep vd t s1.stamp

/-- Fires a step if it may fire, and otherwise holds it (R376). -/
def State.fireOrHold (s : State) (vd : Nat) (t : BitVec 4) (k : Nat) : State :=
  match s.findVd vd with
  | none => s
  | some v =>
    if v.mayFire s.time (v.timer t) k then s.fire vd t k
    else s.mapVd vd (·.mapTimer t fun tm => { tm with held := some { k := k, gid := none, wins := [] } })

/-- With no step running or held, the pending step becomes the current one (R377, R378). -/
def State.firePending (s : State) (vd : Nat) (t : BitVec 4) : State :=
  match s.findVd vd with
  | none => s
  | some v =>
    let tm := v.timer t
    if tm.running.isSome || tm.held.isSome then s
    else match tm.pending with
      | none => s
      | some p => (s.mapVd vd (·.mapTimer t fun tm => { tm with pending := none })).fireOrHold vd t p.k

-- Completion (R296, R377)

/-- A line that a grid's DONE add must wait for (R296, R333). -/
def State.doneWaits (s : State) (g : Grid) (arrival : Nat) : Option Nat :=
  if g.unhandled || dDone g.desc == 0 then none else s.hubAccessWaits g.vd (dDone g.desc).toNat 8 .atomic arrival

/-- Adds DONEVAL at DONE at the line's home, as signal does, or reports event 0x000C, on a CMP page too (R296, log 96). -/
def State.addDone (s : State) (g : Grid) : State :=
  if g.unhandled || dDone g.desc = 0 then s
  else
    let failed (s : State) : State := s.event g.vd 0xC (va64 g.gid) (dDone g.desc)
    match s.hubWalk g.vd (dDone g.desc).toNat .atomic with
    | none => failed s
    | some (pa, pte, s1) =>
      if pteMt pte = 3 || s1.poisoned pa 8 then failed s1
      else s1.homePut pa (leBytes 8 (s1.mem.rd pa 8 + (dDoneVal g.desc).toNat))

/-- GRID_COMPLETION: every dirty byte of the grid's cores is already at its home (R139, R318); the DONE add is made, the
GRIDID becomes free and a timer's step ends (R296, R344, R377). -/
def State.completeGrid (s : State) (g : Grid) : State :=
  let s1 := { s.addDone g with grids := (s.addDone g).grids.filter (fun x => !(x.vd == g.vd && x.gid == g.gid)) }
  match g.timer with
  | none => s1
  | some (t, k) =>
    match s1.findVd g.vd with
    | none => s1
    | some v =>
      if ((v.timer t).running.map (·.k)) = some k then (s1.mapVd g.vd (·.endRunning t)).firePending g.vd t else s1

def Grid.finished (g : Grid) : Bool := g.st = .running ∧ dTeams g.desc ≤ g.ended

/-- A grid all of whose teams have ended is completed, or its DONE add is held by the hub (R296, R333). -/
def State.finishGrid (s : State) (g : Grid) (arrival : Nat) : State :=
  match s.doneWaits g arrival with
  | some l => s.hubKeep (.done g.vd g.gid) l arrival
  | none => s.completeGrid g

/-- Completes every grid all of whose teams have ended. -/
def State.finishGrids (s : State) : State :=
  (s.grids.filter Grid.finished).foldl (fun s g => if s.hubHas (.done g.vd g.gid) then s else s.finishGrid g s.stamp) s

-- What the scheduler sees of writes (R290, R295)

/-- GRID_READY: the scheduler reads a Pending grid's counter (R295). -/
def State.lookAt (s : State) (vd gid arrival : Nat) : State :=
  match s.findGrid vd gid with
  | none => s
  | some g =>
    if g.st ≠ .pending || s.hubHas (.look vd gid) then s
    else match s.counterWaits vd g.desc arrival with
      | some l => s.hubKeep (.look vd gid) l arrival
      | none =>
        let r := s.readCounter vd (dDep g.desc)
        match r.1 with
        | some x => if x ≤ 0 then
            { r.2.mapGrid vd gid (fun g => { g with st := .ready, readyAt := r.2.stamp }) with stamp := r.2.stamp + 1 } else r.2
        | none => r.2

/-- A Pending grid whose counter's line was written reads it again (R295). -/
def State.gridSees (s : State) (pa n : Nat) (g : Grid) : State :=
  if g.st ≠ .pending then s
  else match s.hubTranslate g.vd (dDep g.desc).toNat .read with
    | none => s
    | some (c, _) => if lineOf pa ≤ lineOf c ∧ lineOf c ≤ lineOf (pa + n - 1) then s.lookAt g.vd g.gid s.stamp else s

def ringMalformed (m : Memory) (h : Nat) : Bool :=
  let log2 := m.rd (h + 16) 1
  let slots := m.rd (h + 24) 8
  log2 < 4 || 16 < log2 || m.rd (h + 17) 7 != 0 || slots % 128 != 0 || !inDevice slots || m.rd (h + 48) 8 != 0 || m.rd (h + 56) 8 != 0

/-- The header records a refused slot or take (R289, R290). -/
def State.ringError (s : State) (h code slot : Nat) : State :=
  s.homePut (h + 32) (leBytes 4 (s.mem.rd (h + 32) 4 + 1) ++ leBytes 4 code ++ leBytes 8 slot)

/-- The entries of a table of level `lvl` that memory lists: the index and the entry. -/
def tableEntries (m : Memory) (t lvl : Nat) : List (Nat × Word) :=
  let n := if lvl = 3 then 4 else 8192
  let ix := ((m.filter fun c => decide (t ≤ c.1 ∧ c.1 < t + 8 * n)).map fun c => (c.1 - t) / 8).dedup
  ix.map fun i => (i, va64 (m.rd (t + 8 * i) 8))

/-- The virtual addresses that a VD's page tables map to a physical address, in the half of the address space that the L3 index gives;
the first argument is the level + 1. -/
def vasOf (m : Memory) (pa : Nat) : Nat → Nat → Nat → List Nat
  | 0, _, _ => []
  | lvl + 1, t, base =>
    (tableEntries m t lvl).flatMap fun x =>
      let va := base + x.1 * leafSize lvl
      if !pteV x.2 || pteMalformed lvl x.2 then []
      else if ptePointer x.2 then vasOf m pa lvl (pteBase x.2) va
      else if decide (pteBase x.2 ≤ pa ∧ pa < pteBase x.2 + leafSize lvl) && pteMt x.2 != 3 then [va + (pa - pteBase x.2)] else []

/-- The virtual address of a descriptor that the scheduler read at a physical address: one that the VD's page tables give it, and with none
a free value (R19, log 22). -/
def State.descVa (s : State) (v : Vd) (pa tick : Nat) : Word :=
  let all := (vasOf s.mem pa 4 v.root 0).map fun a => if 2 ^ 56 ≤ a then va64 (a + 0x7F * 2 ^ 57) else va64 a
  (all[(Config.descAddress tick).toNat % all.length]?).getD (Config.descAddress tick)

/-- Takes `n` slots from HEAD, in order (R290); a VD that is not active holds no more submissions than its inlet has places, and the take
goes on when it is (R391). A slot with an uncorrectable error is reported to the VD, and gives the bytes that stand there (R409, log 76). -/
def State.takeSlots (s : State) (vd h arrival : Nat) : Nat → State
  | 0 => s
  | n + 1 =>
    match s.findVd vd with
    | none => s
    | some v =>
      let head := s.mem.rd (h + 8) 8
      let at_ := s.mem.rd (h + 24) 8 + head % 2 ^ s.mem.rd (h + 16) 1 * 128
      let d := descOfBytes s.mem at_
      if v.holds && decide (Config.inletSize ≤ v.inlet.length) then s.mapVd vd fun v => { v with ringDue := true }
      else match (match s.hubWaits at_ 128 arrival with | some l => some l | none => s.counterWaits vd d arrival) with
      | some l => s.hubKeep (.take vd) l arrival
      | none =>
        let sub : Submission :=
          { desc := withVd d vd, va := s.descVa v at_ s.tick, prio := dPrio d, timer := none, remote := false, asker := none }
        let sp := if s.poisoned at_ 128 then s.event vd 8 0 (va64 at_) else s
        let s0 := { sp with tick := sp.tick + 1 }
        let s1 := match s0.refusalOf v d with
          | some c => s0.ringError h c head
          | none => if dRmt d then s0.sendRemote vd sub.desc
                    else if v.holds then s0.mapVd vd fun v => { v with inlet := v.inlet ++ [sub] } else (s0.accept v sub).2
        (s1.homePut (h + 8) (leBytes 8 (head + 1))).takeSlots vd h arrival n

def Vd.ringHead (v : Vd) : Nat := fld v.ringhdr 6 46 * 64

/-- HOST_RING_TAKE: a take of slots, each write to TAIL's own. One that a full inlet stopped goes on with this one; one that the hub holds for
a line is another, and finds what this one leaves (R290, log 95). -/
def State.ringTake (s0 : State) (v : Vd) (arrival : Nat) : State :=
  let s := s0.mapVd v.id fun v => { v with ringDue := false }
  let h := v.ringHead
  match s.hubWaits h 64 arrival with
  | some l => s.hubKeep (.take v.id) l arrival
  | none =>
    if s.poisoned h 64 then s.event v.id 8 0 (va64 h)
    else
      let tail := s.mem.rd h 8
      let head := s.mem.rd (h + 8) 8
      if ringMalformed s.mem h then s.ringError h 2 head
      else
        let size := 2 ^ s.mem.rd (h + 16) 1
        let ahead := (tail + 2 ^ 64 - head) % 2 ^ 64
        s.takeSlots v.id h arrival (min ahead size)

/-- What the scheduler does about one write at the homes; a write to TAIL is a wake write and starts a take (R290, R391). -/
def State.noteWrite (s : State) (w : Nat × Nat) : State :=
  let s1 := s.grids.foldl (fun s g => s.gridSees w.1 w.2 g) s
  s1.vds.foldl (fun s v =>
    let h := v.ringHead
    if v.st ≠ .destroyed ∧ w.1 < h + 8 ∧ h < w.1 + w.2 then (s.wake v.id).ringTake v s.stamp else s) s1

/-- A roused VD that no longer meets R389 may become idle again (R388). -/
def State.watchIdle (s : State) : State :=
  { s with vds := s.vds.map fun v => if v.roused && !s.vdIdle v then { v with roused := false } else v }

-- Cores, contexts and focus

def State.setCore (s : State) (id : Nat) (c : Core) : State :=
  if id = s.coreId then { s with core := c } else { s with cores := kset Core.start s.cores id c }
def State.setClus (s : State) (id : Nat) (c : Clus) : State :=
  if id = s.clusId then { s with clus := c } else { s with cluss := kset Clus.start s.cluss id c }

/-- Applies `f` to a hart of a team, by its index there, on its core or in the team's saved context. -/
def State.mapHart (s : State) (k : TeamKey) (ix : Nat) (f : Ctx → Ctx) : State :=
  let g (c : Ctx) : Ctx := if c.of k && s.ixOf c == ix then f c else c
  let c := g s.ctx
  let kept (x : Saved) : Saved := { x with ctxs := x.ctxs.zipIdx.map fun y => if y.2 = ix then f y.1 else y.1 }
  { s with
    me := if s.isE then c.e else c.a, peer := if s.isE then c.a else c.e, hart := c.hart, parked := s.parked.map g
    teams := upd (fun t => t.key = k) (fun t =>
      match t.st with
      | .saved x => { t with st := .saved (kept x) }
      | .restoring x => { t with st := .restoring (kept x) }
      | _ => t) s.teams }

/-- The answer of a launch reaches the stream that waits for it (R137, R291, R293). -/
def Ctx.answered (c : Ctx) (e : Bool) (w : Word) : Ctx :=
  let go (t : Strm) : Option (Strm × Hart) :=
    match t.wait with
    | some (.answer d a) => some (t.answered c.hart d a w)
    | some (.inlet d a) => some (t.answered c.hart d a w)
    | _ => none
  match go (if e then c.e else c.a) with
  | none => c
  | some x => if e then { c with e := x.1, hart := x.2 } else { c with a := x.1, hart := x.2 }

/-- The hart in focus holds no team. -/
def State.vacant (s : State) : Bool := s.me.stopped && s.peer.stopped && s.hart.grid == 0

/-- Puts a context on its hart. -/
def State.putCtx (s : State) (c : Ctx) : State :=
  if c.hart.id = s.hart.id then { s with isE := false, me := c.a, peer := c.e, hart := c.hart }
  else { s with parked := s.parked.filter (fun x => x.hart.id ≠ c.hart.id) ++ [c] }

/-- Moves the focus to a stream of a hart that the cores hold; with no such hart nothing changes (log 7). -/
def State.focusOn (s : State) (id : BitVec 14) (e : Bool) : State :=
  if s.hart.id = id then
    if s.isE = e then s else { s with isE := e, me := s.peer, peer := s.me }
  else match s.parked.find? (fun c => c.hart.id = id) with
    | none => s
    | some c =>
      let rest := s.parked.filter (fun x => x.hart.id ≠ id)
      let out := if s.vacant then rest else rest ++ [s.ctx]
      let s1 := { s with cores := kset Core.start s.cores s.coreId s.core, cluss := kset Clus.start s.cluss s.clusId s.clus, parked := out }
      let core := kget Core.start s1.cores (id.toNat / 8)
      let clus := kget Clus.start s1.cluss (id.toNat / 64)
      { s1 with
        isE := e, me := if e then c.e else c.a, peer := if e then c.a else c.e, hart := c.hart, core := core, clus := clus
        cores := kset Core.start s1.cores (id.toNat / 8) Core.start, cluss := kset Clus.start s1.cluss (id.toNat / 64) Clus.start }

-- Teams and placement (R297 to R304)

def State.findTeam (s : State) (k : TeamKey) : Option Team := s.teams.find? (fun t => t.key = k)
def State.mapTeam (s : State) (k : TeamKey) (f : Team → Team) : State := { s with teams := upd (fun t => t.key = k) f s.teams }
def Team.occupies (t : Team) : Bool := match t.st with | .saved _ => false | _ => true
def Grid.effPrio (g : Grid) : Nat := if g.prio = 7 then 7 else min 6 (g.prio + g.aged)
def State.teamGrid (s : State) (t : Team) : Option Grid := s.findGrid t.key.vd t.key.gid
def State.teamPrio (s : State) (t : Team) : Nat := ((s.teamGrid t).map Grid.effPrio).getD 0
def State.teamCf (s : State) (t : Team) : Bool := ((s.teamGrid t).map (fun g => dCf g.desc)).getD false

/-- Cores 0 to 7 of a cluster that the given teams occupy, or that have been removed (R357). -/
def State.busyCores (s : State) (ts : List Team) (cl : Nat) : List Nat :=
  let all := s.removedIn cl ++ (ts.filter (fun t => t.clus = cl)).flatMap fun t => List.range' t.core t.cores
  (List.range 8).filter all.contains

/-- The charge of a new team (R302). -/
def State.chargeOf (s : State) (d : Desc) : Nat := s.ecFig.toList.getD (dEc d) 0 * dCores d

/-- The partition supervisor replaces the class figures: the charge of a team on cores is the new figure times m, with the excess that it has
been given since (R302). -/
def State.setFigures (s : State) (ec : Vector Nat 4) : State :=
  let s1 := { s with ecFig := ec }
  { s1 with teams := s.teams.map fun t =>
      match s.teamGrid t with
      | some g => if t.occupies then { t with charge := t.charge - s.chargeOf g.desc + s1.chargeOf g.desc } else t
      | none => t }

def dieCharge (ts : List Team) (die : Nat) : Nat := ((ts.filter (fun t => t.clus / 64 = die)).map (·.charge)).sum

/-- HBM stacks at 95 °C or above (R408). -/
def State.hotStacks (s : State) : Nat := ((List.finRange 8).filter fun i => s.hbm[i].hot).length

/-- The grant of a die: a hot stack's eighth of it is halved, and a hot die's is lowered by a quarter (R405, R408). -/
def State.grantOf (s : State) (die : Nat) : Nat :=
  match s.dies.toList[die]? with
  | some d =>
    let g := d.grant * (16 - s.hotStacks) / 16
    if d.hot then g * 3 / 4 else g
  | none => 0

/-- A team of the grid fits the cluster beside the occupying teams `ts` (R299, R303): the block's first core. Priority 7 is not held to the
grant, as R299 has it, not even where R304 takes victims (log 100). -/
def State.fitsIn (s : State) (ts : List Team) (g : Grid) (cl : Nat) : Option Nat :=
  if dDpin g.desc ∧ cl / 64 ≠ dDie g.desc then none
  else if dCf g.desc ∧ ts.any (fun t => t.clus = cl && s.teamCf t) then none
  else if g.prio ≠ 7 ∧ s.grantOf (cl / 64) < dieCharge ts (cl / 64) + s.chargeOf g.desc then none
  else freeBlock (s.busyCores ts cl) (dCores g.desc)

def State.occupying (s : State) : List Team := s.teams.filter Team.occupies

def State.idleAfter (s : State) (ts : List Team) (cl m : Nat) : Nat := 8 - (s.busyCores ts cl).length - m

/-- The cluster and block that the scheduler chooses: fewest idle cores after placement, then the lowest number (R299). -/
def State.choosePlace (s : State) (ts : List Team) (g : Grid) : Option (Nat × Nat) :=
  match s.findVd g.vd with
  | none => none
  | some v =>
    let cands := (s.partClusters v).filterMap fun cl => (s.fitsIn ts g cl).map fun b => (cl, b)
    best (fun x y => decide (s.idleAfter ts x.1 (dCores g.desc) < s.idleAfter ts y.1 (dCores g.desc)
      ∨ (s.idleAfter ts x.1 (dCores g.desc) = s.idleAfter ts y.1 (dCores g.desc) ∧ x.1 < y.1))) cands

/-- A team that waits for a place: its key, its grid, since when, whether it was swapped out, and whether its save is still to end. -/
structure Waiting where
  key : TeamKey
  grid : Grid
  since : Nat
  swapped : Bool
  saving : Bool

def Grid.active (g : Grid) : Bool := (g.st = .ready ∨ g.st = .running) ∧ !g.held

/-- A VD whose teams the scheduler may place; a waking VD's saved teams are restored before it is active (R388, R390). -/
def State.placeable (s : State) (vd : Nat) (swapped : Bool) : Bool :=
  match s.findVd vd with
  | some v => v.st = .active ∨ v.st = .created ∨ (swapped ∧ v.st = .waking)
  | none => false

/-- Teams of a grid that were never placed, as many as the module's cores could hold (R297). -/
def Grid.fresh (g : Grid) : List Nat := List.range' g.nextTeam (min (dTeams g.desc - g.nextTeam) 2048)

/-- The VD collapses or wakes under WC0, which keeps its stopped teams on their cores (R390). -/
def State.keeps (s : State) (vd : Nat) : Bool := (s.findVd vd).any fun v => v.away && v.wc == 0

/-- A stopped team that stays on its cores, until the scheduler swaps it out (R304, R305, R390). -/
def State.stays (s : State) (t : Team) : Bool := t.st == .stopping && !t.out && s.keeps t.key.vd

/-- Waiting teams; a swapped one waits from its stop request (R297, R301). -/
def State.waiting (s : State) : List Waiting :=
  let fresh := s.grids.flatMap fun g =>
    if g.active && s.placeable g.vd false && !dRmt g.desc then
      g.fresh.map fun t => { key := ⟨g.vd, g.gid, t⟩, grid := g, since := g.readyAt, swapped := false, saving := false } else []
  let out := s.teams.filterMap fun t =>
    match t.st, s.teamGrid t with
    | .saved _, some g =>
      if g.active && s.placeable g.vd true then some { key := t.key, grid := g, since := t.since, swapped := true, saving := false } else none
    | .stopping, some g =>
      if g.active && s.placeable g.vd true && !s.stays t then some { key := t.key, grid := g, since := t.since, swapped := true, saving := true }
      else none
    | _, _ => none
  fresh ++ out

/-- The order in which places are offered (R301); teams of two VDs that are alike in all of it stand in the order of the list (log 99). -/
def offerBefore (x y : Waiting) : Bool :=
  if x.grid.effPrio ≠ y.grid.effPrio then y.grid.effPrio < x.grid.effPrio
  else if x.since ≠ y.since then x.since < y.since
  else if x.key.gid ≠ y.key.gid then x.key.gid < y.key.gid
  else x.key.tid < y.key.tid

/-- Hart j of a team whose block starts at core `c0` of cluster `cl`, in its starting state (R50, R298). -/
def startCtx (v : Vd) (g : Grid) (tid cl c0 j : Nat) : Ctx :=
  let n := dN g.desc
  let id := BitVec.ofNat 14 (cl * 64 + (c0 + j / n) * 8 + j % n)
  let lanes := Config.laneCount / n
  let pc (o : Nat) := dCode g.desc + va64 (4 + o)
  { a := Strm.start (pc 0) g.descVa lanes v.trapent, e := Strm.start (pc 64) g.descVa lanes v.trapent
    hart := Hart.start id (BitVec.ofNat 32 tid) (BitVec.ofNat 32 g.gid) (BitVec.ofNat 10 v.id) (BitVec.ofNat 2 (dLph g.desc))
      (BitVec.ofNat 7 (dSph g.desc)) (dCf g.desc) }

end Sys2Proof.Machine
end

