-- ==== Sys2Proof/Machine/Access.lean ====
section
/-! DEFINITION. Scalar accesses: where an address lies, the checks of R144 in order, and the read or write at the
scratchpad, the core data cache, the home or a control page (R38, R142 to R145, R316, R368). -/
namespace Sys2Proof.Machine

/-- Where a scalar access lies (R38, R314, R368). -/
inductive Loc where
  | scratch (off : Nat)
  | cached (pa : Nat)
  | home (pa : Nat)
  | control (vd off : Nat)
  deriving DecidableEq, Repr

/-- MT 00, 01 and 10 pages without CMP may be held in the core data cache (R316). -/
def cacheable (pte : Word) : Bool := pteMt pte != 3 && !pteCmp pte

/-- The offset of `n` bytes at a local-window address within the partition, if they lie below its size (R38). -/
def State.scratchAt (s : State) (a n : Nat) : Option Nat :=
  if inLocal a ∧ a - localBase + n ≤ s.hart.scratchSize then some (a - localBase) else none

/-- Checks 1 to 3 of R144 and the lane-store window (R99, R245). -/
def State.windowCheck (s : State) (a n : Nat) (acc : Acc) (local_ : Bool) : Option TrapInfo :=
  if s.isE && !inLocal a then some (.plain wrongStream (va64 a))
  else if a % n ≠ 0 then some (.addr misaligned (va64 a) acc)
  else if inLocal a && (!local_ || (s.scratchAt a n).isNone) then some (.addr protection (va64 a) acc)
  else if inLane a then some (.addr protection (va64 a) acc)
  else none

/-- Finds where an access of the stream in focus lies, with every check of R144 but poison. `inCache`: the access is one of
those performed in the core data cache (R316). -/
def State.findLoc (s : State) (a n : Nat) (acc : Acc) (inCache : Bool) : Chk (Loc × Word × State) :=
  match s.windowCheck a n acc true with
  | some t => .trap t
  | none =>
    if s.interlocked a n (writes acc) then .stall .interlock
    else match s.scratchAt a n with
      | some o => .ok (.scratch o, 0, s)
      | none =>
        (s.trans a acc s.user false).bind fun (pa, pte, s1) =>
          match s1.controlOf pa pte with
          | some v => .ok (.control v.id (pa % 65536), pte, s1)
          | none =>
            if inCache && cacheable pte && (s1.cached (lineOf pa)).isSome then .ok (.cached pa, pte, s1)
            else match s1.mustWait pa n with
              | some l => .stall (s.pinWait l)
              | none =>
                if inCache && cacheable pte then
                  match s1.setWaits (lineOf pa) with
                  | some l => .stall (s.pinWait l)
                  | none => .ok (.cached pa, pte, s1.counted pa 1)
                else .ok (.home pa, pte, s1.counted pa n)

/-- `n` bytes at an offset of the scratchpad have been read: each 64-bit word among them with an uncorrectable error is reported to the VD, by
the local-window address of its first byte read (R409, log 67). -/
def State.noteScratch (s : State) (o n : Nat) : State :=
  (s.hart.scratchBad.filter fun w => decide (o < 8 * w + 8 ∧ 8 * w < o + n)).foldl
    (fun s w => s.event s.hart.vd.toNat 8 0 (va64 (localBase + max o (8 * w)))) s

/-- Reads `n` bytes at a location (R5, R316, R368). -/
def State.readLoc (s : State) (l : Loc) (n : Nat) : Nat × State :=
  match l with
  | .scratch o => (s.hart.scratch.rd o n, s.noteScratch o n)
  | .cached pa => s.cacheRead pa n
  | .home pa => s.homeRead pa n
  | .control vd off =>
    (if n = 8 ∧ off % 8 = 0 then match s.findVd vd with | some v => (s.ctlRead v off).toNat | none => 0 else 0, s)

/-- Writes `n` bytes at a location. -/
def State.writeLoc (s : State) (l : Loc) (n v : Nat) : State :=
  match l with
  | .scratch o => { s with hart := { s.hart with scratch := s.hart.scratch.wr o n v } }
  | .cached pa => s.cacheWrite pa (leBytes n v)
  | .home pa => s.homeWrite pa (leBytes n v)
  | .control vd off => if n = 8 ∧ off % 8 = 0 then s.ctlWrite vd off (va64 v) else s

/-- A load meets a poisoned line (R145). -/
def State.locPoisoned (s : State) (l : Loc) (n : Nat) : Bool :=
  match l with
  | .cached pa => s.poisoned pa n
  | .home pa => s.poisoned pa n
  | _ => false

/-- An access performed at the home comes after the write-back of the line's dirty bytes, which may clear its poison (R145, R317). -/
def State.settleLoc (s : State) (l : Loc) (n : Nat) : State :=
  match l with
  | .home pa => s.beforeHome pa n
  | _ => s

/-- The VD receives event 0x0008 with kind 0 and the poisoned line's address (R409). -/
def State.reportPoison (s : State) (pa : Nat) : State := s.event s.hart.vd.toNat 8 0 (va64 (pa / 128 * 128))

def Loc.pa : Loc → Nat
  | .cached pa => pa
  | .home pa => pa
  | _ => 0

/-- A load of `n` bytes: its value and the state after it; a trap or stall acts on `s0`, the state before the pops
(R17, R142, R144). -/
def State.loadMem (s0 s : State) (a n : Nat) (inCache : Bool) (k : Nat → State → Res) : Res :=
  (s.findLoc a n .read inCache).run s0 fun (l, _, s1) =>
    let s2 := s1.settleLoc l n
    if s2.locPoisoned l n then (State.reportPoison { s2 with hart := s0.hart } l.pa).trap (.addr memoryError (va64 a) .read)
    else k (s2.readLoc l n).1 (s2.readLoc l n).2

/-- A store of the low `n` bytes of `v`; a trap or stall acts on `s0` (R142, R144). -/
def State.storeMem (s0 s : State) (a n v : Nat) (inCache : Bool) (k : Loc → State → Res) : Res :=
  (s.findLoc a n .write inCache).run s0 fun (l, _, s1) => k l (s1.writeLoc l n v)

/-- Bytes of a size code (R84). -/
def sizeBytes : Size → Nat
  | .b => 1
  | .h => 2
  | .w => 4
  | .d => 8

/-- The 64-bit value of a loaded number (R142). -/
def extend (u : Bool) (n v : Nat) : Word := if u then va64 v else wordOf (signed (8 * n) v)

end Sys2Proof.Machine
end

