-- ==== Sys2Proof/WellFormed.lean ====
section
/-! DEFINITION. Which instruction terms have an encoding: the checks on codes and field combinations that
the formats refuse as "illegal instruction" without looking at the machine (R84, R85, R92). -/
namespace Sys2Proof

/-- A register field that names q0 to q7 (R14). -/
def namesQueue (r : Reg) : Bool := 24 ≤ r.toNat

/-- The checks whose failing word is the first word. -/
def Instr.wfFirst : Instr → Bool
  | .sext z _ _ => z != .d                                   -- R111
  | .zext z _ _ => z != .d
  | .ld u z _ _ _ => !(u && z == .d)                         -- R84, R142
  | .fence o _ => o != .rlx                                  -- R84
  | .wun op f _ _ => f != .i32 || op == .abs || op == .neg   -- R234
  | .wcmp c f _ _ _ => f == .i32 || !(c == .ltu || c == .geu) -- R85
  | .wred op f g _ _ => (f == .i32 || !(op == .maxu || op == .minu)) && g != 7
  | .wmov op _ _ _ x => op != .bc || x == 0                  -- R236
  | .loop l _ n => l.toNat ≤ 5 && n != 0                     -- R120
  | .lstride l a _ => l.toNat ≤ 5 && !namesQueue a           -- R121
  | .tlbinv k a => k == .va || a == 0                        -- R136
  | .mma _ _ _ d _ _ => !namesQueue d                        -- 07, mma and mmas
  | .mmas _ _ _ d _ _ => !namesQueue d
  | .vtow _ f _ _ _ => f == .f32 || f == .i32                -- R238
  | .wtov f _ _ _ => f == .f32 || f == .i32
  | .twin timer _ item _ => if timer then item.toNat ≤ 3 else item.toNat ≤ 4  -- R274
  | .movh d _ => !namesQueue d                               -- R114
  | .bins d _ _ _ => !namesQueue d
  | .cas z _ _ _ _ _ _ => z == .w || z == .d                 -- R151
  | .casv z _ _ _ _ _ _ => z == .w || z == .d                -- R160
  | .ldo u z o _ _ _ _ => !(u && z == .d) && (o == .rlx || o == .acq)   -- R143
  | .sto _ o _ _ _ _ => o == .rlx || o == .rel
  | .vld _ _ z _ _ _ _ => z != .d                            -- R198
  | .vlds _ _ z _ _ _ _ _ => z != .d
  | .vldx _ _ z _ _ _ _ _ _ => z != .d
  | .vldff _ _ z _ _ _ _ => z != .d
  | .vst _ z _ _ _ _ _ => z != .d
  | .vsts _ z _ _ _ _ _ _ => z != .d
  | .vstx _ z _ _ _ _ _ _ _ => z != .d
  | .cpyg o _ qm _ _ _ _ _ _ => !qm || namesQueue o.b         -- R254
  | .cpwait _ a _ drain => !drain || a == 0                  -- R266
  | _ => true

/-- The checks whose failing word is EXT. -/
def Instr.wfExt : Instr → Bool
  | .fshl _ _ _ i sh c => if i then c == 0 else sh == 0      -- R114
  | .fshr _ _ _ i sh c => if i then c == 0 else sh == 0
  | .bext _ _ _ len pos => 1 ≤ len.toNat && pos.toNat + len.toNat ≤ 64
  | .bins _ _ len pos => 1 ≤ len.toNat && pos.toNat + len.toNat ≤ 64
  | .vamo op _ _ _ _ _ _ _ _ _ => op != .swap                -- R198
  | .cpys _ rby _ => rby != 0                                -- R248
  | .cpyt _ _ t dq xf pw kb c =>                             -- R249
    dq != 3 && !(t && dq == 2) && (if dq == 0 then xf == 0 else 1 ≤ xf.toNat && xf.toNat ≤ 4)
      && ((t && dq == 0) || pw == 0) && (if dq == 2 then kb != 0 else kb == 0 && c == 0)
  | .cpyo _ z q red xf kb c =>                               -- R251
    (red == .none || (!q && !z)) && (if q then 1 ≤ xf.toNat && xf.toNat ≤ 4 && kb != 0 else xf == 0 && kb == 0 && c == 0)
  | .cpyg _ _ _ rng _ _ sw _ _ => !(sw && rng)               -- R254
  | .cpstat _ _ item => item != 7                            -- R265
  | _ => true

/-- The instruction has an encoding. -/
def Instr.wf (i : Instr) : Bool := i.wfFirst && i.wfExt

end Sys2Proof
end

