-- ==== Sys2Proof/Decode.lean ====
section
/-! DEFINITION. Decoding of instruction words, total, and the encoder (R80 to R85, R93 to R97 and the
encoding tables of the entries). Words are split into fields from bit 0 upward. -/
namespace Sys2Proof

/-- Why a word is no instruction (R92, check 3). -/
inductive Reject where
  /-- a reserved OP value (R97) -/
  | reservedOp
  /-- a nonzero reserved field, or a reserved code, in the first word -/
  | firstWord
  /-- a nonzero reserved field, or a reserved code, in the EXT word -/
  | extWord
  deriving DecidableEq, Repr

abbrev Dec := Except Reject Instr

/-- Splits a number into fields of the given widths, the lowest first. -/
def unpack : List Nat → Nat → List Nat
  | [], _ => []
  | w :: ws, x => x % 2 ^ w :: unpack ws (x / 2 ^ w)

/-- Joins (width, value) fields, the lowest first. -/
def pack : List (Nat × Nat) → Nat
  | [] => 0
  | (w, v) :: fs => v + 2 ^ w * pack fs

def rg (n : Nat) : Reg := BitVec.ofNat 5 n
def mk3 (n : Nat) : BitVec 3 := BitVec.ofNat 3 n

-- Codes of R84 and R85; none for a reserved code

def sizeOf (n : Nat) : Option Size := [Size.b, .h, .w, .d][n]?
def scopeOf (n : Nat) : Option Scope := [Scope.hart, .core, .clus, .die, .module, .sys][n]?
def orderOf (n : Nat) : Option Order := [Order.rlx, .acq, .rel, .ar][n]?
def condOf (n : Nat) : Option Cond := [Cond.eq, .ne, .lt, .ge, .ltu, .geu][n]?
def fmtOf (n : Nat) : Option Fmt := [Fmt.f32, .bf16, .f16, .i32][n]?
def amoOf (n : Nat) : Option AmoOp := [AmoOp.add, .min, .max, .minu, .maxu, .and, .or, .xor, .swap, .fadd][n]?
def logOf (n : Nat) : Option LogOp := [LogOp.and, .or, .xor, .andn, .orn, .xnor][n]?
def redOf (n : Nat) : Option RedOp := [RedOp.sum, .max, .min, .maxu, .minu, .or, .and][n]?
def wunOf (n : Nat) : Option WunOp := [WunOp.abs, .neg, .exp2, .log2, .rcp, .rsqrt][n]?
def wredOf (n : Nat) : Option WRedOp := [WRedOp.sum, .max, .min, .maxu, .minu][n]?
def wmovOf (n : Nat) : Option WmovOp := [WmovOp.ts, .st, .bc][n]?
def kaccOf (n : Nat) : Option KaccOp := [KaccOp.add, .max, .min, .or][n]?
def tlbOf (n : Nat) : Option TlbKind := [TlbKind.va, .vd, .all][n]?
def copyRedOf (n : Nat) : Option CopyRed := [CopyRed.none, .addi, .addf, .maxi, .mini, .maxf, .minf][n]?

def sizeCode : Size → Nat
  | .b => 0 | .h => 1 | .w => 2 | .d => 3
def scopeCode : Scope → Nat
  | .hart => 0 | .core => 1 | .clus => 2 | .die => 3 | .module => 4 | .sys => 5
def orderCode : Order → Nat
  | .rlx => 0 | .acq => 1 | .rel => 2 | .ar => 3
def condCode : Cond → Nat
  | .eq => 0 | .ne => 1 | .lt => 2 | .ge => 3 | .ltu => 4 | .geu => 5
def fmtCode : Fmt → Nat
  | .f32 => 0 | .bf16 => 1 | .f16 => 2 | .i32 => 3
def amoCode : AmoOp → Nat
  | .add => 0 | .min => 1 | .max => 2 | .minu => 3 | .maxu => 4 | .and => 5 | .or => 6 | .xor => 7 | .swap => 8 | .fadd => 9
def logCode : LogOp → Nat
  | .and => 0 | .or => 1 | .xor => 2 | .andn => 3 | .orn => 4 | .xnor => 5
def redCode : RedOp → Nat
  | .sum => 0 | .max => 1 | .min => 2 | .maxu => 3 | .minu => 4 | .or => 5 | .and => 6
def wunCode : WunOp → Nat
  | .abs => 0 | .neg => 1 | .exp2 => 2 | .log2 => 3 | .rcp => 4 | .rsqrt => 5
def wredCode : WRedOp → Nat
  | .sum => 0 | .max => 1 | .min => 2 | .maxu => 3 | .minu => 4
def wmovCode : WmovOp → Nat
  | .ts => 0 | .st => 1 | .bc => 2
def kaccCode : KaccOp → Nat
  | .add => 0 | .max => 1 | .min => 2 | .or => 3
def tlbCode : TlbKind → Nat
  | .va => 0 | .vd => 1 | .all => 2
def copyRedCode : CopyRed → Nat
  | .none => 0 | .addi => 1 | .addf => 2 | .maxi => 3 | .mini => 4 | .maxf => 5 | .minf => 6

/-- Continues with a code, or rejects the first word. -/
def withCode {α : Type} (o : Option α) (k : α → Dec) : Dec :=
  match o with
  | some a => k a
  | none => .error .firstWord

/-- The same for a code in EXT. -/
def withExtCode {α : Type} (o : Option α) (k : α → Dec) : Dec :=
  match o with
  | some a => k a
  | none => .error .extWord

-- L = 00 (R93): fields D, A, B, then F as W and [31:24], or as K, consume A, consume B and SUB

def decRRR (c : Bool → Reg → Reg → Reg → Instr) (x : Nat) : Dec :=
  match unpack [5, 5, 5, 1, 8] x with
  | [d, a, b, w, 0] => .ok (c (w = 1) (rg d) (rg a) (rg b))
  | _ => .error .firstWord

def decRR (c : Bool → Reg → Reg → Instr) (x : Nat) : Dec :=
  match unpack [5, 5, 5, 1, 8] x with
  | [d, a, 0, w, 0] => .ok (c (w = 1) (rg d) (rg a))
  | _ => .error .firstWord

def decExtend (c : Size → Reg → Reg → Instr) (x : Nat) : Dec :=
  match unpack [5, 5, 5, 9] x with
  | [d, a, z, 0] => withCode (sizeOf z) fun z => .ok (c z (rg d) (rg a))
  | _ => .error .firstWord

def decQstat (x : Nat) : Dec :=
  match unpack [5, 5, 3, 11] x with
  | [d, 0, q, 0] => .ok (.qstat (rg d) (mk3 q))
  | _ => .error .firstWord

def laneFields : List Nat := [5, 5, 5, 3, 1, 1, 4]

def decVVV (c : Bool → Bool → BitVec 3 → Reg → Reg → Reg → Instr) (x : Nat) : Dec :=
  match unpack laneFields x with
  | [d, a, b, k, ca, cb, 0] => .ok (c (cb = 1) (ca = 1) (mk3 k) (rg d) (rg a) (rg b))
  | _ => .error .firstWord

def decVV (c : Bool → BitVec 3 → Reg → Reg → Instr) (x : Nat) : Dec :=
  match unpack laneFields x with
  | [d, a, 0, k, ca, 0, 0] => .ok (c (ca = 1) (mk3 k) (rg d) (rg a))
  | _ => .error .firstWord

def decLane (op x : Nat) : Dec :=
  match op with
  | 0x20 => decVVV .vadd x
  | 0x21 => decVVV .vsub x
  | 0x22 => decVVV .vmul x
  | 0x23 => decVVV .vmac x
  | 0x24 => decVVV .vmin x
  | 0x25 => decVVV .vmax x
  | 0x26 =>
    match unpack laneFields x with
    | [d, a, b, k, ca, cb, s] => withCode (logOf s) fun s => .ok (.vlog s (cb = 1) (ca = 1) (mk3 k) (rg d) (rg a) (rg b))
    | _ => .error .firstWord
  | 0x27 => decVV .vneg x
  | 0x28 => decVV .vabs x
  | 0x29 => decVVV .vshl x
  | 0x2A => decVVV .vshr x
  | 0x2B => decVVV .vsar x
  | 0x2C =>
    match unpack [3, 2, 5, 5, 3, 1, 1, 4] x with
    | [d, 0, a, b, k, ca, cb, s] => withCode (condOf s) fun s => .ok (.vcmp s (cb = 1) (ca = 1) (mk3 k) (mk3 d) (rg a) (rg b))
    | _ => .error .firstWord
  | 0x2D => decVVV .vsel x
  | 0x2E => decVV .vmv x
  | 0x2F =>
    match unpack [5, 5, 5, 3, 6] x with
    | [d, a, 0, k, 0] => .ok (.vbc (mk3 k) (rg d) (rg a))
    | _ => .error .firstWord
  | 0x30 =>
    match unpack [5, 10, 3, 6] x with
    | [d, 0, k, 0] => .ok (.vid (mk3 k) (rg d))
    | _ => .error .firstWord
  | 0x31 =>
    match unpack laneFields x with
    | [d, a, b, 0, ca, 0, 0] => .ok (.vext (ca = 1) (rg d) (rg a) (rg b))
    | _ => .error .firstWord
  | 0x32 =>
    match unpack laneFields x with
    | [d, a, b, 0, 0, 0, 0] => .ok (.vins (rg d) (rg a) (rg b))
    | _ => .error .firstWord
  | 0x33 =>
    match unpack [5, 5, 5, 3, 1, 1, 1, 3] x with
    | [d, a, b, k, ca, 0, s, 0] => .ok (.vslide (s = 1) (ca = 1) (mk3 k) (rg d) (rg a) (rg b))
    | _ => .error .firstWord
  | 0x34 => decVVV .vdot x
  | 0x35 =>
    match unpack laneFields x with
    | [d, a, 0, k, ca, 0, s] => withCode (redOf s) fun s => .ok (.vred s (ca = 1) (mk3 k) (rg d) (rg a))
    | _ => .error .firstWord
  | 0x36 =>
    match unpack [5, 5, 3, 2, 3, 1, 1, 4] x with
    | [d, a, g, 0, k, ca, 0, s] => withCode (redOf s) fun s => .ok (.vgred s (ca = 1) (mk3 k) (mk3 g) (rg d) (rg a))
    | _ => .error .firstWord
  | 0x37 =>
    match unpack [3, 2, 3, 2, 3, 2, 3, 2, 4] x with
    | [d, 0, a, 0, b, 0, k, 0, s] => withCode (logOf s) fun s => .ok (.vmlog s (mk3 k) (mk3 d) (mk3 a) (mk3 b))
    | _ => .error .firstWord
  | 0x38 =>
    match unpack [5, 3, 7, 3, 6] x with
    | [d, a, 0, k, 0] => .ok (.vmpop (mk3 k) (rg d) (mk3 a))
    | _ => .error .firstWord
  | 0x39 =>
    match unpack [5, 3, 7, 3, 6] x with
    | [d, a, 0, k, 0] => .ok (.vmfirst (mk3 k) (rg d) (mk3 a))
    | _ => .error .firstWord
  | 0x3A => decVV .vcompact x
  | 0x3B => decVV .vexpand x
  | 0x3C => decVV .vclz x
  | 0x3D =>
    match unpack laneFields x with
    | [d, a, n, k, ca, 0, 0] => .ok (.vcvtw (ca = 1) (mk3 k) (rg n) (rg d) (rg a))
    | _ => .error .firstWord
  | 0x3E => decVV .vxq x
  | 0x3F =>
    match unpack laneFields x with
    | [d, a, 0, 0, ca, 0, 0] => .ok (.vzp (ca = 1) (rg d) (rg a))
    | _ => .error .firstWord
  | _ => .error .reservedOp

def decode00 (op x : Nat) : Dec :=
  match op with
  | 0x00 => decRRR .add x
  | 0x01 => decRRR .sub x
  | 0x02 => decRRR .and x
  | 0x03 => decRRR .or x
  | 0x04 => decRRR .xor x
  | 0x05 => decRRR .andn x
  | 0x06 => decRRR .shl x
  | 0x07 => decRRR .shr x
  | 0x08 => decRRR .sar x
  | 0x09 => decRRR .rol x
  | 0x0A => decRRR .mul x
  | 0x0B => decRRR .mulh x
  | 0x0C => decRRR .mulhu x
  | 0x0D => decRRR .div x
  | 0x0E => decRRR .divu x
  | 0x0F => decRRR .rem x
  | 0x10 => decRRR .remu x
  | 0x11 => decRRR .min x
  | 0x12 => decRRR .max x
  | 0x13 => decRRR .minu x
  | 0x14 => decRRR .maxu x
  | 0x15 => decRRR .slt x
  | 0x16 => decRRR .sltu x
  | 0x17 => decRRR .seq x
  | 0x18 => decRR .clz x
  | 0x19 => decRR .ctz x
  | 0x1A => decRR .popc x
  | 0x1B => decRR .bswap x
  | 0x1C => decExtend .sext x
  | 0x1D => decExtend .zext x
  | 0x1E => decQstat x
  | _ => decLane op x

-- L = 01 (R94)

def decImm (c : Reg → Reg → BitVec 14 → Instr) (x : Nat) : Dec :=
  match unpack [5, 5, 14] x with
  | [d, a, i] => .ok (c (rg d) (rg a) (BitVec.ofNat 14 i))
  | _ => .error .firstWord

def decShift (c : Reg → Reg → BitVec 6 → Instr) (x : Nat) : Dec :=
  match unpack [5, 5, 6, 8] x with
  | [d, a, i, 0] => .ok (c (rg d) (rg a) (BitVec.ofNat 6 i))
  | _ => .error .firstWord

def decMem01 (op x : Nat) : Dec :=
  match op with
  | 0x10 =>
    match unpack [5, 5, 2, 1, 11] x with
    | [d, a, z, u, o] => withCode (sizeOf z) fun z => .ok (.ld (u = 1) z (rg d) (rg a) (BitVec.ofNat 11 o))
    | _ => .error .firstWord
  | 0x11 =>
    match unpack [5, 5, 2, 1, 11] x with
    | [d, a, z, 0, o] => withCode (sizeOf z) fun z => .ok (.st z (rg d) (rg a) (BitVec.ofNat 11 o))
    | _ => .error .firstWord
  | 0x12 =>
    match unpack [5, 5, 5, 3, 2, 4] x with
    | [d, a, b, c, o, s] => withCode (amoOf s) fun s => withCode (orderOf o) fun o => withCode (scopeOf c) fun c =>
        .ok (.amo s o c (rg d) (rg a) (rg b))
    | _ => .error .firstWord
  | 0x13 =>
    match unpack [5, 5, 3, 11] x with
    | [d, a, 3, o] => .ok (.ldv (rg d) (rg a) (BitVec.ofNat 11 o))
    | _ => .error .firstWord
  | 0x14 =>
    match unpack [5, 19] x with
    | [d, 0] => .ok (.vval (rg d))
    | _ => .error .firstWord
  | 0x15 => if x = 0 then .ok .vclr else .error .firstWord
  | 0x16 =>
    match unpack [15, 3, 2, 4] x with
    | [0, c, o, 0] => withCode (orderOf o) fun o => withCode (scopeOf c) fun c => .ok (.fence o c)
    | _ => .error .firstWord
  | 0x17 =>
    match unpack [5, 5, 14] x with
    | [0, a, 0] => .ok (.cflush (rg a))
    | _ => .error .firstWord
  | 0x18 =>
    match unpack [5, 5, 14] x with
    | [0, a, 0] => .ok (.cinv (rg a))
    | _ => .error .firstWord
  | _ => .error .reservedOp

def wordFields : List Nat := [5, 5, 5, 2, 2, 4, 1]

def decWWW (c : Fmt → Reg → Reg → Reg → Instr) (x : Nat) : Dec :=
  match unpack wordFields x with
  | [d, a, b, f, 0, 0, 0] => withCode (fmtOf f) fun f => .ok (c f (rg d) (rg a) (rg b))
  | _ => .error .firstWord

def decWord (op x : Nat) : Dec :=
  match op with
  | 0x20 =>
    match unpack [5, 5, 5, 2, 7] x with
    | [d, a, 0, f, o] => withCode (fmtOf f) fun f => .ok (.wld f (rg d) (rg a) (BitVec.ofNat 7 o))
    | _ => .error .firstWord
  | 0x21 =>
    match unpack [5, 5, 5, 2, 7] x with
    | [d, a, b, f, o] => withCode (fmtOf f) fun f => .ok (.wst f (rg d) (rg a) (rg b) (BitVec.ofNat 7 o))
    | _ => .error .firstWord
  | 0x22 => decWWW .wadd x
  | 0x23 => decWWW .wsub x
  | 0x24 => decWWW .wmul x
  | 0x25 => decWWW .wfma x
  | 0x26 => decWWW .wmin x
  | 0x27 => decWWW .wmax x
  | 0x28 =>
    match unpack wordFields x with
    | [d, a, 0, f, 0, s, 0] => withCode (wunOf s) fun s => withCode (fmtOf f) fun f => .ok (.wun s f (rg d) (rg a))
    | _ => .error .firstWord
  | 0x29 =>
    match unpack wordFields x with
    | [d, a, 0, f, g, 0, 0] => withCode (fmtOf g) fun g => withCode (fmtOf f) fun f => .ok (.wcvt g f (rg d) (rg a))
    | _ => .error .firstWord
  | 0x2A =>
    match unpack wordFields x with
    | [d, a, b, f, 0, s, 0] => withCode (condOf s) fun s => withCode (fmtOf f) fun f => .ok (.wcmp s f (rg d) (rg a) (rg b))
    | _ => .error .firstWord
  | 0x2B =>
    match unpack wordFields x with
    | [d, a, b, 0, 0, 0, 0] => .ok (.wsel (rg d) (rg a) (rg b))
    | _ => .error .firstWord
  | 0x2C =>
    match unpack [5, 5, 3, 2, 2, 2, 4, 1] x with
    | [d, a, g, 0, f, 0, s, 0] => withCode (wredOf s) fun s => withCode (fmtOf f) fun f => .ok (.wred s f (mk3 g) (rg d) (rg a))
    | _ => .error .firstWord
  | 0x2D =>
    match unpack wordFields x with
    | [d, a, b, 0, 0, 0, 0] => .ok (.wperm (rg d) (rg a) (rg b))
    | _ => .error .firstWord
  | 0x2E =>
    match unpack wordFields x with
    | [d, a, b, f, 0, s, 0] => withCode (wmovOf s) fun s => withCode (fmtOf f) fun f => .ok (.wmov s f (rg d) (rg a) (rg b))
    | _ => .error .firstWord
  | 0x2F =>
    match unpack [5, 5, 5, 4, 1, 4] x with
    | [d, a, b, 0, s, 0] => .ok (.wq (s = 1) (rg d) (rg a) (rg b))
    | _ => .error .firstWord
  | _ => .error .reservedOp

def decSync (op x : Nat) : Dec :=
  match op with
  | 0x30 =>
    match unpack [10, 6, 3, 5] x with
    | [0, n, c, 0] => withCode (scopeOf c) fun c => .ok (.semtas c (BitVec.ofNat 6 n))
    | _ => .error .firstWord
  | 0x31 =>
    match unpack [5, 5, 6, 3, 5] x with
    | [d, 0, n, c, 0] => withCode (scopeOf c) fun c => .ok (.semtry c (BitVec.ofNat 6 n) (rg d))
    | _ => .error .firstWord
  | 0x32 =>
    match unpack [10, 6, 3, 5] x with
    | [0, n, c, 0] => withCode (scopeOf c) fun c => .ok (.semclr c (BitVec.ofNat 6 n))
    | _ => .error .firstWord
  | 0x33 =>
    match unpack [5, 5, 6, 8] x with
    | [d, 0, n, 0] => .ok (.crd (BitVec.ofNat 6 n) (rg d))
    | _ => .error .firstWord
  | 0x34 =>
    match unpack [5, 5, 6, 8] x with
    | [0, a, n, 0] => .ok (.cwr (BitVec.ofNat 6 n) (rg a))
    | _ => .error .firstWord
  | 0x35 =>
    match unpack [16, 3, 5] x with
    | [0, c, 0] => withCode (scopeOf c) fun c => .ok (.tbar c)
    | _ => .error .firstWord
  | 0x36 =>
    match unpack [5, 5, 4, 10] x with
    | [0, a, n, 0] => .ok (.bexp (BitVec.ofNat 4 n) (rg a))
    | _ => .error .firstWord
  | 0x37 =>
    match unpack [5, 5, 4, 2, 3, 5] x with
    | [0, a, n, 0, c, 0] => withCode (scopeOf c) fun c => .ok (.barv c (BitVec.ofNat 4 n) (rg a))
    | _ => .error .firstWord
  | 0x38 =>
    match unpack [5, 5, 4, 2, 3, 5] x with
    | [d, a, n, 0, c, 0] => withCode (scopeOf c) fun c => .ok (.bwait c (BitVec.ofNat 4 n) (rg d) (rg a))
    | _ => .error .firstWord
  | 0x39 =>
    match unpack [10, 3, 11] x with
    | [0, q, 0] => .ok (.qflush (mk3 q))
    | _ => .error .firstWord
  | 0x3A =>
    match unpack [5, 5, 14] x with
    | [d, a, 0] => .ok (.setvl (rg d) (rg a))
    | _ => .error .firstWord
  | 0x3B =>
    match unpack [5, 4, 1, 4, 1, 1, 5, 1, 2] x with
    | [d, al, ah, 0, 0, 0, 0, 0, 0] => .ok (.setvtReg (rg d) (rg (al + 16 * ah)))
    | [d, wa, sa, wb, sb, 1, wd, sd, sat] =>
      .ok (.setvtImm (BitVec.ofNat 2 sat) (sd = 1) (rg wd) (sb = 1) (BitVec.ofNat 4 wb) (sa = 1) (BitVec.ofNat 4 wa) (rg d))
    | _ => .error .firstWord
  | _ => .error .reservedOp

def decode01 (op x : Nat) : Dec :=
  match op with
  | 0x00 => decImm .addi x
  | 0x01 => decImm .andi x
  | 0x02 => decImm .ori x
  | 0x03 => decImm .xori x
  | 0x04 => decShift .shli x
  | 0x05 => decShift .shri x
  | 0x06 => decShift .sari x
  | 0x07 => decImm .slti x
  | 0x08 => decImm .sltiu x
  | 0x09 =>
    match unpack [5, 19] x with
    | [d, i] => .ok (.movi (rg d) (BitVec.ofNat 19 i))
    | _ => .error .firstWord
  | _ => if op < 0x20 then decMem01 op x else if op < 0x30 then decWord op x else decSync op x

-- L = 10 (R95)

def decNone (i : Instr) (x : Nat) : Dec := if x = 0 then .ok i else .error .firstWord

def decControl (op x : Nat) : Dec :=
  match op with
  | 0x00 => .ok (.b (BitVec.ofNat 24 x))
  | 0x01 =>
    match unpack [5, 19] x with
    | [d, o] => .ok (.jal (rg d) (BitVec.ofNat 19 o))
    | _ => .error .firstWord
  | 0x02 =>
    match unpack [5, 5, 14] x with
    | [d, a, o] => .ok (.jalr (rg d) (rg a) (BitVec.ofNat 14 o))
    | _ => .error .firstWord
  | 0x03 =>
    match unpack [3, 2, 5, 5, 9] x with
    | [c, ol, a, b, oh] => withCode (condOf c) fun c => .ok (.bcc c (rg a) (rg b) (BitVec.ofNat 11 (ol + 4 * oh)))
    | _ => .error .firstWord
  | 0x04 =>
    match unpack [3, 2, 5, 14] x with
    | [l, 0, a, n] => .ok (.loop (mk3 l) (rg a) (BitVec.ofNat 14 n))
    | _ => .error .firstWord
  | 0x05 =>
    match unpack [3, 2, 5, 14] x with
    | [l, 0, a, n] => .ok (.lstride (mk3 l) (rg a) (BitVec.ofNat 14 n))
    | _ => .error .firstWord
  | 0x10 =>
    match unpack [10, 14] x with
    | [0, c] => .ok (.ecall (BitVec.ofNat 14 c))
    | _ => .error .firstWord
  | 0x11 => decNone .ebreak x
  | 0x12 => decNone .eret x
  | 0x13 => decNone .wfi x
  | 0x14 =>
    match unpack [5, 7, 12] x with
    | [d, 0, n] => .ok (.mfsr (rg d) (BitVec.ofNat 12 n))
    | _ => .error .firstWord
  | 0x15 =>
    match unpack [5, 5, 2, 12] x with
    | [0, a, 0, n] => .ok (.mtsr (rg a) (BitVec.ofNat 12 n))
    | _ => .error .firstWord
  | 0x16 =>
    match unpack [5, 5, 5, 2, 7] x with
    | [0, a, 0, k, 0] => withCode (tlbOf k) fun k => .ok (.tlbinv k (rg a))
    | _ => .error .firstWord
  | 0x17 => decNone .nop x
  | 0x18 =>
    match unpack [5, 5, 14] x with
    | [d, a, 0] => .ok (.launch (rg d) (rg a))
    | _ => .error .firstWord
  | 0x19 =>
    match unpack [5, 5, 5, 9] x with
    | [0, a, b, 0] => .ok (.signal (rg a) (rg b))
    | _ => .error .firstWord
  | 0x1A => decNone .exit x
  | 0x1B => decNone .yield x
  | _ => .error .reservedOp

def decMma (c : Bool → Bool → Bool → Reg → Reg → Reg → Instr) (x : Nat) : Dec :=
  match unpack [5, 5, 5, 1, 1, 2, 1, 4] x with
  | [d, a, b, z, f, 0, cb, 0] => .ok (c (cb = 1) (f = 1) (z = 1) (rg d) (rg a) (rg b))
  | _ => .error .firstWord

def decMatrix (op x : Nat) : Dec :=
  match op with
  | 0x20 =>
    match unpack [5, 5, 14] x with
    | [0, a, 0] => .ok (.mcfg (rg a))
    | _ => .error .firstWord
  | 0x21 => decMma .mma x
  | 0x22 => decMma .mmas x
  | 0x23 =>
    match unpack [5, 5, 5, 1, 8] x with
    | [0, a, 0, k, 0] => .ok (.mwait (k = 1) (rg a))
    | _ => .error .firstWord
  | 0x24 =>
    match unpack [5, 19] x with
    | [d, 0] => .ok (.mprog (rg d))
    | _ => .error .firstWord
  | 0x25 => decNone .mclr x
  | 0x26 =>
    match unpack [5, 5, 5, 2, 1, 1, 5] x with
    | [d, a, b, f, 0, ca, 0] => withCode (fmtOf f) fun f => .ok (.vtow (ca = 1) f (rg d) (rg a) (rg b))
    | _ => .error .firstWord
  | 0x27 =>
    match unpack [5, 5, 5, 2, 7] x with
    | [d, a, b, f, 0] => withCode (fmtOf f) fun f => .ok (.wtov f (rg d) (rg a) (rg b))
    | _ => .error .firstWord
  | _ => .error .reservedOp

def decEngine (op x : Nat) : Dec :=
  match op with
  | 0x30 =>
    match unpack [3, 2, 5, 5, 3, 1, 1, 4] x with
    | [d, 0, a, b, k, ca, cb, 0] => .ok (.kins (cb = 1) (ca = 1) (mk3 k) (mk3 d) (rg a) (rg b))
    | _ => .error .firstWord
  | 0x31 =>
    match unpack [5, 5, 3, 2, 3, 1, 5] x with
    | [d, a, b, 0, k, ca, 0] => .ok (.klook (ca = 1) (mk3 k) (rg d) (rg a) (mk3 b))
    | _ => .error .firstWord
  | 0x32 =>
    match unpack [3, 2, 5, 5, 3, 1, 1, 4] x with
    | [d, 0, a, b, k, ca, cb, s] => withCode (kaccOf s) fun s => .ok (.kacc s (cb = 1) (ca = 1) (mk3 k) (mk3 d) (rg a) (rg b))
    | _ => .error .firstWord
  | 0x33 =>
    match unpack [5, 5, 14] x with
    | [d, a, 0] => .ok (.kdrain (rg d) (rg a))
    | _ => .error .firstWord
  | 0x34 => decNone .kclr x
  | 0x35 =>
    match unpack [5, 5, 3, 2, 6, 1, 2] x with
    | [d, 0, i, 0, n, t, 0] => .ok (.twin (t = 1) (BitVec.ofNat 6 n) (mk3 i) (rg d))
    | _ => .error .firstWord
  | 0x36 =>
    match unpack [5, 10, 6, 3] x with
    | [d, 0, n, 0] => .ok (.twtake (BitVec.ofNat 6 n) (rg d))
    | _ => .error .firstWord
  | 0x37 =>
    match unpack [5, 5, 5, 6, 3] x with
    | [d, a, 0, n, 0] => .ok (.twack (BitVec.ofNat 6 n) (rg d) (rg a))
    | _ => .error .firstWord
  | 0x38 =>
    match unpack [5, 5, 14] x with
    | [d, a, 0] => .ok (.kvapp (rg d) (rg a))
    | _ => .error .firstWord
  | 0x39 =>
    match unpack [5, 5, 5, 1, 8] x with
    | [d, a, b, k, 0] => .ok (.pgget (k = 1) (rg d) (rg a) (rg b))
    | _ => .error .firstWord
  | 0x3A =>
    match unpack [5, 5, 5, 9] x with
    | [d, a, b, 0] => .ok (.pgput (rg d) (rg a) (rg b))
    | _ => .error .firstWord
  | 0x3B =>
    match unpack [5, 5, 5, 8, 1] x with
    | [0, a, b, e, 0] => .ok (.send (BitVec.ofNat 8 e) (rg a) (rg b))
    | _ => .error .firstWord
  | 0x3C =>
    match unpack [5, 5, 5, 8, 1] x with
    | [d, a, 0, e, 0] => .ok (.recv (BitVec.ofNat 8 e) (rg d) (rg a))
    | _ => .error .firstWord
  | 0x3D =>
    match unpack [15, 8, 1] x with
    | [0, e, 0] => .ok (.lnkwait (BitVec.ofNat 8 e))
    | _ => .error .firstWord
  | 0x3F =>
    match unpack [3, 2, 1, 2, 3, 13] x with
    | [r, s, z, t, l, 0] => .ok (.pfx (mk3 l) (BitVec.ofNat 2 t) (z = 1) (BitVec.ofNat 2 s) (mk3 r))
    | _ => .error .firstWord
  | _ => .error .reservedOp

def decode10 (op x : Nat) : Dec :=
  if op < 0x20 then decControl op x else if op < 0x30 then decMatrix op x else decEngine op x

-- L = 11 (R96); `e` is the EXT word

/-- The fields D, A, B of a first word whose F is 0. -/
def decWide (op x e : Nat) : Dec :=
  match unpack [5, 5, 5, 9] x with
  | [d, a, b, 0] =>
    match op with
    | 0x00 => if a = 0 ∧ b = 0 then .ok (.movl (rg d) (BitVec.ofNat 32 e)) else .error .firstWord
    | 0x01 => if a = 0 ∧ b = 0 then .ok (.movh (rg d) (BitVec.ofNat 32 e)) else .error .firstWord
    | 0x02 => if b = 0 then .ok (.addl (rg d) (rg a) (BitVec.ofNat 32 e)) else .error .firstWord
    | 0x03 =>
      match unpack [5, 1, 6, 20] e with
      | [c, i, h, 0] => .ok (.fshl (rg d) (rg a) (rg b) (i = 1) (BitVec.ofNat 6 h) (rg c))
      | _ => .error .extWord
    | 0x04 =>
      match unpack [5, 1, 6, 20] e with
      | [c, i, h, 0] => .ok (.fshr (rg d) (rg a) (rg b) (i = 1) (BitVec.ofNat 6 h) (rg c))
      | _ => .error .extWord
    | 0x05 =>
      if b = 0 then
        match unpack [6, 7, 1, 18] e with
        | [p, l, s, 0] => .ok (.bext (rg d) (rg a) (s = 1) (BitVec.ofNat 7 l) (BitVec.ofNat 6 p))
        | _ => .error .extWord
      else .error .firstWord
    | 0x06 =>
      if b = 0 then
        match unpack [6, 7, 19] e with
        | [p, l, 0] => .ok (.bins (rg d) (rg a) (BitVec.ofNat 7 l) (BitVec.ofNat 6 p))
        | _ => .error .extWord
      else .error .firstWord
    | 0x07 =>
      match unpack [5, 27] e with
      | [c, 0] => .ok (.sel (rg d) (rg a) (rg b) (rg c))
      | _ => .error .extWord
    | 0x0C => if a = 0 ∧ b = 0 then .ok (.jl (rg d) (BitVec.ofNat 32 e)) else .error .firstWord
    | _ => .error .reservedOp
  | _ => .error .firstWord

def decCas (c : Size → Order → Scope → Reg → Reg → Reg → Reg → Instr) (x e : Nat) : Dec :=
  match unpack [5, 5, 5, 3, 2, 2, 2] x with
  | [d, a, b, s, o, z, 0] => withCode (scopeOf s) fun s => withCode (orderOf o) fun o => withCode (sizeOf z) fun z =>
    match unpack [5, 27] e with
    | [r, 0] => .ok (c z o s (rg d) (rg a) (rg b) (rg r))
    | _ => .error .extWord
  | _ => .error .firstWord

def decScalarMem (op x e : Nat) : Dec :=
  match op with
  | 0x08 => decCas .cas x e
  | 0x09 => decCas .casv x e
  | 0x0A =>
    match unpack [5, 5, 5, 3, 2, 2, 1, 1] x with
    | [d, a, 0, s, o, z, u, 0] => withCode (scopeOf s) fun s => withCode (orderOf o) fun o => withCode (sizeOf z) fun z =>
        .ok (.ldo (u = 1) z o s (rg d) (rg a) (BitVec.ofNat 32 e))
    | _ => .error .firstWord
  | 0x0B =>
    match unpack [5, 5, 5, 3, 2, 2, 1, 1] x with
    | [d, a, 0, s, o, z, 0, 0] => withCode (scopeOf s) fun s => withCode (orderOf o) fun o => withCode (sizeOf z) fun z =>
        .ok (.sto z o s (rg d) (rg a) (BitVec.ofNat 32 e))
    | _ => .error .firstWord
  | _ => decWide op x e

def decVmem (op x e : Nat) : Dec :=
  match unpack [5, 5, 5, 3, 1, 1, 2, 1, 1] x with
  | [d, a, b, k, cb, cd, z, u, o] =>
    let disp : W32 := BitVec.ofNat 32 e
    withCode (sizeOf z) fun z =>
    match op with
    | 0x10 => if b = 0 ∧ cb = 0 ∧ cd = 0 then .ok (.vld (o = 1) (u = 1) z (mk3 k) (rg d) (rg a) disp) else .error .firstWord
    | 0x11 => if cb = 0 ∧ cd = 0 then .ok (.vlds (o = 1) (u = 1) z (mk3 k) (rg d) (rg a) (rg b) disp) else .error .firstWord
    | 0x12 => if cd = 0 then .ok (.vldx (o = 1) (u = 1) z (cb = 1) (mk3 k) (rg d) (rg a) (rg b) disp) else .error .firstWord
    | 0x13 => if b = 0 ∧ cb = 0 ∧ cd = 0 then .ok (.vldff (o = 1) (u = 1) z (mk3 k) (rg d) (rg a) disp) else .error .firstWord
    | 0x14 => if b = 0 ∧ cb = 0 ∧ u = 0 then .ok (.vst (o = 1) z (cd = 1) (mk3 k) (rg d) (rg a) disp) else .error .firstWord
    | 0x15 => if cb = 0 ∧ u = 0 then .ok (.vsts (o = 1) z (cd = 1) (mk3 k) (rg d) (rg a) (rg b) disp) else .error .firstWord
    | 0x16 => if u = 0 then .ok (.vstx (o = 1) z (cd = 1) (cb = 1) (mk3 k) (rg d) (rg a) (rg b) disp) else .error .firstWord
    | 0x17 =>
      if cb = 0 ∧ u = 0 ∧ o = 0 ∧ z = .b then .ok (.vstb (cd = 1) (mk3 k) (rg d) (rg a) (rg b) disp) else .error .firstWord
    | 0x18 =>
      if u = 0 ∧ z = .w then
        match unpack [23, 3, 2, 4] e with
        | [0, s, r, p] => withExtCode (scopeOf s) fun s => withExtCode (orderOf r) fun r => withExtCode (amoOf p) fun p =>
            .ok (.vamo p (o = 1) (cd = 1) (cb = 1) r s (mk3 k) (rg d) (rg a) (rg b))
        | _ => .error .extWord
      else .error .firstWord
    | _ => .error .reservedOp
  | _ => .error .firstWord

def decCopy (op x e : Nat) : Dec :=
  match unpack [5, 5, 5, 4, 3, 2] x with
  | [d, a, b, tb, ch, 0] =>
    let o : CopyOps := ⟨mk3 ch, BitVec.ofNat 4 tb, rg b, rg a, rg d⟩
    match op with
    | 0x20 =>
      match unpack [1, 31] e with
      | [l, 0] => .ok (.cpy o (l = 1))
      | _ => .error .extWord
    | 0x21 =>
      match unpack [5, 11, 5, 3, 2, 1, 1, 4] e with
      | [c, kb, pw, xf, dq, t, y, 0] => .ok (.cpyt o (y = 1) (t = 1) (BitVec.ofNat 2 dq) (mk3 xf) (rg pw) (BitVec.ofNat 11 kb) (rg c))
      | _ => .error .extWord
    | 0x22 =>
      match unpack [5, 11, 5, 3, 4, 1, 1, 2] e with
      | [c, kb, 0, xf, r, q, z, 0] => withExtCode (copyRedOf r) fun r =>
          .ok (.cpyo o (z = 1) (q = 1) r (mk3 xf) (BitVec.ofNat 11 kb) (rg c))
      | _ => .error .extWord
    | 0x23 =>
      match unpack [5, 8, 4, 1, 8, 1, 1, 1, 3] e with
      | [c, 0, sr, sw, fill, iw, rn, qm, nm] =>
        .ok (.cpyg o (mk3 nm) (qm = 1) (rn = 1) (iw = 1) (BitVec.ofNat 8 fill) (sw = 1) (BitVec.ofNat 4 sr) (rg c))
      | _ => .error .extWord
    | 0x24 =>
      match unpack [5, 16, 11] e with
      | [c, rby, 0] => .ok (.cpys o (BitVec.ofNat 16 rby) (rg c))
      | _ => .error .extWord
    | 0x25 =>
      if d = 0 ∧ b = 0 ∧ tb = 0 then
        match unpack [1, 3, 28] e with
        | [m, s, 0] => withExtCode (scopeOf s) fun s => .ok (.cpwait (mk3 ch) (rg a) s (m = 1))
        | _ => .error .extWord
      else .error .firstWord
    | 0x26 =>
      if a = 0 ∧ b = 0 ∧ tb = 0 then
        match unpack [3, 29] e with
        | [i, 0] => .ok (.cpstat (mk3 ch) (rg d) (mk3 i))
        | _ => .error .extWord
      else .error .firstWord
    | _ => .error .reservedOp
  | _ => .error .firstWord

def decode11 (op x e : Nat) : Dec :=
  if op < 0x0D then decScalarMem op x e
  else if op < 0x10 then .error .reservedOp
  else if op < 0x19 then decVmem op x e
  else if op < 0x20 then .error .reservedOp
  else if op < 0x27 then decCopy op x e
  else .error .reservedOp

/-- A first word whose L field is 11 has an EXT word (R80, R81). -/
def isLong (w0 : W32) : Bool := w0.toNat % 4 = 3

/-- The fields of the words, before the checks of WellFormed. -/
def decodeFields (w0 e : W32) : Dec :=
  let op := w0.toNat / 4 % 64
  let x := w0.toNat / 256
  match w0.toNat % 4 with
  | 0 => decode00 op x
  | 1 => decode01 op x
  | 2 => decode10 op x
  | _ => decode11 op x e.toNat

/-- The instruction of a first word and, where it has one, its EXT word. Where a check of each fails, a reserved field of EXT that the fields'
layout shows comes before the first word's WellFormed checks, and the first word before everything else of EXT (R92, log 27). -/
def decode (w0 e : W32) : Dec :=
  match decodeFields w0 e with
  | .ok i => if i.wfFirst then (if i.wfExt then .ok i else .error .extWord) else .error .firstWord
  | .error r => .error r

/-- A word from four bytes, the least significant first (R5). -/
def wordOfBytes : List Byte → W32
  | [a, b, c, d] => d ++ c ++ b ++ a
  | _ => 0

/-- The bytes of a word, the least significant first (R5). -/
def bytesOfWord (w : W32) : List Byte :=
  [w.extractLsb' 0 8, w.extractLsb' 8 8, w.extractLsb' 16 8, w.extractLsb' 24 8]

/-- Decodes the instruction that begins a list of bytes. -/
def decodeBytes (bs : List Byte) : Dec := decode (wordOfBytes (bs.take 4)) (wordOfBytes ((bs.drop 4).take 4))

/-- The instruction read from an instruction whose bits are `w`, the first word in bits 31 to 0 and EXT above it;
the bits above `nbits` are 0. -/
def decodeTableWord (nbits w : Nat) : Option Instr :=
  let v := w % 2 ^ nbits
  (decodeBytes (bytesOfWord (BitVec.ofNat 32 v) ++ bytesOfWord (BitVec.ofNat 32 (v / 2 ^ 32)))).toOption

-- The encoder, from the same tables

/-- A first word: class L, opcode OP and the fields above them. -/
def word1 (l op : Nat) (fs : List (Nat × Nat)) : W32 := BitVec.ofNat 32 (l + 4 * op + 256 * pack fs)
/-- An EXT word. -/
def word2 (fs : List (Nat × Nat)) : W32 := BitVec.ofNat 32 (pack fs)

def encRRR (op : Nat) (w : Bool) (d a b : Reg) : List W32 :=
  [word1 0 op [(5, d.toNat), (5, a.toNat), (5, b.toNat), (1, w.toNat), (8, 0)]]
def encRR (op : Nat) (w : Bool) (d a : Reg) : List W32 := encRRR op w d a 0
def encLane (op sub : Nat) (cb ca : Bool) (k : BitVec 3) (d a b : Reg) : List W32 :=
  [word1 0 op [(5, d.toNat), (5, a.toNat), (5, b.toNat), (3, k.toNat), (1, ca.toNat), (1, cb.toNat), (4, sub)]]
def encImm (op : Nat) (d a : Reg) (i : BitVec 14) : List W32 := [word1 1 op [(5, d.toNat), (5, a.toNat), (14, i.toNat)]]
def encShift (op : Nat) (d a : Reg) (i : BitVec 6) : List W32 :=
  [word1 1 op [(5, d.toNat), (5, a.toNat), (6, i.toNat), (8, 0)]]
def encWord (op sub fmt fmt2 : Nat) (d a : Reg) (b : Nat) : List W32 :=
  [word1 1 op [(5, d.toNat), (5, a.toNat), (5, b), (2, fmt), (2, fmt2), (4, sub), (1, 0)]]
def encSync (op d a n c : Nat) : List W32 := [word1 1 op [(5, d), (5, a), (6, n), (3, c), (5, 0)]]
def encNone (l op : Nat) : List W32 := [word1 l op []]
def encWide (op : Nat) (d a b : Reg) (e : List (Nat × Nat)) : List W32 :=
  [word1 3 op [(5, d.toNat), (5, a.toNat), (5, b.toNat), (9, 0)], word2 e]
def encCas (op : Nat) (z : Size) (o : Order) (s : Scope) (d a b c : Reg) : List W32 :=
  [word1 3 op [(5, d.toNat), (5, a.toNat), (5, b.toNat), (3, scopeCode s), (2, orderCode o), (2, sizeCode z), (2, 0)],
    word2 [(5, c.toNat), (27, 0)]]
def encScalarMem (op : Nat) (u : Bool) (z : Size) (o : Order) (s : Scope) (d a : Reg) (disp : W32) : List W32 :=
  [word1 3 op [(5, d.toNat), (5, a.toNat), (5, 0), (3, scopeCode s), (2, orderCode o), (2, sizeCode z), (1, u.toNat), (1, 0)], disp]
def encVmem (op : Nat) (ord u : Bool) (z : Size) (cd cb : Bool) (k : BitVec 3) (d a b : Reg) (e : W32) : List W32 :=
  [word1 3 op [(5, d.toNat), (5, a.toNat), (5, b.toNat), (3, k.toNat), (1, cb.toNat), (1, cd.toNat), (2, sizeCode z),
    (1, u.toNat), (1, ord.toNat)], e]
def encCopy (op : Nat) (o : CopyOps) (e : List (Nat × Nat)) : List W32 :=
  [word1 3 op [(5, o.d.toNat), (5, o.a.toNat), (5, o.b.toNat), (4, o.tb.toNat), (3, o.ch.toNat), (2, 0)], word2 e]
def encMma (op : Nat) (c f z : Bool) (d a b : Reg) : List W32 :=
  [word1 2 op [(5, d.toNat), (5, a.toNat), (5, b.toNat), (1, z.toNat), (1, f.toNat), (2, 0), (1, c.toNat), (4, 0)]]

/-- The words of an instruction; none for an event. -/
def encode : Instr → List W32
  | .add w d a b => encRRR 0x00 w d a b
  | .sub w d a b => encRRR 0x01 w d a b
  | .and w d a b => encRRR 0x02 w d a b
  | .or w d a b => encRRR 0x03 w d a b
  | .xor w d a b => encRRR 0x04 w d a b
  | .andn w d a b => encRRR 0x05 w d a b
  | .shl w d a b => encRRR 0x06 w d a b
  | .shr w d a b => encRRR 0x07 w d a b
  | .sar w d a b => encRRR 0x08 w d a b
  | .rol w d a b => encRRR 0x09 w d a b
  | .mul w d a b => encRRR 0x0A w d a b
  | .mulh w d a b => encRRR 0x0B w d a b
  | .mulhu w d a b => encRRR 0x0C w d a b
  | .div w d a b => encRRR 0x0D w d a b
  | .divu w d a b => encRRR 0x0E w d a b
  | .rem w d a b => encRRR 0x0F w d a b
  | .remu w d a b => encRRR 0x10 w d a b
  | .min w d a b => encRRR 0x11 w d a b
  | .max w d a b => encRRR 0x12 w d a b
  | .minu w d a b => encRRR 0x13 w d a b
  | .maxu w d a b => encRRR 0x14 w d a b
  | .slt w d a b => encRRR 0x15 w d a b
  | .sltu w d a b => encRRR 0x16 w d a b
  | .seq w d a b => encRRR 0x17 w d a b
  | .clz w d a => encRR 0x18 w d a
  | .ctz w d a => encRR 0x19 w d a
  | .popc w d a => encRR 0x1A w d a
  | .bswap w d a => encRR 0x1B w d a
  | .sext z d a => [word1 0 0x1C [(5, d.toNat), (5, a.toNat), (5, sizeCode z), (9, 0)]]
  | .zext z d a => [word1 0 0x1D [(5, d.toNat), (5, a.toNat), (5, sizeCode z), (9, 0)]]
  | .qstat d q => [word1 0 0x1E [(5, d.toNat), (5, 0), (3, q.toNat), (11, 0)]]
  | .vadd cb ca k d a b => encLane 0x20 0 cb ca k d a b
  | .vsub cb ca k d a b => encLane 0x21 0 cb ca k d a b
  | .vmul cb ca k d a b => encLane 0x22 0 cb ca k d a b
  | .vmac cb ca k d a b => encLane 0x23 0 cb ca k d a b
  | .vmin cb ca k d a b => encLane 0x24 0 cb ca k d a b
  | .vmax cb ca k d a b => encLane 0x25 0 cb ca k d a b
  | .vlog op cb ca k d a b => encLane 0x26 (logCode op) cb ca k d a b
  | .vneg ca k d a => encLane 0x27 0 false ca k d a 0
  | .vabs ca k d a => encLane 0x28 0 false ca k d a 0
  | .vshl cb ca k d a b => encLane 0x29 0 cb ca k d a b
  | .vshr cb ca k d a b => encLane 0x2A 0 cb ca k d a b
  | .vsar cb ca k d a b => encLane 0x2B 0 cb ca k d a b
  | .vcmp c cb ca k d a b =>
    [word1 0 0x2C [(3, d.toNat), (2, 0), (5, a.toNat), (5, b.toNat), (3, k.toNat), (1, ca.toNat), (1, cb.toNat), (4, condCode c)]]
  | .vsel cb ca k d a b => encLane 0x2D 0 cb ca k d a b
  | .vmv ca k d a => encLane 0x2E 0 false ca k d a 0
  | .vbc k d a => [word1 0 0x2F [(5, d.toNat), (5, a.toNat), (5, 0), (3, k.toNat), (6, 0)]]
  | .vid k d => [word1 0 0x30 [(5, d.toNat), (10, 0), (3, k.toNat), (6, 0)]]
  | .vext ca d a b => encLane 0x31 0 false ca 0 d a b
  | .vins d a b => encLane 0x32 0 false false 0 d a b
  | .vslide up ca k d a b =>
    [word1 0 0x33 [(5, d.toNat), (5, a.toNat), (5, b.toNat), (3, k.toNat), (1, ca.toNat), (1, 0), (1, up.toNat), (3, 0)]]
  | .vdot cb ca k d a b => encLane 0x34 0 cb ca k d a b
  | .vred op ca k d a => encLane 0x35 (redCode op) false ca k d a 0
  | .vgred op ca k g d a =>
    [word1 0 0x36 [(5, d.toNat), (5, a.toNat), (3, g.toNat), (2, 0), (3, k.toNat), (1, ca.toNat), (1, 0), (4, redCode op)]]
  | .vmlog op k d a b =>
    [word1 0 0x37 [(3, d.toNat), (2, 0), (3, a.toNat), (2, 0), (3, b.toNat), (2, 0), (3, k.toNat), (2, 0), (4, logCode op)]]
  | .vmpop k d a => [word1 0 0x38 [(5, d.toNat), (3, a.toNat), (7, 0), (3, k.toNat), (6, 0)]]
  | .vmfirst k d a => [word1 0 0x39 [(5, d.toNat), (3, a.toNat), (7, 0), (3, k.toNat), (6, 0)]]
  | .vcompact ca k d a => encLane 0x3A 0 false ca k d a 0
  | .vexpand ca k d a => encLane 0x3B 0 false ca k d a 0
  | .vclz ca k d a => encLane 0x3C 0 false ca k d a 0
  | .vcvtw ca k n d a => encLane 0x3D 0 false ca k d a n
  | .vxq ca k d a => encLane 0x3E 0 false ca k d a 0
  | .vzp ca d a => encLane 0x3F 0 false ca 0 d a 0
  | .addi d a i => encImm 0x00 d a i
  | .andi d a i => encImm 0x01 d a i
  | .ori d a i => encImm 0x02 d a i
  | .xori d a i => encImm 0x03 d a i
  | .shli d a i => encShift 0x04 d a i
  | .shri d a i => encShift 0x05 d a i
  | .sari d a i => encShift 0x06 d a i
  | .slti d a i => encImm 0x07 d a i
  | .sltiu d a i => encImm 0x08 d a i
  | .movi d i => [word1 1 0x09 [(5, d.toNat), (19, i.toNat)]]
  | .ld u z d a o => [word1 1 0x10 [(5, d.toNat), (5, a.toNat), (2, sizeCode z), (1, u.toNat), (11, o.toNat)]]
  | .st z d a o => [word1 1 0x11 [(5, d.toNat), (5, a.toNat), (2, sizeCode z), (1, 0), (11, o.toNat)]]
  | .amo op o c d a b =>
    [word1 1 0x12 [(5, d.toNat), (5, a.toNat), (5, b.toNat), (3, scopeCode c), (2, orderCode o), (4, amoCode op)]]
  | .ldv d a o => [word1 1 0x13 [(5, d.toNat), (5, a.toNat), (3, 3), (11, o.toNat)]]
  | .vval d => [word1 1 0x14 [(5, d.toNat), (19, 0)]]
  | .vclr => encNone 1 0x15
  | .fence o c => [word1 1 0x16 [(15, 0), (3, scopeCode c), (2, orderCode o), (4, 0)]]
  | .cflush a => [word1 1 0x17 [(5, 0), (5, a.toNat), (14, 0)]]
  | .cinv a => [word1 1 0x18 [(5, 0), (5, a.toNat), (14, 0)]]
  | .wld f d a o => [word1 1 0x20 [(5, d.toNat), (5, a.toNat), (5, 0), (2, fmtCode f), (7, o.toNat)]]
  | .wst f d a b o => [word1 1 0x21 [(5, d.toNat), (5, a.toNat), (5, b.toNat), (2, fmtCode f), (7, o.toNat)]]
  | .wadd f d a b => encWord 0x22 0 (fmtCode f) 0 d a b.toNat
  | .wsub f d a b => encWord 0x23 0 (fmtCode f) 0 d a b.toNat
  | .wmul f d a b => encWord 0x24 0 (fmtCode f) 0 d a b.toNat
  | .wfma f d a b => encWord 0x25 0 (fmtCode f) 0 d a b.toNat
  | .wmin f d a b => encWord 0x26 0 (fmtCode f) 0 d a b.toNat
  | .wmax f d a b => encWord 0x27 0 (fmtCode f) 0 d a b.toNat
  | .wun op f d a => encWord 0x28 (wunCode op) (fmtCode f) 0 d a 0
  | .wcvt g f d a => encWord 0x29 0 (fmtCode f) (fmtCode g) d a 0
  | .wcmp c f d a b => encWord 0x2A (condCode c) (fmtCode f) 0 d a b.toNat
  | .wsel d a b => encWord 0x2B 0 0 0 d a b.toNat
  | .wred op f g d a =>
    [word1 1 0x2C [(5, d.toNat), (5, a.toNat), (3, g.toNat), (2, 0), (2, fmtCode f), (2, 0), (4, wredCode op), (1, 0)]]
  | .wperm d a b => encWord 0x2D 0 0 0 d a b.toNat
  | .wmov op f d a b => encWord 0x2E (wmovCode op) (fmtCode f) 0 d a b.toNat
  | .wq dq d a b => [word1 1 0x2F [(5, d.toNat), (5, a.toNat), (5, b.toNat), (4, 0), (1, dq.toNat), (4, 0)]]
  | .semtas c n => [word1 1 0x30 [(10, 0), (6, n.toNat), (3, scopeCode c), (5, 0)]]
  | .semtry c n d => encSync 0x31 d.toNat 0 n.toNat (scopeCode c)
  | .semclr c n => [word1 1 0x32 [(10, 0), (6, n.toNat), (3, scopeCode c), (5, 0)]]
  | .crd n d => [word1 1 0x33 [(5, d.toNat), (5, 0), (6, n.toNat), (8, 0)]]
  | .cwr n a => [word1 1 0x34 [(5, 0), (5, a.toNat), (6, n.toNat), (8, 0)]]
  | .tbar c => [word1 1 0x35 [(16, 0), (3, scopeCode c), (5, 0)]]
  | .bexp n a => [word1 1 0x36 [(5, 0), (5, a.toNat), (4, n.toNat), (10, 0)]]
  | .barv c n a => [word1 1 0x37 [(5, 0), (5, a.toNat), (4, n.toNat), (2, 0), (3, scopeCode c), (5, 0)]]
  | .bwait c n d a => [word1 1 0x38 [(5, d.toNat), (5, a.toNat), (4, n.toNat), (2, 0), (3, scopeCode c), (5, 0)]]
  | .qflush q => [word1 1 0x39 [(10, 0), (3, q.toNat), (11, 0)]]
  | .setvl d a => [word1 1 0x3A [(5, d.toNat), (5, a.toNat), (14, 0)]]
  | .setvtReg d a => [word1 1 0x3B [(5, d.toNat), (4, a.toNat % 16), (1, a.toNat / 16), (4, 0), (1, 0), (1, 0), (5, 0), (1, 0), (2, 0)]]
  | .setvtImm sat sd wd sb wb sa wa d =>
    [word1 1 0x3B [(5, d.toNat), (4, wa.toNat), (1, sa.toNat), (4, wb.toNat), (1, sb.toNat), (1, 1), (5, wd.toNat), (1, sd.toNat),
      (2, sat.toNat)]]
  | .b o => [word1 2 0x00 [(24, o.toNat)]]
  | .jal d o => [word1 2 0x01 [(5, d.toNat), (19, o.toNat)]]
  | .jalr d a o => [word1 2 0x02 [(5, d.toNat), (5, a.toNat), (14, o.toNat)]]
  | .bcc c a b o => [word1 2 0x03 [(3, condCode c), (2, o.toNat % 4), (5, a.toNat), (5, b.toNat), (9, o.toNat / 4)]]
  | .loop l a n => [word1 2 0x04 [(3, l.toNat), (2, 0), (5, a.toNat), (14, n.toNat)]]
  | .lstride l a n => [word1 2 0x05 [(3, l.toNat), (2, 0), (5, a.toNat), (14, n.toNat)]]
  | .ecall c => [word1 2 0x10 [(10, 0), (14, c.toNat)]]
  | .ebreak => encNone 2 0x11
  | .eret => encNone 2 0x12
  | .wfi => encNone 2 0x13
  | .mfsr d n => [word1 2 0x14 [(5, d.toNat), (7, 0), (12, n.toNat)]]
  | .mtsr a n => [word1 2 0x15 [(5, 0), (5, a.toNat), (2, 0), (12, n.toNat)]]
  | .tlbinv k a => [word1 2 0x16 [(5, 0), (5, a.toNat), (5, 0), (2, tlbCode k), (7, 0)]]
  | .nop => encNone 2 0x17
  | .launch d a => [word1 2 0x18 [(5, d.toNat), (5, a.toNat), (14, 0)]]
  | .signal a b => [word1 2 0x19 [(5, 0), (5, a.toNat), (5, b.toNat), (9, 0)]]
  | .exit => encNone 2 0x1A
  | .yield => encNone 2 0x1B
  | .mcfg a => [word1 2 0x20 [(5, 0), (5, a.toNat), (14, 0)]]
  | .mma c f z d a b => encMma 0x21 c f z d a b
  | .mmas c f z d a b => encMma 0x22 c f z d a b
  | .mwait k a => [word1 2 0x23 [(5, 0), (5, a.toNat), (5, 0), (1, k.toNat), (8, 0)]]
  | .mprog d => [word1 2 0x24 [(5, d.toNat), (19, 0)]]
  | .mclr => encNone 2 0x25
  | .vtow ca f d a b => [word1 2 0x26 [(5, d.toNat), (5, a.toNat), (5, b.toNat), (2, fmtCode f), (1, 0), (1, ca.toNat), (5, 0)]]
  | .wtov f d a b => [word1 2 0x27 [(5, d.toNat), (5, a.toNat), (5, b.toNat), (2, fmtCode f), (7, 0)]]
  | .kins cb ca k d a b =>
    [word1 2 0x30 [(3, d.toNat), (2, 0), (5, a.toNat), (5, b.toNat), (3, k.toNat), (1, ca.toNat), (1, cb.toNat), (4, 0)]]
  | .klook ca k d a b =>
    [word1 2 0x31 [(5, d.toNat), (5, a.toNat), (3, b.toNat), (2, 0), (3, k.toNat), (1, ca.toNat), (5, 0)]]
  | .kacc op cb ca k d a b =>
    [word1 2 0x32 [(3, d.toNat), (2, 0), (5, a.toNat), (5, b.toNat), (3, k.toNat), (1, ca.toNat), (1, cb.toNat), (4, kaccCode op)]]
  | .kdrain d a => [word1 2 0x33 [(5, d.toNat), (5, a.toNat), (14, 0)]]
  | .kclr => encNone 2 0x34
  | .twin t n i d => [word1 2 0x35 [(5, d.toNat), (5, 0), (3, i.toNat), (2, 0), (6, n.toNat), (1, t.toNat), (2, 0)]]
  | .twtake n d => [word1 2 0x36 [(5, d.toNat), (10, 0), (6, n.toNat), (3, 0)]]
  | .twack n d a => [word1 2 0x37 [(5, d.toNat), (5, a.toNat), (5, 0), (6, n.toNat), (3, 0)]]
  | .kvapp d a => [word1 2 0x38 [(5, d.toNat), (5, a.toNat), (14, 0)]]
  | .pgget k d a b => [word1 2 0x39 [(5, d.toNat), (5, a.toNat), (5, b.toNat), (1, k.toNat), (8, 0)]]
  | .pgput d a b => [word1 2 0x3A [(5, d.toNat), (5, a.toNat), (5, b.toNat), (9, 0)]]
  | .send e a b => [word1 2 0x3B [(5, 0), (5, a.toNat), (5, b.toNat), (8, e.toNat), (1, 0)]]
  | .recv e d a => [word1 2 0x3C [(5, d.toNat), (5, a.toNat), (5, 0), (8, e.toNat), (1, 0)]]
  | .lnkwait e => [word1 2 0x3D [(15, 0), (8, e.toNat), (1, 0)]]
  | .pfx l t z s r => [word1 2 0x3F [(3, r.toNat), (2, s.toNat), (1, z.toNat), (2, t.toNat), (3, l.toNat), (13, 0)]]
  | .movl d i => encWide 0x00 d 0 0 [(32, i.toNat)]
  | .movh d i => encWide 0x01 d 0 0 [(32, i.toNat)]
  | .addl d a i => encWide 0x02 d a 0 [(32, i.toNat)]
  | .fshl d a b i sh c => encWide 0x03 d a b [(5, c.toNat), (1, i.toNat), (6, sh.toNat), (20, 0)]
  | .fshr d a b i sh c => encWide 0x04 d a b [(5, c.toNat), (1, i.toNat), (6, sh.toNat), (20, 0)]
  | .bext d a s len pos => encWide 0x05 d a 0 [(6, pos.toNat), (7, len.toNat), (1, s.toNat), (18, 0)]
  | .bins d a len pos => encWide 0x06 d a 0 [(6, pos.toNat), (7, len.toNat), (19, 0)]
  | .sel d a b c => encWide 0x07 d a b [(5, c.toNat), (27, 0)]
  | .cas z o sc d a b c => encCas 0x08 z o sc d a b c
  | .casv z o sc d a b c => encCas 0x09 z o sc d a b c
  | .ldo u z o sc d a disp => encScalarMem 0x0A u z o sc d a disp
  | .sto z o sc d a disp => encScalarMem 0x0B false z o sc d a disp
  | .jl d o => encWide 0x0C d 0 0 [(32, o.toNat)]
  | .vld ord u z k d a e => encVmem 0x10 ord u z false false k d a 0 e
  | .vlds ord u z k d a b e => encVmem 0x11 ord u z false false k d a b e
  | .vldx ord u z cb k d a b e => encVmem 0x12 ord u z false cb k d a b e
  | .vldff ord u z k d a e => encVmem 0x13 ord u z false false k d a 0 e
  | .vst ord z cd k d a e => encVmem 0x14 ord false z cd false k d a 0 e
  | .vsts ord z cd k d a b e => encVmem 0x15 ord false z cd false k d a b e
  | .vstx ord z cd cb k d a b e => encVmem 0x16 ord false z cd cb k d a b e
  | .vstb cd k d a b e => encVmem 0x17 false false .b cd false k d a b e
  | .vamo op ord cd cb o sc k d a b =>
    encVmem 0x18 ord false .w cd cb k d a b (word2 [(23, 0), (3, scopeCode sc), (2, orderCode o), (4, amoCode op)])
  | .cpy o lk => encCopy 0x20 o [(1, lk.toNat), (31, 0)]
  | .cpys o rby c => encCopy 0x24 o [(5, c.toNat), (16, rby.toNat), (11, 0)]
  | .cpyt o x t dq xf pw kb c =>
    encCopy 0x21 o [(5, c.toNat), (11, kb.toNat), (5, pw.toNat), (3, xf.toNat), (2, dq.toNat), (1, t.toNat), (1, x.toNat), (4, 0)]
  | .cpyo o z q red xf kb c =>
    encCopy 0x22 o [(5, c.toNat), (11, kb.toNat), (5, 0), (3, xf.toNat), (4, copyRedCode red), (1, q.toNat), (1, z.toNat), (2, 0)]
  | .cpyg o nm qm rng iw fill sw srow c =>
    encCopy 0x23 o [(5, c.toNat), (8, 0), (4, srow.toNat), (1, sw.toNat), (8, fill.toNat), (1, iw.toNat), (1, rng.toNat), (1, qm.toNat),
      (3, nm.toNat)]
  | .cpwait ch a sc drain => encCopy 0x25 ⟨ch, 0, 0, a, 0⟩ [(1, drain.toNat), (3, scopeCode sc), (28, 0)]
  | .cpstat ch d item => encCopy 0x26 ⟨ch, 0, 0, 0, d⟩ [(3, item.toNat), (29, 0)]
  | .fetchLine => []
  | .asyncDelivery => []
  | .vloadCompletion => []
  | .laneCompletion => []
  | .matrixRowStep => []
  | .matrixDone => []
  | .copyChunk _ => []
  | .pageWalk _ _ => []
  | .trapEntry => []
  | .queueWatchdog => []
  | .wfiTimeout => []
  | .pinExpiry _ => []
  | .cacheEviction _ => []
  | .streamStop => []
  | .placementOffer => []
  | .quantumExpiry _ => []
  | .aging _ _ => []
  | .energyWindow _ => []
  | .powerGrant _ => []
  | .clocheSave _ _ _ => []
  | .clocheRestore _ => []
  | .stopWalk _ _ => []
  | .partitionResize _ _ _ _ => []
  | .vdCreation _ _ => []
  | .vdDestruction _ => []
  | .versionedPageMove _ _ _ _ => []
  | .tick _ _ => []
  | .stepFire _ _ => []
  | .holdExpiry _ _ => []
  | .recordAcceptance _ _ _ => []
  | .collapse _ => []
  | .wakeComplete _ => []
  | .wakeWrite _ => []
  | .hostMemoryWrite _ _ => []
  | .hostMemoryRead _ _ => []
  | .remoteLaunch _ _ => []
  | .messageAcceptance _ _ _ => []
  | .linkEndpointDown _ _ => []
  | .linkEndpointUp _ _ => []
  | .ptpMessage _ _ => []
  | .timeStep _ => []
  | .timeHoldover => []
  | .timeLocked _ => []
  | .thermalThreshold _ _ _ => []
  | .railVote _ _ _ _ => []
  | .railDwell _ _ => []
  | .railStep _ _ => []
  | .currentLimit _ _ => []
  | .leakageAccounting => []
  | .laneTest _ _ => []
  | .coldReset => []
  | .cxlHotReset => []
  | .functionLevelResetVf _ => []
  | .functionLevelResetPf => []
  | .getVersion => []
  | .getCapabilities => []
  | .negotiateAlgorithms => []
  | .getDigests => []
  | .getCertificate _ => []
  | .challenge _ => []
  | .getMeasurements _ => []
  | .keyExchange _ => []
  | .finish _ => []
  | .mctpControl _ => []
  | .pldmMonitoring _ => []
  | .pldmFirmwareUpdate _ => []
  | .hatbandWake _ => []
  | .recoveryImage _ => []
  | .mwctlWrite _ _ _ => []
  | .mwbaseWrite _ _ _ => []
  | .ttctlWrite _ _ _ => []
  | .rrctlWrite _ _ _ => []
  | .cpstatFltRestart _ => []
  | .cpstatAbtClear _ => []
  | .cpstatOobClear _ => []
  | .cpstatRperrClear _ => []
  | .mprogWrite _ => []
  | .registerWrite _ _ => []
  | .reservedOpcode _ => []
  | .vectorMemoryCompletion => []
  | .linkEndpointConfiguration _ _ _ => []
  | .remoteLaunchAnswer _ => []
  | .remoteStopRequest _ _ => []

/-- The instruction is an event row: it has no words and no stream issues it. -/
def Instr.isEvent (i : Instr) : Bool := encode i == []

end Sys2Proof
end

