-- ==== Sys2Proof/Machine/Fetch.lean ====
section
/-! DEFINITION. Instruction fetch: lines, parity, the header, and the instruction in a slot (R75 to R79, R92). -/
namespace Sys2Proof.Machine

/-- Parity of the ones of a list of bytes. -/
def oddOnes (bs : List Byte) : Bool := bs.foldl (fun p b => p != decide (popCount b.toNat 8 % 2 = 1)) false

/-- The bytes at offsets congruent to k modulo 8, byte 3 excluded (R75). -/
def parityBytes (bs : List Byte) (k : Nat) : List Byte :=
  ([0, 1, 2, 3, 4, 5, 6, 7] : List Nat).filterMap fun j => if 8 * j + k = 3 then none else bs[8 * j + k]?

/-- The parity byte that the rest of a line asks for (R75). -/
def parityOf (bs : List Byte) : Nat :=
  ([0, 1, 2, 3, 4, 5, 6, 7] : List Nat).foldl (fun p k => p + boolNat (oddOnes (parityBytes bs k)) * 2 ^ k) 0

/-- A line's PAR field matches (R75, R77). -/
def parityOk (bs : List Byte) : Bool := (bs.getD 3 0).toNat == parityOf bs

/-- LFMT is 1 and the reserved header bits are 0 (R75, R77). -/
def headerOk (h : W32) : Bool := h.toNat / 2 ^ 15 % 2 == 0 && h.toNat / 2 ^ 16 % 256 == 1

/-- The words of a line's bytes. -/
def wordsOf : Nat → List Byte → List W32
  | 0, _ => []
  | n + 1, bs => wordOfBytes (bs.take 4) :: wordsOf n (bs.drop 4)

/-- What the home answers a fetch with: a line, its header not yet checked; one whose parity does not match; one with an uncorrectable error,
its physical address (R77, R145). -/
inductive RawLine where
  | line (l : FetchLine)
  | parity
  | poisoned (pa : Nat)

/-- A fetch of the line that holds an address (R77, R78, R362); the line is read at its home, after the write-back of its dirty bytes, which
stays performed whatever the line holds. A control page reads 0 (R368, log 97). -/
def State.readRaw (s : State) (a : Word) : Chk (RawLine × State) :=
  let base := lineBase a
  if inLocal a.toNat || inLane a.toNat then .trap (.addr protection a .fetch)
  else match s.trans base.toNat .fetch s.user false with
    | .trap t => .trap { t with tval := a }
    | .stall w => .stall w
    | .ok (pa, pte, s1) =>
      if (s1.controlOf pa pte).isSome then .ok (.line ⟨base, List.replicate 16 0⟩, s1)
      else match s1.mustWait pa 64 with
      | some l => .stall (s.pinWait l)
      | none =>
        let s2 := (s1.counted pa 64).beforeHome pa 64
        let bs := s2.mem.bytes pa 64
        -- the second copy is read from the same bytes (R77)
        .ok (if s2.poisoned pa 64 then .poisoned pa else if parityOk bs then .line ⟨base, wordsOf 16 bs⟩ else .parity, s2)

def FetchLine.header (l : FetchLine) : W32 := l.words.getD 0 0
/-- The trap of a bad line header (R77). -/
def FetchLine.badHeader (l : FetchLine) : TrapInfo := .plain illegalInstruction (l.header.zeroExtend 64)
/-- The trap of a line whose parity does not match (R77). -/
def parityTrap (a : Word) : TrapInfo := .plain fetchParity (lineBase a)

/-- Puts a line into the stream's fetch buffer (R78). -/
def State.keepLine (s : State) (l : FetchLine) : State := { s with me := { s.me with fetchBuf := s.me.fetchBuf ++ [l] } }

/-- What the stream finds in a slot. -/
inductive Found where
  /-- the line is not in the fetch buffer -/
  | absent
  /-- an illegal instruction with this TVAL (R92) -/
  | bad (tval : Word)
  /-- a reserved opcode (R97) -/
  | reserved (w : W32)
  | ins (i : Instr) (words : Nat)

/-- The instruction in a slot (R76, R79, R91, R92). -/
def Strm.find (t : Strm) (a : Word) : Found :=
  match t.line? a with
  | none => .absent
  | some l =>
    let w := l.words.getD (slotOf a) 0
    let e := l.words.getD (slotOf a + 1) 0
    if slotOf a = 0 then .bad (w.zeroExtend 64)
    else if isLong w ∧ slotOf a = 15 then .bad (w.zeroExtend 64)
    else match decode w e with
      | .ok i => .ins i (if isLong w then 2 else 1)
      | .error .reservedOp => .reserved w
      | .error .firstWord => .bad (w.zeroExtend 64)
      | .error .extWord => .bad (e ++ w)

/-- TMASK allows a branch to the slot (R75, R90). -/
def Strm.isTarget (t : Strm) (a : Word) : Bool := slotOf a != 0 && (t.word (lineBase a)).toNat.testBit (slotOf a - 1)

/-- First bytes of b, jal, jalr, bcc, loop, ecall, eret, pfx and jl (R88). -/
def noPrefixBytes : List Nat := [0x02, 0x06, 0x0A, 0x0E, 0x12, 0x42, 0x4A, 0xFE, 0x33]

/-- The slot after a prefix makes it an orphan (R88). -/
def Strm.orphan (t : Strm) (next : Word) : Bool := t.isTarget next || noPrefixBytes.contains ((t.word next).toNat % 256)

/-- The line of the slot after a prefix comes into the fetch buffer, or the pair traps, in the order of R92: the line's parity first, then the
prefix that is an orphan, its TVAL `tval`; then `wrong`, an illegal instruction that the first word or its line already is; then a bad header
of the line, and last its page and memory faults. -/
def State.fetchNext (s : State) (next tval : Word) (wrong : Option TrapInfo) : Res :=
  match s.readRaw next with
  | .stall w => s.stall w
  | .trap t => s.trap (wrong.getD t)
  | .ok (.parity, s1) => s1.trap (parityTrap next)
  | .ok (.poisoned pa, s1) =>
    match wrong with
    | some t => s1.trap t
    | none => (s1.reportPoison pa).trap (.addr memoryError (lineBase next) .fetch)
  | .ok (.line l, s1) =>
    if (s1.keepLine l).me.orphan next then s1.trap (.plain orphanPfx tval)
    else match wrong with
      | some t => s1.trap t
      | none => if headerOk l.header then .next (s1.keepLine l) else s1.trap l.badHeader

/-- The trap of an illegal instruction whose first word is `w`: a prefix is first an orphan if it is one, as the lines of `view` show
(R88, R92). -/
def State.illegalWord (s : State) (view : Strm) (w : W32) (t : TrapInfo) : Res :=
  let next := nextSlot s.me.pc 1
  if w.toNat % 256 = 0xFE ∧ slotOf s.me.pc ≠ 0 then
    match view.line? next with
    | none => s.fetchNext next (w.zeroExtend 64) (some t)
    | some _ => if view.orphan next then s.trap (.plain orphanPfx (w.zeroExtend 64)) else s.trap t
  else s.trap t

/-- The trap of a word that is no instruction. -/
def State.badWord (s : State) (tval : Word) : Res := s.illegalWord s.me (s.me.word s.me.pc) (.plain illegalInstruction tval)

/-- The line at the program counter comes into the fetch buffer, or the stream traps; an orphan prefix comes before the bad header of its line
(R77, R92). -/
def State.fetchHere (s : State) : Res :=
  (s.readRaw s.me.pc).run s fun x =>
    match x.1 with
    | .line l =>
      if headerOk l.header then .next (x.2.keepLine l)
      else x.2.illegalWord (x.2.keepLine l).me (l.words.getD (slotOf s.me.pc) 0) l.badHeader
    | .parity => x.2.trap (parityTrap s.me.pc)
    | .poisoned pa => (x.2.reportPoison pa).trap (.addr memoryError (lineBase s.me.pc) .fetch)

/-- A reserved opcode traps (R97). -/
def State.reservedTrap (s : State) (w : W32) : Res := s.trap (.plain illegalInstruction (w.zeroExtend 64))

/-- First bytes of the instructions that only the E-stream executes (R98). -/
def eStreamByte (n : Nat) : Bool :=
  (n % 4 == 0 && 0x80 ≤ n) || (n % 4 == 1 && 0x80 ≤ n && n < 0xC0) || (n % 4 == 2 && 0x80 ≤ n && n < 0xD4)

end Sys2Proof.Machine
end

