-- ==== Sys2Proof/Machine/Scalar.lean ====
section
/-! DEFINITION. Scalar register instructions, immediates, wide constants and bit fields (R107 to R114). -/
namespace Sys2Proof.Machine

/-- Operation width N (R107). -/
def opWidth (w : Bool) : Nat := if w then 32 else 64

/-- A result modulo 2^N; a 32-bit result is sign-extended (R107, R108). -/
def narrow (w : Bool) (x : Int) : Word := wordOf (signed (opWidth w) (pat (opWidth w) x))

/-- The operand as an unsigned number of width N. -/
def uns (w : Bool) (x : Word) : Nat := x.toNat % 2 ^ opWidth w
/-- The operand as a signed number of width N. -/
def sgn (w : Bool) (x : Word) : Int := signed (opWidth w) x.toNat

/-- Exact arithmetic, then reduced under the prefix SAT: wrapping, clamped signed or clamped unsigned (R110). -/
def arith (w : Bool) (sat : BitVec 2) (f : Int → Int → Int) (x y : Word) : Word :=
  let n := opWidth w
  if sat = 1 then narrow w (clampInt (-2 ^ (n - 1)) (2 ^ (n - 1) - 1) (f (sgn w x) (sgn w y)))
  else if sat = 2 then narrow w (clampInt 0 (2 ^ n - 1) (f (uns w x) (uns w y)))
  else narrow w (f (uns w x) (uns w y))

/-- The shift amount in the low bits of y (R108). -/
def shiftAmount (w : Bool) (y : Word) : Nat := y.toNat % opWidth w

/-- x × 2^n under the prefix SAT (R110). -/
def shiftLeft (w : Bool) (sat : BitVec 2) (x : Word) (n : Nat) : Word := arith w sat (fun a _ => a * 2 ^ n) x 0
def shiftRight (w : Bool) (x : Word) (n : Nat) : Word := narrow w ((uns w x / 2 ^ n : Nat) : Int)
def shiftArith (w : Bool) (x : Word) (n : Nat) : Word := narrow w (sgn w x / 2 ^ n)
def rotateLeft (w : Bool) (x : Word) (n : Nat) : Word :=
  narrow w ((uns w x * 2 ^ n % 2 ^ opWidth w + uns w x / 2 ^ (opWidth w - n) : Nat) : Int)

/-- Quotient rounded toward zero, all ones for a divisor of 0 (R109). -/
def divOf (w : Bool) (x y : Int) : Word := if y = 0 then narrow w (-1) else narrow w (x.tdiv y)
/-- x − y × quotient, x for a divisor of 0 (R109). -/
def remOf (w : Bool) (x y : Int) : Word := if y = 0 then narrow w x else narrow w (x.tmod y)

def flagWord (b : Bool) : Word := if b then 1 else 0

/-- The bytes of x in reverse order (R108). -/
def byteSwap (w : Bool) (x : Word) : Word := narrow w ((ofLe (leBytes (opWidth w / 8) (uns w x)).reverse : Nat) : Int)

/-- An instruction of `n` words that reads registers and writes one (R17, R107). -/
def State.compute (s : State) (n : Nat) (srcs : List Reg) (d : Reg) (f : List Word → Word) : Res :=
  s.issue .both n <| s.operands srcs [d] fun v s1 => (s1.wr d (f v)).done n

/-- Two sources, one destination. -/
def State.binary (s : State) (d a b : Reg) (f : Word → Word → Word) : Res :=
  s.compute 1 [a, b] d fun v => f (nth v 0) (nth v 1)

/-- One source, one destination. -/
def State.unary (s : State) (d a : Reg) (f : Word → Word) : Res := s.compute 1 [a] d fun v => f (nth v 0)

def execAdd (w : Bool) (d a b : Reg) (s : State) : Res := s.binary d a b (arith w s.pfxSat (· + ·))
def execSub (w : Bool) (d a b : Reg) (s : State) : Res := s.binary d a b (arith w s.pfxSat (· - ·))
def execAnd (w : Bool) (d a b : Reg) (s : State) : Res := s.binary d a b fun x y => narrow w (x &&& y).toNat
def execOr (w : Bool) (d a b : Reg) (s : State) : Res := s.binary d a b fun x y => narrow w (x ||| y).toNat
def execXor (w : Bool) (d a b : Reg) (s : State) : Res := s.binary d a b fun x y => narrow w (x ^^^ y).toNat
def execAndn (w : Bool) (d a b : Reg) (s : State) : Res := s.binary d a b fun x y => narrow w (x &&& ~~~y).toNat
def execShl (w : Bool) (d a b : Reg) (s : State) : Res := s.binary d a b fun x y => shiftLeft w s.pfxSat x (shiftAmount w y)
def execShr (w : Bool) (d a b : Reg) (s : State) : Res := s.binary d a b fun x y => shiftRight w x (shiftAmount w y)
def execSar (w : Bool) (d a b : Reg) (s : State) : Res := s.binary d a b fun x y => shiftArith w x (shiftAmount w y)
def execRol (w : Bool) (d a b : Reg) (s : State) : Res := s.binary d a b fun x y => rotateLeft w x (shiftAmount w y)
def execMul (w : Bool) (d a b : Reg) (s : State) : Res := s.binary d a b (arith w s.pfxSat (· * ·))
def execMulh (w : Bool) (d a b : Reg) (s : State) : Res := s.binary d a b fun x y => narrow w (sgn w x * sgn w y / 2 ^ opWidth w)
def execMulhu (w : Bool) (d a b : Reg) (s : State) : Res :=
  s.binary d a b fun x y => narrow w ((uns w x * uns w y / 2 ^ opWidth w : Nat) : Int)
def execDiv (w : Bool) (d a b : Reg) (s : State) : Res := s.binary d a b fun x y => divOf w (sgn w x) (sgn w y)
def execDivu (w : Bool) (d a b : Reg) (s : State) : Res := s.binary d a b fun x y => divOf w (uns w x) (uns w y)
def execRem (w : Bool) (d a b : Reg) (s : State) : Res := s.binary d a b fun x y => remOf w (sgn w x) (sgn w y)
def execRemu (w : Bool) (d a b : Reg) (s : State) : Res := s.binary d a b fun x y => remOf w (uns w x) (uns w y)
def execMin (w : Bool) (d a b : Reg) (s : State) : Res := s.binary d a b fun x y => narrow w (min (sgn w x) (sgn w y))
def execMax (w : Bool) (d a b : Reg) (s : State) : Res := s.binary d a b fun x y => narrow w (max (sgn w x) (sgn w y))
def execMinu (w : Bool) (d a b : Reg) (s : State) : Res := s.binary d a b fun x y => narrow w ((min (uns w x) (uns w y) : Nat) : Int)
def execMaxu (w : Bool) (d a b : Reg) (s : State) : Res := s.binary d a b fun x y => narrow w ((max (uns w x) (uns w y) : Nat) : Int)
def execSlt (w : Bool) (d a b : Reg) (s : State) : Res := s.binary d a b fun x y => flagWord (sgn w x < sgn w y)
def execSltu (w : Bool) (d a b : Reg) (s : State) : Res := s.binary d a b fun x y => flagWord (uns w x < uns w y)
def execSeq (w : Bool) (d a b : Reg) (s : State) : Res := s.binary d a b fun x y => flagWord (uns w x == uns w y)
def execClz (w : Bool) (d a : Reg) (s : State) : Res := s.unary d a fun x => va64 (leadZeros (uns w x) (opWidth w))
def execCtz (w : Bool) (d a : Reg) (s : State) : Res := s.unary d a fun x => va64 (trailZeros (uns w x) (opWidth w) 0)
def execPopc (w : Bool) (d a : Reg) (s : State) : Res := s.unary d a fun x => va64 (popCount (uns w x) (opWidth w))
def execBswap (w : Bool) (d a : Reg) (s : State) : Res := s.unary d a (byteSwap w)
def execSext (z : Size) (d a : Reg) (s : State) : Res := s.unary d a fun x => wordOf (signed (8 * sizeBytes z) x.toNat)
def execZext (z : Size) (d a : Reg) (s : State) : Res := s.unary d a fun x => va64 (x.toNat % 2 ^ (8 * sizeBytes z))
/-- Entries held by a queue, at the instant of issue (R108, R111). -/
def execQstat (d : Reg) (q : BitVec 3) (s : State) : Res := s.compute 1 [] d fun _ => va64 (entries (s.hart.q q.toFin))

-- Immediates (R112)

def execAddi (d a : Reg) (imm : BitVec 14) (s : State) : Res := s.unary d a fun x => arith false s.pfxSat (· + ·) x (sx imm)
def execAndi (d a : Reg) (imm : BitVec 14) (s : State) : Res := s.unary d a fun x => x &&& sx imm
def execOri (d a : Reg) (imm : BitVec 14) (s : State) : Res := s.unary d a fun x => x ||| sx imm
def execXori (d a : Reg) (imm : BitVec 14) (s : State) : Res := s.unary d a fun x => x ^^^ sx imm
def execShli (d a : Reg) (sh : BitVec 6) (s : State) : Res := s.unary d a fun x => shiftLeft false s.pfxSat x sh.toNat
def execShri (d a : Reg) (sh : BitVec 6) (s : State) : Res := s.unary d a fun x => shiftRight false x sh.toNat
def execSari (d a : Reg) (sh : BitVec 6) (s : State) : Res := s.unary d a fun x => shiftArith false x sh.toNat
def execSlti (d a : Reg) (imm : BitVec 14) (s : State) : Res := s.unary d a fun x => flagWord (sgn false x < sgn false (sx imm))
def execSltiu (d a : Reg) (imm : BitVec 14) (s : State) : Res := s.unary d a fun x => flagWord (uns false x < uns false (sx imm))
def execMovi (d : Reg) (imm : BitVec 19) (s : State) : Res := s.compute 1 [] d fun _ => sx imm

-- Wide constants and bit fields (R113)

def execMovl (d : Reg) (imm : W32) (s : State) : Res := s.compute 2 [] d fun _ => sx imm
def execMovh (d : Reg) (imm : W32) (s : State) : Res :=
  s.compute 2 [d] d fun v => imm ++ (nth v 0).extractLsb' 0 32
def execAddl (d a : Reg) (imm : W32) (s : State) : Res := s.compute 2 [a] d fun v => nth v 0 + sx imm

/-- The shift count of fshl and fshr: SH6, or the low 6 bits of S[C] (R113). -/
def funnelCount (i : Bool) (sh : BitVec 6) (c : Word) : Nat := if i then sh.toNat else c.toNat % 64
/-- The 128-bit value with X above Y. -/
def pairOf (x y : Word) : Nat := x.toNat * 2 ^ 64 + y.toNat

def execFshl (d a b : Reg) (i : Bool) (sh : BitVec 6) (c : Reg) (s : State) : Res :=
  s.compute 2 [a, b, c] d fun v => va64 (pairOf (nth v 0) (nth v 1) * 2 ^ funnelCount i sh (nth v 2) / 2 ^ 64)
def execFshr (d a b : Reg) (i : Bool) (sh : BitVec 6) (c : Reg) (s : State) : Res :=
  s.compute 2 [a, b, c] d fun v => va64 (pairOf (nth v 0) (nth v 1) / 2 ^ funnelCount i sh (nth v 2))
def execBext (d a : Reg) (sg : Bool) (len : BitVec 7) (pos : BitVec 6) (s : State) : Res :=
  s.compute 2 [a] d fun v => wordOf (valueOf sg len.toNat ((nth v 0).toNat / 2 ^ pos.toNat))
def execBins (d a : Reg) (len : BitVec 7) (pos : BitVec 6) (s : State) : Res :=
  s.compute 2 [a, d] d fun v => setFld (nth v 1) pos.toNat len.toNat (nth v 0).toNat
def execSel (d a b c : Reg) (s : State) : Res :=
  s.compute 2 [a, b, c] d fun v => if nth v 2 ≠ 0 then nth v 0 else nth v 1

end Sys2Proof.Machine
end

