-- ==== Sys2Proof/Machine/Control.lean ====
section
/-! DEFINITION. Branches, the loop sequencer, the prefix, queue control, vector length and type, and the traps that
instructions ask for (R86 to R92, R115 to R134, R140). -/
namespace Sys2Proof.Machine

-- Branches (R117, R118)

/-- The address that follows in sequence: the link (R117). -/
def State.link (s : State) (n : Nat) : Word := nextSlot s.me.pc n

/-- Control passes to `target` with the link written to `d`, after the checks of R118; a trap or stall acts on `s`, the state
before the pops. A line that cannot be fetched faults at the target. -/
def State.branch (s s1 : State) (n : Nat) (d : Reg) (target : Word) : Res :=
  let go (s2 : State) : Res :=
    let s3 := s2.wr d (s.link n)
    .next { s3 with me := s3.me.jumpTo target }
  if target &&& 3 ≠ 0 then s.trap (.addr misaligned target .fetch)
  else if !canonical target.toNat then s.trap (.addr protection target .fetch)
  else if slotOf target = 0 then s.trap (.plain illegalTarget target)
  else match s1.me.line? target with
    | some _ => if s1.me.isTarget target then go s1 else s.trap (.plain illegalTarget target)
    | none =>
      match s1.readRaw target with
      | .trap _ => go s1
      | .stall w => s.stall w
      | .ok (.line l, s2) =>
        if headerOk l.header then
          let s3 := s2.keepLine l
          if s3.me.isTarget target then go s3 else State.trap { s2 with hart := s.hart } (.plain illegalTarget target)
        else go s2
      | .ok (_, s2) => go s2

/-- A target given as a slot offset from the branch (R83). -/
def State.slotTarget (s : State) (ofs : Word) : Word := s.me.pc + 4 * ofs

/-- The condition of bcc (R85). -/
def condHolds (c : Cond) (x y : Word) : Bool :=
  match c with
  | .eq => x == y
  | .ne => x != y
  | .lt => x.slt y
  | .ge => !x.slt y
  | .ltu => x.ult y
  | .geu => !x.ult y

def execB (ofs : BitVec 24) (s : State) : Res :=
  s.issue .both 1 <| s.operands [] [] fun _ s1 => s.branch s1 1 0 (s.slotTarget (sx ofs))
def execJal (d : Reg) (ofs : BitVec 19) (s : State) : Res :=
  s.issue .both 1 <| s.operands [] [d] fun _ s1 => s.branch s1 1 d (s.slotTarget (sx ofs))
def execJalr (d a : Reg) (ofs : BitVec 14) (s : State) : Res :=
  s.issue .both 1 <| s.operands [a] [d] fun v s1 => s.branch s1 1 d (nth v 0 + 4 * sx ofs)
def execBcc (c : Cond) (a b : Reg) (ofs : BitVec 11) (s : State) : Res :=
  s.issue .both 1 <| s.operands [a, b] [] fun v s1 =>
    if condHolds c (nth v 0) (nth v 1) then s.branch s1 1 0 (s.slotTarget (sx ofs)) else s1.done 1
def execJl (d : Reg) (ofs : W32) (s : State) : Res :=
  s.issue .both 2 <| s.operands [] [d] fun _ s1 => s.branch s1 2 d (s.slotTarget (sx ofs))

-- The loop sequencer (R120 to R126)

def State.illegal (s : State) : Res := s.trap (.plain illegalInstruction s.insWord)

/-- Some level at or inside `l` is active in the current mode (R122). -/
def Strm.deepActive (t : Strm) (l : BitVec 3) : Bool := (List.finRange 6).any fun i => l.toNat ≤ i.val && (t.active i).isSome
/-- A body ending at `last` would outrun a level outside `l` that is active in the current mode (R122, log 12). -/
def Strm.outruns (t : Strm) (l : BitVec 3) (last : Word) : Bool :=
  (List.finRange 6).any fun i => decide (i.val < l.toNat) && match t.active i with | some a => decide (a.last < last) | none => false

/-- Issue of a loop whose body is `n` slots and whose count is `c` (R122). -/
def Strm.startLoop (t : Strm) (l : Fin 6) (n : Nat) (c : Word) : Strm :=
  let first := nextSlot t.pc 1
  let last := slotsOn first (n - 1)
  let lv := t.loops[l]
  if c = 0 then
    loopEnd last deepFirst (nextSlot last 1)
      { t with loops := t.loops.set l { lv with pairs := [] }, wait := none, pfx := none, age := 0 }
  else
    { t with
      loops := t.loops.set l { pairs := [], act := some ⟨first, last, c, 0, t.mode, lv.pairs⟩ }
      pc := first, wait := none, pfx := none, age := 0 }

def execLoop (l : BitVec 3) (a : Reg) (n : BitVec 14) (s : State) : Res :=
  s.issue .both 1 <| s.operands [a] [] fun v s1 =>
    if h : l.toNat < 6 then
      if n = 0 || s.me.deepActive l || s.me.outruns l (slotsOn (nextSlot s.me.pc 1) (n.toNat - 1)) then s.illegal
      else .next { s1 with me := s1.me.startLoop ⟨l.toNat, h⟩ n.toNat (nth v 0) }
    else s.illegal

/-- Registers a stride for the next activation of a level (R121). -/
def execLstride (l : BitVec 3) (a : Reg) (imm : BitVec 14) (s : State) : Res :=
  s.issue .both 1 <|
    if h : l.toNat < 6 then
      let i : Fin 6 := ⟨l.toNat, h⟩
      let lv := s.me.loops[i]
      if (s.me.active i).isSome || decide (4 ≤ lv.pairs.length) || isQ a then s.illegal
      else State.done { s with me := { s.me with loops := s.me.loops.set i { lv with pairs := lv.pairs ++ [(a, sx imm)] } } } 1
    else s.illegal

-- The prefix (R86 to R89, R125)

/-- Which of RM, SAT and FZ an instruction accepts (R89). -/
def accepts : Instr → Bool × Bool × Bool
  | .wadd f _ _ _ | .wsub f _ _ _ | .wmul f _ _ _ | .wfma f _ _ _ | .wmin f _ _ _ | .wmax f _ _ _ =>
    if f = .i32 then (false, true, false) else (true, false, true)
  | .wred _ f _ _ _ => if f = .i32 then (false, true, false) else (true, false, true)
  | .wcvt .. => (true, true, true)
  | .wun .. | .wcmp .. | .wq .. => (false, false, true)
  | .vadd .. | .vsub .. | .vmul .. | .vmac .. | .vneg .. | .vabs .. | .vshl .. | .vdot .. | .vred .. | .vgred .. | .vcvtw .. | .vxq .. =>
    (false, true, false)
  | .vld .. | .vlds .. | .vldx .. | .vldff .. | .vst .. | .vsts .. | .vstx .. | .vstb .. => (false, true, false)
  | .mma .. | .mmas .. => (false, true, false)
  | .add .. | .sub .. | .mul .. | .addi .. | .shl .. | .shli .. => (false, true, false)
  | _ => (false, false, false)

/-- A prefix field holds a reserved value, or LVL without ITER (R89). -/
def pfxReserved (lvl : BitVec 3) (iter sat : BitVec 2) (rm : BitVec 3) : Bool :=
  decide (5 < lvl.toNat) || iter == 3 || sat == 3 || decide (4 < rm.toNat) || (iter == 0 && lvl != 0)

/-- The next instruction does not accept a field that is set (R89). -/
def pfxRefused (i : Instr) (fz : Bool) (sat : BitVec 2) (rm : BitVec 3) : Bool :=
  let a := accepts i
  (rm != 0 && !a.1) || (sat != 0 && !a.2.1) || (fz && !a.2.2)

/-- The activation that ITER refers to (R89, R125). -/
def Strm.iterLevel (t : Strm) (lvl : BitVec 3) : Option Loop := if h : lvl.toNat < 6 then t.active ⟨lvl.toNat, h⟩ else none

/-- The pair issues in this iteration (R125). -/
def iterRuns (iter : BitVec 2) (a : Loop) : Bool := if iter = 1 then a.iter == 0 else a.left == 1

/-- A prefix (R87 to R89, R92, R125, R126): its checks, then the pair is skipped, or its fields wait for the next instruction. -/
def execPfx (lvl : BitVec 3) (iter : BitVec 2) (fz : Bool) (sat : BitVec 2) (rm : BitVec 3) (s : State) : Res :=
  let next := nextSlot s.me.pc 1
  let start : Res :=
    .next { s with me := { s.me with pfx := some ⟨s.me.pc, fz, sat, rm⟩, pc := next } }
  let wrong : Bool := pfxReserved lvl iter sat rm || s.me.lastOfBody s.me.pc || (iter != 0 && (s.me.iterLevel lvl).isNone)
  let absent : Res := s.fetchNext next s.insWord (if wrong then some (.plain illegalInstruction s.insWord) else none)
  match s.me.find next with
  | .absent => absent
  | found =>
    if s.me.orphan next then s.trap (.plain orphanPfx s.insWord)
    else if wrong then s.illegal
    else match found with
      | .ins i n =>
        if pfxRefused i fz sat rm then s.illegal
        else match (if iter = 0 then none else s.me.iterLevel lvl) with
          | none => start
          | some a =>
            if iterRuns iter a then start
            else if n = 2 ∧ s.me.lastOfBody next then s.trap (.plain illegalInstruction ((s.me.word next).zeroExtend 64))
            else State.done { s with me := { s.me with pc := next } } n
      | .bad t => s.trap (.plain illegalInstruction t)
      | .reserved w => s.trap (.plain illegalInstruction (w.zeroExtend 64))
      | .absent => absent

-- Queues, vector length and type (R127, R129, R130)

def execQflush (q : BitVec 3) (s : State) : Res :=
  s.issue .both 1 <|
    State.done { s with hart := s.hart.setQ q.toFin ((s.hart.q q.toFin).filter (fun e => e == .reserved)) } 1

def clampVl (s : State) (v : Word) : BitVec 15 := BitVec.ofNat 15 (min v.toNat s.lanes)

def execSetvl (d a : Reg) (s : State) : Res :=
  s.issue .both 1 <| s.operands [a] [d] fun v s1 =>
    let vl := clampVl s (nth v 0)
    (State.wr { s1 with me := { s1.me with vl := vl } } d (vl.zeroExtend 64)).done 1

/-- A VTYPE value with XF of 5 to 7 or SAT of 0b11 (R31). -/
def vtypeBad (v : BitVec 21) : Bool := decide (5 ≤ v.toNat / 2 ^ 18) || v.toNat / 2 ^ 16 % 4 == 3

/-- The trap "width error", TVAL holding the VTYPE in effect (R130). -/
def State.widthTrap (s : State) : Res := s.trap (.plain widthError (s.me.vtype.zeroExtend 64))

/-- Writes VTYPE and the destination (R129, R130). -/
def State.setVtype (s s1 : State) (d : Reg) (v : BitVec 21) : Res :=
  if vtypeBad v then s.widthTrap
  else (State.wr { s1 with me := { s1.me with vtype := v } } d (v.zeroExtend 64)).done 1

def execSetvtReg (d a : Reg) (s : State) : Res :=
  s.issue .both 1 <| s.operands [a] [d] fun v s1 => s.setVtype s1 d ((nth v 0).extractLsb' 0 21)

def execSetvtImm (sat : BitVec 2) (sd : Bool) (wd : BitVec 5) (sb : Bool) (wb : BitVec 4) (sa : Bool) (wa : BitVec 4) (d : Reg)
    (s : State) : Res :=
  s.issue .both 1 <| s.operands [] [d] fun _ s1 =>
    s.setVtype s1 d ((0 : BitVec 3) ++ sat ++ b01 sd ++ b01 sb ++ b01 sa ++ wd ++ wb ++ wa)

-- Traps on request, return, waiting (R132 to R134, R140)

def execEcall (code : BitVec 14) (s : State) : Res := s.issue .both 1 <| s.trap (.plain ecallCause (code.zeroExtend 64))
def execEbreak (s : State) : Res := s.issue .both 1 <| s.trap (.plain ebreakCause 0)

/-- A halted matrix operation whose halt has been reported goes on, when control returns to the instruction that reported it (R229). -/
def Hart.unhalt (h : Hart) (pc : Word) : Hart := if h.mtold = some pc then { h with mhalt := none, mtold := none } else h

/-- eret: the return from a trap in mode S, "protection" in mode U (R133). -/
def execEret (s : State) : Res :=
  s.issue .both 1 <|
    if s.me.mode = .s then .next { s with me := s.me.eret, hart := if s.isE then s.hart.unhalt s.me.tpc else s.hart } else s.trap (.plain protection s.insWord)

/-- wfi suspends its stream; a wake event or the time limit completes it (R134). -/
def execWfi (s : State) : Res := s.issue .both 1 (s.suspend .wfi)

def execNop (s : State) : Res := s.issue .both 1 (s.done 1)

/-- yield: the age and the ready time of its stream's next instruction start at 0, as after every issue (R140, R309). -/
def execYield (s : State) : Res := s.issue .both 1 (s.done 1)

/-- A reserved opcode (R97). -/
def execReservedOpcode (w : W32) (s : State) : Res := s.reservedTrap w

/-- A fetch line arrives (R77, R78). A stopped team fetches nothing, and a pending channel fault is taken before a trap of the fetch (R342,
R347). -/
def execFetchLine (s : State) : Res :=
  if s.held || s.me.stopped then .next s
  else match s.me.line? s.me.pc with
  | some _ => .next s
  | none => if s.me.faults.isEmpty then s.fetchHere else .next s

end Sys2Proof.Machine
end

