-- ==== Sys2Proof/Machine/Memory.lean ====
section
/-! DEFINITION. Scalar loads and stores, fences, cache operations, atomics and versions (R142 to R160). -/
namespace Sys2Proof.Machine

def State.acquireIf (s : State) (acq : Bool) (c : Scope) : State := if acq then s.acquire c else s

/-- The line that a release or atomic performed in the core data cache must wait for: its home records the pin, so another core's pin holds
it even where the cache has a copy (R333, log 65). -/
def State.pinWaits (s : State) (l : Loc) : Option Nat :=
  match l with
  | .cached pa => if s.ownPin (lineOf pa) then none else s.mustWait pa 1
  | _ => none

/-- A release or atomic that wrote a line in the core data cache pins it (R333). -/
def State.pinWritten (s : State) (l : Loc) : State :=
  match l with
  | .cached pa => s.pin (lineOf pa)
  | _ => s

/-- Scopes at which an access may be performed in the core data cache (R316). -/
def narrow? (c : Scope) : Bool := c = .hart ∨ c = .core

def execLd (u : Bool) (z : Size) (d a : Reg) (ofs : BitVec 11) (s : State) : Res :=
  s.issue .both 1 <| s.operands [a] [d] fun v s1 =>
    s.loadMem s1 (nth v 0 + sx ofs * va64 (sizeBytes z)).toNat (sizeBytes z) true fun x s2 =>
      (s2.deliverLater d (extend u (sizeBytes z) x)).done 1

def execSt (z : Size) (d a : Reg) (ofs : BitVec 11) (s : State) : Res :=
  s.issue .both 1 <| s.operands [a, d] [] fun v s1 =>
    s.storeMem s1 (nth v 0 + sx ofs * va64 (sizeBytes z)).toNat (sizeBytes z) (nth v 1).toNat true fun _ s2 => s2.done 1

/-- ldo: the load at its scope, then its acquire (R143, R316, R318). -/
def execLdo (u : Bool) (z : Size) (o : Order) (sc : Scope) (d a : Reg) (disp : W32) (s : State) : Res :=
  s.issue .both 2 <| s.operands [a] [d] fun v s1 =>
    s.orderThen s1 false (acqOf o) sc fun s2 =>
      s.loadMem s2 (nth v 0 + sx disp).toNat (sizeBytes z) (narrow? sc) fun x s3 =>
        ((s3.acquireIf (acqOf o) sc).deliverLater d (extend u (sizeBytes z) x)).done 2

/-- sto: its release, then the store at its scope (R143, R316, R318, R333). -/
def execSto (z : Size) (o : Order) (sc : Scope) (d a : Reg) (disp : W32) (s : State) : Res :=
  s.issue .both 2 <| s.operands [a, d] [] fun v s1 =>
    let ea := (nth v 0 + sx disp).toNat
    (s1.findLoc ea (sizeBytes z) .write (narrow? sc)).run s fun (l, _, s2) =>
      match (if relOf o then s2.pinWaits l else none) with
      | some x => s.stall (s.pinWait x)
      | none =>
        s.releaseThen s2 (relOf o) sc fun s3 =>
          let s4 := s3.writeLoc l (sizeBytes z) (nth v 1).toNat
          (if relOf o then s4.pinWritten l else s4).done 2

/-- A copy command or matrix operation of the stream has bytes of its sources still to read: a fence's acquire part orders those reads
before the later accesses (R146, R329). -/
def State.readsOutstanding (s : State) : Option Wait :=
  if s.copiesReading then some .channel else if s.opsUnread then some .engine else none

/-- fence: the release part, then the acquire part (R146). -/
def execFence (o : Order) (c : Scope) (s : State) : Res :=
  s.issue .both 1 <|
    if o = .rlx then s.illegal
    else match (if acqOf o then s.readsOutstanding else none) with
      | some w => s.stall w
      | none => s.orderThen s (relOf o) (acqOf o) c fun s1 => (s1.acquireIf (acqOf o) c).done 1

/-- The line that cflush or cinv acts on, if the address may be held in the core data cache (R147). A dirty line whose home answers with a
retry is waited for (R333). A trap of the translation records a read (R340, log 26). -/
def State.cacheLineOp (s s1 : State) (a : Word) (k : Nat → State → State) : Res :=
  if inLocal a.toNat then s1.done 1
  else if inLane a.toNat then s.trap (.addr protection a .read)
  else (s1.trans a.toNat .read s.user true).run s fun (pa, pte, s2) =>
    if pteMt pte = 3 ∨ pteCmp pte then s2.done 1
    else match (if (s2.cached (lineOf pa)).any CLine.isDirty then s2.mustWait pa 1 else none) with
      | some l => s.stall (s.pinWait l)
      | none => (k (lineOf pa) s2).done 1

/-- Writes a line back; a pinned one as a die-scope release of that line, which ends its pin (R147, R333). -/
def State.flushLine (s : State) (line : Nat) : State := s.unpin (fun l => l.line = line)

def execCflush (a : Reg) (s : State) : Res :=
  s.issue .aOnly 1 <| s.operands [a] [] fun v s1 => s.cacheLineOp s1 (nth v 0) fun line s2 => s2.flushLine line

def execCinv (a : Reg) (s : State) : Res :=
  s.issue .aOnly 1 <| s.operands [a] [] fun v s1 => s.cacheLineOp s1 (nth v 0) fun line s2 =>
    let s3 := s2.flushLine line
    s3.setCache (s3.core.dcache.filter (fun l => l.line ≠ line))

-- Atomics (R148 to R153)

/-- The new value of an amo (R148). -/
def amoNew (op : AmoOp) (old x : Word) : Word :=
  match op with
  | .add => old + x
  | .min => if x.slt old then x else old
  | .max => if old.slt x then x else old
  | .minu => if x.ult old then x else old
  | .maxu => if old.ult x then x else old
  | .and => old &&& x
  | .or => old ||| x
  | .xor => old ^^^ x
  | .swap => x
  | .fadd => va64 (fadd32 (old.toNat % 2 ^ 32) (x.toNat % 2 ^ 32))

/-- The checks of R152 before translation: alignment, the two windows. -/
def State.atomicWindow (s : State) (a n : Nat) : Chk Unit :=
  match s.windowCheck a n .atomic false with
  | some t => .trap t
  | none => if s.interlocked a n true then .stall .interlock else .ok ()

/-- Where an atomic is performed once translated, its line free and counted (R149, R316, R321). -/
def State.atomicLoc (s : State) (pa : Nat) (inCache : Bool) (n : Nat) : Chk (Loc × State) :=
  let l : Loc := if inCache then .cached pa else .home pa
  match (if inCache then s.pinWaits l else s.mustWait pa n) with
  | some x => .stall (s.pinWait x)
  | none =>
    if inCache && (s.cached (lineOf pa)).isSome then .ok (l, s)
    else match (if inCache then s.setWaits (lineOf pa) else none) with
      | some x => .stall (s.pinWait x)
      | none => .ok (l, s.counted pa n)

/-- An atomic: checks, release, the indivisible operation `f` (old value to the value written, if one is, and the result),
acquire, delivery (R148 to R153). -/
def State.atomic (s0 s : State) (a n : Nat) (o : Order) (c : Scope) (d : Reg) (words : Nat) (f : Nat → Option Nat × Word) : Res :=
  (s.atomicWindow a n).run s0 fun _ =>
    (s.transBut a .atomic s0.user onControl).run s0 fun (pa, pte, s1) =>
      s0.orderThen s1 (relOf o) (acqOf o) c fun s2 =>
        (s2.atomicLoc pa (narrow? c && decide (pteMt pte ≤ 1)) n).run s0 fun (l, s3) =>
          let s4 := s3.settleLoc l n
          if s4.poisoned pa n then
            (State.reportPoison { s4 with hart := s0.hart } pa).trap (.addr memoryError (va64 a) .atomic)
          else
            let x := s4.readLoc l n
            let r := f x.1
            let s5 := match r.1 with
              | none => x.2
              | some w => (x.2.writeLoc l n w).pinWritten l
            ((s5.acquireIf (acqOf o) c).deliverLater d r.2).done words

def execAmo (op : AmoOp) (o : Order) (c : Scope) (d a b : Reg) (s : State) : Res :=
  s.issue .aOnly 1 <| s.operands [a, b] [d] fun v s1 =>
    let n := if op = .fadd then 4 else 8
    s.atomic s1 (nth v 0).toNat n o c d 1 fun old => (some (amoNew op (va64 old) (nth v 1)).toNat, va64 old)

def execCas (z : Size) (o : Order) (sc : Scope) (d a b c : Reg) (s : State) : Res :=
  s.issue .aOnly 2 <| s.operands [a, b, c] [d] fun v s1 =>
    let n := sizeBytes z
    s.atomic s1 (nth v 0).toNat n o sc d 2 fun old =>
      (if old = (nth v 1).toNat % 2 ^ (8 * n) then some (nth v 2).toNat else none, extend false n old)

-- Versions (R154 to R160)

/-- The checks of ldv and casv: those of R144, a control page with check 5, then the version's availability, and the line free (R155, R333). -/
def State.versionedLoc (s : State) (a n : Nat) (acc : Acc) (user : Bool) : Chk (Nat × State) :=
  match s.windowCheck a n acc false with
  | some t => .trap t
  | none =>
    if s.interlocked a n (writes acc) then .stall .interlock
    else (s.transBut a acc user onControl).bind fun (pa, pte, s1) =>
      if !s1.hasVersion pa pte then .trap (.addr versionUnavailable (va64 a) acc)
      else match s1.mustWait pa n with
        | some l => .stall (s.pinWait l)
        | none => .ok (pa, s1.counted pa n)

/-- An ldv or casv of a line meets an uncorrectable error, in the line's bytes or in its side slot: the state with the VD's event; the
error of the bytes is the one reported when both have one (R153, R323, R409, log 66). -/
def State.versionError (s : State) (pa n : Nat) : Option State :=
  if s.poisoned pa n then some (s.reportPoison pa)
  else if s.slotError (lineOf pa) then some (s.event s.hart.vd.toNat 8 1 (va64 (lineOf pa * 128)))
  else none

/-- Records a line and its version in the validate set (R156). -/
def Hart.record (h : Hart) (line : Nat) (v : BitVec 48) : Hart :=
  if h.vset.any (fun e => e.1 = line) then h
  else if Config.vsetSize ≤ h.vset.length then { h with vovf := true }
  else { h with vset := h.vset ++ [(line, v)] }

def execLdv (d a : Reg) (ofs : BitVec 11) (s : State) : Res :=
  s.issue .aOnly 1 <| s.operands [a] [d] fun v s1 =>
    let ea := (nth v 0 + sx ofs * 8).toNat
    (s1.versionedLoc ea 8 .read s.user).run s fun (pa, s2) =>
      let s3 := s2.beforeHome pa 8
      match State.versionError { s3 with hart := s.hart } pa 8 with
      | some s4 => s4.trap (.addr memoryError (va64 ea) .read)
      | none =>
        let s4 := { s3 with hart := s3.hart.record (lineOf pa) (s3.version (lineOf pa)) }
        (s4.deliverLater d (va64 (s3.mem.rd pa 8))).done 1

/-- Reads the current version of a recorded line at its home; a side slot with an uncorrectable error counts as unequal, and is reported
with kind 1 (R157, R323, R409). -/
def State.checkLine (x : Bool × State) (e : Nat × BitVec 48) : Bool × State :=
  let s1 := (x.2.counted (e.1 * 128) 1).beforeHome (e.1 * 128) 128
  if s1.slotError e.1 then (false, s1.event s1.hart.vd.toNat 8 1 (va64 (e.1 * 128)))
  else (x.1 && s1.version e.1 == e.2, s1)

/-- vval (R157). Deliveries outstanding, an ldv's among them, come first. -/
def execVval (d : Reg) (s : State) : Res :=
  s.issue .aOnly 1 <| s.operands [] [d] fun _ s1 =>
    if !s.me.pend.isEmpty then s.stall .scoreboard
    else match s.hart.vset.findSome? (fun e => s.mustWait (e.1 * 128) 1) with
      | some l => s.stall (s.pinWait l)
      | none =>
        let (ok, s2) := s1.hart.vset.foldl State.checkLine (!s1.hart.vovf, s1)
        (s2.wr d (if ok then 1 else 0)).done 1

def execVclr (s : State) : Res :=
  s.issue .aOnly 1 <| State.done { s with hart := { s.hart with vset := [], vovf := false } } 1

/-- casv: at the line's home whatever the scope; a success returns the raised version with bit 63 set (R160). -/
def execCasv (z : Size) (o : Order) (sc : Scope) (d a b c : Reg) (s : State) : Res :=
  s.issue .aOnly 2 <| s.operands [a, b, c] [d] fun v s1 =>
    let ea := (nth v 0).toNat
    let n := sizeBytes z
    (s1.versionedLoc ea n .atomic s.user).run s fun (pa, s2) =>
      s.orderThen s2 (relOf o) (acqOf o) sc fun s3 =>
        let s4 := s3.beforeHome pa n
        match State.versionError { s4 with hart := s.hart } pa n with
        | some s5 => s5.trap (.addr memoryError (va64 ea) .atomic)
        | none =>
          let cur := s4.version (lineOf pa)
          let hit := !bit (nth v 1) 63 && decide (cur.toNat = (nth v 1).toNat % 2 ^ 48)
          let s5 := if hit then s4.homeWrite pa (leBytes n (nth v 2).toNat) else s4
          let r := if hit then 0x8000000000000000 ||| va64 ((cur.toNat + 1) % 2 ^ 48) else va64 cur.toNat
          ((s5.acquireIf (acqOf o) sc).deliverLater d r).done 2

end Sys2Proof.Machine
end

