-- ==== Sys2Proof/Machine/Sync.lean ====
section
/-! DEFINITION. The communication file, the team barrier and the transfer barriers (R42, R43, R161 to R168). -/
namespace Sys2Proof.Machine

def State.setComm (s : State) (c : CommFile) : State := { s with clus := { s.clus with comm := c } }

/-- Runs `k` in a team that declared use of the communication file (R42). -/
def State.needComm (s : State) (k : Res) : Res := if s.hart.cf then k else s.trap (.plain protection s.insWord)

-- Semaphores and words (R161, R162)

def CommFile.sem (c : CommFile) (n : BitVec 6) : Bool := c.sems[n.toNat]
def CommFile.setSem (c : CommFile) (n : BitVec 6) (b : Bool) : CommFile := { c with sems := c.sems.set n.toNat b }
/-- The stream that receives semaphore n next. -/
def CommFile.nextFor (c : CommFile) (n : BitVec 6) : Option StreamId := (c.semq.find? (fun x => x.1 = n)).map (·.2)

/-- semtas: the bit goes to the waiting streams in the order of their requests (R161). -/
def execSemtas (c : Scope) (n : BitVec 6) (s : State) : Res :=
  s.issue .both 1 <| s.needComm <|
    let f := s.clus.comm
    let mine : BitVec 6 × StreamId := (n, s.streamId)
    let asked := s.setComm { f with semq := if f.semq.contains mine then f.semq else f.semq ++ [mine] }
    if !f.sem n && (f.nextFor n).getD s.streamId == s.streamId then
      match s.orderWaits false true c with
      | some w => asked.stall w
      | none => ((s.setComm { f.setSem n true with semq := f.semq.filter (· ≠ mine) }).acquire c).done 1
    else asked.stall .sync

/-- semtry: one attempt; a bit that a waiting stream is to receive is not free (R161). -/
def execSemtry (c : Scope) (n : BitVec 6) (d : Reg) (s : State) : Res :=
  s.issue .both 1 <| s.direction [] [d] <| s.needComm <| s.operands [] [d] fun _ s1 =>
    let f := s1.clus.comm
    if f.sem n || (f.nextFor n).isSome then (s1.wr d 1).done 1
    else s.acquireThen c ((((s1.setComm (f.setSem n true)).wr d 0).acquire c).done 1)

def execSemclr (c : Scope) (n : BitVec 6) (s : State) : Res :=
  s.issue .both 1 <| s.needComm <| s.releaseThen s true c fun s1 => (s1.setComm (s1.clus.comm.setSem n false)).done 1

def execCrd (n : BitVec 6) (d : Reg) (s : State) : Res :=
  s.issue .both 1 <| s.direction [] [d] <| s.needComm <| s.operands [] [d] fun _ s1 => (s1.wr d s.clus.comm.cws[n.toNat]).done 1

def execCwr (n : BitVec 6) (a : Reg) (s : State) : Res :=
  s.issue .both 1 <| s.direction [a] [] <| s.needComm <| s.operands [a] [] fun v s1 =>
    (s1.setComm { s1.clus.comm with cws := s1.clus.comm.cws.set n.toNat (nth v 0) }).done 1

-- The team barrier (R163)

/-- Every stream of the team in focus that has not exited has arrived. -/
def State.allArrived (s : State) (arrived : List StreamId) : Bool :=
  (s.allCtxs.filter (fun c => c.key = s.key)).all fun c =>
    (c.a.stopped || arrived.contains ⟨c.hart.id, false⟩) && (c.e.stopped || arrived.contains ⟨c.hart.id, true⟩)

/-- Completes the episode if the last stream has arrived. -/
def State.episode (s : State) : State :=
  let f := s.clus.comm
  if !f.arrived.isEmpty && s.allArrived f.arrived then s.setComm { f with gen := f.gen + 1, arrived := [] } else s

/-- The stream goes on if its episode is complete, and otherwise waits with its arrival recorded. -/
def State.passBar (s : State) (g : Nat) (c : Scope) : Res :=
  let arrived : State := { s with me := { s.me with arrive := some g } }
  if s.clus.comm.gen = g then arrived.stall .sync
  else match s.orderWaits false true c with
  | some w => arrived.stall w
  | none => (State.acquire { s with me := { s.me with arrive := none } } c).done 1

def execTbar (c : Scope) (s : State) : Res :=
  s.issue .both 1 <| s.needComm <|
    match s.me.arrive with
    | some g => s.passBar g c
    | none =>
      if s.clus.comm.arrived.contains s.streamId then s.illegal
      else s.releaseThen s true c fun s1 =>
        let f := s1.clus.comm
        (s1.setComm { f with arrived := f.arrived ++ [s1.streamId] }).episode.passBar f.gen c

-- Transfer barriers (R164 to R168)

/-- A command tagged with the barrier's phase still has bytes to deliver (R165). -/
def Core.tagged (c : Core) (n : BitVec 4) (phase : Bool) : Bool :=
  (List.finRange 8).any fun i => c.chans[i].queue.any fun q => q.tb == n && q.phase == phase && (q.more || decide (q.credited < q.counted))

/-- Completes the barrier's phase at the first instant at which R165's three conditions hold. -/
def Core.settleBar (c : Core) (n : BitVec 4) : Core :=
  let b := c.tbs[n.toNat]
  if b.posted && decide (b.arrived.toInt = b.expected) && !c.tagged n b.phase then
    { c with tbs := c.tbs.set n.toNat { phase := !b.phase, posted := false, expected := 0, arrived := 0 } }
  else c

/-- The barrier's current phase is overrun (R165). -/
def Core.overrun (c : Core) (n : BitVec 4) : Bool :=
  let b := c.tbs[n.toNat]
  b.posted && !c.tagged n b.phase && decide ((b.expected : Int) < b.arrived.toInt)

def State.mapBar (s : State) (n : BitVec 4) (f : Barrier → Barrier) : State :=
  { s with core := Core.settleBar { s.core with tbs := s.core.tbs.set n.toNat (f s.core.tbs[n.toNat]) } n }

/-- Credits bytes to a phase of a barrier; bytes of a phase that is over are not counted (R164). -/
def State.credit (s : State) (n : BitVec 4) (phase : Bool) (bytes : Nat) : State :=
  s.mapBar n fun b => if b.phase = phase then { b with arrived := b.arrived + BitVec.ofNat 40 bytes } else b

def execBexp (n : BitVec 4) (a : Reg) (s : State) : Res :=
  s.issue .aOnly 1 <| s.operands [a] [] fun v s1 =>
    if 2 ^ 39 ≤ (nth v 0).toNat then s.illegal
    else (s1.mapBar n fun b => { b with posted := true, expected := b.expected + (nth v 0).toNat }).done 1

def execBarv (c : Scope) (n : BitVec 4) (a : Reg) (s : State) : Res :=
  s.issue .both 1 <| s.operands [a] [] fun v s1 =>
    let x := (nth v 0).toInt
    if x < -2 ^ 39 ∨ 2 ^ 39 ≤ x then s.illegal
    else s.releaseThen s1 true c fun s2 => (s2.mapBar n fun b => { b with arrived := b.arrived + BitVec.ofInt 40 x }).done 1

def execBwait (c : Scope) (n : BitVec 4) (d a : Reg) (s : State) : Res :=
  s.issue .both 1 <| s.operands [a] [d] fun v s1 =>
    if s.core.tbs[n.toNat].phase != bit (nth v 0) 0 then s.acquireThen c (((s1.wr d 0).acquire c).done 1)
    else if s.core.overrun n then (s1.wr d 1).done 1
    else s.stall .sync

end Sys2Proof.Machine
end

