-- ==== Sys2Proof/Machine/Long.lean ====
section
/-! DEFINITION. Accesses of engines to ranges of addresses: the pages they touch, the checks in the order of R424, reading, and
writing at the homes (R244, R245, R258, R259, R317, R319, R364). -/
namespace Sys2Proof.Machine

/-- A page of a long access: its page number, and where it leads. -/
inductive PageTo where
  | mem (base : Nat)
  | control (vd : Nat)
  deriving DecidableEq, Repr

/-- A range of addresses and whether its pages must hold ZB data (R258). -/
structure Range where
  lo : Nat
  len : Nat
  zb : Bool

/-- Keeps, for each 64 KiB page, the lowest address of the ranges on it, pages rising. -/
def notePage (page addr : Nat) : List (Nat × Nat) → List (Nat × Nat)
  | [] => [(page, addr)]
  | (p, a) :: r =>
    if page < p then (page, addr) :: (p, a) :: r
    else if page = p then (p, min a addr) :: r
    else (p, a) :: notePage page addr r

/-- The pages that a range touches, each with the lowest byte of the range on it (R424). -/
def rangePages (r : Range) (ps : List (Nat × Nat)) : List (Nat × Nat) :=
  if r.len = 0 then ps
  else (List.range' (r.lo / 65536) ((r.lo + r.len - 1) / 65536 + 1 - r.lo / 65536)).foldl
    (fun ps p => notePage p (max r.lo (p * 65536)) ps) ps

/-- The parts of ranges that translation applies to: not the local window, which a range may run into, not the lane-store window (R358). -/
def outside (rs : List Range) : List Range :=
  (rs.filter fun r => !inLocal r.lo && !inLane r.lo).map fun r => { r with len := min r.len (localBase - r.lo) }

/-- The parts of ranges that lie in the local window (R38). -/
def inside (rs : List Range) : List Range :=
  (rs.filter fun r => decide (localBase < r.lo + r.len)).map fun r =>
    { r with lo := max r.lo localBase, len := r.lo + r.len - max r.lo localBase }

/-- The first address of a byte of the ranges that lies in the local window beyond the partition (R38). -/
def State.pastPartition (s : State) (rs : List Range) : Option Nat :=
  ((inside rs).find? fun r => decide (r.len ≠ 0 ∧ s.hart.scratchSize < r.lo - localBase + r.len)).map
    fun r => max r.lo (localBase + s.hart.scratchSize)

/-- Translates one page for a long access (R144 checks 4 to 6, R258); of those only a reduction's destination is accessed atomically, and a
page of MT 10 gives it no permission (R252). -/
def State.longPage (s : State) (va : Nat) (acc : Acc) (user zb : Bool) : Except TrapInfo (PageTo × State) :=
  match s.translate va acc user true with
  | .error t => .error t
  | .ok (pa, pte, s1) =>
    if acc = .atomic ∧ 2 ^ 51 ≤ pa then .error (.addr protection (va64 va) acc)
    else if pteCmp pte != zb then .error (.addr compressedPage (va64 va) acc)
    else match s1.controlOf pa pte with
      | some v => .ok (.control v.id, s1)
      | none => .ok (.mem (pa / 65536 * 65536), s1)

/-- Translates every page of ranges of one kind, ascending; the first failure is the one recorded (R424). -/
def State.longPages (s : State) (acc : Acc) (user zb : Bool) :
    List (Nat × Nat) → List (Nat × PageTo) → Except TrapInfo (List (Nat × PageTo) × State)
  | [], m => .ok (m, s)
  | (p, a) :: ps, m =>
    match s.longPage a acc user zb with
    | .error t => .error t
    | .ok (x, s1) => s1.longPages acc user zb ps ((p, x) :: m)

/-- The checks of one kind of ranges: the partition, then every page. -/
def State.checkRanges (s : State) (rs : List Range) (acc : Acc) (user : Bool) (m : List (Nat × PageTo)) :
    Except TrapInfo (List (Nat × PageTo) × State) :=
  match s.pastPartition rs with
  | some a => .error (.addr protection (va64 a) acc)
  | none =>
    let pages (zb : Bool) := ((outside rs).filter (fun r => r.zb == zb)).foldl (fun ps r => rangePages r ps) []
    match s.longPages acc user false (pages false) m with
    | .error t => .error t
    | .ok (m1, s1) => s1.longPages acc user true (pages true) m1

/-- Where a byte of a checked access lies. -/
def pageTo (m : List (Nat × PageTo)) (va : Nat) : Option PageTo := (m.find? (fun x => x.1 = va / 65536)).map (·.2)

/-- The physical address of a byte outside the windows, if it lies in memory. -/
def physAt (m : List (Nat × PageTo)) (va : Nat) : Option Nat :=
  match pageTo m va with
  | some (.mem b) => some (b + va % 65536)
  | _ => none

/-- The parts of a range that lie on one page each, up to `n` of them: address and bytes. -/
def pieces : Nat → Nat → Nat → List (Nat × Nat)
  | 0, _, _ => []
  | n + 1, lo, len =>
    if len = 0 then []
    else
      let k := min len (65536 - lo % 65536)
      (lo, k) :: pieces n (lo + k) (len - k)

def allPieces (rs : List Range) : List (Nat × Nat) := (outside rs).flatMap fun r => pieces (r.len / 65536 + 2) r.lo r.len

/-- An entry that the walk of a page of the ranges reads lies on a line that must be waited for (R333, R359); `arrival`: when the access
came. -/
def State.rangesWalkWait (s : State) (arrival : Nat) (rs : List Range) (acc : Acc) (user : Bool) : Option Nat :=
  ((outside rs).foldl (fun ps r => rangePages r ps) []).findSome? fun p =>
    if canonical p.2 && s.needsWalk p.2 acc user then
      (s.walkLines s.hart.vd.toNat p.2).findSome? fun a => s.waitsFor arrival a 8
    else none

/-- A line of the ranges that must be waited for (R333). -/
def State.rangesPinned (s : State) (arrival : Nat) (m : List (Nat × PageTo)) (rs : List Range) : Option Nat :=
  (allPieces rs).findSome? fun p =>
    match physAt m p.1 with
    | some pa => s.waitsFor arrival pa p.2
    | none => none

/-- The core's dirty bytes of the ranges are written back first, and the accesses are counted (R317, R321). -/
def State.rangesHome (s : State) (m : List (Nat × PageTo)) (rs : List Range) : State :=
  (allPieces rs).foldl (fun s p => match physAt m p.1 with | some pa => (s.counted pa p.2).beforeHome pa p.2 | none => s) s

/-- The first byte of the ranges that lies on a poisoned line: its virtual and its physical address. -/
def State.rangesPoison (s : State) (m : List (Nat × PageTo)) (rs : List Range) : Option (Nat × Nat) :=
  if s.poison = [] then none
  else (allPieces rs).findSome? fun p =>
    match physAt m p.1 with
    | some pa => ((List.range p.2).find? fun i => s.poison.contains (lineOf (pa + i))).map fun i => (p.1 + i, pa + i)
    | none => none

/-- The first byte of the ranges that lies in a 64-bit word of the scratchpad with an uncorrectable error (R262, R409). -/
def State.scratchPoison (s : State) (rs : List Range) : Option Nat :=
  if s.hart.scratchBad = [] then none
  else (inside rs).findSome? fun r =>
    ((List.range r.len).find? fun i => s.hart.scratchBad.contains ((r.lo - localBase + i) / 8)).map (r.lo + ·)

/-- The scratchpad words in error that an access of the ranges has read are reported (R409). -/
def State.noteRanges (s : State) (rs : List Range) : State := (inside rs).foldl (fun s r => s.noteScratch (r.lo - localBase) r.len) s

/-- Reads one byte; a byte of a control page is read through its aligned doubleword when `granules` holds, else it is 0 (R331, R368). -/
def State.longByte (s : State) (m : List (Nat × PageTo)) (granules : Bool) (va : Nat) : Byte :=
  if inLocal va then s.hart.scratch.get (va - localBase)
  else match pageTo m va with
    | some (.mem b) => s.mem.get (b + va % 65536)
    | some (.control v) =>
      if granules then match s.findVd v with
        | some vd => (leBytes 8 (s.ctlRead vd (va % 65536 / 8 * 8)).toNat).getD (va % 8) 0
        | none => 0
      else 0
    | none => 0

/-- Consecutive (address, byte) pairs as runs, cut at pages; the first pair's run comes first. -/
def runs : List (Nat × Byte) → List (Nat × List Byte)
  | [] => []
  | (a, b) :: r =>
    match runs r with
    | (a', bs) :: rest => if a' = a + 1 ∧ a' % 65536 ≠ 0 then (a, b :: bs) :: rest else (a, [b]) :: (a', bs) :: rest
    | [] => [(a, [b])]

/-- Writes one run; a control page takes it as aligned doublewords when `granules` holds, else discards it (R368). -/
def State.writeRun (s : State) (m : List (Nat × PageTo)) (granules : Bool) (r : Nat × List Byte) : State :=
  if inLocal r.1 then { s with hart := { s.hart with scratch := s.hart.scratch.puts (r.1 - localBase) r.2 } }
  else match pageTo m r.1 with
    | some (.mem b) => s.homeWrite (b + r.1 % 65536) r.2
    | some (.control v) =>
      if granules then (List.range (r.2.length / 8)).foldl (fun s i =>
        s.ctlWrite v (r.1 % 65536 + 8 * i) (va64 (ofLe ((r.2.drop (8 * i)).take 8)))) s
      else s
    | none => s

end Sys2Proof.Machine
end

