-- ==== Sys2Proof/Machine/Flags.lean ====
section
/-! DEFINITION. Saturation and the flags it sets: results reduced to a width, VSTAT.SATF (R34, R52, R172). -/
namespace Sys2Proof.Machine

/-- x clamped under a saturation mode to width w (R52). -/
def saturate (sat : BitVec 2) (w : Nat) (x : Int) : Int :=
  if sat = 1 then clampInt (-2 ^ (w - 1)) (2 ^ (w - 1) - 1) x
  else if sat = 2 then clampInt 0 (2 ^ w - 1) x
  else x

/-- A w-bit pattern, and whether saturation changed the value. -/
structure Reduced where
  pat : Nat
  sat : Bool

/-- Reduce(x, w): the w-bit pattern of the exact x under a saturation mode (R52, R172). -/
def reduce (sat : BitVec 2) (w : Nat) (x : Int) : Reduced := ⟨pat w (saturate sat w x), saturate sat w x != x⟩

/-- The saturation mode in force: a nonzero prefix SAT, and otherwise VTYPE.SAT of the issuing stream (R52). -/
def State.satMode (s : State) : BitVec 2 := if s.pfxSat ≠ 0 then s.pfxSat else s.me.vtype.extractLsb' 16 2

/-- SATF is sticky: it is set when some element of the result saturated (R34). -/
def State.noteSat (s : State) (b : Bool) : State :=
  if b then { s with me := { s.me with vstat := vstatSet s.me.vstat 4 true } } else s

/-- Extend64(y, s): the 64-bit value of a w-bit pattern (R172). -/
def extend64 (sg : Bool) (w y : Nat) : Word := wordOf (valueOf sg w y)

end Sys2Proof.Machine
end

