-- ==== Sys2Proof/Machine/Operands.lean ====
section
/-! DEFINITION. Vector operands: widths, elements of the lane store, masks, presence bits, active lanes, zero flags
(R20 to R33, R51, R170). -/
namespace Sys2Proof.Machine

-- Formats in VTYPE (R30, R170)

def Strm.wA (t : Strm) : Nat := (t.vtype.extractLsb' 0 4).toNat + 1
def Strm.wB (t : Strm) : Nat := (t.vtype.extractLsb' 4 4).toNat + 1
def Strm.wD (t : Strm) : Nat := (t.vtype.extractLsb' 8 5).toNat + 1
def Strm.sA (t : Strm) : Bool := t.vtype.getLsbD 13
def Strm.sB (t : Strm) : Bool := t.vtype.getLsbD 14
def Strm.sD (t : Strm) : Bool := t.vtype.getLsbD 15
def Strm.xf (t : Strm) : Nat := (t.vtype.extractLsb' 18 3).toNat

/-- The registers that an operand of width w occupies (R20). -/
def regsOf (r : Reg) (w : Nat) : List Reg := if 16 < w then [r, r + 1] else [r]
/-- An operand wider than 16 bits must name an even register (R20). -/
def pairOk (r : Reg) (w : Nat) : Bool := w ≤ 16 || !r.getLsbD 0

-- Elements (R20, R21, R51)

/-- A plane row. -/
def Hart.row (h : Hart) (i : Nat) : Row := h.planes.toList.getD i 0

/-- Bits of element e from `n` plane rows, the first given. -/
def elemBits (rows : List Row) (e : Nat) : Nat :=
  match rows with
  | [] => 0
  | r :: rs => boolNat (r.testBit e) + 2 * elemBits rs e

/-- The plane rows of an operand of width w in register r. -/
def Hart.rows (h : Hart) (r : Reg) (w : Nat) : List Row := (h.planes.toList.drop (16 * r.toNat)).take w

/-- The pattern of element e of the operand of width w in register r. -/
def Hart.elem (h : Hart) (r : Reg) (w e : Nat) : Nat := elemBits (h.rows r w) e

/-- The value of element e (R51). -/
def Hart.value (h : Hart) (r : Reg) (w : Nat) (sg : Bool) (e : Nat) : Int := valueOf sg w (h.elem r w e)

/-- One row with bit p of each listed pattern put in its lane. -/
def putBits (p : Nat) (xs : List (Nat × Nat)) (r : Row) : Row := xs.foldl (fun r x => r.put x.1 (x.2.testBit p)) r

/-- Writes the listed elements (lane, pattern) of a destination of width w: plane rows 0 to w − 1, the other lanes and rows
kept (R21). -/
def Hart.putElems (h : Hart) (r : Reg) (w : Nat) (xs : List (Nat × Nat)) : Hart :=
  { h with planes := (List.range w).foldl (fun ps p =>
      if hp : 16 * r.toNat + p < 512 then ps.set (16 * r.toNat + p) (putBits p xs ps[16 * r.toNat + p]) hp else ps) h.planes }

/-- The number of active planes of an operand: those whose zero flag is 0, over every lane of the hart (R22, R177). -/
def Hart.activePlanes (h : Hart) (r : Reg) (w : Nat) : Nat := ((h.rows r w).filter (fun x => x ≠ 0)).length

-- Rows that a transpose is writing (R179)

/-- A row with the listed lanes of another. -/
def mergeRow (lanes old new : Row) : Row := Nat.xor new (Nat.land (Nat.xor old new) lanes)

/-- The plane rows as they stood before the transfer's write of them. -/
def Shadow.show (x : Shadow) (ps : Vector Row 512) : Vector Row 512 :=
  x.rows.foldl (fun ps y => if h : y.1 < 512 then ps.set y.1 (mergeRow x.lanes y.2 ps[y.1]) h else ps) ps

/-- Elements that the hart itself writes stand in the rows as lane-array instructions read them, too. -/
def Shadow.put (x : Shadow) (r : Reg) (w : Nat) (xs : List (Nat × Nat)) : Shadow :=
  { x with rows := x.rows.map fun y => if 16 * r.toNat ≤ y.1 ∧ y.1 < 16 * r.toNat + w then (y.1, putBits (y.1 - 16 * r.toNat) xs y.2) else y }

/-- The hart's transposes that are under way. -/
def State.transposes (s : State) : List Shadow :=
  s.core.chans.toList.flatMap fun ch => ch.queue.filterMap fun c => if c.hart = s.hart.id then c.before else none

/-- The lane store as a lane-array instruction reads it: rows that a transpose is still writing as they stood before its write (R179). -/
def State.laneHart (s : State) : Hart :=
  match s.transposes with
  | [] => s.hart
  | xs => { s.hart with planes := xs.foldl (fun ps x => x.show ps) s.hart.planes }

/-- What the hart writes into a register, in the rows that a transpose under way has set aside. -/
def State.shadowed (s : State) (r : Reg) (w : Nat) (xs : List (Nat × Nat)) : State :=
  match s.transposes with
  | [] => s
  | _ =>
    let mark (c : CopyCmd) : CopyCmd := if c.hart = s.hart.id then { c with before := c.before.map (·.put r w xs) } else c
    { s with core := { s.core with chans := s.core.chans.map fun ch => { ch with queue := ch.queue.map mark } } }

-- Masks (R27)

/-- Bit e of mask register k; k0 reads all ones. -/
def Hart.mask (h : Hart) (k : BitVec 3) (e : Nat) : Bool := k = 0 || (h.masks[k.toNat]).testBit e
/-- Writes lanes of a mask register; k0 discards. -/
def Hart.putMask (h : Hart) (k : BitVec 3) (xs : List (Nat × Bool)) : Hart :=
  if k = 0 then h
  else { h with masks := h.masks.set k.toNat (xs.foldl (fun r x => r.put x.1 x.2) h.masks[k.toNat]) }

/-- Lanes VSTART to VL − 1 (R33). -/
def State.lanesIn (s : State) : List Nat := List.range' s.me.vstart.toNat (s.me.vl.toNat - s.me.vstart.toNat)
/-- The active lanes under mask k, ascending (R21). -/
def State.activeLanes (s : State) (k : BitVec 3) : List Nat := s.lanesIn.filter (fun e => s.hart.mask k e)

-- Presence (R23)

def Hart.full (h : Hart) (r : Reg) : Bool := h.pres[r.toNat]
def Hart.setFull (h : Hart) (b : Bool) (rs : List Reg) : Hart :=
  { h with pres := rs.foldl (fun p r => p.set r.toNat b) h.pres }
/-- The first of the registers that is not FULL. -/
def Hart.notFull (h : Hart) (rs : List Reg) : Option Reg := rs.find? (fun r => !h.full r)

def State.setVstart (s : State) (v : Nat) : State := { s with me := { s.me with vstart := BitVec.ofNat 14 v } }

end Sys2Proof.Machine
end

