-- ==== Sys2Proof/Machine/Lane.lean ====
section
/-! DEFINITION. Lane-array instructions (R170 to R197). -/
namespace Sys2Proof.Machine

/-- A vector source: its register, width, and whether it is consumed (R23, R174). -/
structure VSrc where
  reg : Reg
  w : Nat
  eat : Bool

/-- What a lane-array instruction asks for at issue: vector sources, vector destination with its width, the width checks of its
entry, and its cycles (R174, R178). -/
structure LaneReq where
  srcs : List VSrc
  dst : Option (Reg × Nat)
  ok : Bool
  cycles : Nat

/-- What it computes: elements of the destination, lanes of a mask, a scalar, and whether a result saturated. -/
structure LaneOut where
  elems : List (Nat × Nat)
  mask : List (Nat × Bool)
  val : Word
  sat : Bool

def LaneReq.wide (r : LaneReq) : Bool :=
  r.srcs.all (fun x => pairOk x.reg x.w) && match r.dst with | some (d, w) => pairOk d w | none => true
def LaneReq.srcRegs (r : LaneReq) : List Reg := r.srcs.flatMap (fun x => regsOf x.reg x.w)
def LaneReq.dstRegs (r : LaneReq) : List Reg := match r.dst with | some (d, w) => regsOf d w | none => []
def LaneReq.eaten (r : LaneReq) : List Reg := (r.srcs.filter (·.eat)).flatMap (fun x => regsOf x.reg x.w)

/-- A register is named as B by a posted matrix operation whose operands are not yet consumed (R179). -/
def Hart.matrixB (h : Hart) (rs : List Reg) : Bool := h.mq.any fun o => o.stage != .consumed && rs.contains o.breg

/-- A row word lies in the rows of the operands. -/
def rowsHold (srcs : List VSrc) (x : Nat) : Bool :=
  srcs.any fun v => decide (16 * v.reg.toNat ≤ x / 16384 ∧ x / 16384 < 16 * v.reg.toNat + v.w)

/-- The first row word with an uncorrectable error among the rows read (R410). -/
def Hart.badRow (h : Hart) (srcs : List VSrc) : Option Nat := h.laneBad.find? (rowsHold srcs)

/-- The lane-store window address of a row word's register and first lane (R245, R410). -/
def rowWindow (x : Nat) : Word := va64 (0xFFFFFFFE00000000 + x / 16384 / 16 * 0x4000 + x % 16384 / 64 * 64)

/-- Completion of an instruction on the lanes: its writes, the consumed sources EMPTY, then the destination FULL, the lanes
occupied for its cycles (R21 to R23, R174, R178). -/
def State.laneDone (s0 : State) (r : LaneReq) (mdst : BitVec 3) (sdst : Option Reg) (o : LaneOut) : State :=
  let s := match r.dst with | some (d, w) => s0.shadowed d w o.elems | none => s0
  let h1 := match r.dst with | some (d, w) => s.hart.putElems d w o.elems | none => s.hart
  let h2 := ((h1.putMask mdst o.mask).setFull false r.eaten).setFull true r.dstRegs
  let s1 := State.noteSat { s with hart := { h2 with laneBusy := r.cycles } } o.sat
  match sdst with
  | some d => s1.wr d o.val
  | none => s1

/-- An error in a row word has been met: the device tests the affected lane (R411). -/
def Hart.testLane (h : Hart) (x : Nat) : Hart := { h with tests := h.tests ++ [x % 16384] }

/-- Applies `f` to what a hart on the cores holds. -/
def State.atHart (s : State) (id : BitVec 14) (f : Hart → Hart) : State :=
  let g (h : Hart) : Hart := if h.id = id && h.live then f h else h
  { s with hart := g s.hart, parked := s.parked.map fun c => { c with hart := g c.hart } }

/-- A hart's row word with an uncorrectable error has been read: the VD is told, and the affected lane is tested (R409, R411). -/
def State.rowBad (s : State) (id : BitVec 14) (vd : Nat) (x : Nat) : State :=
  State.event (s.atHart id fun h => h.testLane x) vd 8 2 (rowWindow x)

/-- Vector memory instructions read the listed lanes of rows: every row word among them with an uncorrectable error is met (R409, R411). They
do not trap on it (R410). -/
def State.noteRows (s : State) (srcs : List VSrc) (es : List Nat) : State :=
  (s.hart.laneBad.filter fun x => rowsHold srcs x && es.any fun e => e / 64 == x % 16384 / 64).foldl
    (fun s x => s.rowBad s.hart.id s.hart.vd.toNat x) s

/-- An instruction on the lanes: the checks at issue, the waits (a lane test's among them), a row word that cannot be read, then `k` (R23,
R92, R172 to R179, R410, R411). -/
def State.onLanes (s : State) (r : LaneReq) (ssrc sdst : List Reg) (k : List Word → State → Res) : Res :=
  s.issue .eOnly 1 <|
    s.direction ssrc sdst <|
    if !r.ok || !r.wide then s.widthTrap
    else s.operands ssrc sdst fun v s1 =>
      match s.hart.notFull r.srcRegs with
      | some x => s.stall (.presence false x)
      | none =>
        if s.hart.laneBusy ≠ 0 || s.hart.matrixB r.dstRegs || !s.hart.tests.isEmpty then s.stall .engine
        else match s.hart.badRow r.srcs with
          | some x =>
            (State.event { s with hart := s.hart.testLane x } s.hart.vd.toNat 8 2 (rowWindow x)).trap (.addr memoryError (rowWindow x) .read)
          | none => k v s1

/-- A lane-array instruction: `f` of the scalar sources, then VSTART 0 (R33, R171). -/
def State.laneArray (s : State) (r : LaneReq) (ssrc : List Reg) (mdst : BitVec 3) (sdst : Option Reg) (f : List Word → LaneOut) : Res :=
  s.onLanes r ssrc sdst.toList fun v s1 => (s1.laneDone r mdst sdst (f v)).setVstart 0 |>.done 1

/-- Elements reduced to a width under the mode in force. -/
def State.reduceAll (s : State) (w : Nat) (xs : List (Nat × Int)) : LaneOut :=
  let ys := xs.map fun x => (x.1, reduce s.satMode w x.2)
  { elems := ys.map (fun y => (y.1, y.2.pat)), mask := [], val := 0, sat := ys.any (·.2.sat) }

/-- An elementwise result: `f` of the lane in every listed lane (R172). -/
def State.mapLanes (s : State) (es : List Nat) (f : Nat → Int) : LaneOut := s.reduceAll s.me.wD (es.map fun e => (e, f e))

/-- Patterns written without reduction (bits). -/
def State.mapBits (es : List Nat) (f : Nat → Nat) : LaneOut := { elems := es.map (fun e => (e, f e)), mask := [], val := 0, sat := false }

/-- A scalar result reduced to wD and extended (R190, R191). -/
def State.scalarLane (s : State) (x : Int) : LaneOut :=
  let r := reduce s.satMode s.me.wD x
  { elems := [], mask := [], val := extend64 s.me.sD s.me.wD r.pat, sat := r.sat }

def State.srcA (s : State) (a : Reg) (ca : Bool) : VSrc := ⟨a, s.me.wA, ca⟩
def State.srcB (s : State) (b : Reg) (cb : Bool) : VSrc := ⟨b, s.me.wB, cb⟩
/-- value(A[e]), value(B[e]), value(D[e]) as a lane-array instruction reads them (R170, R179). -/
def State.valA (s : State) (a : Reg) (e : Nat) : Int := s.laneHart.value a s.me.wA s.me.sA e
def State.valB (s : State) (b : Reg) (e : Nat) : Int := s.laneHart.value b s.me.wB s.me.sB e
def State.valD (s : State) (d : Reg) (e : Nat) : Int := s.laneHart.value d s.me.wD s.me.sD e
def State.patA (s : State) (a : Reg) (e : Nat) : Nat := s.laneHart.elem a s.me.wA e
def State.patB (s : State) (b : Reg) (e : Nat) : Nat := s.laneHart.elem b s.me.wB e

/-- Σ of R178: nA × ⌈nB / 2⌉. -/
def State.pairSteps (s : State) (a b : Reg) : Nat :=
  s.laneHart.activePlanes a s.me.wA * ceilDiv (s.laneHart.activePlanes b s.me.wB) 2

/-- Two vector sources and a vector destination of width wD. -/
def State.lane2 (s : State) (cb ca : Bool) (d a b : Reg) (ok : Bool) (cycles : Nat) (o : LaneOut) : Res :=
  s.laneArray ⟨[s.srcA a ca, s.srcB b cb], some (d, s.me.wD), ok, cycles⟩ [] 0 none fun _ => o
/-- One vector source and a vector destination of width wD. -/
def State.lane1 (s : State) (ca : Bool) (d a : Reg) (ok : Bool) (cycles : Nat) (o : LaneOut) : Res :=
  s.laneArray ⟨[s.srcA a ca], some (d, s.me.wD), ok, cycles⟩ [] 0 none fun _ => o

-- Elementwise arithmetic (R181 to R186)

def execVadd (cb ca : Bool) (k : BitVec 3) (d a b : Reg) (s : State) : Res :=
  s.lane2 cb ca d a b true (s.me.wD + 2) <| s.mapLanes (s.activeLanes k) fun e => s.valA a e + s.valB b e
def execVsub (cb ca : Bool) (k : BitVec 3) (d a b : Reg) (s : State) : Res :=
  s.lane2 cb ca d a b true (s.me.wD + 2) <| s.mapLanes (s.activeLanes k) fun e => s.valA a e - s.valB b e
def execVmin (cb ca : Bool) (k : BitVec 3) (d a b : Reg) (s : State) : Res :=
  s.lane2 cb ca d a b true (s.me.wD + 2) <| s.mapLanes (s.activeLanes k) fun e => min (s.valA a e) (s.valB b e)
def execVmax (cb ca : Bool) (k : BitVec 3) (d a b : Reg) (s : State) : Res :=
  s.lane2 cb ca d a b true (s.me.wD + 2) <| s.mapLanes (s.activeLanes k) fun e => max (s.valA a e) (s.valB b e)
def execVneg (ca : Bool) (k : BitVec 3) (d a : Reg) (s : State) : Res :=
  s.lane1 ca d a true (s.me.wD + 2) <| s.mapLanes (s.activeLanes k) fun e => -s.valA a e
def execVabs (ca : Bool) (k : BitVec 3) (d a : Reg) (s : State) : Res :=
  s.lane1 ca d a true (s.me.wD + 2) <| s.mapLanes (s.activeLanes k) fun e => ((s.valA a e).natAbs : Int)
def execVmv (ca : Bool) (k : BitVec 3) (d a : Reg) (s : State) : Res :=
  s.lane1 ca d a true (s.me.wD + 2) <| s.mapLanes (s.activeLanes k) fun e => s.valA a e

/-- A bitwise operation on w-bit patterns (R85, R182, R193). -/
def logBits (op : LogOp) (w x y : Nat) : Nat :=
  let ones := 2 ^ w - 1
  match op with
  | .and => x &&& y
  | .or => x ||| y
  | .xor => x ^^^ y
  | .andn => x &&& (ones ^^^ y)
  | .orn => x ||| (ones ^^^ y)
  | .xnor => ones ^^^ (x ^^^ y)

def execVlog (op : LogOp) (cb ca : Bool) (k : BitVec 3) (d a b : Reg) (s : State) : Res :=
  s.lane2 cb ca d a b true (s.me.wD + 2) <| State.mapBits (s.activeLanes k) fun e =>
    logBits op s.me.wD (pat s.me.wD (s.valA a e)) (pat s.me.wD (s.valB b e))

/-- Cycles of a shift (R178). -/
def State.shiftCycles (s : State) (b : Reg) : Nat := (s.laneHart.activePlanes b s.me.wB + 1) * s.me.wD + 2

def execVshl (cb ca : Bool) (k : BitVec 3) (d a b : Reg) (s : State) : Res :=
  s.lane2 cb ca d a b (s.me.wB ≤ 6) (s.shiftCycles b) <| s.mapLanes (s.activeLanes k) fun e => s.valA a e * 2 ^ s.patB b e
def execVshr (cb ca : Bool) (k : BitVec 3) (d a b : Reg) (s : State) : Res :=
  s.lane2 cb ca d a b (s.me.wB ≤ 6) (s.shiftCycles b) <| s.mapLanes (s.activeLanes k) fun e => ((s.patA a e / 2 ^ s.patB b e : Nat) : Int)
def execVsar (cb ca : Bool) (k : BitVec 3) (d a b : Reg) (s : State) : Res :=
  s.lane2 cb ca d a b (s.me.wB ≤ 6) (s.shiftCycles b) <| s.mapLanes (s.activeLanes k) fun e => s.valA a e / 2 ^ s.patB b e

/-- A condition on values and patterns (R184). -/
def laneCond (c : Cond) (x y : Int) (p q : Nat) : Bool :=
  match c with
  | .eq => x == y
  | .ne => x != y
  | .lt => x < y
  | .ge => y ≤ x
  | .ltu => p < q
  | .geu => q ≤ p

def execVcmp (c : Cond) (cb ca : Bool) (k : BitVec 3) (d : BitVec 3) (a b : Reg) (s : State) : Res :=
  s.laneArray ⟨[s.srcA a ca, s.srcB b cb], none, true, max s.me.wA s.me.wB + 2⟩ [] d none fun _ =>
    { elems := [], val := 0, sat := false
      mask := (s.activeLanes k).map fun e => (e, laneCond c (s.valA a e) (s.valB b e) (s.patA a e) (s.patB b e)) }

def execVsel (cb ca : Bool) (k : BitVec 3) (d a b : Reg) (s : State) : Res :=
  s.lane2 cb ca d a b true (s.me.wD + 2) <| s.mapLanes s.lanesIn fun e => if s.hart.mask k e then s.valA a e else s.valB b e

/-- A 64-bit scalar in the signedness SA (R185). -/
def State.scalarIn (s : State) (x : Word) : Int := valueOf s.me.sA 64 x.toNat

def execVbc (k : BitVec 3) (d a : Reg) (s : State) : Res :=
  s.laneArray ⟨[], some (d, s.me.wD), true, s.me.wD + 2⟩ [a] 0 none fun v => s.mapLanes (s.activeLanes k) fun _ => s.scalarIn (nth v 0)
def execVid (k : BitVec 3) (d : Reg) (s : State) : Res :=
  s.laneArray ⟨[], some (d, s.me.wD), true, s.me.wD + 2⟩ [] 0 none fun _ => s.mapLanes (s.activeLanes k) fun e => (e : Int)

def execVmul (cb ca : Bool) (k : BitVec 3) (d a b : Reg) (s : State) : Res :=
  s.lane2 cb ca d a b true (s.pairSteps a b + 2) <| s.mapLanes (s.activeLanes k) fun e => s.valA a e * s.valB b e
/-- vmac also reads its destination (R186). -/
def execVmac (cb ca : Bool) (k : BitVec 3) (d a b : Reg) (s : State) : Res :=
  s.laneArray ⟨[s.srcA a ca, s.srcB b cb, ⟨d, s.me.wD, false⟩], some (d, s.me.wD), true, s.pairSteps a b + 2⟩ [] 0 none fun _ =>
    s.mapLanes (s.activeLanes k) fun e => s.valD d e + s.valA a e * s.valB b e

-- Lane access and movement (R187 to R189)

def execVext (ca : Bool) (d a b : Reg) (s : State) : Res :=
  s.laneArray ⟨[s.srcA a ca], none, true, s.me.wA + 4⟩ [b] 0 (some d) fun v =>
    { elems := [], mask := [], sat := false
      val := if (nth v 0).toNat < s.lanes then extend64 s.me.sA s.me.wA (s.patA a (nth v 0).toNat) else 0 }
def execVins (d a b : Reg) (s : State) : Res :=
  s.laneArray ⟨[], some (d, s.me.wD), true, s.me.wD + 4⟩ [a, b] 0 none fun v =>
    s.mapLanes (if (nth v 1).toNat < s.lanes then [(nth v 1).toNat] else []) fun _ => s.scalarIn (nth v 0)

def execVslide (up : Bool) (ca : Bool) (k : BitVec 3) (d a b : Reg) (s : State) : Res :=
  s.laneArray ⟨[s.srcA a ca], some (d, s.me.wD), true, 2 * s.me.wD + 4⟩ [b] 0 none fun v =>
    let n := (nth v 0).toNat
    if up then s.mapLanes ((s.activeLanes k).filter (fun e => n ≤ e)) fun e => s.valA a (e - n)
    else s.mapLanes (s.activeLanes k) fun e => if e + n < s.me.vl.toNat then s.valA a (e + n) else 0

def execVcompact (ca : Bool) (k : BitVec 3) (d a : Reg) (s : State) : Res :=
  s.lane1 ca d a true (8 * s.me.wD + 16) <|
    s.reduceAll s.me.wD ((s.activeLanes k).zipIdx.map fun x => (x.2, s.valA a x.1))
def execVexpand (ca : Bool) (k : BitVec 3) (d a : Reg) (s : State) : Res :=
  s.lane1 ca d a true (8 * s.me.wD + 16) <|
    s.reduceAll s.me.wD ((s.activeLanes k).zipIdx.map fun x => (x.1, s.valA a x.2))

-- Reductions (R190 to R192)

def execVdot (cb ca : Bool) (k : BitVec 3) (d a b : Reg) (s : State) : Res :=
  s.laneArray ⟨[s.srcA a ca, s.srcB b cb], none, true, s.pairSteps a b + 8⟩ [] 0 (some d) fun _ =>
    s.scalarLane (((s.activeLanes k).map fun e => s.valA a e * s.valB b e).sum)

/-- The identity of a reduction of w-bit patterns (R191). -/
def redIdentity (op : RedOp) (w : Nat) (sg : Bool) : Nat :=
  match op with
  | .sum | .or | .maxu => 0
  | .and | .minu => 2 ^ w - 1
  | .max => if sg then 2 ^ (w - 1) else 0
  | .min => if sg then 2 ^ (w - 1) - 1 else 2 ^ w - 1

/-- Combines two w-bit patterns; not used for sum (R191). -/
def redStep (op : RedOp) (w : Nat) (sg : Bool) (x y : Nat) : Nat :=
  match op with
  | .sum => x + y
  | .max => if valueOf sg w x < valueOf sg w y then y else x
  | .min => if valueOf sg w y < valueOf sg w x then y else x
  | .maxu => max x y
  | .minu => min x y
  | .or => x ||| y
  | .and => x &&& y

/-- The reduction of w-bit patterns, read in A's format; maxu and minu compare the patterns unsigned (R191). -/
def redValue (op : RedOp) (w : Nat) (sg : Bool) (xs : List Nat) : Int :=
  match op with
  | .sum => (xs.map (valueOf sg w)).sum
  | .maxu | .minu => (xs.foldl (redStep op w sg) (redIdentity op w sg) : Nat)
  | _ => valueOf sg w (xs.foldl (redStep op w sg) (redIdentity op w sg))

/-- Cycles of a reduction (R178). -/
def State.redCycles (s : State) (op : RedOp) (a : Reg) : Nat :=
  match op with
  | .sum | .or => s.laneHart.activePlanes a s.me.wA + 8
  | _ => s.me.wA + 8

def execVred (op : RedOp) (ca : Bool) (k : BitVec 3) (d a : Reg) (s : State) : Res :=
  s.laneArray ⟨[s.srcA a ca], none, true, s.redCycles op a⟩ [] 0 (some d) fun _ =>
    s.scalarLane (redValue op s.me.wA s.me.sA ((s.activeLanes k).map (s.patA a)))

/-- Groups of 2^(g + 3) lanes (R192). -/
def State.groups (s : State) (op : RedOp) (k : BitVec 3) (g : BitVec 3) (a : Reg) : List (Nat × Int) :=
  let size := 2 ^ (g.toNat + 3)
  if s.lanesIn = [] then []
  else (List.range (ceilDiv s.me.vl.toNat size)).map fun i =>
    (i, redValue op s.me.wA s.me.sA (((s.activeLanes k).filter (fun e => e / size = i)).map (s.patA a)))

def execVgred (op : RedOp) (ca : Bool) (k : BitVec 3) (g : BitVec 3) (d a : Reg) (s : State) : Res :=
  s.lane1 ca d a true (s.redCycles op a) <| s.reduceAll s.me.wD (s.groups op k g a)

-- Masks (R193)

def execVmlog (op : LogOp) (k d a b : BitVec 3) (s : State) : Res :=
  s.laneArray ⟨[], none, true, 3⟩ [] d none fun _ =>
    { elems := [], val := 0, sat := false
      mask := (s.activeLanes k).map fun e =>
        (e, logBits op 1 (boolNat (s.hart.mask a e)) (boolNat (s.hart.mask b e)) == 1) }
def execVmpop (k : BitVec 3) (d : Reg) (a : BitVec 3) (s : State) : Res :=
  s.laneArray ⟨[], none, true, 8⟩ [] 0 (some d) fun _ =>
    { elems := [], mask := [], sat := false, val := va64 ((s.activeLanes k).filter (s.hart.mask a)).length }
def execVmfirst (k : BitVec 3) (d : Reg) (a : BitVec 3) (s : State) : Res :=
  s.laneArray ⟨[], none, true, 8⟩ [] 0 (some d) fun _ =>
    { elems := [], mask := [], sat := false
      val := match (s.activeLanes k).find? (s.hart.mask a) with | some e => va64 e | none => 0xFFFFFFFFFFFFFFFF }

-- Conversions and plane status (R194 to R197)

def execVclz (ca : Bool) (k : BitVec 3) (d a : Reg) (s : State) : Res :=
  s.lane1 ca d a true (s.me.wA + s.me.wD + 2) <| s.mapLanes (s.activeLanes k) fun e => (leadZeros (s.patA a e) s.me.wA : Int)
def execVcvtw (ca : Bool) (k : BitVec 3) (n : BitVec 5) (d a : Reg) (s : State) : Res :=
  s.lane1 ca d a true (s.me.wA + s.me.wD + 2) <| s.mapLanes (s.activeLanes k) fun e => roundInt .rne (s.valA a e) (-(n.toNat : Int))
/-- vxq needs a format whose code width is wA (R196). -/
def execVxq (ca : Bool) (k : BitVec 3) (d a : Reg) (s : State) : Res :=
  s.lane1 ca d a (s.me.xf ≠ 0 && s.me.wA == mxWidth s.me.xf) (s.me.wA + s.me.wD + 2) <|
    s.mapLanes (s.activeLanes k) fun e => mxExpand s.me.xf (s.patA a e)
/-- The zero flags of the 16 planes of a register (R197). -/
def execVzp (ca : Bool) (d a : Reg) (s : State) : Res :=
  s.laneArray ⟨[⟨a, 16, ca⟩], none, true, 2⟩ [] 0 (some d) fun _ =>
    { elems := [], mask := [], sat := false
      val := va64 ((List.range 16).foldl (fun m p => m + boolNat ((s.laneHart.rows a 16).getD p 0 == 0) * 2 ^ p) 0) }

end Sys2Proof.Machine
end

