-- ==== Sys2Proof/Machine/WordUnit.lean ====
section
/-! DEFINITION. Word-unit instructions (R54 to R60, R231 to R240). -/
namespace Sys2Proof.Machine

abbrev WReg := Vector W32 64

def Hart.w (h : Hart) (r : Reg) : WReg := h.wregs[r.toNat]
def Hart.setW (h : Hart) (r : Reg) (v : WReg) : Hart := { h with wregs := h.wregs.set r.toNat v }

def w32 (x : Nat) : W32 := BitVec.ofNat 32 x

/-- The instruction that met the hart's residue mismatches is over; after one the word lanes are tested (R410, R411). -/
def Hart.checked (h : Hart) : Hart :=
  { h with residue := 0, tests := if h.residue = 0 then h.tests else h.tests ++ [Config.laneCount] }

/-- The word unit executes an instruction again after a residue mismatch, and raises "memory error" at a second (R410). -/
def State.residueCheck (s : State) (k : Res) : Res :=
  if 2 ≤ s.hart.residue then
    (State.event { s with hart := s.hart.checked } s.hart.vd.toNat 8 3 0xFFFFFFFFFFFFFFFF).trap
      (.addr memoryError 0xFFFFFFFFFFFFFFFF .read)
  else k

/-- A word lane of the hart is being tested (R411). -/
def Hart.wordTest (h : Hart) : Bool := h.tests.any (Config.laneCount ≤ ·)

/-- Issue to the core's word unit with its operands (R36, R410, R411). -/
def State.word (s : State) (srcs dsts : List Reg) (k : List Word → State → Res) : Res :=
  s.issue .eOnly 1 <| s.operands srcs dsts fun v s1 =>
    if s.hart.wordTest then s.stall .engine else s.residueCheck (k v s1)

/-- The word unit remembers the hart it served (R310); a mismatch that a second execution cured is told to the partition supervisor (R409,
R410). -/
def State.served (s : State) : State :=
  { s with
    core := { s.core with wordLast := s.hart.id.extractLsb' 0 3 }, hart := s.hart.checked
    out := if s.hart.residue = 0 then s.out else s.out ++ [.residueCured s.hart.id] }

/-- The instruction writes word register d. -/
def State.wordDone (s : State) (d : Reg) (v : WReg) : Res := (State.served { s with hart := s.hart.setW d v }).done 1

/-- A word-unit instruction on word registers alone: lane i of d becomes `f i`. -/
def State.wordMap (s : State) (d : Reg) (f : Fin 64 → W32) : Res := s.word [] [] fun _ s1 => s1.wordDone d (Vector.ofFn f)

-- wld and wst (R232)

/-- The checks of R232 for the 64 elements of eb bytes at `a`; the offset in the partition. -/
def State.wordAddr (s : State) (a : Word) (eb : Nat) (acc : Acc) : Chk Nat :=
  if !inLocal a.toNat then .trap (.plain wrongStream a)
  else if a.toNat % eb ≠ 0 then .trap (.addr misaligned a acc)
  else match s.scratchAt a.toNat (64 * eb) with
    | none => .trap (.addr protection a acc)
    | some o => if s.interlocked a.toNat (64 * eb) (writes acc) then .stall .interlock else .ok o

def execWld (f : Fmt) (d a : Reg) (ofs : BitVec 7) (s : State) : Res :=
  s.word [a] [] fun v s1 =>
    let eb := fmtBytes f
    (s1.wordAddr (nth v 0 + sx ofs * va64 (64 * eb)) eb .read).run s fun o =>
      (s1.noteScratch o (64 * eb)).wordDone d (Vector.ofFn fun i : Fin 64 => w32 (s1.hart.scratch.rd (o + i.val * eb) eb))

/-- The nonzero bitmap of a word register (R73, R232). -/
def nonzeroMap (f : Fmt) (w : WReg) : Nat :=
  (List.finRange 64).foldl (fun m i => m + boolNat (!encZero f w[i].toNat) * 2 ^ i.val) 0

def execWst (f : Fmt) (d a b : Reg) (ofs : BitVec 7) (s : State) : Res :=
  s.word [a] [b] fun v s1 =>
    let eb := fmtBytes f
    (s1.wordAddr (nth v 0 + sx ofs * va64 (64 * eb)) eb .write).run s fun o =>
      let w := s1.hart.w d
      let bytes := w.toList.flatMap fun x => leBytes eb x.toNat
      let s2 := { s1 with hart := { s1.hart with scratch := s1.hart.scratch.puts o bytes } }
      ((State.served s2).wr b (va64 (nonzeroMap f w))).done 1

-- Arithmetic (R233)

/-- One lane of a two-operand operation: `g` on integers, `h` on exact values (R56 to R60, R231). -/
def wordLane (s : State) (f : Fmt) (g : Int → Int → Int) (h : Fv → Fv → Fv) (x y : W32) : W32 :=
  if f = .i32 then w32 (reduce s.pfxSat 32 (g (signed 32 x.toNat) (signed 32 y.toNat))).pat
  else w32 (fpEncode f s.rm s.fz (h (fpDecode f s.fz x.toNat) (fpDecode f s.fz y.toNat)))

def State.word2 (s : State) (f : Fmt) (d a b : Reg) (g : Int → Int → Int) (h : Fv → Fv → Fv) : Res :=
  s.wordMap d fun i => wordLane s f g h (s.hart.w a)[i] (s.hart.w b)[i]

def execWadd (f : Fmt) (d a b : Reg) (s : State) : Res := s.word2 f d a b (· + ·) (Fv.add s.rm)
def execWsub (f : Fmt) (d a b : Reg) (s : State) : Res := s.word2 f d a b (· - ·) (fun x y => Fv.add s.rm x y.negate)
def execWmul (f : Fmt) (d a b : Reg) (s : State) : Res := s.word2 f d a b (· * ·) Fv.mul
def execWmin (f : Fmt) (d a b : Reg) (s : State) : Res := s.word2 f d a b min (Fv.minMax false)
def execWmax (f : Fmt) (d a b : Reg) (s : State) : Res := s.word2 f d a b max (Fv.minMax true)
/-- A × B + D, rounded once. -/
def execWfma (f : Fmt) (d a b : Reg) (s : State) : Res :=
  s.wordMap d fun i =>
    let z := (s.hart.w d)[i]
    wordLane s f (fun x y => x * y + signed 32 z.toNat) (fun x y => Fv.add s.rm (Fv.mul x y) (fpDecode f s.fz z.toNat))
      (s.hart.w a)[i] (s.hart.w b)[i]

-- wun (R234)

def wunCode : WunOp → Nat
  | .abs => 0
  | .neg => 1
  | .exp2 => 2
  | .log2 => 3
  | .rcp => 4
  | .rsqrt => 5

def fmtCode : Fmt → Nat
  | .f32 => 0
  | .bf16 => 1
  | .f16 => 2
  | .i32 => 3

def Fv.absolute : Fv → Fv
  | .nan => .nan
  | .inf _ => .inf false
  | .zero _ => .zero false
  | .fin m e => .fin m.natAbs e

/-- The bits of a lane that a format reads (R54). -/
def laneBits (f : Fmt) (x : W32) : W32 :=
  match f with
  | .bf16 | .f16 => x &&& 0xFFFF
  | .f32 | .i32 => x

/-- One lane of wun; exp2, log2, rcp and rsqrt take the free value where it lies within 2 units of the exact result (R234). -/
def wunLane (s : State) (op : WunOp) (f : Fmt) (x : W32) : W32 :=
  let v := fpDecode f s.fz x.toNat
  if f = .i32 then
    let n := signed 32 x.toNat
    w32 (reduce s.pfxSat 32 (if op = .abs then (n.natAbs : Int) else -n)).pat
  else match op with
    | .abs => w32 (fpEncode f .rne s.fz v.absolute)
    | .neg => w32 (fpEncode f .rne s.fz v.negate)
    | _ => w32 (fpEncode f .rne s.fz (fpDecode .f32 false (wunFp op (Config.wunValue (wunCode op * 4 + fmtCode f) (laneBits f x)).toNat v)))

def execWun (op : WunOp) (f : Fmt) (d a : Reg) (s : State) : Res := s.wordMap d fun i => wunLane s op f (s.hart.w a)[i]

-- wcvt, wcmp, wsel (R235)

def cvtLane (s : State) (src dst : Fmt) (x : W32) : W32 :=
  if src = .i32 then (if dst = .i32 then x else w32 (fpEncode dst s.rm s.fz (Fv.ofInt (signed 32 x.toNat))))
  else
    let v := fpDecode src s.fz x.toNat
    if dst = .i32 then w32 (pat 32 (v.toInt s.rm (-2 ^ 31) (2 ^ 31 - 1))) else w32 (fpEncode dst s.rm s.fz v)

/-- g is the destination format, FMT2; f the source format, FMT. -/
def execWcvt (g f : Fmt) (d a : Reg) (s : State) : Res := s.wordMap d fun i => cvtLane s f g (s.hart.w a)[i]

def cmpLane (s : State) (c : Cond) (f : Fmt) (x y : W32) : Bool :=
  if f = .i32 then laneCond c (signed 32 x.toNat) (signed 32 y.toNat) x.toNat y.toNat
  else
    let a := fpDecode f s.fz x.toNat
    let b := fpDecode f s.fz y.toNat
    match c with
    | .eq => a.eq b
    | .ne => !a.eq b
    | .lt => a.lt b
    | .ge => b.lt a || a.eq b
    | .ltu | .geu => false

def execWcmp (c : Cond) (f : Fmt) (d a b : Reg) (s : State) : Res :=
  s.wordMap d fun i => if cmpLane s c f (s.hart.w a)[i] (s.hart.w b)[i] then 0xFFFFFFFF else 0
def execWsel (d a b : Reg) (s : State) : Res :=
  s.wordMap d fun i => if (s.hart.w d)[i] ≠ 0 then (s.hart.w a)[i] else (s.hart.w b)[i]

-- wred, wperm, wmov (R236)

/-- One level of a tree over values. Each floating sum is a result of its own: with FZ = 1 a subnormal one is flushed at every level
(R58, R236, log 92). -/
def wredStep (s : State) (op : WRedOp) (f : Fmt) (x y : Nat) : Nat :=
  if f = .i32 then
    match op with
    | .sum => x + y
    | .max => if signed 32 x < signed 32 y then y else x
    | .min => if signed 32 y < signed 32 x then y else x
    | .maxu => max x y
    | .minu => min x y
  else
    let a := fpDecode f s.fz x
    let b := fpDecode f s.fz y
    match op with
    | .max => fpEncode f s.rm s.fz (Fv.minMax true a b)
    | .min => fpEncode f s.rm s.fz (Fv.minMax false a b)
    | _ => fpEncode f s.rm s.fz (Fv.add s.rm a b)

/-- One level: values 0 and 1, 2 and 3, and so on. -/
def treeLevel (f : Nat → Nat → Nat) : List Nat → List Nat
  | x :: y :: r => f x y :: treeLevel f r
  | r => r
def tree (f : Nat → Nat → Nat) : Nat → List Nat → Nat
  | 0, xs => xs.headD 0
  | n + 1, xs => tree f n (treeLevel f xs)

/-- The reduction of one group of 2^g lanes (R236). max, min, maxu and minu on INT32 are exact, and a prefix SAT leaves them as they are
(R59, R89, log 92). -/
def wredGroup (s : State) (op : WRedOp) (f : Fmt) (g : Nat) (xs : List Nat) : W32 :=
  if f = .i32 then
    if op = .sum then w32 (reduce s.pfxSat 32 ((xs.map (signed 32)).sum)).pat else w32 (tree (wredStep s op f) g xs)
  else w32 (fpEncode f s.rm s.fz (fpDecode f s.fz (tree (wredStep s op f) g xs)))

def execWred (op : WRedOp) (f : Fmt) (g : BitVec 3) (d a : Reg) (s : State) : Res :=
  s.wordMap d fun i =>
    let n := 2 ^ g.toNat
    if i.val < 64 / n then wredGroup s op f g.toNat ((((s.hart.w a).toList.drop (i.val * n)).take n).map (·.toNat)) else 0

def execWperm (d a b : Reg) (s : State) : Res :=
  s.wordMap d fun i => (s.hart.w a)[((s.hart.w b)[i].toNat % 64)]'(Nat.mod_lt _ (by decide))

/-- A lane of a format as wmov moves it: 16-bit formats move bits [15:0] (R236). -/
def movLane (f : Fmt) (x : Nat) : W32 := w32 (x % 2 ^ fpWidth f)

def execWmov (op : WmovOp) (f : Fmt) (d a b : Reg) (s : State) : Res :=
    match op with
    | .ts => s.word [b] [d] fun v s1 =>
        let x := (movLane f ((s.hart.w a)[(nth v 0).toNat % 64]'(Nat.mod_lt _ (by decide))).toNat)
        ((State.served s1).wr d (if f = .i32 then x.signExtend 64 else x.zeroExtend 64)).done 1
    | .st => s.word [a, b] [] fun v s1 =>
        s1.wordDone d ((s.hart.w d).set ((nth v 1).toNat % 64) (movLane f (nth v 0).toNat) (Nat.mod_lt _ (by decide)))
    | .bc => s.word [a] [] fun v s1 => s1.wordDone d (Vector.replicate 64 (movLane f (nth v 0).toNat))

-- wq (R61, R67, R237)

/-- Codes packed as a little-endian bit string (R61). -/
def packCodes (w : Nat) : List Nat → Nat
  | [] => 0
  | c :: cs => c % 2 ^ w + 2 ^ w * packCodes w cs

/-- `n` words of a number, the least significant first. -/
def wordsLe : Nat → Nat → List W32
  | 0, _ => []
  | n + 1, x => w32 x :: wordsLe n (x / 2 ^ 32)

/-- A word register from words; missing ones are 0. -/
def wregOf (ws : List W32) : WReg := Vector.ofFn fun i : Fin 64 => ws.getD i.val 0

def execWq (dq : Bool) (d a b : Reg) (s : State) : Res :=
  s.issue .eOnly 1 <| s.direction (if dq then [b] else []) (if dq then [] else [b]) <|
    let xf := s.me.xf
    let lanes := (s.hart.w a).toList.map (·.toNat)
    if xf = 0 then s.widthTrap
    else if dq then s.word [b] [] fun v s1 =>
      let block (i : Nat) : List W32 :=
        let bits := ofLe (((lanes.drop (8 * i)).take 8).flatMap (leBytes 4))
        (List.range 32).map fun e =>
          w32 (mxDequant s.fz xf (fld (nth v 0) (8 * i) 8) (bits / 2 ^ (e * mxWidth xf) % 2 ^ mxWidth xf))
      s1.wordDone d (wregOf (block 0 ++ block 1))
    else s.word [] [b] fun _ s1 =>
      let q (i : Nat) := mxQuant xf (((lanes.drop (32 * i)).take 32).map (fpDecode .f32 s.fz))
      let block (i : Nat) : List W32 := wordsLe 8 (packCodes (mxWidth xf) (q i).2)
      ((State.served { s1 with hart := s1.hart.setW d (wregOf (block 0 ++ block 1)) }).wr b (va64 ((q 1).1 * 256 + (q 0).1))).done 1

end Sys2Proof.Machine
end

