-- ==== Sys2Proof/Machine/Matrix.lean ====
section
/-! DEFINITION. The matrix configuration, posting of matrix operations, their row steps, and the transposes between lane store
and word registers (R40, R41, R65 to R70, R212 to R230, R238, R239). -/
namespace Sys2Proof.Machine

-- The configuration (R214, R215)

/-- The fields of a matrix descriptor. -/
structure MCfg where
  ow : Nat
  c : Nat
  chen : Bool
  ch : Nat
  bf : Nat
  ac : Bool
  af : Nat
  ks : Nat
  kw : Nat
  kh : Nat
  oh : Nat
  w : Nat
  h : Nat
  pl : Nat
  pt : Nat
  dw : Nat
  dh : Nat
  sw : Nat
  sh : Nat
  rbmap : Nat
  abase : Nat
  rowb : Nat
  pixb : Nat
  bscl : Nat
  ascl : Nat
  bsrs : Nat
  asrs : Nat

def mcfgOf (v : Vector Word 8) : MCfg :=
  { ow := fld v[0] 48 16, c := fld v[0] 32 16, chen := bit v[0] 19, ch := fld v[0] 16 3, bf := fld v[0] 12 3, ac := bit v[0] 11,
    af := fld v[0] 8 3, ks := 2 ^ fld v[0] 0 2, kw := fld v[1] 56 8, kh := fld v[1] 48 8, oh := fld v[1] 32 16, w := fld v[1] 16 16,
    h := fld v[1] 0 16, pl := fld v[2] 40 8, pt := fld v[2] 32 8, dw := fld v[2] 24 8, dh := fld v[2] 16 8, sw := fld v[2] 8 8,
    sh := fld v[2] 0 8, rbmap := fld v[3] 32 32, abase := fld v[3] 0 32, rowb := fld v[4] 32 32, pixb := fld v[4] 0 32,
    bscl := fld v[5] 32 32, ascl := fld v[5] 0 32, bsrs := fld v[6] 32 32, asrs := fld v[6] 0 32 }

/-- The byte offset of the first field that R215 refuses, the fields taken from the lowest byte up. -/
def mcfgBad (v : Vector Word 8) : Option Nat :=
  let f := mcfgOf v
  let checks : List (Bool × Nat) :=
    [(fld v[0] 2 6 != 0, 0), (decide (5 ≤ f.af), 1), (f.ac && f.af == 0, 1), (decide (5 ≤ f.bf), 1), (bit v[0] 15, 1),
     (fld v[0] 20 12 != 0, 2), (f.c == 0, 4), (f.af != 0 && f.c % 32 != 0, 4), (f.ow == 0, 6),
     (f.h == 0, 8), (f.w == 0, 10), (f.oh == 0, 12), (f.kh == 0, 14), (f.kw == 0, 15),
     (f.sh == 0, 16), (f.sw == 0, 17), (f.dh == 0, 18), (f.dw == 0, 19), (fld v[2] 48 16 != 0, 22), (v[7] != 0, 56)]
  (checks.find? (·.1)).map (·.2)

def execMcfg (a : Reg) (s : State) : Res :=
  s.issue .eOnly 1 <| s.operands [a] [] fun v s1 =>
    let ea := nth v 0
    if ea.toNat % 64 ≠ 0 then s.trap (.addr misaligned ea .read)
    else match s.scratchAt ea.toNat 64 with
      | none => s.trap (.addr protection ea .read)
      | some o =>
        if s.interlocked ea.toNat 64 false then s.stall .interlock
        else
          let raw : Vector Word 8 := Vector.ofFn fun i : Fin 8 => va64 (s.hart.scratch.rd (o + 8 * i.val) 8)
          match mcfgBad raw with
          | some b => (s.noteScratch o 64).trap (.plain illegalInstruction (va64 b))
          | none => (State.noteScratch { s1 with hart := { s1.hart with mcfg := some raw } } o 64).done 1

-- Widths that an operation sampled (R32, R219)

def vtA (t : BitVec 21) : Nat := (t.extractLsb' 0 4).toNat + 1
def vtB (t : BitVec 21) : Nat := (t.extractLsb' 4 4).toNat + 1
/-- K of the configuration on this hart, and the output columns N (R212). -/
def MCfg.kk (f : MCfg) : Nat := 64 * f.ks
def MCfg.cols (f : MCfg) (lanes : Nat) : Nat := lanes / 64 / f.ks
/-- Bytes of a container (R214). -/
def contBytes (wa : Nat) : Nat := if wa ≤ 8 then 1 else 2
/-- Bits of one stored A element (R219). -/
def MCfg.cw (f : MCfg) (wa : Nat) : Nat := if f.ac then mxWidth f.af else 8 * contBytes wa
/-- First offset and bytes of the A tensor span (R219). -/
def MCfg.span (f : MCfg) (wa : Nat) : Nat × Nat :=
  (f.abase, (f.h - 1) * f.rowb + (f.w - 1) * f.pixb + ceilDiv (f.c * f.cw wa) 8)

-- The unfolding unit (R216, R217)

/-- The pixel and channel of element k of unfolded row m; none in the padding. -/
def MCfg.pixel (f : MCfg) (m k : Nat) : Option (Nat × Nat × Nat) :=
  let oy := m / f.ow
  let ox := m % f.ow
  let t := k / f.c
  let y : Int := (oy * f.sh + t / f.kw * f.dh : Nat) - (f.pt : Int)
  let x : Int := (ox * f.sw + t % f.kw * f.dw : Nat) - (f.pl : Int)
  if f.oh * f.ow ≤ m ∨ f.kh * f.kw ≤ t ∨ y < 0 ∨ (f.h : Int) ≤ y ∨ x < 0 ∨ (f.w : Int) ≤ x then none
  else some (y.toNat, x.toNat, k % f.c)

/-- First bit and width of the stored element. -/
def MCfg.stored (f : MCfg) (wa y x c : Nat) : Nat × Nat :=
  let p := f.abase + y * f.rowb + x * f.pixb
  if f.ac then (8 * p + c * mxWidth f.af, mxWidth f.af) else (8 * (p + c * contBytes wa), 8 * contBytes wa)

/-- The wA-bit pattern of element k of unfolded row m. -/
def MCfg.aPat (f : MCfg) (sp : Memory) (wa m k : Nat) : Nat :=
  match f.pixel m k with
  | none => 0
  | some (y, x, c) =>
    let b := f.stored wa y x c
    let raw := sp.rd (b.1 / 8) 3 / 2 ^ (b.1 % 8)
    if f.ac then pat wa (mxExpand f.af (raw % 2 ^ b.2)) else raw % 2 ^ wa

/-- The byte of row r and K-block kb in scale tiles at `base` (R65). -/
def scaleAt (base stride r kb : Nat) : Nat := base + r / 32 * stride + kb / 32 * 1024 + r % 32 * 32 + Nat.xor (kb % 32) (r % 32)
/-- The tile of that byte. -/
def tileAt (base stride r kb : Nat) : Nat := base + r / 32 * stride + kb / 32 * 1024

/-- Everything one operation computes with. -/
structure MatView where
  f : MCfg
  wa : Nat
  wb : Nat
  sa : Bool
  sb : Bool
  kchunk : Nat
  cols : Nat
  m0 : Nat
  rows : Nat

def MatOp.view (o : MatOp) : MatView :=
  { f := mcfgOf o.cfg, wa := vtA o.vtype, wb := vtB o.vtype, sa := o.vtype.getLsbD 13, sb := o.vtype.getLsbD 14,
    kchunk := o.kchunk, cols := o.cols, m0 := o.m0, rows := o.rows }

/-- The index in the unfolded row of local element k. -/
def MatView.k0 (v : MatView) : Nat := v.kchunk * v.f.kk
def MatView.blocks (v : MatView) : Nat := v.f.kk / 32

/-- A K-block of row m is padding throughout (R217). -/
def MatView.allPad (v : MatView) (m b : Nat) : Bool :=
  (List.range 32).all fun e => (v.f.pixel m (v.k0 + 32 * b + e)).isNone

/-- The A scale's place for block b of row m: row and K-block (R217). -/
def MatView.aScaleRow (v : MatView) (m b : Nat) : Option (Nat × Nat) :=
  ((List.range 32).findSome? fun e => v.f.pixel m (v.k0 + 32 * b + e)).map fun (y, x, c) => (y * v.f.w + x, c / 32)

/-- Scale places that row m reads: base, stride, row, K-block (R217). -/
def MatView.rowScales (v : MatView) (m : Nat) : List (Nat × Nat × Nat × Nat) :=
  (List.range v.blocks).flatMap fun b =>
    if v.allPad m b then []
    else
      (if v.f.af = 0 then [] else (v.aScaleRow m b).toList.map fun x => (v.f.ascl, v.f.asrs, x.1, x.2)) ++
      (if v.f.bf = 0 then [] else (List.range v.cols).map fun j => (v.f.bscl, v.f.bsrs, j, v.kchunk * v.blocks + b))

/-- Scale places that the operation reads. -/
def MatView.scales (v : MatView) : List (Nat × Nat × Nat × Nat) := (List.range v.rows).flatMap fun i => v.rowScales (v.m0 + i)

/-- Bitmap bytes of rows m0 to m0 + ROWS − 1: first offset and count. -/
def MatView.bitmap (v : MatView) : Nat × Nat := (v.f.rbmap + v.m0 / 8, (v.m0 + v.rows - 1) / 8 + 1 - v.m0 / 8)

/-- The read span: the smallest range over the A tensor span, the scales read and, for mmas, the bitmap bytes (R224). -/
def MatView.readSpan (v : MatView) (masked : Bool) : Nat × Nat :=
  let ranges := v.f.span v.wa :: (if masked then [v.bitmap] else []) ++ v.scales.map fun x => (scaleAt x.1 x.2.1 x.2.2.1 x.2.2.2, 1)
  let lo := ranges.foldl (fun a r => min a r.1) (v.f.span v.wa).1
  let hi := ranges.foldl (fun a r => max a (r.1 + r.2)) 0
  (lo, hi - lo)

-- Issue (R218 to R220, R223)

def localVa (off : Nat) : Word := va64 (localBase + off)

/-- The first check of R219 beyond the header that fails. For a range that leaves the partition TVAL holds the local-window address of the
range's first byte, and a scale base is given in the same form (R66, R219; log 75). -/
def MatView.check (v : MatView) (h : Hart) (masked : Bool) : Option TrapInfo :=
  let size := h.scratchSize
  let inside (lo n : Nat) : Bool := lo + n ≤ size
  let scaleBad (base stride kb : Nat) : Option TrapInfo :=
    if base % 1024 ≠ 0 then some (.plain scaleLayout (localVa base))
    else if stride % 1024 ≠ 0 ∨ stride < 1024 * ceilDiv kb 32 then some (.plain scaleLayout (va64 stride)) else none
  let span := v.f.span v.wa
  if !inside span.1 span.2 then some (.addr protection (localVa span.1) .read)
  else match v.scales.find? (fun x => !inside (tileAt x.1 x.2.1 x.2.2.1 x.2.2.2) 1024) with
    | some x => some (.addr protection (localVa (tileAt x.1 x.2.1 x.2.2.1 x.2.2.2)) .read)
    | none =>
      if masked && !inside v.bitmap.1 v.bitmap.2 then some (.addr protection (localVa v.bitmap.1) .read)
      else match (if v.f.af = 0 then none else scaleBad v.f.ascl v.f.asrs (v.f.c / 32)) with
        | some t => some t
        | none => if v.f.bf = 0 then none else scaleBad v.f.bscl v.f.bsrs ((v.kchunk + 1) * v.blocks)

/-- Check 2 of R219. -/
def matWidthBad (f : MCfg) (t : Strm) (fp32 : Bool) : Bool :=
  (f.af != 0 && (t.wA != mxExp f.af || !t.sA)) || (f.bf != 0 && (t.wB != mxExp f.bf || !t.sB))
    || (!fp32 && (f.af != 0 || f.bf != 0))

/-- A halted operation is reported at the next mma, mmas, mwait or mprog (R229, R342). -/
def State.unhalted (s : State) (k : Res) : Res :=
  match s.hart.mhalt with
  | some a =>
    if s.hart.mtold.isSome then k
    else State.trap { s with hart := { s.hart with mtold := some s.me.issueAddr } } { TrapInfo.addr memoryError a .read with mh := true }
  | none => k

/-- The header of a tile: TAG, ROWS, COLS, PITCH (R40). -/
structure TileHead where
  tag : Nat
  rows : Nat
  cols : Nat
  pitch : Nat

def headOf (w : Word) : TileHead := ⟨fld w 0 16, fld w 16 16, fld w 32 16, fld w 48 16⟩

/-- An earlier copy command still reads or writes bytes of a D element: the operation, a long-vector access, waits for it (R46, R326,
R329), unless it is one of the commands `chain` that the operation records, for whose bytes only a row step waits (R225). -/
def State.tileWaits (s : State) (tile rows cols pitch : Nat) (chain : List Nat) : Bool :=
  s.hart.ilocks.any fun e =>
    (match e.owner with | .cmd i => !chain.contains i | .op _ => false) &&
      (List.range rows).any fun r =>
        decide (tile + 16 + r * pitch * 16 < e.lo + e.len ∧ e.lo < tile + 16 + r * pitch * 16 + cols * 4)

/-- mma and mmas (R218 to R220, R223, R224). -/
def State.postMatrix (s : State) (masked c f z : Bool) (d a b : Reg) : Res :=
  s.issue .eOnly 1 <| s.direction [a, d] [] <|
    match s.hart.mcfg with
    | none => s.illegal
    | some raw =>
      let cfg := mcfgOf raw
      if matWidthBad cfg s.me f then s.widthTrap
      else s.unhalted <| s.operands [a, d] [] fun v s1 =>
      let tile := nth v 1
      let chain := if cfg.chen then (s.core.chans.toList.getD cfg.ch Channel.idle).queue.map (·.id) else []
      if tile.toNat % 16 ≠ 0 then s.trap (.addr misaligned tile .write)
      else match s.scratchAt tile.toNat 16 with
        | none => s.trap (.addr protection tile .write)
        | some o =>
          if s.interlocked tile.toNat 16 z then s.stall .interlock
          else
            let head := va64 (s.hart.scratch.rd o 8)
            let s0 := s.noteScratch o 8
            let t := headOf head
            let last := 16 + (t.rows - 1) * t.pitch * 16 + t.cols * 4
            let mv : MatView :=
              { f := cfg, wa := s.me.wA, wb := s.me.wB, sa := s.me.sA, sb := s.me.sB, kchunk := fld (nth v 0) 32 16, cols := t.cols,
                m0 := fld (nth v 0) 0 32, rows := t.rows }
            if t.rows ≠ 0 ∧ t.cols ≠ 0 ∧ s.hart.scratchSize < o + last then s0.trap (.addr protection tile .write)
            else if t.rows = 0 ∨ t.cols = 0 ∨ cfg.cols s.lanes < t.cols ∨ t.pitch < ceilDiv (t.cols * 4) 16 then
              s0.trap (.plain widthError head)
            else if !z && t.tag != (if f then 2 else 1) then s0.trap (.plain formatMismatch tile)
            else match mv.check s.hart masked with
              | some i => s0.trap i
              | none =>
                if Config.mqSize ≤ s.hart.mq.length then s.stall .engine
                else if s.tileWaits tile.toNat t.rows t.cols t.pitch chain then s.stall .interlock
                else match s.hart.notFull [b] with
                  | some r => s.stall (.presence false r)
                  | none =>
                    if Config.ilockSize ≤ s.hart.ilocks.length then s.stall .interlock
                    else
                      let id := s.nextId
                      let span := mv.readSpan masked
                      let op : MatOp :=
                        { id := id, masked := masked, fp32 := f, zero := z, cons := c, tile := o, m0 := mv.m0, kchunk := mv.kchunk,
                          breg := b, cfg := raw, vtype := s.me.vtype, sat := s.satMode, rows := t.rows, cols := t.cols,
                          pitch := t.pitch, stage := .posted
                          chain := chain }
                      let sp := if z then (s1.hart.scratch.wr o 2 (if f then 2 else 1)).wr (o + 8) 8 0 else s1.hart.scratch
                      let s2 := { s1.noteScratch o 8 with nextId := id + 1, hart := { s1.hart with scratch := sp, mq := s1.hart.mq ++ [op] } }
                      (s2.addIlocks [⟨.op id, localBase + span.1, span.2, false⟩]).done 1

def execMma (c f z : Bool) (d a b : Reg) (s : State) : Res := s.postMatrix false c f z d a b
def execMmas (c f z : Bool) (d a b : Reg) (s : State) : Res := s.postMatrix true c f z d a b

-- Row steps (R221, R222, R224, R225)

/-- The patterns of one unfolded row's K chunk. -/
def MatView.aRow (v : MatView) (sp : Memory) (m : Nat) : List Nat := (List.range v.f.kk).map fun k => v.f.aPat sp v.wa m (v.k0 + k)

/-- The row's planes whose own zero flag is 0 (R216). -/
def rowPlanes (wa : Nat) (row : List Nat) : Nat := ((List.range wa).filter fun p => row.any (·.testBit p)).length

/-- mmas skips a row whose bitmap bit is 0 (R221). -/
def MatView.mapped (v : MatView) (sp : Memory) (m : Nat) : Bool := (sp.get (v.f.rbmap + m / 8)).toNat.testBit (m % 8)

/-- P[b] of column j (R68, R221). -/
def MatView.partialSum (v : MatView) (h : Hart) (breg : Reg) (row : List Nat) (j b : Nat) : Int :=
  ((List.range 32).map fun e =>
    valueOf v.sa v.wa (row.getD (32 * b + e) 0) * h.value breg v.wb v.sb (j * v.f.kk + 32 * b + e)).sum

/-- v of block b of column j under R69 and R217. -/
def MatView.blockValue (v : MatView) (h : Hart) (breg : Reg) (row : List Nat) (m j b : Nat) : Fv :=
  if v.allPad m b then .zero false
  else
    let sp := h.scratch
    let scaleA : Option Nat := if v.f.af = 0 then none else (v.aScaleRow m b).map fun x => (sp.get (scaleAt v.f.ascl v.f.asrs x.1 x.2)).toNat
    let scaleB : Option Nat := if v.f.bf = 0 then none else some (sp.get (scaleAt v.f.bscl v.f.bsrs j (v.kchunk * v.blocks + b))).toNat
    if scaleA = some 0xFF ∨ scaleB = some 0xFF then .nan
    else
      let x (o : Option Nat) : Int := match o with | some c => (c : Int) - 127 | none => 0
      let p := v.partialSum h breg row j b
      if p = 0 then .zero false else .fin p (x scaleA + x scaleB - mxFrac v.f.af - mxFrac v.f.bf)

/-- RoundFP32 of s + v (R69). -/
def addRounded (s : Nat) (v : Fv) : Nat := fpEncode .f32 .rne false (Fv.add .rne (fpDecode .f32 false s) v)

/-- The new element (i, j): `old` is its value before, 0 under Z (R69, R220, R221). -/
def MatOp.element (o : MatOp) (h : Hart) (row : List Nat) (skip : Bool) (m j old : Nat) : Nat :=
  let v := o.view
  if o.fp32 then
    let s := (List.range v.blocks).foldl (fun s b => addRounded s (if skip then .zero false else v.blockValue h o.breg row m j b)) 0
    addRounded old (fpDecode .f32 false s)
  else
    let sum := if skip then 0 else ((List.range v.blocks).map (v.partialSum h o.breg row j)).sum
    (reduce o.sat 32 (signed 32 old + sum)).pat

/-- Where element (i, j) lies in the partition (R40). -/
def MatOp.elemAt (o : MatOp) (i j : Nat) : Nat := o.tile + 16 + i * o.pitch * 16 + j * 4

/-- The row is excluded by the bitmap of an mmas. -/
def MatOp.byMap (o : MatOp) (sp : Memory) (m : Nat) : Bool := o.masked && !o.view.mapped sp m

/-- Offsets of the bytes that row step m reads: without Z the elements of D too; a row excluded by the bitmap reads no operands (R216,
R217, R221, R222). -/
def MatOp.rowBytes (o : MatOp) (sp : Memory) (m : Nat) : List Nat :=
  let v := o.view
  (if o.zero then [] else List.range' (o.elemAt (m - o.m0) 0) (4 * o.cols)) ++
  if o.byMap sp m then [v.f.rbmap + m / 8]
  else (if o.masked then [v.f.rbmap + m / 8] else []) ++
  (List.range v.f.kk).flatMap (fun k =>
    match v.f.pixel m (v.k0 + k) with
    | none => []
    | some (y, x, c) => let b := v.f.stored v.wa y x c; List.range' (b.1 / 8) ((b.1 % 8 + b.2 + 7) / 8)) ++
  (v.rowScales m).map fun x => scaleAt x.1 x.2.1 x.2.2.1 x.2.2.2

/-- The queued command with this id, with its channel and whether it is the channel's first. -/
def Core.findCmd (c : Core) (id : Nat) : Option (Channel × CopyCmd × Bool) :=
  (List.finRange 8).findSome? fun i =>
    (c.chans[i].queue.find? (fun q => q.id = id)).map fun q => (c.chans[i], q, (c.chans[i].queue.head?.map (·.id)) == some id)

/-- The block of a quantising command, `blocks` blocks with `kb` a row, with whose codes a byte of the scale tiles at `base` is written: the
scale's own, or for a padding byte the last of its row group (R65, R253). -/
def scaleBlock (base kb blocks va : Nat) : Nat :=
  let stride := 1024 * ceilDiv kb 32
  let o := va - base
  let i := o % 1024 / 32
  let r := o / stride * 32 + i
  let k := o % stride / 1024 * 32 + Nat.xor (o % 32) i
  if r < blocks / kb ∧ k < kb then r * kb + k else min (o / stride * 32 + 32) (blocks / kb) * kb - 1

/-- The destination address that CPWP must have passed for a byte of a command's destination to be delivered: its own, for a byte of a
quantising cpyo's scale tiles that of the last code of its block (R225, R253). -/
def CopyCmd.shownBy (c : CopyCmd) (va : Nat) : Nat :=
  match c.kind with
  | .cpyo _ true _ xf kb scale =>
    let bb := 4 * mxWidth xf
    if c.dst ≤ va ∧ va < c.dst + c.span then va else c.dst + (scaleBlock scale kb (c.len / 128) va + 1) * bb - 1
  | _ => va

/-- A byte of a recorded command's destination has not been delivered (R225). -/
def State.undelivered (s : State) (id : Nat) (va : Nat) : Bool :=
  (s.hart.ilocks.any fun e => e.owner = .cmd id && e.write && decide (e.lo ≤ va ∧ va < e.lo + e.len)) &&
  match s.core.findCmd id with
  | none => false
  | some (ch, q, first) => !(first && q.started && decide (q.shownBy va < ch.cpwp.toNat))

/-- The operation's next row step reads bytes that a recorded command has not delivered (R225). -/
def State.chainWaits (s : State) (o : MatOp) : Bool :=
  o.chain.any fun id => (o.rowBytes s.hart.scratch (o.m0 + s.hart.mprog)).any fun b => s.undelivered id (localBase + b)

/-- The operation's next row step must wait for copy commands (R225). -/
def State.matrixWaits (s : State) (o : MatOp) : Bool :=
  let span := o.view.readSpan o.masked
  let lo := localBase + span.1
  (o.stage = .posted && s.hart.ilocks.any fun e =>
    match e.owner with
    | .cmd id => id < o.id && !o.chain.contains id && decide (lo < e.lo + e.len ∧ e.lo < lo + span.2)
    | .op _ => false) || s.chainWaits o

/-- The hart's row step waits on a chained channel (R425). -/
def State.rowHeld (s : State) : Bool := s.hart.mq.head?.any fun o => o.stage != .consumed && s.chainWaits o

/-- What a row step cannot read: a scratchpad word, by its address, or a row word of the lane store. -/
inductive RowError where
  | word (a : Word)
  | row (x : Nat)

/-- An uncorrectable error in what row step m reads: a scratchpad word, or a row word of B (R229, R410). -/
def Hart.rowError (h : Hart) (o : MatOp) (m : Nat) : Option RowError :=
  match (o.rowBytes h.scratch m).find? (fun b => h.scratchBad.contains (b / 8)) with
  | some b => some (.word (localVa b))
  | none => if o.byMap h.scratch m then none else (h.badRow [⟨o.breg, vtB o.vtype, false⟩]).map .row

/-- The operation is halted, and an affected lane is to be tested (R229, R411). -/
def Hart.haltAt (h : Hart) (e : RowError) : Hart :=
  match e with
  | .word a => { h with mhalt := some a }
  | .row x => { h.testLane x with mhalt := some (rowWindow x) }

/-- The kind of the event and the address that report an error (R384, R409). -/
def RowError.told : RowError → Word × Word
  | .word a => (0, a)
  | .row x => (2, rowWindow x)

/-- Cycles for which row step m occupies the lanes (R222). -/
def MatOp.rowCycles (o : MatOp) (h : Hart) (byMap : Bool) (nA : Nat) : Nat :=
  let n := h.activePlanes o.breg (vtB o.vtype) * ceilDiv nA 2
  if byMap || nA = 0 then 1
  else if o.fp32 then max 1 (max n (ceilDiv o.cols 64 * o.view.blocks)) else max 1 n

def OpStage.afterRow (last : Bool) : OpStage := if last then .consumed else .running

/-- MATRIX_ROW_STEP: the next row step of the hart's oldest operation (R221, R224, R229). -/
def State.rowStep (s : State) : State :=
  match s.hart.mq with
  | [] => s
  | o :: rest =>
    if o.stage = .consumed || s.hart.mhalt.isSome || s.hart.laneBusy ≠ 0 || !s.hart.tests.isEmpty || s.matrixWaits o then s
    else
      let i := s.hart.mprog
      let m := o.m0 + i
      if o.rows ≤ i then
        State.dropIlocks { s with hart := if o.cons then { s.hart with mq := { o with stage := .consumed } :: rest }.setFull false [o.breg]
                                         else { s.hart with mq := { o with stage := .consumed } :: rest } } (fun e => e.owner = .op o.id)
      else match s.hart.rowError o m with
      | some e => State.event { s with hart := s.hart.haltAt e } s.hart.vd.toNat 8 e.told.1 e.told.2
      | none =>
        let v := o.view
        let byMap := o.byMap s.hart.scratch m
        let row := if byMap then [] else v.aRow s.hart.scratch m
        let nA := rowPlanes v.wa row
        let sp := (List.range o.cols).foldl (fun (sp : Memory) j =>
            let old := if o.zero then 0 else s.hart.scratch.rd (o.elemAt i j) 4
            sp.wr (o.elemAt i j) 4 (o.element s.hart row (nA = 0) m j old)) s.hart.scratch
        let last := decide (o.rows ≤ i + 1)
        let h := { s.hart with
          scratch := sp, mprog := i + 1, laneBusy := o.rowCycles s.hart byMap nA
          mq := { o with stage := OpStage.afterRow last } :: rest }
        if last then
          State.dropIlocks { s with hart := if o.cons then h.setFull false [o.breg] else h } (fun e => e.owner = .op o.id)
        else { s with hart := h }

/-- MATRIX_OPERATION_DONE: the oldest operation's D writes have drained (R222 to R224, R227). -/
def State.matrixEnd (s : State) : State :=
  match s.hart.mq with
  | [] => s
  | o :: rest => if o.stage = .consumed then { s with hart := { s.hart with mq := rest, mprog := 0 } } else s

-- mwait, mprog, mclr (R226 to R228)

def execMwait (done : Bool) (a : Reg) (s : State) : Res :=
  s.issue .eOnly 1 <| s.direction [a] [] <| s.unhalted <| s.operands [a] [] fun v s1 =>
    let left := if done then s.hart.mq.length else (s.hart.mq.filter (fun o => o.stage != .consumed)).length
    if left ≤ (nth v 0).toNat then (s1.acquireIf done .hart).done 1 else s.stall .engine

def execMprog (d : Reg) (s : State) : Res :=
  s.issue .eOnly 1 <| s.direction [] [d] <| s.unhalted <| s.operands [] [d] fun _ s1 =>
    (s1.wr d (va64 (s.hart.mq.length * 2 ^ 32 + s.hart.mprog))).done 1

/-- mclr: every operation is removed or, between two row steps, stopped (R24, R228). -/
def execMclr (s : State) : Res :=
  s.issue .eOnly 1 <|
    let eaten := (s.hart.mq.filter (fun o => o.cons && o.stage != .consumed)).map (·.breg)
    let h := (s.hart.setFull false eaten)
    State.done (State.dropIlocks { s with hart := { h with mq := [], mprog := 0, mhalt := none, mtold := none } }
      (fun e => match e.owner with | .op _ => true | .cmd _ => false)) 1

-- vtow and wtov (R238, R239)

def execVtow (ca : Bool) (f : Fmt) (d a b : Reg) (s : State) : Res :=
  let r : LaneReq := ⟨[s.srcA a ca], none, true, s.me.wA + 8⟩
  s.onLanes r [b] [] fun v s1 => s.residueCheck <|
    let val (e : Nat) : Int := s.hart.value a s.me.wA s.me.sA e
    let lane (i : Fin 64) : W32 :=
      let e := (nth v 0).toNat + i.val
      if e < s.lanes then
        (if f = .f32 then w32 (fpEncode .f32 .rne false (Fv.ofInt (val e))) else w32 (pat 32 (val e)))
      else 0
    let s2 := s1.laneDone r 0 none ⟨[], [], 0, false⟩
    s2.wordDone d (Vector.ofFn lane)

/-- One lane as an element of width w: ±infinity gives the extreme of the format with SATF (R239). -/
def wtovLane (f : Fmt) (sat : BitVec 2) (w : Nat) (sg : Bool) (x : Nat) : Reduced :=
  if f = .f32 then
    match fpDecode .f32 false x with
    | .inf neg => ⟨if neg then (if sg then 2 ^ (w - 1) else 0) else (if sg then 2 ^ (w - 1) - 1 else 2 ^ w - 1), true⟩
    | .fin m e => reduce sat w (roundInt .rne m e)
    | _ => ⟨0, false⟩
  else reduce sat w (signed 32 x)

def execWtov (f : Fmt) (d a b : Reg) (s : State) : Res :=
  let r : LaneReq := ⟨[], some (d, s.me.wD), true, s.me.wD + 8⟩
  s.onLanes r [b] [] fun v s1 => s.residueCheck <|
    let xs := (List.range 64).filter (fun i => (nth v 0).toNat + i < s.lanes) |>.map fun i =>
      ((nth v 0).toNat + i, wtovLane f s.satMode s.me.wD s.me.sD ((s.hart.w a).toList.getD i 0).toNat)
    (State.served (s1.laneDone r 0 none ⟨xs.map (fun x => (x.1, x.2.pat)), [], 0, xs.any (·.2.sat)⟩)).done 1

end Sys2Proof.Machine
end

