-- ==== Sys2Proof/Machine/Copy.lean ====
section
/-! DEFINITION. The copy commands, their chunks, cpwait and cpstat (R44, R241 to R266, R422, R424, R433). -/
namespace Sys2Proof.Machine

-- Geometry

/-- Bytes of one block of codes (R61). -/
def blockBytes (xf : Nat) : Nat := 4 * mxWidth xf
/-- Container of an element of width pw + 1 (R249). -/
def contOf (pw : Nat) : Nat := if pw ≤ 7 then 1 else if pw ≤ 15 then 2 else 4
/-- Container of an expanded integer (R249). -/
def intBytes (xf : Nat) : Nat := if xf = 3 then 2 else 1
/-- Destination addresses per element of a cpyt, per byte when nothing is dequantised or transposed. -/
def cpytUnit (t : Bool) (dq xf : Nat) : Nat := if t || dq = 0 then 1 else if dq = 1 then intBytes xf else 4
/-- Elements of a cpyt, bytes when nothing is dequantised or transposed. -/
def cpytCount (t : Bool) (dq xf pw len : Nat) : Nat :=
  if dq = 0 then (if t then len / contOf pw else len) else len / blockBytes xf * 32
/-- Row stride of the scale tiles of a command (R250, R253). -/
def scaleStride (kb : Nat) : Nat := 1024 * ceilDiv kb 32

/-- Destination addresses that a command other than cpyg writes. -/
def CopyCmd.total (c : CopyCmd) : Nat :=
  match c.kind with
  | .cpyt _ t dq xf pw _ _ => cpytCount t dq xf pw c.len * cpytUnit t dq xf
  | .cpyo _ q _ xf _ _ => if q then c.len / 128 * blockBytes xf else c.len
  | _ => c.len

/-- The destination address at a position (R248). -/
def CopyCmd.at (c : CopyCmd) (p : Nat) : Nat :=
  match c.kind with
  | .cpys rby _ ds => c.dst + p / rby * ds + p % rby
  | _ => c.dst + p

/-- Counted bytes all of whose destination bytes lie before position p (R243). -/
def CopyCmd.creditAt (c : CopyCmd) (p : Nat) : Nat :=
  match c.kind with
  | .cpyt _ t dq xf pw _ _ =>
    if dq = 0 then (if t then p * contOf pw else p) else p / cpytUnit t dq xf * mxWidth xf / 8
  | .cpyo _ q _ xf _ _ => if q then p / blockBytes xf * 128 else p
  | _ => p

-- Issue (R242, R243, R246)

/-- What the checks of one command leave to be queued. -/
structure CopyReq where
  kind : CopyKind
  dst : Nat
  src : Nat
  len : Nat
  counted : Nat
  more : Bool
  got : List Nat
  reads : List (Nat × Nat)
  writes : List (Nat × Nat)

/-- Check 5 of R246 for one range: the lane-store window is named or run into, or a byte lies in the local window beyond the partition; the
address reported is the lowest that fails (R38, R245). -/
def State.windowBad (s : State) (lo len : Nat) (acc : Acc) : Option TrapInfo :=
  if inLane lo then some (.addr protection (va64 lo) acc)
  else if lo < laneBase ∧ laneBase < lo + len then some (.addr protection (va64 laneBase) acc)
  else if len ≠ 0 ∧ localBase + s.hart.scratchSize < lo + len then
    some (.addr protection (va64 (max lo (localBase + s.hart.scratchSize))) acc)
  else none

/-- Check 5 over read ranges, then written ranges. -/
def State.windowsBad (s : State) (reads : List (Nat × Nat)) (writes : List (Nat × Nat)) (acc : Acc) : Option TrapInfo :=
  match reads.findSome? fun r => s.windowBad r.1 r.2 .read with
  | some t => some t
  | none => writes.findSome? fun r => s.windowBad r.1 r.2 acc

/-- Queues a command on its channel, or stalls while the channel or the interlock table has no room or an entry conflicts
(R46, R242). -/
def State.postCopy (s s1 : State) (o : CopyOps) (r : CopyReq) : Res :=
  let ch := s.core.chans[o.ch.toNat]
  let full (l : List (Nat × Nat)) := l.filter (fun x => x.2 ≠ 0)
  if Config.chanSize ≤ ch.queue.length then s.stall .channel
  else if Config.ilockSize < s.hart.ilocks.length + (full r.reads).length + (full r.writes).length then s.stall .interlock
  else if r.reads.any (fun x => s.interlocked x.1 x.2 false) || r.writes.any (fun x => s.interlocked x.1 x.2 true) then
    s.stall .interlock
  else
    let id := s.nextId
    let c : CopyCmd :=
      { id := id, hart := s.hart.id, user := s.user, kind := r.kind, dst := r.dst, src := r.src, len := r.len
        span := (r.writes.head?.map (·.2)).getD 0, tb := o.tb
        phase := s.core.tbs[o.tb.toNat].phase, started := false, pos := 0, counted := r.counted, more := r.more, credited := 0
        got := r.got, gj := 0, gx := 0, gt := 0, before := none }
    let s2 := { s1 with
      nextId := id + 1
      core := { s1.core with chans := s1.core.chans.set o.ch.toNat { ch with queue := ch.queue ++ [c] } } }
    (s2.addIlocks (r.reads.map (fun x => ⟨.cmd id, x.1, x.2, false⟩) ++ r.writes.map (fun x => ⟨.cmd id, x.1, x.2, true⟩))).done 2

/-- Runs the checks of a command on its operand values, then queues it; a trap acts on the state before the pops (R17). -/
def State.copyIssue (s : State) (o : CopyOps) (srcs : List Reg) (f : List Word → Except TrapInfo CopyReq) : Res :=
  s.issue .aOnly 2 <| s.operands srcs [] fun v s1 =>
    match f v with
    | .error t => s.trap t
    | .ok r => s.postCopy s1 o r

def State.badForm (s : State) : TrapInfo := .plain illegalInstruction s.insWord
/-- Largest counted length (R243). -/
def maxCounted : Nat := 2 ^ 39 - 1

/-- The end of the checks: check 5, then the request. -/
def State.windowsThen (s : State) (r : CopyReq) (acc : Acc) : Except TrapInfo CopyReq :=
  match s.windowsBad r.reads r.writes acc with
  | some t => .error t
  | none => .ok r

/-- The VD's endpoint e is configured (R281). -/
def State.endpointOk (s : State) (e : BitVec 8) : Bool :=
  match s.vd? with
  | some v => (v.epConfig e).isSome
  | none => false

/-- cpy (R247). -/
def State.cpyReq (s : State) (lk : Bool) (a b d : Nat) : Except TrapInfo CopyReq :=
  if lk then
    if 256 ≤ d ∨ b = 0 ∨ 65536 < b then .error s.badForm
    else match s.windowBad a b .read with
      | some t => .error t
      | none =>
        if s.endpointOk (BitVec.ofNat 8 d) then
          .ok { kind := .cpy (some (BitVec.ofNat 8 d)), dst := 0, src := a, len := b, counted := b, more := false, got := []
                reads := [(a, b)], writes := [] }
        else .error (.plain protection s.insWord)
  else if maxCounted < b then .error s.badForm
  else s.windowsThen { kind := .cpy none, dst := d, src := a, len := b, counted := b, more := false, got := []
                       reads := [(a, b)], writes := [(d, b)] } .write

/-- The smallest range over the rows of a strided source (R248). -/
def stridedSpan (a rows rby : Nat) (stride : Int) : Nat × Nat :=
  if rows = 0 then (a, 0)
  else
    let last := (a : Int) + (rows - 1 : Nat) * stride
    let lo := min (a : Int) last
    (lo.toNat, ((max (a : Int) last) + rby - lo).toNat)

/-- The rows of a strided side of a command, each with its bytes: the first row at `a`, the others `stride` on. -/
def stridedRows (a rows rby : Nat) (stride : Int) : List (Nat × Nat) :=
  (List.range rows).map fun k => ((wordOf ((a : Int) + k * stride)).toNat, rby)

/-- cpys (R248). Check 5 is made on the rows; the interlock entries are the smallest ranges over them (R242). -/
def State.cpysReq (s : State) (rby : Nat) (a b c d : Nat) : Except TrapInfo CopyReq :=
  let ss := signed 32 c
  let ds := c / 2 ^ 32
  let rows := b / rby
  if maxCounted < b ∨ rby = 0 ∨ b % rby ≠ 0 ∨ ds < rby then .error s.badForm
  else match s.windowsBad (stridedRows a rows rby ss) ((List.range rows).map fun k => (d + k * ds, rby)) .write with
    | some t => .error t
    | none => .ok
      { kind := .cpys rby ss ds, dst := d, src := a, len := b, counted := b, more := false, got := []
        reads := [stridedSpan a rows rby ss], writes := [(d, if rows = 0 then 0 else (rows - 1) * ds + rby)] }

/-- Rows of scales of `blocks` blocks, and the bytes of their tiles. -/
def scaleSpan (blocks kb : Nat) : Nat := if kb = 0 then 0 else ceilDiv (blocks / kb) 32 * scaleStride kb

/-- cpyt (R249, R250). -/
def State.cpytReq (s : State) (x t : Bool) (dq xf pw kb a b c d : Nat) : Except TrapInfo CopyReq :=
  let n := cpytCount t dq xf pw b
  let off := d - laneBase
  let unit := cpytUnit t dq xf
  let scales := if dq = 2 then [(c, scaleSpan (n / 32) kb)] else []
  let r : CopyReq :=
    { kind := .cpyt x t dq xf pw kb c, dst := d, src := a, len := b, counted := b, more := false, got := []
      reads := (a, b) :: scales, writes := [(d, n * unit)] }
  if t && dq = 0 && 16 ≤ pw && inLane d && off / 16384 % 2 = 1 then .error s.badForm
  else if maxCounted < b || (x && b % 256 ≠ 0) || (t && dq = 0 && b % contOf pw ≠ 0) || (dq = 1 && b % blockBytes xf ≠ 0)
      || (dq = 2 && b % (blockBytes xf * kb) ≠ 0) then .error s.badForm
  else if x && a % 256 ≠ 0 then .error (.addr misaligned (va64 a) .read)
  else if t && inLane d && off % 64 ≠ 0 then .error (.addr misaligned (va64 d) .write)
  else if !t && d % unit ≠ 0 then .error (.addr misaligned (va64 d) .write)
  else if dq = 2 ∧ c % 1024 ≠ 0 then .error (.plain scaleLayout (va64 c))
  else if t then
    match s.windowsBad r.reads [] .read with
    | some e => .error e
    | none =>
      if !inLane d then .error (.addr protection (va64 d) .write)
      else if n ≠ 0 ∧ s.lanes < off % 16384 + n then
        .error (.addr protection (va64 (max d (d - off % 16384 + s.lanes))) .write)
      else .ok r
  else s.windowsThen r .write

def redNone (red : CopyRed) : Bool := red == .none

/-- cpyo (R251 to R253). -/
def State.cpyoReq (s : State) (z q : Bool) (red : CopyRed) (xf kb a b c d : Nat) : Except TrapInfo CopyReq :=
  let codes := b / 128 * blockBytes xf
  let writes := if q then [(d, codes), (c, scaleSpan (b / 128) kb)] else [(d, b)]
  let r : CopyReq :=
    { kind := .cpyo z q red xf kb c, dst := d, src := a, len := b, counted := b, more := false, got := []
      reads := [(a, b)], writes := writes }
  if maxCounted < b || (q && b % (128 * kb) ≠ 0) || (z && (if q then codes else b) % 256 ≠ 0) || (!redNone red && b % 4 ≠ 0) then
    .error s.badForm
  else if (z && !q && a % 256 ≠ 0) || (!redNone red && a % 4 ≠ 0) then .error (.addr misaligned (va64 a) .read)
  else if (z && d % 256 ≠ 0) || (!redNone red && d % 4 ≠ 0) then
    .error (.addr misaligned (va64 d) (if redNone red then .write else .atomic))
  else if q ∧ c % 1024 ≠ 0 then .error (.plain scaleLayout (va64 c))
  else if redNone red then s.windowsThen r .write
  else match s.windowsBad r.reads [] .read with
    | some e => .error e
    | none =>
      if inLocal d || (laneBase ≤ d && !inLane d && decide (d < localBase ∧ localBase < d + b)) then
        .error (.addr protection (va64 (max d localBase)) .atomic)
      else s.windowsThen { r with reads := [] } .atomic |>.map fun _ => r

/-- Rows that range j of list entries delivers (R255). -/
def rangeRows (p : List Nat) (j : Nat) : Nat := p.getD (j + 1) 0 - p.getD j 0

/-- cpyg (R254, R255). -/
def State.cpygReq (s : State) (n : Nat) (qm rng iw : Bool) (fill : Byte) (sw : Bool) (srow : Nat) (a b c d : Nat) (vs : List Word) :
    Except TrapInfo CopyReq :=
  let rb := c % 65536
  let pitch := c / 65536 % 65536 * 16
  let rc := c / 2 ^ 32
  let eb := if iw then 8 else 4
  let ents := n + boolNat rng
  let got := if qm then vs.map (fun v => v.toNat % 2 ^ (8 * eb)) else []
  let rows := if !rng then n else if qm then ((List.range n).map (rangeRows got)).sum else if rb = 0 then 0 else maxCounted / rb
  let span := if rows = 0 then 0 else (rows - 1) * pitch + rb
  let r : CopyReq :=
    { kind := .cpyg n (if qm then none else some b) rng iw fill sw srow rb pitch rc, dst := d, src := a, len := 0
      counted := if rng && !qm then 0 else rows * rb, more := rng && !qm, got := got
      reads := (if qm then [] else [(b, ents * eb)]) ++ [(a, rc * rb)], writes := [(d, span)] }
  if rb = 0 || decide (pitch < rb) || (sw && (rb % 256 ≠ 0 || decide (4096 < rb))) || decide (maxCounted < rows * rb) then .error s.badForm
  else if !qm && b % eb ≠ 0 then .error (.addr misaligned (va64 b) .read)
  -- the destination is checked row by row; rows that the list has still to give are checked at delivery
  else s.windowsThen { r with writes := if rng && !qm then [(d, 0)] else (List.range rows).map fun t => (d + t * pitch, rb) } .write
    |>.map fun _ => r

def execCpy (o : CopyOps) (lk : Bool) (s : State) : Res :=
  s.copyIssue o [o.a, o.b, o.d] fun v => s.cpyReq lk (nth v 0).toNat (nth v 1).toNat (nth v 2).toNat

def execCpys (o : CopyOps) (rby : BitVec 16) (c : Reg) (s : State) : Res :=
  s.copyIssue o [o.a, o.b, c, o.d] fun v => s.cpysReq rby.toNat (nth v 0).toNat (nth v 1).toNat (nth v 2).toNat (nth v 3).toNat

def execCpyt (o : CopyOps) (x t : Bool) (dq : BitVec 2) (xf : BitVec 3) (pw : BitVec 5) (kb : BitVec 11) (c : Reg) (s : State) : Res :=
  let useC := dq = 2
  s.copyIssue o ([o.a, o.b] ++ (if useC then [c] else []) ++ [o.d]) fun v =>
    s.cpytReq x t dq.toNat xf.toNat pw.toNat kb.toNat (nth v 0).toNat (nth v 1).toNat (if useC then (nth v 2).toNat else 0)
      (v.getLastD 0).toNat

def execCpyo (o : CopyOps) (z q : Bool) (red : CopyRed) (xf : BitVec 3) (kb : BitVec 11) (c : Reg) (s : State) : Res :=
  s.copyIssue o ([o.a, o.b] ++ (if q then [c] else []) ++ [o.d]) fun v =>
    s.cpyoReq z q red xf.toNat kb.toNat (nth v 0).toNat (nth v 1).toNat (if q then (nth v 2).toNat else 0) (v.getLastD 0).toNat

/-- With QM = 1 the entries are popped from the queue that B names, n or n + 1 of them (R254). -/
def execCpyg (o : CopyOps) (nm : BitVec 3) (qm rng iw : Bool) (fill : Byte) (sw : Bool) (srow : BitVec 4) (c : Reg) (s : State) : Res :=
  let n := nm.toNat + 1
  let pops := if qm then n + boolNat rng else 1
  s.copyIssue o ([o.a] ++ List.replicate pops o.b ++ [c, o.d]) fun v =>
    s.cpygReq n qm rng iw fill sw srow.toNat (nth v 0).toNat (nth v 1).toNat (nth v (pops + 1)).toNat (nth v (pops + 2)).toNat
      ((v.drop 1).take pops)

-- Chunks (R259, R424)

/-- The part of a command that one chunk delivers: destination addresses, and the ranges it touches by kind. -/
structure Plan where
  n : Nat
  srcs : List Range
  scaleReads : List Range
  scaleWrites : List Range
  dsts : List Range
  acc : Acc

/-- Addresses from position `pos` that lie in one naturally aligned 4 KiB range (R259). -/
def CopyCmd.chunkLen (c : CopyCmd) : Nat :=
  match c.kind with
  | .cpys _ _ _ =>
    ((List.range' c.pos (min 4096 (c.total - c.pos))).takeWhile fun p => c.at p / 4096 = c.at c.pos / 4096).length
  | _ => min (c.total - c.pos) (4096 - c.at c.pos % 4096)

/-- Source bytes, after any expansion, that positions p to p + n of a cpyt need: first offset and end. -/
def cpytBytes (t : Bool) (dq xf pw p n : Nat) : Nat × Nat :=
  if dq = 0 then (if t then (p * contOf pw, (p + n) * contOf pw) else (p, p + n))
  else
    let u := cpytUnit t dq xf
    (p / u * mxWidth xf / 8, ceilDiv (ceilDiv (p + n) u * mxWidth xf) 8)

/-- The blocks that positions p to p + n of a sequence with `per` positions a block touch. -/
def blocksOf (per p n : Nat) : List Nat := if n = 0 then [] else List.range' (p / per) ((p + n - 1) / per + 1 - p / per)

/-- The scale byte of a block of a command (R65, R250, R253). -/
def scaleVa (base kb blk : Nat) : Nat := scaleAt base (scaleStride kb) (blk / kb) (blk % kb)

/-- Padding bytes of the tiles of row group g (R65). -/
def paddingVas (base kb rows g : Nat) : List Nat :=
  (List.range 32).flatMap fun i =>
    (List.range (ceilDiv kb 32 * 32)).filterMap fun k =>
      if rows ≤ 32 * g + i ∨ kb ≤ k then some (scaleAt base (scaleStride kb) (32 * g + i) k) else none

/-- Blocks of a quantising cpyo whose last code byte lies in positions p to p + n. -/
def endingBlocks (bb p n : Nat) : List Nat := (blocksOf bb p n).filter fun k => (k + 1) * bb ≤ p + n

/-- The scales that a chunk writes, with the padding of each row group whose last scale is among them (R253), ascending. -/
def scalesOf (base kb blocks : Nat) (ending : List Nat) (val : Nat → Byte) : List (Nat × Byte) :=
  let rows := blocks / kb
  sortBy (fun x y => x.1 ≤ y.1) <| ending.flatMap fun k =>
    (scaleVa base kb k, val k) ::
      (if k % kb = kb - 1 ∧ (k / kb % 32 = 31 ∨ k / kb + 1 = rows) then (paddingVas base kb rows (k / kb / 32)).map fun a => (a, 0x7F)
       else [])

/-- The plan of the next chunk of a command other than cpyg and linked cpy. -/
def CopyCmd.plan (c : CopyCmd) : Plan :=
  let n := c.chunkLen
  let none_ : Plan := { n := n, srcs := [], scaleReads := [], scaleWrites := [], dsts := [⟨c.dst + c.pos, n, false⟩], acc := .write }
  match c.kind with
  | .cpy _ => { none_ with srcs := [⟨c.src + c.pos, n, false⟩] }
  | .cpys rby ss _ =>
    let parts := (blocksOf rby c.pos n).map fun r =>
      let lo := max c.pos (r * rby)
      (r, lo - r * rby, min (c.pos + n) ((r + 1) * rby) - lo)
    { none_ with
      srcs := parts.map fun x => ⟨(wordOf ((c.src : Int) + x.1 * ss)).toNat + x.2.1, x.2.2, false⟩
      dsts := parts.map fun x => ⟨c.at (x.1 * rby + x.2.1), x.2.2, false⟩ }
  | .cpyt x t dq xf pw kb scale =>
    let b := cpytBytes t dq xf pw c.pos n
    let src : Range := if x then ⟨c.src + b.1 / 256 * 256, ceilDiv b.2 256 * 256 - b.1 / 256 * 256, true⟩ else ⟨c.src + b.1, b.2 - b.1, false⟩
    { none_ with
      srcs := [src]
      scaleReads := if dq = 2 then (blocksOf 128 c.pos n).map fun k => ⟨scaleVa scale kb k, 1, false⟩ else [] }
  | .cpyo z q red xf kb scale =>
    if q then
      let bb := blockBytes xf
      let bs := blocksOf bb c.pos n
      { none_ with
        srcs := [⟨c.src + bs.headD 0 * 128, bs.length * 128, false⟩]
        scaleWrites := (scalesOf scale kb (c.len / 128) (endingBlocks bb c.pos n) fun _ => 0).map fun x => ⟨x.1, 1, false⟩
        dsts := [⟨c.dst + c.pos, n, z⟩] }
    else { none_ with srcs := [⟨c.src + c.pos, n, false⟩], dsts := [⟨c.dst + c.pos, n, z⟩], acc := if redNone red then .write else .atomic }
  | .cpyg .. => none_

/-- The check of a chunk: source pages, scale pages, destination pages (R259, R424). -/
def State.checkPlan (s : State) (p : Plan) (user : Bool) (m : List (Nat × PageTo)) : Except TrapInfo (List (Nat × PageTo) × State) :=
  match s.checkRanges p.srcs .read user m with
  | .error t => .error t
  | .ok (m1, s1) =>
    match s1.checkRanges p.scaleReads .read user m1 with
    | .error t => .error t
    | .ok (m2, s2) =>
      match s2.checkRanges p.scaleWrites .write user m2 with
      | .error t => .error t
      | .ok (m3, s3) => s3.checkRanges p.dsts p.acc user m3

-- What a chunk computes

/-- A byte of ZB data: byte `i` of the block in the slot at `slot` (R257). -/
def expandByte (rd : Nat → Byte) (raw : Bool) (slot i : Nat) : Byte :=
  if raw then rd (slot + i)
  else
    let map := ofLe [rd slot, rd (slot + 1), rd (slot + 2), rd (slot + 3)]
    if map.testBit (i / 8) then
      let at_ := 4 + 8 * popCount map (i / 8) + i % 8
      if at_ < 256 then rd (slot + at_) else Config.zbOverrun (slot + at_)
    else 0

/-- Bytes as 8-byte words. -/
def words8 : Nat → List Byte → List (List Byte)
  | 0, _ => []
  | n + 1, bs => bs.take 8 :: words8 n (bs.drop 8)

/-- Compresses a block of 256 bytes: the slot, and whether its raw mark is set (R257). -/
def compress (bs : List Byte) : List Byte × Bool :=
  let ws := words8 32 bs
  if ws.all (fun w : List Byte => w.any (· ≠ 0)) then (bs, true)
  else
    let map := ws.zipIdx.foldl (fun m x => m + boolNat (x.1.any (· ≠ 0)) * 2 ^ x.2) 0
    ((leBytes 4 map ++ (ws.filter (fun w : List Byte => w.any (· ≠ 0))).flatten ++ List.replicate 256 0).take 256, false)

/-- Code p of a packed sequence of codes of width w (R61). -/
def codeAt (rd : Nat → Byte) (w p : Nat) : Nat := ofLe [rd (p * w / 8), rd (p * w / 8 + 1)] / 2 ^ (p * w % 8) % 2 ^ w

/-- op of a reduction on 32-bit patterns (R252). -/
def redWord (red : CopyRed) (x y : Nat) : Nat :=
  let f (g : Fv → Fv → Fv) : Nat := fpEncode .f32 .rne false (g (fpDecode .f32 false x) (fpDecode .f32 false y))
  match red with
  | .none => y
  | .addi => (x + y) % 2 ^ 32
  | .maxi => if signed 32 x < signed 32 y then y else x
  | .mini => if signed 32 y < signed 32 x then y else x
  | .addf => f (Fv.add .rne)
  | .maxf => f (Fv.minMax true)
  | .minf => f (Fv.minMax false)

/-- What a chunk writes: bytes by address, elements of the lane store, raw marks by physical slot. -/
structure ChunkOut where
  bytes : List (Nat × Byte)
  lanes : List (Nat × Nat)
  raws : List (Nat × Bool)

/-- Quantises block k of FP32 source values (R67, R253). -/
def quantBlock (rd : Nat → Byte) (xf k : Nat) : Nat × List Byte :=
  let q := mxQuant xf ((List.range 32).map fun e => fpDecode .f32 false (ofLe ((List.range 4).map fun i => rd (k * 128 + e * 4 + i))))
  (q.1, leBytes (blockBytes xf) (packCodes (mxWidth xf) q.2))

/-- The result of the chunk that `p` plans; `rd` reads a source byte by address, `rdHome` a destination byte. -/
def CopyCmd.compute (c : CopyCmd) (p : Plan) (rd : Nat → Byte) (raw : Nat → Bool) (phys : Nat → Option Nat) : ChunkOut :=
  let ps := List.range' c.pos p.n
  match c.kind with
  | .cpy _ => { bytes := ps.map (fun i => (c.dst + i, rd (c.src + i))), lanes := [], raws := [] }
  | .cpys rby ss _ =>
    { bytes := ps.map (fun i => (c.at i, rd ((wordOf ((c.src : Int) + (i / rby : Nat) * ss)).toNat + i % rby))), lanes := [], raws := [] }
  | .cpyt x t dq xf pw kb scale =>
    let sb (i : Nat) : Byte := if x then expandByte rd (raw (c.src + i / 256 * 256)) (c.src + i / 256 * 256) (i % 256) else rd (c.src + i)
    let num (e : Nat) : Nat :=
      if dq = 0 then ofLe ((List.range (contOf pw)).map fun i => sb (e * contOf pw + i))
      else pat 32 (mxExpand xf (codeAt sb (mxWidth xf) e))
    if t then
      let off := c.dst - laneBase
      let width := if dq = 0 then pw + 1 else mxExp xf
      { bytes := [], raws := [], lanes := ps.map fun e => (off % 16384 + e, num e % 2 ^ width) }
    else
      let u := cpytUnit t dq xf
      let byte (i : Nat) : Byte :=
        if dq = 0 then sb i
        else if dq = 1 then (leBytes u (num (i / u))).getD (i % u) 0
        else (leBytes 4 (mxDequant false xf (rd (scaleVa scale kb (i / 128))).toNat (codeAt sb (mxWidth xf) (i / 4)))).getD (i % 4) 0
      { bytes := ps.map (fun i => (c.dst + i, byte i)), lanes := [], raws := [] }
  | .cpyo z q red xf kb scale =>
    let sb (i : Nat) : Byte := rd (c.src + i)
    let bb := blockBytes xf
    let bs := blocksOf bb c.pos p.n
    let codes : List Byte :=
      if q then ((bs.flatMap fun k => (quantBlock sb xf k).2).drop (c.pos - bs.headD 0 * bb)).take p.n
      else if redNone red then ps.map sb
      else (List.range (p.n / 4)).flatMap fun w =>
        let word (a : Nat) : Nat := ofLe ((List.range 4).map fun i => rd (a + i))
        leBytes 4 (redWord red (word (c.dst + c.pos + 4 * w)) (word (c.src + c.pos + 4 * w)))
    let scales := if q then scalesOf scale kb (c.len / 128) (endingBlocks bb c.pos p.n) (fun k => BitVec.ofNat 8 (quantBlock sb xf k).1) else []
    let slots := if z then (List.range (p.n / 256)).map fun k => compress ((codes.drop (256 * k)).take 256) else []
    let body := if z then (slots.map (·.1)).flatten else codes
    { bytes := body.zipIdx.map (fun x => (c.dst + c.pos + x.2, x.1)) ++ scales, lanes := []
      raws := slots.zipIdx.filterMap fun x => (phys (c.dst + c.pos + 256 * x.2)).map fun pa => (pa / 256, x.1.2) }
  | .cpyg .. => { bytes := [], lanes := [], raws := [] }

/-- Sets or clears a raw mark in the ascending list of marked slots. -/
def setRaw (l : List Nat) (x : Nat × Bool) : List Nat :=
  let rest := l.filter (fun y => y ≠ x.1)
  if x.2 then insertBy (fun a b => a ≤ b) x.1 rest else rest

/-- A delivered run that covers whole lines clears their poison (R145, R244). -/
def State.clearRun (s : State) (m : List (Nat × PageTo)) (r : Nat × List Byte) : State :=
  match physAt m r.1 with
  | some pa => if inLocal r.1 then s else s.clearWhole pa r.2.length
  | none => s

/-- Writes the bytes that a chunk computed. `granules`: the delivery is single-copy atomic per 8 bytes (R331). -/
def State.writeChunk (s : State) (m : List (Nat × PageTo)) (granules : Bool) (o : ChunkOut) : State :=
  let s1 := (runs o.bytes).foldl (fun s r => (s.writeRun m granules r).clearRun m r) s
  { s1 with raw := o.raws.foldl setRaw s1.raw }

-- Channels

def State.chan (s : State) (i : BitVec 3) : Channel := s.core.chans[i.toNat]
def State.setChan (s : State) (i : BitVec 3) (c : Channel) : State := { s with core := { s.core with chans := s.core.chans.set i.toNat c } }

/-- A channel fault waits for the A-stream of the hart in focus (R260, R342). -/
def State.pendFault (s : State) (t : TrapInfo) : State :=
  if s.isE then { s with peer := { s.peer with faults := s.peer.faults ++ [t] } }
  else { s with me := { s.me with faults := s.me.faults ++ [t] } }

/-- The chunk failed its check: the channel stops at the chunk's first address (R260). -/
def State.chunkFault (s : State) (i : BitVec 3) (first : Word) (t : TrapInfo) : State :=
  let t1 := { t with ef := true, ech := i }
  (s.setChan i { s.chan i with cpwp := first, flt := true, fltCause := t.cause, fltAddr := t.tval }).pendFault t1

/-- The command's interlock entries are released (R242). -/
def State.dropCmd (s : State) (id : Nat) : State := s.dropIlocks (fun e => e.owner = .cmd id)

/-- The abandonment record (R265). -/
def Channel.abandon (ch : Channel) (c : CopyCmd) : Channel :=
  let left := BitVec.ofNat 40 (c.counted - c.credited)
  { ch with
    queue := ch.queue.drop 1
    abt := some (match ch.abt with
      | none => ⟨c.phase, c.tb, left⟩
      | some r => if r.tb = c.tb ∧ r.phase = c.phase then { r with bytes := r.bytes + left } else r) }

/-- The vector register and width that a transpose writes (R249). -/
def CopyCmd.planes (c : CopyCmd) : Option (Reg × Nat) :=
  match c.kind with
  | .cpyt _ true dq xf pw _ _ => some (BitVec.ofNat 5 ((c.dst - laneBase) / 16384), if dq = 0 then pw + 1 else mxExp xf)
  | _ => none

/-- The elements of a transpose's chunk enter their plane rows (R249). -/
def State.putSlices (s : State) (c : CopyCmd) (xs : List (Nat × Nat)) : State :=
  match c.planes with
  | some (r, w) => { s with hart := s.hart.putElems r w xs }
  | none => s

/-- The rows that a transpose begins to write are set aside for the lane-array instructions that read them until it ends (R179). -/
def CopyCmd.setAside (c : CopyCmd) (h : Hart) : Option Shadow :=
  match c.before, c.planes with
  | some x, _ => some x
  | none, some (r, w) =>
    some { lanes := Nat.shiftLeft (2 ^ c.total - 1) ((c.dst - laneBase) % 16384)
           rows := (List.range' (16 * r.toNat) w).map fun i => (i, h.row i) }
  | none, none => none

/-- The command is abandoned (R262, R433); its barrier is judged again, since no more of its bytes will come (R165). -/
def State.abandonCmd (s : State) (i : BitVec 3) (c : CopyCmd) (t : TrapInfo) : State :=
  let s1 := ((s.setChan i ((s.chan i).abandon c)).dropCmd c.id).pendFault { t with ef := true, ech := i }
  s1.mapBar c.tb id

/-- A byte that the chunk reads has an uncorrectable error: the VD is told, of a scratchpad byte with its local-window address (R262, R409,
log 67). -/
def State.poisonCmd (s : State) (i : BitVec 3) (c : CopyCmd) (va : Nat) (pa : Option Nat) : State :=
  (match pa with | some x => s.reportPoison x | none => s.event s.hart.vd.toNat 8 0 (va64 va)).abandonCmd i c (.addr memoryError (va64 va) .read)

/-- The first byte of ranges of a chunk that has an uncorrectable error: its virtual address, and its physical one in memory. -/
def State.rangesBad (s : State) (m : List (Nat × PageTo)) (rs : List Range) : Option (Nat × Option Nat) :=
  match s.scratchPoison rs with
  | some a => some (a, none)
  | none => (s.rangesPoison m rs).map fun x => (x.1, some x.2)

/-- The lines that a channel's chunk waits for, and when it came to the homes: at its first retry, or now (R333, log 48). -/
def State.chanAsk (s : State) (i : BitVec 3) : List Nat × Nat := (s.chan i).pinWait.getD ([], s.stamp)

/-- The channel waits for a line whose home answers with a retry, beside those it waits for already: `ask` (R333, R337). -/
def State.chanWaits (s : State) (i : BitVec 3) (ask : List Nat × Nat) (line : Nat) : State :=
  { (s.setChan i { s.chan i with pinWait := some (addLine ask.1 line, ask.2) }).markRetried line with stamp := s.stamp + 1 }

/-- After a chunk: the command goes on, or leaves its queue; then the barrier is credited (R164, R422). -/
def State.chunkDone (s : State) (i : BitVec 3) (c : CopyCmd) (cpwp : Word) (bytes : Nat) (last : Bool) : State :=
  let ch := s.chan i
  let s1 := if last then (s.setChan i { ch with queue := ch.queue.drop 1, cpwp := cpwp }).dropCmd c.id
    else s.setChan i { ch with queue := { c with credited := c.credited + bytes } :: ch.queue.drop 1, cpwp := cpwp }
  s1.credit c.tb c.phase bytes

/-- Source and destination are 8-aligned, in every row, and nothing transforms the bytes (R331); a swizzle counts as a transform (log 68). -/
def CopyCmd.granules (c : CopyCmd) : Bool :=
  c.src % 8 == 0 && c.dst % 8 == 0 &&
  match c.kind with
  | .cpy none => true
  | .cpy (some _) => false
  | .cpys rby ss ds => rby % 8 == 0 && ss % 8 == 0 && ds % 8 == 0
  | .cpyt x t dq _ _ _ _ => !x && !t && dq == 0
  | .cpyo z q red _ _ _ => !z && !q && redNone red
  | .cpyg _ _ _ _ _ sw _ rb _ _ => !sw && rb % 8 == 0

/-- The entry of an index list is released once no entry of the list is left to read; an entry of the table, alike though it may be, stays
(R46, R242). -/
def State.dropList (s : State) (c : CopyCmd) (lo len : Nat) : State :=
  { s with hart := { s.hart with ilocks := s.hart.ilocks.erase ⟨.cmd c.id, lo, len, false⟩ } }

/-- An entry that the walks of a chunk's pages read must be waited for. -/
def State.planWalks (s : State) (arrival : Nat) (p : Plan) (user : Bool) : Option Nat :=
  match s.rangesWalkWait arrival (p.srcs ++ p.scaleReads) .read user with
  | some l => some l
  | none =>
    match s.rangesWalkWait arrival p.scaleWrites .write user with
    | some l => some l
    | none => s.rangesWalkWait arrival p.dsts p.acc user

/-- The next chunk of a command other than cpyg and linked cpy. -/
def State.plainChunk (s : State) (i : BitVec 3) (ask : List Nat × Nat) (c : CopyCmd) : State :=
  let p := c.plan
  if p.n = 0 then s.chunkDone i c (va64 c.dst) (c.counted - c.credited) true
  else
    let first := va64 (c.at c.pos)
    match s.planWalks ask.2 p c.user with
    | some line => s.chanWaits i ask line
    | none =>
      match s.checkPlan p c.user [] with
      | .error t => s.chunkFault i first t
      | .ok (m, s1) =>
        match s1.rangesPinned ask.2 m (p.srcs ++ p.scaleReads ++ p.scaleWrites ++ p.dsts) with
        | some line => s1.chanWaits i ask line
        | none =>
          let reads := p.srcs ++ p.scaleReads ++ (if p.acc = .atomic then p.dsts else [])
          let s2 := s1.rangesHome m (p.srcs ++ p.scaleReads ++ p.scaleWrites ++ p.dsts)
          match s2.rangesBad m reads with
          | some x => s2.poisonCmd i c x.1 x.2
          | none =>
            let raw (a : Nat) : Bool := match physAt m a with | some pa => s2.raw.contains (pa / 256) | none => false
            let o := c.compute p (s2.longByte m c.granules) raw (physAt m)
            let s3 := (s2.writeChunk m c.granules o).putSlices c o.lanes
            let q := c.pos + p.n
            let last := decide (c.total ≤ q)
            let bytes := (if last then c.counted else c.creditAt q) - c.credited
            s3.chunkDone i { c with pos := q, before := c.setAside s2.hart } (va64 (c.at (q - 1) + 1)) bytes last

-- cpyg (R255, R256, R433)

/-- The fields of a gather. -/
structure Gather where
  n : Nat
  list : Option Nat
  rng : Bool
  iw : Bool
  fill : Byte
  sw : Bool
  srow : Nat
  rb : Nat
  pitch : Nat
  rc : Nat

def Gather.entBytes (g : Gather) : Nat := if g.iw then 8 else 4

/-- A part of one row that a chunk writes: its first destination, its row's source if it is no fill row, first byte and bytes in
the row, and the row's number t. -/
structure Piece where
  dst : Nat
  src : Option Nat
  ofs : Nat
  len : Nat
  t : Nat

/-- Why the scan of rows for a chunk stops early. -/
inductive GStop where
  | fault (t : TrapInfo)
  | pinned (line : Nat)
  | poison (va : Nat) (pa : Option Nat)
  | limit (va : Nat)

/-- The scan of the list and rows of one chunk. -/
structure GScan where
  st : State
  m : List (Nat × PageTo)
  c : CopyCmd
  pieces : List Piece
  oob : Option (Word × Nat)
  rperr : Option Nat
  stop : Option GStop

/-- Brings list entry k, reading it as part of this chunk if it has not been read (R433). -/
def GScan.entry (x : GScan) (arrival : Nat) (g : Gather) (k : Nat) : GScan :=
  if k < x.c.got.length then x
  else match g.list with
    | none => x
    | some b =>
      let eb := g.entBytes
      let r : Range := ⟨b + k * eb, eb, false⟩
      match x.st.rangesWalkWait arrival [r] .read x.c.user with
      | some l => { x with stop := some (.pinned l) }
      | none =>
        match x.st.checkRanges [r] .read x.c.user x.m with
        | .error t => { x with stop := some (.fault t) }
        | .ok (m, s1) =>
          match s1.rangesPinned arrival m [r] with
          | some l => { x with st := s1, m := m, stop := some (.pinned l) }
          | none =>
            let s2 := s1.rangesHome m [r]
            match s2.rangesBad m [r] with
            | some p => { x with st := s2, m := m, stop := some (.poison p.1 p.2) }
            | none =>
              let v := ofLe ((List.range eb).map fun i => s2.longByte m (g.iw && b % 8 == 0) (r.lo + i))
              { x with st := s2, m := m, c := { x.c with got := x.c.got ++ [v] } }

/-- The destination address of the next byte. -/
def Gather.next (g : Gather) (c : CopyCmd) : Nat := c.dst + c.gt * g.pitch + c.pos

/-- Adds the part of the row with table index v that lies below `top`. -/
def GScan.row (x : GScan) (g : Gather) (v rows top : Nat) : GScan :=
  let c := x.c
  let a := g.next c
  let len := min (g.rb - c.pos) (top - a)
  let fill := decide (g.rc ≤ v)
  let p : Piece := { dst := a, src := if fill then none else some (c.src + v * g.rb), ofs := c.pos, len := len, t := c.gt }
  let ended := decide (g.rb ≤ c.pos + len)
  let c1 := if ended then
      (if c.gx + 1 < rows then { c with pos := 0, gt := c.gt + 1, gx := c.gx + 1 }
       else { c with pos := 0, gt := c.gt + 1, gx := 0, gj := c.gj + 1 })
    else { c with pos := c.pos + len }
  { x with c := c1, pieces := x.pieces ++ [p], oob := if fill && x.oob.isNone then some (va64 v, c.gt) else x.oob }

/-- One move of the scan: past an empty range, or one part of a row. -/
def GScan.move (x : GScan) (arrival : Nat) (g : Gather) (top : Nat) : GScan :=
  let c := x.c
  let x1 := x.entry arrival g c.gj
  if x1.stop.isSome then x1
  else if !g.rng then x1.row g (x1.c.got.getD c.gj 0) 1 top
  else
    let x2 := x1.entry arrival g (c.gj + 1)
    if x2.stop.isSome then x2
    else
      let p := x2.c.got.getD c.gj 0
      let rows := rangeRows x2.c.got c.gj
      if rows = 0 then
        { x2 with c := { x2.c with gj := c.gj + 1 }, rperr := match x2.rperr with | some j => some j | none => some c.gj }
      else
        let fresh := g.list.isSome && c.gx = 0 && c.pos = 0
        if fresh && decide (maxCounted < x2.c.counted + rows * g.rb) then
          { x2 with stop := some (.limit ((g.list.getD 0) + (c.gj + 1) * g.entBytes)) }
        else
          let c1 := if fresh then { x2.c with counted := x2.c.counted + rows * g.rb } else x2.c
          GScan.row { x2 with c := c1 } g (p + c.gx) rows top

/-- The next range is known to be empty: its entries have been read, and it determines no row. -/
def Gather.knownEmpty (g : Gather) (c : CopyCmd) : Bool :=
  g.rng && decide (c.gj + 1 < c.got.length) && c.gx == 0 && c.pos == 0 && rangeRows c.got c.gj == 0

/-- Scans while rows may begin or go on below `top`, and past ranges that are known to be empty. -/
def GScan.run (arrival : Nat) (g : Gather) (top : Nat) : Nat → GScan → GScan
  | 0, x => x
  | n + 1, x =>
    if x.stop.isSome || decide (g.n ≤ x.c.gj) || (decide (top ≤ g.next x.c) && !g.knownEmpty x.c) then x
    else GScan.run arrival g top n (x.move arrival g top)

/-- The source byte of byte `i` of a row: with SW, 16-byte chunk c goes to chunk c xor (SROW + t) mod 16 (R255). -/
def Gather.swz (g : Gather) (t i : Nat) : Nat := if g.sw then Nat.xor (i / 16) ((g.srow + t) % 16) * 16 + i % 16 else i

/-- The source ranges of a part of a row whose row begins at `a`: with SW, one for each 16-byte chunk (R255, R424). -/
def Gather.ranges (g : Gather) (p : Piece) (a : Nat) : List Range :=
  if g.sw then (blocksOf 16 p.ofs p.len).map fun q =>
    let lo := max p.ofs (16 * q)
    ⟨a + g.swz p.t lo, min (p.ofs + p.len) (16 * q + 16) - lo, false⟩
  else [⟨a + p.ofs, p.len, false⟩]

/-- One past the last byte that CPWP may name: with SW, the end of the last whole row (R255). -/
def Gather.pointer (g : Gather) (c : CopyCmd) (old : Word) : Word :=
  if g.sw || c.pos = 0 then (if c.gt = 0 then old else va64 (c.dst + (c.gt - 1) * g.pitch + g.rb)) else va64 (g.next c)

/-- CPWP at a fault: the chunk's first address; where no row of the chunk is known yet, and with SW, whose chunks CPWP passes only at the end
of a row, where it stands (R255, R260, R433, log 69). -/
def Gather.faultAt (g : Gather) (c : CopyCmd) (old : Word) : Word :=
  if g.sw then old else if g.rng && c.gx = 0 && c.pos = 0 then g.pointer c old else va64 (g.next c)

/-- Counted bytes that are credited after a chunk. While entries that may determine no row are still to be read, the last row's bytes are held
back, so that the command has left its queue before its last counted bytes are credited (R422, R433, log 70). -/
def Gather.creditTo (g : Gather) (c : CopyCmd) : Nat :=
  if g.rng && g.list.isSome && decide (c.gj < g.n) && c.gx = 0 && c.pos = 0 then (c.gt - 1) * g.rb else c.gt * g.rb + c.pos

/-- The next chunk of a cpyg. What the scan of a chunk that is abandoned met of OOB and RPERR is not recorded (log 94). -/
def State.gatherChunk (s : State) (i : BitVec 3) (ask : List Nat × Nat) (c : CopyCmd) (g : Gather) : State :=
  let ch := s.chan i
  let x := GScan.run ask.2 g (g.next c / 4096 * 4096 + 4096) 8300
    { st := s, m := [], c := c, pieces := [], oob := ch.oob, rperr := ch.rperr, stop := none }
  let at_ := if x.pieces.isEmpty then g.faultAt c ch.cpwp else if g.sw then ch.cpwp else va64 (g.next c)
  let srcs := x.pieces.flatMap fun p => match p.src with | some a => g.ranges p a | none => []
  let dsts := x.pieces.map fun p => (⟨p.dst, p.len, false⟩ : Range)
  -- what has been delivered is credited before an abandonment (R262, R433)
  let settled (st : State) (c : CopyCmd) (done : Nat) : State × CopyCmd :=
    (st.credit c.tb c.phase (done - c.credited), { c with credited := done })
  let bad (st : State) (va : Nat) (pa : Option Nat) : State :=
    let y := settled st c (c.gt * g.rb + c.pos)
    y.1.poisonCmd i y.2 va pa
  match x.stop with
  | some (.fault t) => s.chunkFault i at_ t
  | some (.pinned l) => x.st.chanWaits i ask l
  | some (.poison va pa) => bad x.st va pa
  | _ =>
    let plan : Plan := { n := 0, srcs := srcs, scaleReads := [], scaleWrites := [], dsts := dsts, acc := .write }
    match x.st.planWalks ask.2 plan c.user with
    | some l => x.st.chanWaits i ask l
    | none =>
      match x.st.checkPlan plan c.user x.m with
      | .error t => s.chunkFault i at_ t
      | .ok (m, s1) =>
        match s1.rangesPinned ask.2 m (srcs ++ dsts) with
        | some l => s1.chanWaits i ask l
        | none =>
          let s2 := s1.rangesHome m (srcs ++ dsts)
          match s2.rangesBad m srcs with
          | some p => bad s2 p.1 p.2
          | none =>
            let bytes := x.pieces.flatMap fun p => (List.range p.len).map fun k =>
              (p.dst + k, match p.src with | none => g.fill | some a => s2.longByte m c.granules (a + g.swz p.t (p.ofs + k)))
            let s3 := s2.writeChunk m c.granules ⟨bytes, [], []⟩
            let s4 := s3.setChan i { s3.chan i with oob := x.oob, rperr := x.rperr }
            let ended := decide (g.n ≤ x.c.gj)
            let c1 := { x.c with more := x.c.more && !ended }
            let ents := g.n + boolNat g.rng
            let s5 := match g.list with
              | some b => if c.got.length < ents ∧ ents ≤ c1.got.length then s4.dropList c1 b (ents * g.entBytes) else s4
              | none => s4
            match x.stop with
            | some (.limit a) =>
              let y := settled (s5.setChan i { s5.chan i with cpwp := g.pointer c1 ch.cpwp }) c1 (c1.gt * g.rb + c1.pos)
              y.1.abandonCmd i y.2 (.plain illegalInstruction (va64 a))
            | _ => s5.chunkDone i c1 (g.pointer c1 ch.cpwp) (g.creditTo c1 - c1.credited) ended

-- Linked cpy (R247)

def Vd.mapEp (v : Vd) (e : BitVec 8) (f : Endpoint → Endpoint) : Vd :=
  { v with eps := v.eps.map fun x => if x.1 = e then (x.1, f x.2) else x }
def State.mapEp (s : State) (vd : Nat) (e : BitVec 8) (f : Endpoint → Endpoint) : State := s.mapVd vd (·.mapEp e f)

/-- A team of the grid has sent on the endpoint (R355). -/
def State.noteSent (s : State) (k : TeamKey) (e : BitVec 8) : State :=
  s.mapGrid k.vd k.gid fun g => if g.sent.contains e then g else { g with sent := g.sent ++ [e] }

/-- Messages of an endpoint that have not been accepted. -/
def State.unaccepted (s : State) (e : BitVec 8) : Nat :=
  match s.vd? with
  | some v => ((v.ep e).map (·.out.length)).getD 0
  | none => 0

/-- A linked cpy of the hart in focus to an endpoint that was issued before `id` and whose message has not entered it: the stream's messages
are accepted in issue order (R247, R282). -/
def State.linkBefore (s : State) (e : BitVec 8) (id : Nat) : Bool :=
  (List.finRange 8).any fun i => s.core.chans[i].queue.any fun c =>
    c.hart = s.hart.id && decide (c.id < id) && decide (c.pos < c.len) && c.kind == .cpy (some e)

/-- The whole message is read into its endpoint (R247, R282, R284). -/
def State.linkChunk (s : State) (i : BitVec 3) (ask : List Nat × Nat) (c : CopyCmd) (e : BitVec 8) : State :=
  let r : Range := ⟨c.src, c.len, false⟩
  if c.len ≤ c.pos || decide (Config.epSize ≤ s.unaccepted e) || s.linkBefore e c.id then s
  else match s.rangesWalkWait ask.2 [r] .read c.user with
    | some l => s.chanWaits i ask l
    | none =>
      match s.checkRanges [r] .read c.user [] with
      | .error t => s.chunkFault i 0 t
      | .ok (m, s1) =>
        match s1.rangesPinned ask.2 m [r] with
        | some l => s1.chanWaits i ask l
        | none =>
          let s2 := s1.rangesHome m [r]
          match s2.rangesBad m [r] with
          | some x => s2.poisonCmd i c x.1 x.2
          | none =>
            let msg : Msg := { bytes := (List.range c.len).map fun k => s2.longByte m false (c.src + k), from_ := s2.key, hartIx := s2.hartIx, credit := some (i, c.id) }
            let s3 := ((s2.mapEp s2.hart.vd.toNat e fun p => { p with out := p.out ++ [msg] }).noteSent s2.key e).dropCmd c.id
            let ch := s3.chan i
            s3.setChan i { ch with queue := { c with pos := c.len } :: ch.queue.drop 1 }

/-- The head command starts: CPWP takes its destination base, 0 for a linked cpy (R44, R247). -/
def State.startCmd (s : State) (i : BitVec 3) (c : CopyCmd) : State × CopyCmd :=
  if c.started then (s, c)
  else
    let c1 := { c with started := true }
    let ch := s.chan i
    (s.setChan i { ch with queue := c1 :: ch.queue.drop 1, cpwp := va64 c.dst }, c1)

/-- COPY_CHUNK: the channel's head command delivers its next chunk, if it is a command of the hart in focus, the channel is not
stopped and the hart's team is not held (R244, R259, R263). -/
def State.copyStep (s : State) (i : BitVec 3) : State :=
  match (s.chan i).queue with
  | [] => s
  | c :: _ =>
    if (s.chan i).flt || c.hart ≠ s.hart.id || s.held then s
    else
      let ask := s.chanAsk i
      let (s1, c1) := (s.setChan i { s.chan i with pinWait := none }).startCmd i c
      match c1.kind with
      | .cpy (some e) => s1.linkChunk i ask c1 e
      | .cpyg n list rng iw fill sw srow rb pitch rc => s1.gatherChunk i ask c1 ⟨n, list, rng, iw, fill, sw, srow, rb, pitch, rc⟩
      | _ => s1.plainChunk i ask c1

/-- The event names an engine's step; a channel with nothing to deliver is unchanged by it. -/
def execCopyChunk (ch : BitVec 3) (s : State) : Res := .next (s.copyStep ch)

-- CPSTAT, cpstat, cpwait (R264 to R266)

/-- A channel's CPSTAT byte. -/
def Channel.status (c : Channel) : Nat :=
  boolNat (!c.queue.isEmpty) + boolNat c.flt * 2 + boolNat c.oob.isSome * 4 + boolNat c.rperr.isSome * 8 + boolNat c.abt.isSome * 16

/-- Software writes a channel's CPSTAT byte: writing 1 clears a bit with its record, and FLT restarts the command (R256, R261, R265). -/
def Channel.clear (c : Channel) (v : Nat) : Channel :=
  { c with
    flt := c.flt && !v.testBit 1
    oob := if v.testBit 2 then none else c.oob
    rperr := if v.testBit 3 then none else c.rperr
    abt := if v.testBit 4 then none else c.abt }

/-- The low 32 bits of an index over t. -/
def oobWord (o : Option (Word × Nat)) : Word :=
  match o with
  | some (x, t) => va64 (x.toNat % 2 ^ 32 * 2 ^ 32 + t % 2 ^ 32)
  | none => 0

def abtWord (o : Option Abandon) : Word :=
  match o with
  | some r => va64 (boolNat r.phase * 2 ^ 44 + r.tb.toNat * 2 ^ 40 + r.bytes.toNat)
  | none => 0

/-- An item of cpstat (R265). -/
def Channel.item (c : Channel) (n : Nat) : Word :=
  match n with
  | 0 => va64 c.status
  | 1 => oobWord c.oob
  | 2 => va64 (c.rperr.getD 0)
  | 3 => c.fltAddr
  | 4 => match c.queue with | q :: _ => va64 (q.counted - q.credited) | [] => 0
  | 5 => va64 c.queue.length
  | _ => abtWord c.abt

def execCpstat (ch : BitVec 3) (d : Reg) (item : BitVec 3) (s : State) : Res :=
  s.issue .aOnly 2 <| s.operands [] [d] fun _ s1 =>
    if item = 7 then s.illegal else (s1.deliverLater d ((s.chan ch).item item.toNat)).done 2

/-- cpwait's first condition: the running command has delivered past S[A]; a stopped command does not run (R265, R266). -/
def State.passed (s : State) (i : BitVec 3) (a : Nat) : Bool :=
  match (s.chan i).queue with
  | c :: _ =>
    c.started && !(s.chan i).flt && decide (c.dst ≤ a ∧ a < c.dst + c.span ∧ a < (s.chan i).cpwp.toNat)
  | [] => false

def execCpwait (ch : BitVec 3) (a : Reg) (sc : Scope) (drain : Bool) (s : State) : Res :=
  s.issue .aOnly 2 <| s.operands [a] [] fun v s1 =>
    let before := s.me.cpMark.getD s.nextId
    if (s.chan ch).queue.all (fun c => before ≤ c.id) || (!drain && s.passed ch (nth v 0).toNat) then
      State.acquireThen { s with me := { s.me with cpMark := some before } } sc <|
        (State.acquire { s1 with me := { s1.me with cpMark := none } } sc).done 2
    else State.stall { s with me := { s.me with cpMark := some before } } .sync

end Sys2Proof.Machine
end

