-- ==== Sys2Proof/Machine/Links.lean ====
section
/-! DEFINITION. Stage links: send, recv and lnkwait (R281 to R284, R402). -/
namespace Sys2Proof.Machine

/-- Runs `k` on a configured endpoint; otherwise "protection" (R281). -/
def State.withEp (s : State) (e : BitVec 8) (k : Vd → Endpoint → Res) : Res :=
  match s.vd? with
  | none => s.trap (.plain protection s.insWord)
  | some v =>
    match v.ep e with
    | some p => if p.cfg.isSome then k v p else s.trap (.plain protection s.insWord)
    | none => s.trap (.plain protection s.insWord)

/-- The checks of a message's range as a long-vector access: the windows, the interlocks, every page, pins (R242, R259, R282). -/
def State.messageRange (s : State) (a n : Nat) (acc : Acc) (user : Bool) : Chk (List (Nat × PageTo) × State) :=
  match s.windowBad a n acc with
  | some t => .trap t
  | none =>
    if s.interlocked a n (writes acc) then .stall .interlock
    else match s.rangesWalkWait s.arrival [⟨a, n, false⟩] acc user with
      | some l => .stall (s.pinWait l)
      | none =>
        match s.checkRanges [⟨a, n, false⟩] acc user [] with
        | .error t => .trap t
        | .ok (m, s1) =>
          match s1.rangesPinned s.arrival m [⟨a, n, false⟩] with
          | some l => .stall (s.pinWait l)
          | none => .ok (m, s1)

/-- send (R282): the endpoint is tested first, then the message's range, then the room, an order that the manual does not give (log 85). A
scratchpad word with an uncorrectable error stops no send and is reported (R144, R409, log 94). -/
def execSend (e : BitVec 8) (a b : Reg) (s : State) : Res :=
  s.issue .aOnly 1 <| s.operands [a, b] [] fun v s1 =>
    let addr := (nth v 0).toNat
    let n := (nth v 1).toNat
    if n = 0 ∨ 65536 < n then s.illegal
    else s.withEp e fun vd p =>
      (s1.messageRange addr n .read s.user).run s fun (m, s2) =>
        if Config.epSize ≤ p.out.length || s.linkBefore e s.nextId then s.stall .channel
        else
          let s3 := s2.rangesHome m [⟨addr, n, false⟩]
          match s3.rangesPoison m [⟨addr, n, false⟩] with
          | some x => (State.reportPoison { s3 with hart := s.hart } x.2).trap (.addr memoryError (va64 x.1) .read)
          | none =>
            let msg : Msg := { bytes := (List.range n).map fun i => s3.longByte m false (addr + i), from_ := s.key, hartIx := s.hartIx, credit := none }
            (((s3.noteRanges [⟨addr, n, false⟩]).mapEp vd.id e fun p => { p with out := p.out ++ [msg] }).noteSent s.key e).done 1

/-- recv: the oldest message of the endpoint (R283). -/
def execRecv (e : BitVec 8) (d a : Reg) (s : State) : Res :=
  s.issue .aOnly 1 <| s.operands [a] [d] fun v s1 =>
    s.withEp e fun vd p =>
      match p.inn with
      | [] => s.stall .sync
      | bs :: _ =>
        let addr := (nth v 0).toNat
        (s1.messageRange addr bs.length .write s.user).run s fun (m, s2) =>
          let s3 := s2.rangesHome m [⟨addr, bs.length, false⟩]
          let s4 := (runs (bs.zipIdx.map fun x => (addr + x.2, x.1))).foldl (fun st r => st.writeRun m false r) s3
          let s5 := s4.mapEp vd.id e fun p => { p with inn := p.inn.drop 1 }
          ((s5.acquire .hart).deliverLater d (va64 bs.length)).done 1

/-- A linked cpy of the hart in focus to the endpoint whose message has not been accepted. -/
def State.linkedCopies (s : State) (e : BitVec 8) : Bool :=
  (List.finRange 8).any fun i => s.core.chans[i].queue.any fun c => c.hart = s.hart.id && c.kind == .cpy (some e)

/-- lnkwait (R284): every earlier send and linked cpy of the stream on the endpoint has been accepted. -/
def execLnkwait (e : BitVec 8) (s : State) : Res :=
  s.issue .aOnly 1 <| s.operands [] [] fun _ s1 =>
    s.withEp e fun _ p => if p.out.any (fun x => x.from_ = s.key && x.hartIx = s.hartIx) || s.linkedCopies e then s.stall .remote else s1.done 1

end Sys2Proof.Machine
end

