-- ==== Sys2Proof/Machine/System.lean ====
section
/-! DEFINITION. System registers, tlbinv, launch, signal and exit (R48, R135 to R139). -/
namespace Sys2Proof.Machine

-- The registers of R48

/-- Who may read and write a system register (R6, R48). -/
structure SrAccess where
  userRead : Bool
  userWrite : Bool
  superWrite : Bool

/-- The table of R48; none for a number it does not list. -/
def srAccess (n : Nat) : Option SrAccess :=
  if n = 0x001 ∨ n = 0x002 ∨ n = 0x003 ∨ n = 0x004 ∨ n = 0x048 then some ⟨true, true, true⟩
  else if n = 0x011 ∨ n = 0x012 ∨ n = 0x013 ∨ n = 0x021 ∨ n = 0x023 ∨ n = 0x024 then some ⟨false, false, true⟩
  else if n = 0x020 ∨ n = 0x022 then some ⟨false, false, false⟩
  else if n = 0x030 then some ⟨true, false, true⟩
  else if (0x040 ≤ n ∧ n ≤ 0x047) ∨ n = 0x050 ∨ (0x060 ≤ n ∧ n ≤ 0x064) ∨ n = 0x070 ∨ n = 0x080 then some ⟨true, false, false⟩
  else none

/-- CPSTAT (R264). -/
def Core.cpstat (c : Core) : Nat := (List.finRange 8).foldl (fun m i => m + c.chans[i].status * 2 ^ (8 * i.val)) 0

/-- The value of a register other than TIME (R135). -/
def State.readSr (s : State) (n : Nat) : Word :=
  match n with
  | 0x001 => s.me.vl.zeroExtend 64
  | 0x002 => s.me.vtype.zeroExtend 64
  | 0x003 => s.me.vstart.zeroExtend 64
  | 0x004 => s.me.vstat.zeroExtend 64
  | 0x011 => s.me.hvl.zeroExtend 64
  | 0x012 => s.me.hvtype.zeroExtend 64
  | 0x013 => s.me.hvstart.zeroExtend 64
  | 0x020 => s.me.tcause.zeroExtend 64
  | 0x021 => s.me.tpc
  | 0x022 => s.me.tval
  | 0x023 => s.me.tvec
  | 0x024 => s.me.tstat.zeroExtend 64
  | 0x030 => va64 s.hart.mprog
  | 0x048 => va64 s.core.cpstat
  | 0x060 => s.hart.id.zeroExtend 64
  | 0x061 => s.hart.team.zeroExtend 64
  | 0x062 => s.hart.grid.zeroExtend 64
  | 0x063 => s.hart.vd.zeroExtend 64
  | 0x064 => va64 s.lanes
  | 0x070 => va64 s.clus.energy
  | 0x080 => va64 (s.hart.vset.length + s.hart.endCount + boolNat s.hart.vovf * 128)
  | _ => if 0x040 ≤ n ∧ n ≤ 0x047 then s.core.chans[(n - 0x040) % 8].cpwp else 0

/-- A write of VSTAT: SATF, VLOST and HBUSY clear on 1, FFS is read only, RESUME is written (R34). -/
def vstatWrite (old : BitVec 5) (v : Word) : BitVec 5 :=
  let x := v.extractLsb' 0 5
  (old &&& ~~~(x &&& 0x16) &&& 0x1E) ||| (x &&& 1)

/-- A write of CPSTAT (R256, R261, R264, R265). -/
def State.writeCpstat (s : State) (v : Word) : State :=
  { s with core := { s.core with chans := Vector.ofFn fun i : Fin 8 => s.core.chans[i].clear (fld v (8 * i.val) 8) } }

/-- A write of MPROG: the resume row of a halted operation; otherwise it is discarded (R227, R229). -/
def State.writeMprog (s : State) (v : Word) : State :=
  match s.hart.mq, s.hart.mhalt with
  | _ :: _, some _ => { s with hart := { s.hart with mprog := fld v 0 32 } }
  | _, _ => s

/-- A write of a register whose access allows it; VTYPE and HVTYPE are checked before (R29 to R35, R340). -/
def State.writeSr (s : State) (n : Nat) (v : Word) : State :=
  let me := s.me
  match n with
  | 0x001 => { s with me := { me with vl := clampVl s v } }
  | 0x002 => { s with me := { me with vtype := v.extractLsb' 0 21 } }
  | 0x003 => { s with me := { me with vstart := v.extractLsb' 0 14 } }
  | 0x004 => { s with me := { me with vstat := vstatWrite me.vstat v } }
  | 0x011 => { s with me := { me with hvl := clampVl s v } }
  | 0x012 => { s with me := { me with hvtype := v.extractLsb' 0 21 } }
  | 0x013 => { s with me := { me with hvstart := v.extractLsb' 0 14 } }
  | 0x021 => { s with me := { me with tpc := v &&& ~~~(3 : Word) } }
  | 0x023 => { s with me := { me with tvec := v &&& ~~~(0x3F : Word) } }
  | 0x024 => { s with me := { me with tstat := (me.tstat &&& 0xFFFE) ||| (v.extractLsb' 0 16 &&& 1) } }
  | 0x030 => s.writeMprog v
  | 0x048 => s.writeCpstat v
  | _ => s

/-- mfsr (R135); a read of TIME takes its value at this instant (R366, R367). -/
def execMfsr (d : Reg) (num : BitVec 12) (s : State) : Res :=
  s.issue .both 1 <|
    match srAccess num.toNat with
    | none => s.illegal
    | some a =>
      s.direction [] [d] <|
      if s.user && !a.userRead then s.trap (.plain protection s.insWord)
      else s.operands [] [d] fun _ s1 =>
        if num = 0x050 then
          let s2 := s1.now
          (s2.wr d (va64 s2.time)).done 1
        else (s1.wr d (s.readSr num.toNat)).done 1

/-- mtsr (R135): a register that the mode may only read discards the write (R6). -/
def execMtsr (a : Reg) (num : BitVec 12) (s : State) : Res :=
  s.issue .both 1 <|
    match srAccess num.toNat with
    | none => s.illegal
    | some p =>
      s.direction [a] [] <|
      if s.user && !p.userRead then s.trap (.plain protection s.insWord)
      else s.operands [a] [] fun v s1 =>
        if (num = 0x002 ∨ num = 0x012) ∧ vtypeBad ((nth v 0).extractLsb' 0 21) then s.widthTrap
        else if if s.user then p.userWrite else p.superWrite then (s1.writeSr num.toNat (nth v 0)).done 1
        else s1.done 1

-- tlbinv (R136, R363)

/-- The translation is one that tlbinv removes. -/
def tlbGone (k : TlbKind) (vd va : Nat) (t : TlbEntry) : Bool :=
  t.vd == vd && match k with | .va => t.covers vd va | .vd => !pteG t.pte | .all => true

/-- Removes translations from every core's TLB and every die's. -/
def State.dropTlb (s : State) (p : TlbEntry → Bool) : State :=
  let keep (l : List TlbEntry) := l.filter fun t => !p t
  { s with
    core := { s.core with tlb := keep s.core.tlb }
    cores := s.cores.map fun c => (c.1, { c.2 with tlb := keep c.2.tlb })
    dies := s.dies.map fun d => { d with tlb := keep d.tlb } }

def execTlbinv (k : TlbKind) (a : Reg) (s : State) : Res :=
  s.issue .both 1 <|
    s.direction [a] [] <|
    if s.user then s.trap (.plain protection s.insWord)
    else s.operands [a] [] fun v s1 => (s1.dropTlb (tlbGone k s.hart.vd.toNat (nth v 0).toNat)).done 1

-- launch (R137, R287 to R293, R312)

/-- Reads the 128 bytes of a descriptor as a single copy; a trap acts on the state before the pops. A poisoned half answers
its physical and its virtual address (R145). -/
def State.readLaunch (s : State) (a : Nat) : Chk (Except (Nat × Nat) Desc × State) :=
  if a % 64 ≠ 0 then .trap (.addr misaligned (va64 a) .read)
  else if inLocal a then
    match s.scratchAt a 128 with
    | some o => if s.interlocked a 128 false then .stall .interlock else .ok (.ok (descOfBytes s.hart.scratch o), s.noteScratch o 128)
    | none => .trap (.addr protection (va64 (max a (localBase + s.hart.scratchSize))) .read)
  else if inLane a then .trap (.addr protection (va64 a) .read)
  else if s.interlocked a 128 false then .stall .interlock
  else (s.trans a .read s.user false).bind fun (p0, pte0, s1) =>
    let b := (a + 64) % 2 ^ 64
    (s1.trans b .read s.user false).bind fun (p1, pte1, s2) =>
      match (match s2.mustWait p0 64 with | some l => some l | none => s2.mustWait p1 64) with
      | some l => .stall (s.pinWait l)
      | none =>
        let s3 := (((s2.counted p0 64).counted p1 64).beforeHome p0 64).beforeHome p1 64
        let half (pa : Nat) (pte : Word) : List Word :=
          if (s3.controlOf pa pte).isSome then List.replicate 8 0 else (List.range 8).map fun i => va64 (s3.mem.rd (pa + 8 * i) 8)
        if (s3.controlOf p0 pte0).isNone && s3.poisoned p0 64 then .ok (.error (p0, a), s3)
        else if (s3.controlOf p1 pte1).isNone && s3.poisoned p1 64 then .ok (.error (p1, b), s3)
        else .ok (.ok (descOf (half p0 pte0 ++ half p1 pte1)), s3)

/-- The priority of a launch: in mode U no higher than the launching grid's own (R137). -/
def State.launchPrio (s : State) (d : Desc) : Nat :=
  if s.user then min (dPrio d) (((s.findGrid s.hart.vd.toNat s.hart.grid.toNat).map (·.prio)).getD 0) else dPrio d

/-- The descriptor with VD and PRIO as the device replaces them (R137). -/
def launchDesc (d : Desc) (vd prio : Nat) : Desc := (withVd d vd).set 2 (setFld d[2] 24 3 prio)

/-- launch (R137). A launch with RMT = 1 is sent through its endpoint and waits for the remote scheduler's answer (R293); one for a VD that is
mitten or waking is held in the inlet, in its place there, until the VD is active (R291, R391). -/
def execLaunch (d a : Reg) (s : State) : Res :=
  s.issue .both 1 <| s.operands [a] [d] fun v s1 =>
    let addr := (nth v 0).toNat
    if addr % 64 ≠ 0 then s.trap (.addr misaligned (nth v 0) .read)
    else s.releaseThen s1 true .module fun s2 =>
      (s2.readLaunch addr).run s fun (got, s3) =>
        match got, s.vd? with
        | .error x, _ => (State.reportPoison { s3 with hart := s.hart } x.1).trap (.addr memoryError (va64 x.2) .read)
        | .ok _, none => (s3.wr d (refuseWord 2)).done 1
        | .ok raw, some vd =>
          let prio := s.launchPrio raw
          if Config.inletSize ≤ vd.inlet.length then (s3.wr d (refuseWord 1)).done 1
          else match s3.counterWaits vd.id raw s.arrival with
            | some l => s.stall (s.pinWait l)
            | none =>
              match s3.refusalOf vd raw with
              | some c => (s3.wr d (refuseWord c)).done 1
              | none =>
                let sub : Submission :=
                  { desc := launchDesc raw vd.id prio, va := nth v 0, prio := prio, timer := none, remote := false, asker := none }
                if dRmt raw then ((s3.reserve d).sendRemote vd.id sub.desc).suspend (.answer d)
                else if vd.holds then
                  let held := { sub with asker := some (s.key, s.hartIx, s.isE) }
                  ((s3.reserve d).mapVd vd.id fun v => { v with inlet := v.inlet ++ [held] }).suspend (.inlet d)
                else
                  let r := s3.accept vd sub
                  (r.2.wr d (va64 r.1)).done 1

-- signal (R138)

/-- signal: checked as an atomic; a poisoned line is found after the stream has gone on (R138, R152). -/
def execSignal (a b : Reg) (s : State) : Res :=
  s.issue .both 1 <| s.operands [a, b] [] fun v s1 =>
    let addr := (nth v 0).toNat
    if addr % 8 ≠ 0 then s.trap (.addr misaligned (nth v 0) .atomic)
    else if inLocal addr || inLane addr then s.trap (.addr protection (nth v 0) .atomic)
    else if s.interlocked addr 8 true then s.stall .interlock
    else (s1.transBut addr .atomic s.user onControl).run s fun (pa, _, s2) =>
      match s2.mustWait pa 8 with
      | some l => s.stall (s.pinWait l)
      | none => s.releaseThen (s2.counted pa 8) true .sys fun s3 =>
          if s3.poisoned pa 8 then (s3.reportPoison pa).done 1
          else (s3.homeWrite pa (leBytes 8 (s3.mem.rd pa 8 + (nth v 1).toNat))).done 1

-- exit (R139)

/-- exit: the stream issues nothing more; STREAM_STOP stops it once its outstanding work is complete. Until then it stands at the exit, or at
its prefix (R87). -/
def execExit (s : State) : Res :=
  s.issue .both 1 <| .next { s with me := { s.me with exiting := true, pc := s.me.issueAddr, pfx := none, wait := none } }

end Sys2Proof.Machine
end

