-- ==== Sys2Proof/Machine/VecMem.lean ====
section
/-! DEFINITION. Vector memory instructions (R198 to R211). -/
namespace Sys2Proof.Machine

/-- What one element's access comes to. -/
inductive ElemRes where
  | ok (v : Nat) (s : State)
  | trap (t : TrapInfo) (s : State)
  | stall (w : Wait)

/-- The elements performed so far, with what they loaded, the failures, and a stall if one was met. -/
structure ElemLoop where
  st : State
  vals : List (Nat × Nat)
  fails : List (Nat × TrapInfo)
  wait : Option Wait

/-- Performs the elements in ascending order: up to the first failure (R203), or, with `all`, every one that passes (R204). -/
def elemLoop (f : Nat → State → ElemRes) (all : Bool) : List Nat → ElemLoop → ElemLoop
  | [], o => o
  | e :: es, o =>
    match f e o.st with
    | .ok v s => elemLoop f all es { o with st := s, vals := o.vals ++ [(e, v)] }
    | .trap t s =>
      if all then elemLoop f all es { o with st := s, fails := o.fails ++ [(e, t)] } else { o with st := s, fails := [(e, t)] }
    | .stall w => { o with wait := some w }

/-- Reads one element (R142, R145, R202). -/
def State.loadElem (s : State) (a : Word) (n : Nat) : ElemRes :=
  match s.findLoc a.toNat n .read false with
  | .trap t => .trap t s
  | .stall w => .stall w
  | .ok (l, _, s1) =>
    let s2 := s1.settleLoc l n
    if s2.locPoisoned l n then .trap (.addr memoryError a .read) (s2.reportPoison l.pa)
    else .ok (s2.readLoc l n).1 (s2.readLoc l n).2

/-- Writes one element; the value is the physical address plus 1 of a write at a home, else 0. -/
def State.storeElem (s : State) (a : Word) (n v : Nat) : ElemRes :=
  match s.findLoc a.toNat n .write false with
  | .trap t => .trap t s
  | .stall w => .stall w
  | .ok (l, _, s1) => .ok (match l with | .home pa => pa + 1 | _ => 0) (s1.writeLoc l n v)

/-- A vector store that wrote every byte of a poisoned line has cleared its poison (R145). -/
def State.clearCovered (s : State) (n : Nat) (vals : List (Nat × Nat)) : State :=
  let covered (x : Nat) : Bool := vals.any fun v => decide (v.2 ≠ 0 ∧ v.2 - 1 ≤ x ∧ x < v.2 - 1 + n)
  { s with poison := s.poison.filter fun l => !(List.range 128).all fun i => covered (l * 128 + i) }

/-- The state with the queues of `s0`: a trapping instruction pops nothing (R17). -/
def State.unpop (s s0 : State) : State := { s with hart := { s.hart with queues := s0.hart.queues } }

/-- An A-stream vector load into one of the registers is still to be completed (R23). -/
def Hart.loading (h : Hart) (rs : List Reg) : Bool := h.vloads.any fun l => rs.any fun r => r = l.reg || (l.pair && r = l.reg + 1)

/-- value(D[e]) and value(B[e]) as the lane store holds them (R170, R199). -/
def State.regD (s : State) (d : Reg) (e : Nat) : Int := s.hart.value d s.me.wD s.me.sD e
def State.regB (s : State) (b : Reg) (e : Nat) : Int := s.hart.value b s.me.wB s.me.sB e

def State.srcD (s : State) (d : Reg) : VSrc := ⟨d, s.me.wD, false⟩

/-- RESUME is 0: a vldx, vstx or vamo completes or traps (R205). -/
def State.noResume (s : State) : State := { s with me := { s.me with vstat := vstatSet s.me.vstat 0 false } }

/-- Issue of a vector memory instruction: the directions of its queues, the width of its D register, scalar sources, presence waits (R23, R92,
R198, R200). A load also waits while a posted matrix operation whose operands are not consumed names its register as B (R224). `bad`: the
state on which a trap here acts (R205, R207, log 93). -/
def State.vecIssue (s bad : State) (load : Bool) (d : Reg) (idx : List Reg) (srcs : List Reg) (k : List Word → State → Res) : Res :=
  bad.issue .aOnly 2 <| bad.direction srcs [] <|
    if !pairOk d s.me.wD then bad.widthTrap
    else s.operands srcs [] fun v s1 =>
      let regs := regsOf d s.me.wD
      match s.hart.notFull (if load then idx else idx ++ regs) with
      | some r => s.stall (.presence false r)
      | none =>
        match (if load then regs.find? (fun r => s.hart.full r || s.hart.loading [r]) else none) with
        | some r => s.stall (.presence true r)
        | none => if load && s.hart.matrixB regs then s.stall .engine else k v s1

/-- The memory element's pattern reduced into a register element of width wD (R199). -/
def State.loadedElems (s : State) (u : Bool) (n : Nat) (vals : List (Nat × Nat)) : LaneOut :=
  s.reduceAll s.me.wD (vals.map fun x => (x.1, valueOf (!u) (8 * n) x.2))

/-- Writes loaded elements into the register (R21, R199). -/
def State.putLoaded (s : State) (d : Reg) (o : LaneOut) : State :=
  State.noteSat { s.shadowed d s.me.wD o.elems with hart := s.hart.putElems d s.me.wD o.elems } o.sat

/-- A load whose elements are all written: its register turns FULL with VECTOR_LOAD_COMPLETION (R23, R200). -/
def State.loadIssued (s : State) (d : Reg) : State :=
  (State.setVstart { s with hart := { s.hart with vloads := s.hart.vloads ++ [⟨d, 16 < s.me.wD⟩] } } 0)

/-- A store or vamo performed: sources consumed, its completion outstanding (R200). -/
def State.storeIssued (s : State) (eaten : List Reg) (acq : Option Scope) : State :=
  State.setVstart { s with hart := s.hart.setFull false eaten, me := { s.me with vmem := s.me.vmem ++ [⟨acq, none⟩] } } 0

def startLoop (s : State) : ElemLoop := { st := s, vals := [], fails := [], wait := none }

/-- base + e × stride. -/
def stridedAddr (base stride : Word) (e : Nat) : Word := base + va64 e * stride

/-- The stream is stopped inside a vector memory instruction: it stands at the instruction with its queues as before (R211, R347, R348). A
prefixed one is stopped at no element, but before its prefix or after the pair (R87, log 77). -/
def State.stopped (s2 s : State) : Res :=
  .next { s2.unpop s with me := { s2.me with pc := s.me.issueAddr, pfx := none, wait := none } }

/-- The active elements that a vector access performs: all of them, or with a stop request those before the cut (R211, R348). -/
def cutAt {α : Type} (cut : Option Nat) (es : List α) : List α :=
  match cut with
  | some m => es.take m
  | none => es

/-- A strided access that a stop request cuts short: every element below VSTART is performed; an element that fails is left to the
instruction's next issue (R211). -/
def State.cutStrided (s s2 : State) (es : List Nat) (done : Nat) : Res := (s2.setVstart (es.getD done s.me.vl.toNat)).stopped s

/-- vld, vlds: a precise trap at the lowest failing element (R203). With `cut` the stream stops after that many elements (R211). -/
def State.vecLoad (s s1 : State) (u : Bool) (n : Nat) (k : BitVec 3) (d : Reg) (ea : Nat → Word) (cut : Option Nat) : Res :=
  let es := s.activeLanes k
  let o := elemLoop (fun e st => st.loadElem (ea e) n) false (cutAt cut es) (startLoop s1)
  match o.wait with
  | some w => s.stall w
  | none =>
    let s2 := o.st.putLoaded d (s.loadedElems u n o.vals)
    if cut.isSome then s.cutStrided s2 es o.vals.length
    else match o.fails with
    | (e, t) :: _ => ((s2.unpop s).setVstart e).trap t
    | [] => (s2.loadIssued d).done 2

def State.vld (cut : Option Nat) (u : Bool) (z : Size) (k : BitVec 3) (d a : Reg) (disp : W32) (s : State) : Res :=
  s.vecIssue s true d [] [a] fun v s1 => s.vecLoad s1 u (sizeBytes z) k d (stridedAddr (nth v 0 + sx disp) (va64 (sizeBytes z))) cut
def State.vlds (cut : Option Nat) (u : Bool) (z : Size) (k : BitVec 3) (d a b : Reg) (disp : W32) (s : State) : Res :=
  s.vecIssue s true d [] [a, b] fun v s1 => s.vecLoad s1 u (sizeBytes z) k d (stridedAddr (nth v 0 + sx disp) (nth v 1)) cut

def execVld (_ord u : Bool) (z : Size) (k : BitVec 3) (d a : Reg) (disp : W32) (s : State) : Res := s.vld none u z k d a disp
def execVlds (_ord u : Bool) (z : Size) (k : BitVec 3) (d a b : Reg) (disp : W32) (s : State) : Res := s.vlds none u z k d a b disp

/-- An element of a vldff has faulted: kf is written with a value that the manual does not state (R27, R206, log 71). -/
def State.faultKf (s : State) : State :=
  { s with hart := { s.hart with kf := Config.firstFaultKf s.tick % 2 ^ s.lanes }, tick := s.tick + 1 }

def State.setFfs (s : State) (b : Bool) : State := { s with me := { s.me with vstat := vstatSet s.me.vstat 3 b } }

/-- vldff: a failure after the first active element shortens VL (R206). One that traps at its first active element leaves FFS as it was (log 71).
One that a stop request cuts short leaves FFS to its next issue; it is not cut before an element that fails, which then ends it (R206, R211). -/
def State.vldff (cut : Option Nat) (u : Bool) (z : Size) (k : BitVec 3) (d a : Reg) (disp : W32) (s : State) : Res :=
  s.vecIssue s true d [] [a] fun v s1 =>
    let n := sizeBytes z
    let es := s.activeLanes k
    let o := elemLoop (fun e st => st.loadElem (stridedAddr (nth v 0 + sx disp) (va64 n) e) n) false (cutAt (cut.map (· + 1)) es) (startLoop s1)
    match o.wait with
    | some w => s.stall w
    | none =>
      let vals := if o.fails.isEmpty then cutAt cut o.vals else o.vals
      let s2 := o.st.putLoaded d (s.loadedElems u n vals)
      match o.fails with
      | [] => if cut.isSome then s.cutStrided s2 es vals.length else ((s2.loadIssued d).setFfs false).done 2
      | (e, t) :: _ =>
        if vals.isEmpty then (if cut.isSome then s.cutStrided s2 es 0 else ((s2.faultKf.unpop s).setVstart e).trap t)
        else
          let s3 := (s2.faultKf.loadIssued d).setFfs true
          State.done { s3 with me := { s3.me with vl := BitVec.ofNat 15 e } } 2

def execVldff (_ord u : Bool) (z : Size) (k : BitVec 3) (d a : Reg) (disp : W32) (s : State) : Res := s.vldff none u z k d a disp

-- Gathers, scatters and vamo (R204, R205)

/-- The lanes a gather, scatter or vamo acts on: with RESUME those of kf, whatever the mask (R205). -/
def State.gatherLanes (s : State) (k : BitVec 3) : List Nat :=
  if s.me.resume then s.lanesIn.filter (fun e => s.hart.kf.testBit e) else s.activeLanes k

/-- kf holds the listed lanes, and RESUME is as given (R204, R205). -/
def State.kfLanes (s : State) (lanes : List Nat) (resume : Bool) : State :=
  { s with
    hart := { s.hart with kf := lanes.foldl (fun r e => Row.put r e true) 0 }
    me := { s.me with vstat := vstatSet s.me.vstat 0 resume } }

/-- kf holds the failing lanes, RESUME is cleared (R204, R205). -/
def State.setKf (s : State) (fails : List (Nat × TrapInfo)) : State := s.kfLanes (fails.map (·.1)) false

/-- The end of a gather, scatter or vamo: a trap at the lowest failing element, else completion (R204). A vamo that traps has performed its
release part and not its acquire part (log 72). -/
def State.gatherEnd (s s2 : State) (fails : List (Nat × TrapInfo)) (fin : State → State) : Res :=
  match fails with
  | (_, t) :: _ => ((s2.setKf fails).unpop s).trap t
  | [] => (fin (s2.setKf [])).done 2

/-- A gather, scatter or vamo that a stop request cuts short: the lanes that it has not performed stand in kf, with RESUME (R211). -/
def State.cutGather (s s2 : State) (lanes performed : List Nat) : Res := (s2.kfLanes (lanes.filter (fun e => !performed.contains e)) true).stopped s

/-- idx(e) × 2^Z (R199). -/
def State.indexed (s : State) (base : Word) (b : Reg) (n e : Nat) : Word := base + wordOf (s.regB b e * n)

def State.vldx (cut : Option Nat) (u : Bool) (z : Size) (cb : Bool) (k : BitVec 3) (d a b : Reg) (disp : W32) (s : State) : Res :=
  s.vecIssue s.noResume true d [b] [a] fun v s1 =>
    let n := sizeBytes z
    let es := s.gatherLanes k
    let o := elemLoop (fun e st => st.loadElem (s.indexed (nth v 0 + sx disp) b n e) n) true (cutAt cut es) (startLoop s1)
    match o.wait with
    | some w => s.stall w
    | none =>
      let s2 := (o.st.putLoaded d (s.loadedElems u n o.vals)).noteRows [s.srcB b false] (o.vals.map (·.1) ++ o.fails.map (·.1))
      if cut.isSome then s.cutGather s2 es (o.vals.map (·.1))
      else s.gatherEnd s2 o.fails fun s3 =>
        State.loadIssued { s3 with hart := s3.hart.setFull false (if cb then [b] else []) } d

def execVldx (_ord u : Bool) (z : Size) (cb : Bool) (k : BitVec 3) (d a b : Reg) (disp : W32) (s : State) : Res := s.vldx none u z cb k d a b disp

/-- The pattern a store writes for element e, and whether it saturated (R199). -/
def State.storeValue (s : State) (d : Reg) (n e : Nat) : Reduced := reduce s.satMode (8 * n) (s.regD d e)

/-- SATF for the elements that were performed. -/
def State.storeSat (s s2 : State) (d : Reg) (n : Nat) (vals : List (Nat × Nat)) : State :=
  s2.noteSat (vals.any fun x => (s.storeValue d n x.1).sat)

def eatReg (c : Bool) (d : Reg) (w : Nat) : List Reg := if c then regsOf d w else []

/-- vst, vsts (R203). -/
def State.vecStore (s s1 : State) (n : Nat) (cd : Bool) (k : BitVec 3) (d : Reg) (ea : Nat → Word) (cut : Option Nat) : Res :=
  let es := s.activeLanes k
  let o := elemLoop (fun e st => st.storeElem (ea e) n (s.storeValue d n e).pat) false (cutAt cut es) (startLoop s1)
  match o.wait with
  | some w => s.stall w
  | none =>
    let s2 := ((s.storeSat o.st d n o.vals).clearCovered n o.vals).noteRows [s.srcD d] (o.vals.map (·.1))
    if cut.isSome then s.cutStrided s2 es o.vals.length
    else match o.fails with
    | (e, t) :: _ => ((s2.unpop s).setVstart e).trap t
    | [] => (s2.storeIssued (eatReg cd d s.me.wD) none).done 2

def State.vst (cut : Option Nat) (z : Size) (cd : Bool) (k : BitVec 3) (d a : Reg) (disp : W32) (s : State) : Res :=
  s.vecIssue s false d [] [a] fun v s1 => s.vecStore s1 (sizeBytes z) cd k d (stridedAddr (nth v 0 + sx disp) (va64 (sizeBytes z))) cut
def State.vsts (cut : Option Nat) (z : Size) (cd : Bool) (k : BitVec 3) (d a b : Reg) (disp : W32) (s : State) : Res :=
  s.vecIssue s false d [] [a, b] fun v s1 => s.vecStore s1 (sizeBytes z) cd k d (stridedAddr (nth v 0 + sx disp) (nth v 1)) cut

def execVst (_ord : Bool) (z : Size) (cd : Bool) (k : BitVec 3) (d a : Reg) (disp : W32) (s : State) : Res := s.vst none z cd k d a disp
def execVsts (_ord : Bool) (z : Size) (cd : Bool) (k : BitVec 3) (d a b : Reg) (disp : W32) (s : State) : Res := s.vsts none z cd k d a b disp

def State.vstx (cut : Option Nat) (z : Size) (cd cb : Bool) (k : BitVec 3) (d a b : Reg) (disp : W32) (s : State) : Res :=
  s.vecIssue s.noResume false d [b] [a] fun v s1 =>
    let n := sizeBytes z
    let es := s.gatherLanes k
    let o := elemLoop (fun e st => st.storeElem (s.indexed (nth v 0 + sx disp) b n e) n (s.storeValue d n e).pat) true
      (cutAt cut es) (startLoop s1)
    match o.wait with
    | some w => s.stall w
    | none =>
      let s2 := (((s.storeSat o.st d n o.vals).clearCovered n o.vals).noteRows [s.srcD d] (o.vals.map (·.1))).noteRows [s.srcB b false]
        (o.vals.map (·.1) ++ o.fails.map (·.1))
      if cut.isSome then s.cutGather s2 es (o.vals.map (·.1))
      else s.gatherEnd s2 o.fails fun s3 => s3.storeIssued (eatReg cd d s.me.wD ++ eatReg cb b s.me.wB) none

def execVstx (_ord : Bool) (z : Size) (cd cb : Bool) (k : BitVec 3) (d a b : Reg) (disp : W32) (s : State) : Res := s.vstx none z cd cb k d a b disp

-- vstb (R207)

/-- The row of bits p of a list of patterns, the first in bit 0. -/
def bitRow (p : Nat) : List Nat → Nat
  | [] => 0
  | u :: us => boolNat (u.testBit p) + 2 * bitRow p us

/-- The bit string of vstb: bit p × VL + e is bit p of u[e]. -/
def bitString (us : List Nat) (pw : Nat) : Nat :=
  (List.range pw).foldl (fun x p => x + bitRow p us * 2 ^ (p * us.length)) 0

/-- Checks bytes in ascending order; the places of them all, or the first failure: of several failing bytes vstb reports the lowest (R207,
log 102). -/
def State.byteLocs (s : State) : List Word → List Loc → ElemRes ⊕ (List Loc × State)
  | [], ls => .inr (ls, s)
  | a :: as, ls =>
    match s.findLoc a.toNat 1 .write false with
    | .trap t => .inl (.trap t s)
    | .stall w => .inl (.stall w)
    | .ok (l, _, s1) => s1.byteLocs as (ls ++ [l])

def execVstb (cd : Bool) (k : BitVec 3) (d a b : Reg) (disp : W32) (s : State) : Res :=
  s.vecIssue (s.setVstart 0) false d [] [a, b] fun v s1 =>
    let pw := (nth v 1).toNat
    if 32 < pw then (s.setVstart 0).widthTrap
    else
      let us := (List.range s.me.vl.toNat).map fun e =>
        if s.hart.mask k e then reduce s.satMode pw (s.regD d e) else ⟨0, false⟩
      let n := ceilDiv (pw * us.length) 8
      let bs := leBytes n (bitString (us.map (·.pat)) pw)
      let base := nth v 0 + sx disp
      match s1.byteLocs ((List.range n).map fun i => base + va64 i) [] with
      | .inl (.stall w) => s.stall w
      | .inl (.trap t s2) => ((s2.unpop s).setVstart 0).trap t
      | .inl (.ok _ s2) => s2.done 2
      | .inr (ls, s2) =>
        let s3 := (ls.zip bs).foldl (fun st x => st.writeLoc x.1 1 x.2.toNat) s2
        let s4 := s3.clearCovered 1 (ls.zipIdx.map fun x => (x.2, match x.1 with | .home pa => pa + 1 | _ => 0))
        let s5 := s4.noteRows [s.srcD d] ((List.range s.me.vl.toNat).filter (s.hart.mask k))
        ((s5.noteSat (pw ≠ 0 && us.any (·.sat))).storeIssued (eatReg cd d s.me.wD) none).done 2

-- vamo (R208 to R210)

/-- One operation on 32-bit patterns. -/
def amo32 (op : AmoOp) (x y : Nat) : Nat :=
  match op with
  | .add => (x + y) % 2 ^ 32
  | .min => if signed 32 y < signed 32 x then y else x
  | .max => if signed 32 x < signed 32 y then y else x
  | .minu => min x y
  | .maxu => max x y
  | .and => x &&& y
  | .or => x ||| y
  | .xor => x ^^^ y
  | .swap => y
  | .fadd => fadd32 x y

/-- One level of the tree: elements 0 and 1, 2 and 3, …; an odd last one passes unchanged (R209). -/
def pairLevel (f : Nat → Nat → Nat) : List Nat → List Nat
  | x :: y :: r => f x y :: pairLevel f r
  | r => r

/-- Combine: the pairwise tree over the data of one address (R209). -/
def combine (f : Nat → Nat → Nat) : Nat → List Nat → Nat
  | 0, xs => xs.headD 0
  | n + 1, xs => combine f n (pairLevel f xs)

/-- The data of an element: a 32-bit pattern, or an FP32 number for fadd (R208). -/
def State.amoData (s : State) (op : AmoOp) (d : Reg) (e : Nat) : Nat :=
  if op = .fadd then fpEncode .f32 .rne false (Fv.ofInt (s.regD d e)) else pat 32 (s.regD d e)

/-- Checks one element of a vamo (R152, R202); the value is its physical address. -/
def State.vamoElem (s : State) (a : Word) : ElemRes :=
  match s.atomicWindow a.toNat 4 with
  | .trap t => .trap t s
  | .stall w => .stall w
  | .ok _ =>
    match s.transBut a.toNat .atomic s.user onControl with
    | .trap t => .trap t s
    | .stall w => .stall w
    | .ok (pa, _, s1) =>
      match s1.mustWait pa 4 with
        | some l => .stall (s.pinWait l)
        | none => .ok pa s1

/-- All word operations on one line, as one write at its home (R208). -/
def State.vamoLine (op : AmoOp) (data : Nat → Nat) (vals : List (Nat × Nat)) (s : State) (line : Nat) : State :=
  let s1 := s.beforeHome (line * 128) 128
  let mine := vals.filter fun v => lineOf v.2 = line
  let words := (mine.map (·.2)).dedup
  let s2 := words.foldl (fun st pa =>
      let xs := (mine.filter fun v => v.2 = pa).map fun v => data v.1
      { st with
        mem := st.mem.wr pa 4 (amo32 op (st.mem.rd pa 4) (combine (amo32 op) xs.length xs))
        dirtyLog := st.dirtyLog ++ [(pa, 4)] }) s1
  (s2.raise line).refresh (line * 128) 128

/-- vamo (R208 to R210). Each line's dirty bytes in the own cache reach its home before its read half (R317). With `cut` the stream stops after
that many line operations; none of them is split (R211). -/
def State.vamo (cut : Option Nat) (op : AmoOp) (cd cb : Bool) (o : Order) (sc : Scope) (k : BitVec 3) (d a b : Reg) (s : State) : Res :=
  s.vecIssue s.noResume false d [b] [a] fun v s1 =>
    let addr (e : Nat) : Word := s.indexed (nth v 0) b 4 e
    let es := s.gatherLanes k
    let l := elemLoop (fun e st => st.vamoElem (addr e)) true es (startLoop s1)
    match l.wait with
    | some w => s.stall w
    | none =>
      s.orderThen l.st (relOf o) (acqOf o) sc fun s2 =>
        let lines := cutAt cut (l.vals.map (fun x => lineOf x.2)).reverse.dedup.reverse
        let s3 := lines.foldl (fun st ln => (st.counted (ln * 128) 128).beforeHome (ln * 128) 128) s2
        let good := lines.filter fun ln => !s3.poison.contains ln
        let bad := lines.filter fun ln => s3.poison.contains ln
        let mine := l.vals.filter fun x => good.contains (lineOf x.2)
        let s4 := good.foldl (State.vamoLine op (s.amoData op d) mine) s3
        let s5 := ((bad.foldl (fun st ln => st.reportPoison (ln * 128)) s4).noteRows [s.srcD d] (mine.map (·.1))).noteRows [s.srcB b false] es
        if cut.isSome then s.cutGather s5 es (mine.map (·.1))
        else
          let fails := sortBy (fun x y => x.1 ≤ y.1)
            (l.fails ++ (l.vals.filter fun x => bad.contains (lineOf x.2)).map fun x => (x.1, TrapInfo.addr memoryError (addr x.1) .atomic))
          s.gatherEnd s5 fails fun s6 =>
            (s6.acquireIf (acqOf o) sc).storeIssued (eatReg cd d s.me.wD ++ eatReg cb b s.me.wB) (if acqOf o then some sc else none)

def execVamo (op : AmoOp) (_ord : Bool) (cd cb : Bool) (o : Order) (sc : Scope) (k : BitVec 3) (d a b : Reg) (s : State) : Res :=
  s.vamo none op cd cb o sc k d a b

-- A stop request inside a vector memory instruction (R211, R348)

/-- The vector memory instruction at which a stopped stream stands performs its first `n` elements, or for vamo line operations, and no
more; any other instruction, and one that stalls before issue, is not begun (R211, R347, R348, R349). -/
def State.partOf (i : Instr) (n : Nat) (s : State) : State :=
  let r : Option Res := match i with
    | .vld _ u z k d a disp => some (s.vld (some n) u z k d a disp)
    | .vlds _ u z k d a b disp => some (s.vlds (some n) u z k d a b disp)
    | .vldx _ u z cb k d a b disp => some (s.vldx (some n) u z cb k d a b disp)
    | .vldff _ u z k d a disp => some (s.vldff (some n) u z k d a disp)
    | .vst _ z cd k d a disp => some (s.vst (some n) z cd k d a disp)
    | .vsts _ z cd k d a b disp => some (s.vsts (some n) z cd k d a b disp)
    | .vstx _ z cd cb k d a b disp => some (s.vstx (some n) z cd cb k d a b disp)
    | .vamo op _ cd cb o sc k d a b => some (s.vamo (some n) op cd cb o sc k d a b)
    | _ => none
  match r with
  | some (.next t) => if t.me.wait.isSome || t.me.inHandler != s.me.inHandler || t.me.tcause != s.me.tcause then s else t
  | _ => s

end Sys2Proof.Machine
end

