-- ==== Sys2Proof/Machine/Engines.lean ====
section
/-! DEFINITION. Events of the streams and engines of the hart in focus: late results, completions, row steps, walks, pending
traps, time limits, the cache, and the stop of a stream (R115, R128, R134, R139, R178, R200, R316, R333, R342, R359). An event that
finds nothing to act on leaves the state as it is. -/
namespace Sys2Proof.Machine

/-- ASYNCHRONOUS_RESULT_DELIVERY (R115, R431). -/
def execAsyncDelivery (s : State) : Res := .next s.deliverOne

/-- The oldest vector load completes: its register turns FULL (R23, R200). -/
def State.loadCompletes (s : State) : State :=
  match s.hart.vloads with
  | [] => s
  | l :: ls => { s with hart := { s.hart with vloads := ls }.setFull true (if l.pair then [l.reg, l.reg + 1] else [l.reg]) }

def execVloadCompletion (s : State) : Res := .next s.loadCompletes

/-- The oldest vector store, scatter or vamo completes, with the acquire that its vamo asked for; the acquire's write-backs keep their places
at the homes that answer with a retry (R200, R208, R333). -/
def State.vmemCompletes (s : State) : State :=
  match s.me.vmem with
  | [] => s
  | m :: ms =>
    let s1 := { s with me := { s.me with vmem := ms } }
    match m.acq with
    | none => s1
    | some c =>
      match if wideScope c then s.dirtyWaitsAt (m.since s.stamp) else none with
      | some l =>
        let asked := (addLine ((m.asked.map (·.1)).getD []) l, m.since s.stamp)
        { s.markRetried l with me := { s.me with vmem := { m with asked := some asked } :: ms }, stamp := s.stamp + 1 }
      | none => s1.acquire c

def execVectorMemoryCompletion (s : State) : Res := .next s.vmemCompletes

/-- LANE_ARRAY_COMPLETION: the lanes are free again (R178). -/
def execLaneCompletion (s : State) : Res := .next { s with hart := { s.hart with laneBusy := 0 } }

/-- MATRIX_ROW_STEP; a stopped team makes none (R348). -/
def execMatrixRowStep (s : State) : Res := .next (if s.held then s else s.rowStep)
def execMatrixDone (s : State) : Res := .next s.matrixEnd

/-- PAGE_WALK: a walk for the hart in focus that ends in a leaf which permits the access fills the TLBs; a fault is the waiting
access's own, and the read of an entry on a pinned line is made again after the pin's end (R333, R359, R362, R363). -/
def execPageWalk (va : Word) (acc : Acc) (s : State) : Res :=
  if inLocal va.toNat || inLane va.toNat || !canonical va.toNat then .next s
  else match (s.walkLines s.hart.vd.toNat va.toNat).findSome? fun a => s.mustWait a 8 with
    | some l => .next (s.markRetried l)
    | none =>
      match s.walkVd s.hart.vd.toNat va.toNat with
      | .error _ => .next s
      | .ok l => .next (if permits l.pte acc s.user then s.useLeaf s.hart.vd.toNat va.toNat l acc else s)

/-- The stream in focus no longer asks for a semaphore (R161). -/
def State.leaveSemq (s : State) : State := s.setComm { s.clus.comm with semq := s.clus.comm.semq.filter (fun x => x.2 ≠ s.streamId) }

/-- The stream is within a launch that has been sent or that the inlet holds (R137, R291). -/
def Strm.launching (t : Strm) : Bool :=
  match t.wait with
  | some (.answer ..) | some (.inlet ..) => true
  | _ => false

/-- The stream is suspended in a wfi (R134). -/
def Strm.inWfi (t : Strm) : Bool := match t.wait with | some (.wfi _) => true | _ => false

/-- A suspended wfi completes (R134). -/
def Strm.wfiDone (t : Strm) : Strm := match t.wait with | some (.wfi a) => t.completes a | _ => t
def State.wfiDone (s : State) : State := { s with me := s.me.wfiDone }

/-- TRAP_ENTRY: the oldest pending channel fault is taken before the stream's next instruction; a stall, or the wait of an exit,
is abandoned, a wfi completes, and a launch that is on its way completes first (R134, R137, R260, R342). -/
def execTrapEntry (s : State) : Res :=
  match s.me.faults with
  | [] => .next s
  | t :: ts =>
    if s.me.pfx.isSome || s.me.stopped || s.held || s.me.launching then .next s
    else
      let s1 := s.wfiDone
      State.trap { s1.leaveSemq with me := { s1.me with faults := ts, exiting := false } } t

/-- TVAL of "queue watchdog" (R128). -/
def watchdogVal (presence write : Bool) (r : Reg) : Word := va64 (r.toNat + boolNat presence * 32 + boolNat write * 64)

/-- QUEUE_WATCHDOG: the stall has lasted 16,777,216 cycles; the count stands still while the other stream, if it has not
stopped, is in a handler (R139, R345, log 101), and a pending channel fault is taken before this trap (R128, R342). No trap comes on an E-stream whose row step waits on a chained channel (R425). -/
def execQueueWatchdog (s : State) : Res :=
  if s.me.stopped || s.me.exiting || (s.peer.inHandler && !s.peer.stopped) || s.held || !s.me.faults.isEmpty || (s.isE && s.rowHeld) then .next s
  else match s.me.wait with
    | some (.queue w r) => s.trap (.plain watchdogCause (watchdogVal false w r))
    | some (.presence w r) => s.trap (.plain watchdogCause (watchdogVal true w r))
    | _ => .next s

/-- WFI_TIMEOUT: the wfi of a stream that no stop request holds completes (R134, R349, log 88). -/
def execWfiTimeout (s : State) : Res := .next (if s.held then s else s.wfiDone)

/-- The time of a pin that the home has answered with a retry is over: it ends in the core that holds it, as by a die-scope release of that
line alone (R333). -/
def State.expirePin (s : State) (line : Nat) : State :=
  let mine (l : CLine) : Bool := l.line = line && l.pin.isSome && l.retried
  let s1 := s.unpin mine
  let s2 := s1.cores.foldl (fun s c => (c.2.dcache.filter mine).foldl State.writeBack s) s1
  { s2 with cores := s1.cores.map fun c =>
      (c.1, { c.2 with dcache := upd mine (fun l => { l.clean with pin := none, retried := false }) c.2.dcache }) }

def execPinExpiry (line : Nat) (s : State) : Res := .next (s.expirePin line)

/-- CACHE_EVICTION: an unpinned line of the core in focus leaves its cache, once its dirty bytes can be written back (R316, R333). -/
def execCacheEviction (line : Nat) (s : State) : Res :=
  let gone (l : CLine) : Bool := l.line = line && s.canLeave l
  let s1 := s.cleanLines gone
  .next (s1.setCache (s1.core.dcache.filter (fun l => !gone l)))

-- The stop of a stream (R139, R296)

/-- Every access, copy command and matrix operation that the stream in focus issued is complete. -/
def State.quiet (s : State) : Bool :=
  s.me.pend.isEmpty && s.me.vmem.isEmpty &&
    if s.isE then s.hart.mq.isEmpty && s.hart.laneBusy = 0 else !s.copiesOutstanding && s.hart.vloads.isEmpty

/-- What a hart discards when both its streams have stopped; its registers keep what they hold (R139, R419,
R430, log 87). -/
def Hart.ended (h : Hart) : Hart :=
  { h with
    queues := Vector.replicate 8 [], pres := Vector.replicate 32 false, vset := [], endCount := h.vset.length, endPres := h.pres
    vovf := false }

/-- Every stream of the team in focus has stopped. -/
def State.teamStopped (s : State) : Bool := (s.allCtxs.filter (fun c => c.key = s.key)).all fun c => c.a.stopped && c.e.stopped

/-- The team in focus ends: its cores' dirty bytes reach their homes and the cores are free (R296, R318). Its harts hold what they held until
a team is placed there (R419, R423, R427 to R430). -/
def State.endTeam (s : State) : State :=
  let k := s.key
  let known := s.teams.any (fun t => t.key = k)
  let s0 := s.flushCores (s.coresOf k)
  let s1 := State.retireTeam { s0 with teams := s0.teams.filter (fun t => t.key ≠ k) } k
  if known then { s1 with grids := upd (fun g => g.vd = k.vd ∧ g.gid = k.gid) (fun g => { g with ended := g.ended + 1 }) s1.grids } else s1

/-- STREAM_STOP: an exiting stream with nothing outstanding stops; its team's barrier episode and its team may end with it
(R139, R163, R296). -/
def execStreamStop (s : State) : Res :=
  if s.me.exiting && !s.me.stopped && s.quiet && s.me.faults.isEmpty then
    let s1 := { s with me := { s.me with stopped := true, exiting := false, wait := none } }
    let s2 := if s1.peer.stopped then { s1 with hart := s1.hart.ended } else s1
    let s3 := if s2.hart.cf then s2.episode else s2
    if s3.teamStopped then
      -- the release of the team's end waits for the homes of its dirty lines (R296, R333)
      match s3.flushWaits (s3.coresOf s3.key) with
      | some l => .next (s.asks l)
      | none => .next s3.endTeam
    else .next s3
  else .next s

end Sys2Proof.Machine
end

