-- ==== Sys2Proof/Machine/Rails.lean ====
section
/-! DEFINITION. Rails, votes and frequencies (R403, R404), and the currents and energy of a die (R406, R407). Voltages count steps of
6.25 mV above 0.600 V, frequencies steps of 25 MHz. -/
namespace Sys2Proof.Machine

/-- The points of the table of R403: voltage step and MHz. -/
def fmaxPoints : List (Nat × Nat) := [(0, 1200), (16, 1800), (24, 2100), (32, 2500), (40, 2700), (48, 2800)]

/-- The highest legal frequency, in steps of 25 MHz, between the points of a table: interpolated and rounded down (R403). -/
def interpolate : List (Nat × Nat) → Nat → Nat
  | (v0, f0) :: (v1, f1) :: r, v => if v ≤ v1 then (f0 + (f1 - f0) * (v - v0) / (v1 - v0)) / 25 else interpolate ((v1, f1) :: r) v
  | [(_, f)], _ => f / 25
  | [], _ => 0

/-- fmax(V) (R403). -/
def fmax (v : Nat) : Nat := interpolate fmaxPoints v

/-- The highest vote in force; 0.600 V with none (R404). -/
def Rail.top (r : Rail) : Nat := r.votes.foldl (fun m x => max m x.2) 0

/-- The rail after its votes change (R404): a fall of the highest vote starts the dwell; a rise stops a descent, and if the rail still
stands above the vote the dwell runs again. -/
def Rail.revote (r : Rail) (votes : List (Nat × Nat)) : Rail :=
  let n := { r with votes := votes }
  if n.top < r.top then { n with dwell := true, falling := false }
  else if r.top < n.top ∧ r.falling then { n with dwell := decide (n.top < r.volt), falling := false }
  else n

/-- A partition casts its vote, or withdraws it. -/
def Rail.vote (r : Rail) (part : Nat) (v : Option Nat) : Rail :=
  r.revote (r.votes.filter (fun x => x.1 ≠ part) ++ match v with | some x => [(part, min x 48)] | none => [])

/-- Rail r of a die feeds its clusters 16r to 16r + 15 (R403). -/
def railClusters (die rail : Nat) : List Nat := List.range' (64 * die + 16 * rail) 16

def dieIx (die : BitVec 2) : Fin 4 := ⟨die.toNat % 4, Nat.mod_lt _ (by decide)⟩
def State.rail (s : State) (die rail : BitVec 2) : Rail := s.dies[dieIx die].rails[dieIx rail]
def State.setRail (s : State) (die rail : BitVec 2) (r : Rail) : State :=
  s.setDie (dieIx die) { s.dies[dieIx die] with rails := s.dies[dieIx die].rails.set (dieIx rail) r }

/-- The voltage step of the rail that feeds a cluster. -/
def State.voltOf (s : State) (cl : Nat) : Nat := (s.rail (BitVec.ofNat 2 (cl / 64)) (BitVec.ofNat 2 (cl % 64 / 16))).volt

/-- The clusters that a partition holds: those removed from it too, until their teams are saved (R357, R404). -/
def Part.held (p : Part) : List Nat := p.clusters ++ p.leaving

/-- The votes of a partition on rails where it no longer holds a cluster are withdrawn (R404). -/
def State.retireVotes (s : State) (part : Nat) (mine : List Nat) : State :=
  (List.range 16).foldl (fun s i =>
    let die := BitVec.ofNat 2 (i / 4)
    let rail := BitVec.ofNat 2 (i % 4)
    if (railClusters (i / 4) (i % 4)).any mine.contains || !(s.rail die rail).votes.any (fun x => x.1 = part) then s
    else s.setRail die rail ((s.rail die rail).vote part none)) s

end Sys2Proof.Machine
end

