-- ==== Sys2Proof/Machine/Teams.lean ====
section
/-! DEFINITION. Events of the grid scheduler: placement, pre-emption, quanta, aging, charges and power grants (R297 to R307, R347, R405). -/
namespace Sys2Proof.Machine

-- Placement (R297 to R299, R301, R304)

/-- A cluster that a team is placed on leaves retention and its power gate (R390). -/
def State.powerUp (s : State) (cl : Nat) : State := s.setClus cl { s.clusOf cl with retention := false, gated := false }

/-- A team of a grid starts on a block of cores at instant `at_` (R50, R297, R298). -/
def State.startTeam (s : State) (v : Vd) (g : Grid) (tid cl c0 at_ : Nat) : State :=
  let t : Team :=
    { key := ⟨v.id, g.gid, tid⟩, st := .resident, clus := cl, core := c0, cores := dCores g.desc, since := at_, placedAt := at_
      charge := s.chargeOf g.desc, area := 0, limit := 0, gen := 0, seed := 0, faulted := false, out := false }
  let s1 := (s.powerUp cl).clearCores t.coreIds
  let s2 := (List.range (dHarts g.desc)).foldl (fun st j => st.putCtx (startCtx v g tid cl c0 j)) s1
  let s3 := if dCf g.desc then s2.setClus cl { s2.clusOf cl with comm := CommFile.start } else s2
  State.mapGrid { s3 with teams := s3.teams ++ [t] } v.id g.gid
    fun g => { g with nextTeam := tid + 1, st := .running, aged := 0 }

/-- A swapped team gets cores; Cloche restores it onto them (R354). -/
def State.replaceTeam (s : State) (k : TeamKey) (cl c0 charge : Nat) : State :=
  (s.powerUp cl).mapTeam k fun t =>
    match t.st with
    | .saved x => { t with st := .restoring x, clus := cl, core := c0, charge := charge }
    | _ => t

/-- Places the waiting team at a place. -/
def State.placeAt (s : State) (w : Waiting) (p : Nat × Nat) (at_ : Nat) : State :=
  match s.findVd w.grid.vd with
  | none => s
  | some v => if w.swapped then s.replaceTeam w.key p.1 p.2 (s.chargeOf w.grid.desc) else s.startTeam v w.grid w.key.tid p.1 p.2 at_

/-- The waiting teams in the order of the offers (R301). -/
def State.offers (s : State) : List Waiting := sortBy (fun x y => !offerBefore y x) s.waiting

/-- A channel withdraws its command's request at a home. -/
def Core.withdrawn (c : Core) : Core := { c with chans := c.chans.map fun ch => { ch with pinWait := none } }

/-- A stop request to a resident team at instant `at_`: its streams cease issue and its engines stop at their units (R347, R348). -/
def State.stopTeam (s : State) (k : TeamKey) (at_ : Nat) : State :=
  match s.teams.find? (fun t => t.key = k && t.st == .resident) with
  | none => s
  | some t =>
    (t.coreIds.foldl (fun s c => s.setCore c (s.coreOf c).withdrawn) s).mapTeam k fun t =>
      if t.st = .resident then { t with st := .stopping, since := at_ } else t

/-- Stop requests to several teams at one instant. -/
def State.stopTeams (s : State) (ks : List TeamKey) : State :=
  ks.foldl (fun st k => st.stopTeam k s.stamp) { s with stamp := s.stamp + 1 }

/-- A team that the scheduler can take its cores from: a resident one, or one that a collapse under WC0 keeps on its cores (R390). -/
def State.movable (s : State) (t : Team) : Bool := t.st == .resident || s.stays t

/-- A swap-out at instant `at_`: the team is stopped, if no collapse has stopped it before, and Cloche is to save it; its cluster leaves
retention for the save (R304, R305, R307, R311, log 98). -/
def State.swapOut (s : State) (k : TeamKey) (at_ : Nat) : State :=
  match s.teams.find? fun t => t.key = k && s.movable t with
  | none => s
  | some t => ((s.stopTeam k at_).powerUp t.clus).mapTeam k fun t =>
      if t.st = .stopping then { t with since := at_, out := true } else t

/-- Swap-outs of several teams at one instant. -/
def State.swapOuts (s : State) (ks : List TeamKey) : State :=
  ks.foldl (fun st k => st.swapOut k s.stamp) { s with stamp := s.stamp + 1 }

/-- The order in which a cluster's victims are taken (R304); teams alike in all three stand in the order of the list (log 99). -/
def State.victimBefore (s : State) (x y : Team) : Bool :=
  if s.teamPrio x ≠ s.teamPrio y then s.teamPrio x < s.teamPrio y
  else if x.placedAt ≠ y.placedAt then y.placedAt < x.placedAt
  else y.key.tid < x.key.tid

/-- Takes victims until the grid's team fits the cluster: the victims, and the block (R304). -/
def State.victims (s : State) (g : Grid) (cl : Nat) : List Team → List Team → List Team → Option (List Team × Nat)
  | [], ts, out => (s.fitsIn ts g cl).map fun b => (out, b)
  | x :: xs, ts, out =>
    match s.fitsIn ts g cl with
    | some b => some (out, b)
    | none => s.victims g cl xs (ts.filter (fun t => t.key ≠ x.key)) (out ++ [x])

def State.topPrio (s : State) (ts : List Team) : Nat := ts.foldl (fun m t => max m (s.teamPrio t)) 0

/-- A cluster with its victims and the block that they leave. -/
structure Choice where
  cl : Nat
  out : List Team
  block : Nat

/-- A plan at one instant: the state with the stop requests made so far, and the teams that occupy cores once every stop has run its course
and every team planned for has its place. -/
structure SwapPlan where
  s : State
  ts : List Team

/-- What the cores hold when the saves in progress are complete (R305, R390). -/
def State.swapPlan (s : State) : SwapPlan := ⟨s, s.occupying.filter fun t => t.st != .stopping || s.stays t⟩

/-- A waiting team is planned for a place. -/
def SwapPlan.take (x : SwapPlan) (w : Waiting) (p : Nat × Nat) : SwapPlan :=
  { x with ts := x.ts ++ [
      { key := w.key, st := .stopping, clus := p.1, core := p.2, cores := dCores w.grid.desc, since := 0, placedAt := 0
        charge := x.s.chargeOf w.grid.desc, area := 0, limit := 0, gen := 0, seed := 0, faulted := false, out := true }] }

/-- Chosen teams go out, for a waiting team (R304, R305). -/
def SwapPlan.swap (x : SwapPlan) (out : List Team) (w : Waiting) (p : Nat × Nat) (at_ : Nat) : SwapPlan :=
  SwapPlan.take { s := out.foldl (fun st t => st.swapOut t.key at_) x.s, ts := x.ts.filter fun t => out.all (fun o => o.key ≠ t.key) } w p

/-- A team that a quantum's swap may choose: one whose last save did not fail (R307, log 78). -/
def State.swappable (s : State) (t : Team) : Bool := s.movable t && !t.faulted

/-- The victims that a waiting team of priority 7 pre-empts, if some cluster has them (R304). -/
def SwapPlan.preemption (x : SwapPlan) (w : Waiting) : Option Choice :=
  let s := x.s
  match s.findVd w.grid.vd with
  | none => none
  | some v =>
    let m := dCores w.grid.desc
    let cands := (s.partClusters v).filterMap fun cl =>
      let low := sortBy (fun y z => !s.victimBefore z y) (x.ts.filter fun t => t.clus = cl && s.movable t && decide (s.teamPrio t < 7))
      (s.victims w.grid cl low x.ts []).map fun y => (⟨cl, y.1, y.2⟩ : Choice)
    let idle (c : Choice) : Nat := s.idleAfter (x.ts.filter fun t => c.out.all (fun o => o.key ≠ t.key)) c.cl m
    let better (y z : Choice) : Bool :=
      if s.topPrio y.out ≠ s.topPrio z.out then s.topPrio y.out < s.topPrio z.out
      else if y.out.length ≠ z.out.length then y.out.length < z.out.length
      else if idle y ≠ idle z then idle y < idle z
      else y.cl < z.cl
    best better cands

/-- One waiting team of priority 7: it has the place that a swap in progress leaves, or pre-empts (R304). -/
def SwapPlan.preempt (at_ : Nat) (x : SwapPlan) (w : Waiting) : SwapPlan :=
  match x.s.choosePlace x.ts w.grid with
  | some p => x.take w p
  | none =>
    match x.preemption w with
    | none => x
    | some c => x.swap c.out w (c.cl, c.block) at_

/-- PLACEMENT_OFFER, at one instant: every waiting team that fits is placed, in the order of the offers (R301); then the waiting teams of
priority 7 pre-empt (R304). -/
def State.offer (s : State) : State :=
  let at_ := s.stamp
  let s1 := (s.offers.filter fun w => !w.saving).foldl
    (fun st w => match st.choosePlace st.occupying w.grid with | some p => st.placeAt w p at_ | none => st) { s with stamp := s.stamp + 1 }
  ((s1.offers.filter fun w => w.grid.prio = 7).foldl (SwapPlan.preempt at_) s1.swapPlan).s

def execPlacementOffer (s : State) : Res := .next s.offer

-- Quanta and aging (R300, R305)

/-- The team holds its cores and runs, or is being stopped: it is resident until its save is complete (R302, R353). -/
def Team.onCores (t : Team) : Bool := t.st == .resident || t.st == .stopping

/-- One waiting team at an instant at which quanta expire: it has the place that a swap in progress leaves, or the chosen team goes out for
it (R305); candidates alike in residency and TEAMID stand in the order of the list (log 99). -/
def SwapPlan.quantum (expired : List TeamKey) (at_ : Nat) (x : SwapPlan) (w : Waiting) : SwapPlan :=
  match x.s.choosePlace x.ts w.grid with
  | some p => x.take w p
  | none =>
    let without (t : Team) : List Team := x.ts.filter fun y => y.key ≠ t.key
    let cands := x.ts.filter fun t =>
      expired.contains t.key && x.s.swappable t && decide (x.s.teamPrio t ≤ w.grid.effPrio) && (x.s.choosePlace (without t) w.grid).isSome
    match best (fun y z => decide (y.placedAt < z.placedAt ∨ (y.placedAt = z.placedAt ∧ y.key.tid < z.key.tid))) cands with
    | none => x
    | some t =>
      match x.s.choosePlace (without t) w.grid with
      | none => x
      | some p => x.swap [t] w p at_

/-- QUANTUM_EXPIRY: the quanta of the listed resident teams expire at one instant (R305). -/
def execQuantumExpiry (teams : List TeamKey) (s : State) : Res :=
  .next (s.offers.foldl (SwapPlan.quantum teams s.stamp) ({ s with stamp := s.stamp + 1 } : State).swapPlan).s

/-- AGING: a grid with a waiting team and no resident team has waited another 8 ms (R300). -/
def execAging (vd gid : Nat) (s : State) : Res :=
  let waits := s.waiting.any fun w => w.grid.vd = vd ∧ w.grid.gid = gid
  let runs := s.teams.any fun t => t.key.vd = vd && t.key.gid = gid && t.onCores
  .next (if waits && !runs then s.mapGrid vd gid fun g => { g with aged := g.aged + 1 } else s)

-- Energy and power (R302, R405)

/-- Charges one cluster's teams for the energy above their charges over the last millisecond; 1 mW is 10^6 pJ in 1 ms (R302). -/
def State.chargeCluster (s : State) (cl : Nat) : State :=
  let c := s.clusOf cl
  let ts := s.teams.filter fun t => t.clus = cl && t.onCores
  let used := (c.energy - c.energyMark) / 1000000
  let excess := used - (ts.map (·.charge)).sum
  let cores := (ts.map (·.cores)).sum
  let s1 := s.setClus cl { c with energyMark := c.energy }
  if cores = 0 then s1
  else { s1 with teams := s1.teams.map fun t =>
      if t.clus = cl && t.onCores then { t with charge := t.charge + excess * t.cores / cores } else t }

def dieClusters (die : Nat) : List Nat := List.range' (64 * die) 64

/-- ENERGY_CHARGE_WINDOW at a 1 ms boundary, for one die. -/
def execEnergyWindow (die : BitVec 2) (s : State) : Res := .next ((dieClusters die.toNat).foldl State.chargeCluster s)

/-- The part of the available power that a die receives; a cluster that is leaving counts until its teams are saved (R357, R405). -/
def State.dieShare (s : State) (available die : Nat) : Nat :=
  (s.parts.map fun p =>
    let c := p.held.length
    if c = 0 then 0 else available * p.powerShare * (p.held.filter fun x => x / 64 = die).length / (256 * c)).sum

/-- How far a cluster's energy in this window runs above its teams' charges, in picojoules. -/
def State.clusterExcess (s : State) (cl : Nat) : Int :=
  let c := s.clusOf cl
  ((c.energy - c.energyMark : Nat) : Int) - ((s.teams.filter fun t => t.clus = cl && t.onCores).map (·.charge)).sum * 1000000

/-- A die over its grant is slowed: the cluster with the largest excess first, by 25 MHz, then by the current limits (R405). -/
def State.slowDie (s : State) (die : Fin 4) : State :=
  let s1 := { s with tick := s.tick + 1 }
  if Config.measuredPower die.val s.tick ≤ s.grantOf die.val then s1
  else match best (fun x y => decide (s.clusterExcess y < s.clusterExcess x)) ((dieClusters die.val).filter fun c => 24 < (s.clusOf c).freq) with
    | some c => s1.setClus c { s1.clusOf c with freq := (s1.clusOf c).freq - 1 }
    | none => s1.setDie die { s1.dies[die] with cl := if s1.dies[die].cl = 3 then 3 else s1.dies[die].cl + 1 }

/-- POWER_GRANT: `available` is the module maximum less what the rest of the module draws, in milliwatts (R405). -/
def execPowerGrant (available : Nat) (s : State) : Res :=
  let s1 := (List.finRange 4).foldl (fun st i => st.setDie i { st.dies[i] with grant := s.dieShare (min available Config.modulePower) i.val }) s
  .next ((List.finRange 4).foldl State.slowDie s1)

end Sys2Proof.Machine
end

