-- ==== Sys2Proof/Machine/Cloche.lean ====
section
/-! DEFINITION. Cloche: what it saves of a team, the save area, the save and the restore (R307, R347 to R354). -/
namespace Sys2Proof.Machine

/-- One access of Cloche to a page of a save area: its physical address, and the state with the leaf marked, or its cause if it fails
(R350, R353, R362). -/
def State.areaPage (s : State) (vd va : Nat) (acc : Acc) : Except (BitVec 8) (Nat × State) :=
  if !canonical va || inLocal va || inLane va then .error protection
  else match s.walkVd vd va with
    | .error c => .error c.1
    | .ok l =>
      let pa := physOf l.lvl l.pte va
      if pteR l.pte && pteW l.pte && !pteCmp l.pte && ptePin l.pte && decide (pteMt l.pte ≤ 1) && s.reachable pa l.pte then .ok (pa, s.hubLeaf l acc)
      else .error protection

/-- A line that Cloche's accesses to the listed 4 KiB blocks of an area must wait for (R333). -/
def State.areaWaits (s : State) (vd area : Nat) (blocks : List Nat) (acc : Acc) (arrival : Nat) : Option Nat :=
  blocks.findSome? fun i => s.hubAccessWaits vd (area + 4096 * i) 4096 acc arrival

-- The context of a team

/-- Late results reach a stream that is being stopped (R169, R349). -/
def Strm.drain (t : Strm) (h : Hart) : Strm × Hart :=
  t.pend.foldl (fun x p =>
    if isQ p.dst then (x.1, x.2.setQ (qIdx p.dst) (fillPlace (x.2.q (qIdx p.dst)) p.val)) else (x.1.setReg p.dst p.val, x.2))
    ({ t with pend := [] }, h)

/-- A stream as Cloche saves it: at an instruction or prefixed-pair boundary, its wait to be issued again. A launch that is on its way still
awaits its answer (R137, R347 to R349). -/
def Strm.atBoundary (t : Strm) : Strm :=
  { t with pc := t.issueAddr, pfx := none, wait := if t.launching then t.wait else none, fetchBuf := [], vmem := [], age := 0, ready := 0 }

/-- The context as Cloche saves it; a saved queue holds entries only (R431). -/
def Ctx.forSave (c : Ctx) : Ctx :=
  let x := c.a.drain c.hart
  let y := c.e.drain x.2
  let full := y.2.vloads.flatMap fun l => if l.pair then [l.reg, l.reg + 1] else [l.reg]
  { a := x.1.atBoundary, e := y.1.atBoundary
    hart := { y.2.setFull true full with
      vloads := [], laneBusy := 0, tests := [], queues := y.2.queues.map fun q => q.filter fun e => e != .reserved } }

/-- The place in a queue of the result of a launch that the stream still waits for, which its restored hart holds again (R431). -/
def Hart.reserveFor (h : Hart) (t : Strm) : Hart :=
  match t.wait with
  | some (.answer d _) | some (.inlet d _) => if isQ d then h.setQ (qIdx d) (h.q (qIdx d) ++ [.reserved]) else h
  | _ => h

/-- The harts of a team, in the order of their numbers. -/
def State.teamCtxs (s : State) (k : TeamKey) : List Ctx :=
  sortBy (fun x y => x.hart.id.toNat ≤ y.hart.id.toNat) (s.allCtxs.filter (fun c => c.key = k))

/-- What Cloche saves of a team. -/
def State.imageOf (s : State) (t : Team) : Saved :=
  let cs := s.teamCtxs t.key
  { ctxs := cs.map Ctx.forSave
    cores := t.coreIds.map fun i => { (s.coreOf i).withdrawn with dcache := [], tlb := [] }
    comm := if cs.any (·.hart.cf) then some { (s.clusOf t.clus).comm with semq := [] } else none }

-- The area (R350, R351)

/-- DW1 to DW7 of the header (R351). -/
def headerWords (t : Team) (x : Saved) : List Nat :=
  let h := (x.ctxs.head?.map (·.hart)).getD (Hart.vacant 0)
  [x.size, t.key.gid * 2 ^ 32 + t.key.tid,
   t.key.vd * 2 ^ 32 + t.cores * 2 ^ 24 + boolNat h.cf * 2 ^ 23 + h.sph.toNat * 2 ^ 16 + h.lph.toNat * 2 ^ 8 + x.ctxs.length,
   Config.implCode.toNat, 0, 0, 0]

def validWord (gen : Nat) : Nat := gen % 2 ^ 32 * 2 ^ 32 + 0xC10C * 2 ^ 16 + 1

def Saved.blocks (x : Saved) : List Nat := List.range (x.size / 4096)

/-- The bytes of a block of the sections: their layout belongs to the implementation (R350). -/
def sectionBytes (seed i : Nat) : List Byte := (List.range 4096).map fun j => Config.saveByte seed (4096 * i + j)

/-- Why a save stops: the cause, the address and the bytes written. -/
structure SaveStop where
  cause : Nat
  addr : Nat
  bytes : Nat

/-- A hart of the team holds state that cannot be read. -/
def Hart.unreadable (h : Hart) : Bool := !h.scratchBad.isEmpty || !h.laneBad.isEmpty

/-- The block at which the section of the first hart that cannot be read begins (R350, R353, log 79). -/
def Saved.badBlock (x : Saved) : Option Nat :=
  (x.ctxs.findIdx? (·.hart.unreadable)).map fun j => Saved.size { x with ctxs := x.ctxs.take j } / 4096

/-- Writes the sections, 4 KiB at a time, each checked first; a section that cannot be read ends the save (R352, R353). -/
def State.saveBlocks (area limit seed : Nat) (vd : Nat) (bad : Option Nat) : List Nat → State → Except (SaveStop × State) State
  | [], s => .ok s
  | i :: is, s =>
    let va := area + 4096 * i
    if limit < 4096 * (i + 1) then .error (⟨0x100, va, 4096 * i⟩, s)
    else match s.areaPage vd va .write with
      | .error c => .error (⟨c.toNat, va, 4096 * i⟩, s)
      | .ok (pa, s1) =>
        if bad = some i then .error (⟨memoryError.toNat, va, 4096 * i⟩, s1)
        else
          let bytes := sectionBytes seed i
          State.saveBlocks area limit seed vd bad is (s1.homePut pa (if i = 0 then List.replicate 8 0 ++ bytes.drop 8 else bytes))

/-- The team stays resident and runnable; no quantum and no pre-emption takes it until the partition supervisor has dealt with the event
(R307, R353). One that WC0 keeps on its cores stays stopped there (log 98). -/
def State.abortSave (s : State) (t : Team) (x : SaveStop) : State :=
  let st : TeamState := if s.keeps t.key.vd then .stopping else .resident
  (s.mapTeam t.key fun t => { t with st := st, faulted := true, out := false }).report (.saveFault t.key x.cause (va64 x.addr) x.bytes)

/-- A core of the team has been removed for a lasting fault (R353, R357). -/
def State.coreFaulty (s : State) (t : Team) : Bool := t.coreIds.any s.removed.contains

/-- A team whose state cannot be read on a core that is being removed ends as by an unhandled trap (R344, R353). -/
def State.loseTeam (s : State) (t : Team) (x : Saved) (addr : Nat) : State :=
  let s1 := s.discardTeam t.key
  let c := (x.ctxs.find? (·.hart.unreadable)).getD { a := Strm.off, e := Strm.off, hart := Hart.vacant 0 }
  State.report { s1 with
    grids := upd (fun g => g.vd = t.key.vd ∧ g.gid = t.key.gid) (fun g => { g with ended := g.ended + 1, unhandled := true }) s1.grids }
    (.unhandledTrap memoryError c.a.issueAddr (va64 addr) c.hart.id false t.key)

/-- Step 1 of a save: 0 in the valid word, if a write can reach it (R352). -/
def State.clearValid (s : State) (vd area : Nat) : State :=
  if inLocal area || inLane area then s
  else match s.hubWalk vd area .write with
    | some (pa, pte, s1) => if pteMt pte ≤ 1 then s1.homePut pa (leBytes 8 0) else s
    | none => s

/-- The errors of the first hart that cannot be read are met by the save: each is reported, and a lane error begins its lane's test (R409,
R411). -/
def State.meetErrors (s : State) (x : Saved) : State :=
  match x.ctxs.find? (·.hart.unreadable) with
  | none => s
  | some c =>
    let vd := c.hart.vd.toNat
    let s1 := c.hart.scratchBad.foldl (fun s w => s.event vd 8 0 (va64 (localBase + 8 * w))) s
    c.hart.laneBad.foldl (fun s r => s.rowBad c.hart.id vd r) s1

/-- The steps of a save, for a team whose accesses are released; the last frees its cores (R352, R353). -/
def State.writeArea (s : State) (t : Team) (x : Saved) (area limit : Nat) : State :=
  let s0 := { s.clearValid t.key.vd area with nextId := s.nextId + 1 }
  match s0.saveBlocks area limit s.nextId t.key.vd x.badBlock x.blocks with
  | .error (e, s1) =>
    if x.badBlock.isSome && e.cause = memoryError.toNat then
      let s2 := s1.meetErrors x
      if s.coreFaulty t then s2.loseTeam t x e.addr else s2.abortSave t e
    else s1.abortSave t e
  | .ok s1 =>
    match s1.areaPage t.key.vd area .write with
    | .error c => s1.abortSave t ⟨c.toNat, area, x.size⟩
    | .ok (pa, s2) =>
      let s3 := (s2.homePut (pa + 8) ((headerWords t x).flatMap (leBytes 8))).homePut pa (leBytes 8 (validWord (t.gen + 1)))
      let s4 := if x.comm.isSome then s3.setClus t.clus { s3.clusOf t.clus with comm := CommFile.start } else s3
      let s5 := (s4.dropTeam t.key).clearCores t.coreIds
      s5.mapTeam t.key fun t =>
        { t with st := .saved x, area := va64 area, limit := limit, gen := t.gen + 1, seed := s.nextId, charge := 0, faulted := false }

/-- CLOCHE_SAVE of a stopped team: the team's accesses are released, then its area is written; a line whose home answers with a retry
holds the save up (R333, R347, R352, R353). -/
def State.saveTeam (s : State) (t : Team) (area : Word) (limit arrival : Nat) : State :=
  let op : HubOp := .act (.clocheSave t.key area limit)
  match s.flushWaits t.coreIds with
  | some l => s.hubKeep op l arrival
  | none =>
    let s1 := s.flushCores t.coreIds
    let x := s1.imageOf t
    match s1.areaWaits t.key.vd area.toNat x.blocks .write arrival with
    | some l => s1.hubKeep op l arrival
    | none => s1.writeArea t x area.toNat limit

def State.clocheSave (s : State) (team : TeamKey) (area : Word) (limit arrival : Nat) : State :=
  match s.findTeam team with
  | some t => if t.st = .stopping && !s.stays t && !s.hubHas (.act (.clocheSave team area limit)) then s.saveTeam t area limit arrival else s
  | none => s

def execClocheSave (team : TeamKey) (area : Word) (limit : Nat) (s : State) : Res := .next (s.clocheSave team area limit s.stamp)

-- The restore (R354)

/-- A restore that is refused or faults leaves the team waiting (R354). -/
def State.abortRestore (s : State) (t : Team) (x : Saved) (cause : Nat) (addr : Word) : State :=
  (s.mapTeam t.key fun t => { t with st := .saved x, charge := 0 }).report (.restoreFault t.key cause addr)

/-- Reads the blocks of an area: the physical address of each, or the cause and address at which the reading fails. -/
def State.readArea (vd area : Nat) : List Nat → List Nat → State → Except (Nat × Nat) (List Nat × State)
  | [], ps, s => .ok (ps, s)
  | i :: is, ps, s =>
    match s.areaPage vd (area + 4096 * i) .read with
    | .error c => .error (c.toNat, area + 4096 * i)
    | .ok (pa, s1) =>
      if s1.poisoned pa 4096 then .error (memoryError.toNat, area + 4096 * i) else State.readArea vd area is (ps ++ [pa]) s1

/-- The area at these physical addresses holds what Cloche wrote, from the header's reserved words DW5 to DW7 on; DW0 to DW4 are checked for
themselves. -/
def State.intact (s : State) (seed : Nat) (ps : List Nat) : Bool :=
  ps.zipIdx.all fun x =>
    if x.2 = 0 then decide ((s.mem.bytes x.1 4096).drop 40 = List.replicate 24 0 ++ (sectionBytes seed 0).drop 64)
    else decide (s.mem.bytes x.1 4096 = sectionBytes seed x.2)

-- What a team holds after a restore from altered bytes is open (R350, log 18): each object below is made of free numbers, in the form
-- that the objects of a team have.

def freeWord (f : Nat → Nat) (i : Nat) : Word := va64 (f i)

/-- Up to `cap` things made from the free numbers at `at_` and after. -/
def freeList {α : Type} (f : Nat → Nat) (cap at_ : Nat) (mk : Nat → α) : List α :=
  (List.range (f at_ % (cap + 1))).map fun i => mk (at_ + 1 + 64 * i)

def freePairs (f : Nat → Nat) (at_ : Nat) : List (Reg × Word) :=
  freeList f 4 at_ fun i => (BitVec.ofNat 5 (f i % 24), freeWord f (i + 1))

/-- A loop level: pairs registered, and an activation or none (R120 to R122). -/
def freeLevel (f : Nat → Nat) (i : Nat) : Level :=
  { pairs := freePairs f (i + 8)
    act := if f i % 2 = 0 then none else
      some { first := freeWord f (i + 1) &&& ~~~(3 : Word), last := freeWord f (i + 2) &&& ~~~(3 : Word), left := freeWord f (i + 3)
             iter := freeWord f (i + 4), mode := if f (i + 5) % 2 = 0 then .u else .s, strides := freePairs f (i + 300) } }

/-- A posted matrix operation, however far it has come (R223, R224). -/
def freeOp (f : Nat → Nat) (i : Nat) : MatOp :=
  { id := f i, masked := f (i + 1) % 2 == 1, fp32 := f (i + 2) % 2 == 1, zero := f (i + 3) % 2 == 1, cons := f (i + 4) % 2 == 1
    tile := f (i + 5), m0 := f (i + 6), kchunk := f (i + 7), breg := BitVec.ofNat 5 (f (i + 8))
    cfg := Vector.ofFn fun j : Fin 8 => freeWord f (i + 9 + j.val), vtype := BitVec.ofNat 21 (f (i + 17)), sat := BitVec.ofNat 2 (f (i + 18))
    rows := f (i + 19), cols := f (i + 20), pitch := f (i + 21), stage := [OpStage.posted, .running, .consumed].getD (f (i + 31) % 3) .posted, chain := freeList f 8 (i + 22) f }

/-- The kind of a queued copy command, with its fields (R247 to R254). -/
def freeKind (f : Nat → Nat) (i : Nat) : CopyKind :=
  let b (j : Nat) : Bool := f (i + j) % 2 == 1
  let n (j : Nat) : Nat := f (i + j)
  if n 0 % 5 = 0 then .cpy (if b 1 then some (BitVec.ofNat 8 (n 2)) else none)
  else if n 0 % 5 = 1 then .cpys (n 1) (n 2) (n 3)
  else if n 0 % 5 = 2 then .cpyt (b 1) (b 2) (n 3) (n 4) (n 5) (n 6) (n 7)
  else if n 0 % 5 = 3 then
    .cpyo (b 1) (b 2) ([CopyRed.none, .addi, .addf, .maxi, .mini, .maxf, .minf].getD (n 3 % 7) .none) (n 4) (n 5) (n 6)
  else .cpyg (n 1) (if b 2 then some (n 3) else none) (b 4) (b 5) (BitVec.ofNat 8 (n 6)) (b 7) (n 8) (n 9) (n 10) (n 11)

/-- A queued copy command of one of the listed harts (R242, R263). -/
def freeCmd (f : Nat → Nat) (harts : List (BitVec 14)) (i : Nat) : CopyCmd :=
  { id := f i, hart := harts.getD (f (i + 1) % harts.length) 0, user := f (i + 2) % 2 == 1, kind := freeKind f (i + 20), dst := f (i + 3)
    src := f (i + 4), len := f (i + 5), span := f (i + 16), tb := BitVec.ofNat 4 (f (i + 6)), phase := f (i + 7) % 2 == 1, started := f (i + 8) % 2 == 1
    pos := f (i + 9), counted := f (i + 10), more := f (i + 11) % 2 == 1, credited := f (i + 12), got := freeList f 16 (i + 4000) f
    gj := f (i + 13), gx := f (i + 14), gt := f (i + 15)
    before := if f (i + 17) % 2 = 0 then none else some { lanes := f (i + 18), rows := freeList f 32 (i + 6000) fun j => (f j % 512, f (j + 1)) } }

/-- A channel fault that waits for its stream (R342). -/
def freeTrap (f : Nat → Nat) (i : Nat) : TrapInfo :=
  { cause := BitVec.ofNat 8 (f i), tval := freeWord f (i + 1), wlvl := BitVec.ofNat 3 (f (i + 2)), ak := BitVec.ofNat 2 (f (i + 3))
    ech := BitVec.ofNat 3 (f (i + 4)), ef := f (i + 5) % 2 == 1, mh := f (i + 6) % 2 == 1 }

/-- An entry of the interlock table (R46). -/
def freeIlock (f : Nat → Nat) (i : Nat) : Ilock :=
  { owner := if f i % 2 = 0 then .cmd (f (i + 1)) else .op (f (i + 1)), lo := f (i + 2), len := f (i + 3), write := f (i + 4) % 2 == 1 }

/-- A core's shared objects, in the section that a save area has for them (R43, R44, R47, R350). -/
def Core.altered (f : Nat → Nat) (harts : List (BitVec 14)) (c : Core) : Core :=
  { c with
    keytab := freeList f Config.keySlots 100000 fun i => (BitVec.ofNat 32 (f i), BitVec.ofNat 32 (f (i + 1)))
    tbs := Vector.ofFn fun i : Fin 16 =>
      ⟨f (4 * i.val) % 2 == 1, f (4 * i.val + 1) % 2 == 1, f (4 * i.val + 2), BitVec.ofNat 40 (f (4 * i.val + 3))⟩
    chans := Vector.ofFn fun i : Fin 8 =>
      let k := 1000 + 10000 * i.val
      { queue := freeList f Config.chanSize k (freeCmd f harts), cpwp := freeWord f (k + 9000), flt := f (k + 9001) % 2 == 1
        fltCause := BitVec.ofNat 8 (f (k + 9002)), fltAddr := freeWord f (k + 9003)
        oob := if f (k + 9004) % 2 = 0 then none else some (freeWord f (k + 9005), f (k + 9006))
        rperr := if f (k + 9007) % 2 = 0 then none else some (f (k + 9008))
        abt := if f (k + 9009) % 2 = 0 then none else
          some ⟨f (k + 9010) % 2 == 1, BitVec.ofNat 4 (f (k + 9011)), BitVec.ofNat 40 (f (k + 9012))⟩
        pinWait := none } }

/-- The communication file and team barrier (R42, R163). -/
def CommFile.altered (f : Nat → Nat) (harts : List (BitVec 14)) : CommFile :=
  let stream (i : Nat) : StreamId := ⟨harts.getD (f i % harts.length) 0, f (i + 1) % 2 == 1⟩
  { sems := Vector.ofFn fun i : Fin 64 => f i.val % 2 == 1, cws := Vector.ofFn fun i : Fin 64 => freeWord f (64 + i.val)
    semq := freeList f (2 * harts.length) 1000 fun i => (BitVec.ofNat 6 (f i), stream (i + 1)), gen := f 128
    arrived := freeList f (2 * harts.length) 9000 stream }

/-- What a stream holds after such a restore. -/
def Strm.altered (f : Nat → Nat) (t : Strm) : Strm :=
  let w (i : Nat) : Word := va64 (f i)
  { t with
    pc := w 0 &&& ~~~(3 : Word), regs := Vector.ofFn fun i : Fin 24 => w (32 + i.val), mode := if f 1 % 2 = 0 then .u else .s
    vl := BitVec.ofNat 15 (f 2), vtype := BitVec.ofNat 21 (f 3), vstart := BitVec.ofNat 14 (f 4), vstat := BitVec.ofNat 5 (f 5)
    hvl := BitVec.ofNat 15 (f 6), hvtype := BitVec.ofNat 21 (f 7), hvstart := BitVec.ofNat 14 (f 8), tcause := BitVec.ofNat 8 (f 9)
    tpc := w 10 &&& ~~~(3 : Word), tval := w 11, tvec := w 12 &&& ~~~(0x3F : Word), tstat := BitVec.ofNat 16 (f 13) &&& 0xFFC3
    loops := Vector.ofFn fun i : Fin 6 => freeLevel f (100 + 50 * i.val), faults := freeList f 64 400000 (freeTrap f)
    inHandler := f 14 % 2 == 1, exiting := f 15 % 2 == 1, stopped := f 16 % 2 == 1
    arrive := if f 17 % 2 = 0 then none else some (f 18), cpMark := if f 19 % 2 = 0 then none else some (f 20) }

/-- What a hart's streams share after such a restore. -/
def Hart.altered (f : Nat → Nat) (h : Hart) : Hart :=
  let row (i : Nat) : Row := f i % 2 ^ h.lanes
  { h with
    planes := Vector.ofFn fun i : Fin 512 => row (1000 + i.val), masks := Vector.ofFn fun i : Fin 8 => row (2000 + i.val), kf := row 2008
    pres := Vector.ofFn fun i : Fin 32 => f (2100 + i.val) % 2 == 1
    wregs := Vector.ofFn fun i : Fin 32 => Vector.ofFn fun j : Fin 64 => BitVec.ofNat 32 (f (3000 + 64 * i.val + j.val))
    queues := Vector.ofFn fun i : Fin 8 => (List.range (f (2200 + i.val) % 17)).map fun j => QEnt.val (va64 (f (2300 + 16 * i.val + j)))
    vset := freeList f Config.vsetSize 4000000 fun i => (f i, BitVec.ofNat 48 (f (i + 1))), vovf := f 2009 % 2 == 1
    mcfg := if f 2010 % 2 = 0 then none else some (Vector.ofFn fun i : Fin 8 => freeWord f (2011 + i.val))
    mq := freeList f Config.mqSize 5000000 (freeOp f), mprog := f 2020
    mhalt := if f 2021 % 2 = 0 then none else some (freeWord f 2022), mtold := if f 2023 % 2 = 0 then none else some (freeWord f 2024)
    ilocks := freeList f Config.ilockSize 6000000 (freeIlock f)
    scratch := Memory.puts [] 0 ((List.range h.scratchSize).map fun i => BitVec.ofNat 8 (f (10000 + i))) }

/-- What the team holds after such a restore: every object that its save area has a section for (R350). -/
def Saved.altered (f : Nat → Nat) (x : Saved) : Saved :=
  let harts := x.ctxs.map (·.hart.id)
  { ctxs := x.ctxs.zipIdx.map fun c =>
      let g (i : Nat) : Nat := f (c.2 * 100000000 + i)
      { a := c.1.a.altered g, e := c.1.e.altered fun i => g (500000 + i), hart := c.1.hart.altered g }
    cores := x.cores.zipIdx.map fun c => c.1.altered (fun i => f (10000000000 + c.2 * 100000000 + i)) harts
    comm := x.comm.map fun _ => CommFile.altered (fun i => f (50000000000 + i)) harts }

/-- Hart j of a team of n harts per core whose block starts at core c0 of cluster cl (R298). -/
def hartAt (cl c0 n j : Nat) : BitVec 14 := BitVec.ofNat 14 (cl * 64 + (c0 + j / n) * 8 + j % n)

/-- Puts a saved team on its cores, its harts under their new numbers; they begin with no translation (R298, R354, R365). -/
def State.unsave (s : State) (t : Team) (x : Saved) : State :=
  let n := ((x.ctxs.head?.map (·.hart.n)).getD 1)
  let ids := x.ctxs.zipIdx.map fun c => (c.1.hart.id, hartAt t.clus t.core n c.2)
  let new (i : BitVec 14) : BitVec 14 := ((ids.find? (fun y => y.1 = i)).map (·.2)).getD i
  let s0 := (s.flushCores t.coreIds).clearCores t.coreIds
  let s1 := x.ctxs.foldl (fun st c => st.putCtx { c with hart := { (c.hart.reserveFor c.a).reserveFor c.e with id := new c.hart.id } }) s0
  let moved (c : Core) : Core :=
    { c with chans := c.chans.map fun ch => { ch with queue := ch.queue.map fun q => { q with hart := new q.hart } } }
  let s2 := (t.coreIds.zip x.cores).foldl (fun st c => st.setCore c.1 { moved c.2 with dcache := (st.coreOf c.1).dcache }) s1
  match x.comm with
  | none => s2
  | some f => s2.setClus t.clus { s2.clusOf t.clus with comm := { f with arrived := f.arrived.map fun a => { a with hart := new a.hart } } }

/-- The header of an area is one that a restore of the team accepts: valid, of the expected generation, shape and implementation (R351, R354). -/
def State.headerOk (s : State) (t : Team) (x : Saved) (pa : Nat) : Bool :=
  (List.range 5).map (fun i => s.mem.rd (pa + 8 * i) 8) == validWord t.gen :: (headerWords t x).take 4

/-- The team runs on its cores: its quantum begins, and its VD has less to restore (R305, R393). -/
def State.released (s : State) (t : Team) : State :=
  let s1 := s.mapTeam t.key fun t => { t with st := .resident, placedAt := s.stamp, out := false }
  let s2 := s1.mapVd t.key.vd fun v => { v with remain := if v.st = .waking then s1.savedUnits v.id else v.remain }
  State.mapGrid { s2 with stamp := s2.stamp + 1 } t.key.vd t.key.gid fun g => { g with aged := 0 }

/-- CLOCHE_RESTORE (R354): the header is checked, the area read, the team put on its cores, and the valid word cleared. The restored state is
open if the area's bytes are not those that Cloche wrote (R350). -/
def State.restoreTeam (s : State) (t : Team) (x : Saved) (arrival : Nat) : State :=
  let area := t.area.toNat
  match s.areaWaits t.key.vd area x.blocks .read arrival with
  | some l => s.hubKeep (.act (.clocheRestore t.key)) l arrival
  | none =>
    match s.areaPage t.key.vd area .read with
    | .error c => s.abortRestore t x c.toNat t.area
    | .ok (pa, s1) =>
      if s1.poisoned pa 64 then s1.abortRestore t x memoryError.toNat t.area
      else if !s1.headerOk t x pa then s1.abortRestore t x 0 t.area
      else match State.readArea t.key.vd area x.blocks [] s1 with
        | .error f => s1.abortRestore t x f.1 (va64 f.2)
        | .ok (ps, s2) =>
          let image := if s2.intact t.seed ps then x else x.altered (Config.alteredWord t.seed)
          ((s2.unsave t image).clearValid t.key.vd area).released t

def State.clocheRestore (s : State) (team : TeamKey) (arrival : Nat) : State :=
  match s.findTeam team with
  | some t =>
    match t.st with
    | .restoring x => if s.hubHas (.act (.clocheRestore team)) then s else s.restoreTeam t x arrival
    | _ => s
  | none => s

def execClocheRestore (team : TeamKey) (s : State) : Res := .next (s.clocheRestore team s.stamp)

/-- The partition supervisor gives Cloche the address to which software has copied a saved team's area (R350). -/
def State.areaMoved (s : State) (team : TeamKey) (area : Word) (limit : Nat) : State :=
  s.mapTeam team fun t => match t.st with | .saved _ => { t with area := area, limit := limit } | _ => t

/-- The partition supervisor has dealt with a save fault (R307). -/
def State.saveDealt (s : State) (team : TeamKey) : State := s.mapTeam team fun t => { t with faulted := false }

end Sys2Proof.Machine
end

