-- ==== Sys2Proof/Machine/Walk.lean ====
section
/-! DEFINITION. The stop walk over a graph, on this module and through the endpoints of others, and its resumption (R355, R356). -/
namespace Sys2Proof.Machine

/-- A grid as the stop walk sees it: of this module, `ix` being its GRIDID, or one that the VD has sent to another module, `ix` being its
place in the VD's list. `order` is its GRIDID; a remote one has bit 62 set, as launch returns it (R293). -/
structure Node where
  remote : Bool
  ix : Nat
  order : Nat
  desc : Desc
  sent : List (BitVec 8)
  deriving DecidableEq, Repr

/-- The grid belongs to the graph; 0 asks for every graph of the VD (R355). -/
def inGraph (graph : Nat) (d : Desc) : Bool := if graph = 0 then dGraph d != 0 else dGraph d == graph

def Grid.node (g : Grid) : Node := { remote := false, ix := g.gid, order := g.gid, desc := g.desc, sent := g.sent }
def Remote.node (r : Remote) (i : Nat) : Node := { remote := true, ix := i, order := r.gid + 2 ^ 62, desc := r.desc, sent := [] }

/-- The grids of a graph. -/
def State.nodes (s : State) (v : Vd) (graph : Nat) : List Node :=
  (s.grids.filter fun g => g.vd = v.id && inGraph graph g.desc).map Grid.node ++
    (v.remotes.zipIdx.filter fun r => inGraph graph r.1.desc).map fun r => r.1.node r.2

/-- An endpoint with this configuration delivers to the VD of grid c, on the module where c runs (R355, log 80). -/
def Vd.delivers (v : Vd) (k : EpConfig) (c : Node) : Bool :=
  if c.remote then !k.onModule && k.node == dNode c.desc && (v.epConfig (dEp c.desc)).any (fun x => x.remoteVd == k.remoteVd)
  else k.onModule && k.remoteVd == v.id

/-- Grid p feeds grid c (R355). -/
def Vd.feeds (v : Vd) (p c : Node) : Bool :=
  (dDone p.desc != 0 && dDone p.desc == dDep c.desc) || p.sent.any fun e => (v.epConfig e).any fun k => v.delivers k c

/-- The grids that `found` feed, directly or through others of `gs`, with themselves. -/
def Vd.fed (v : Vd) (gs : List Node) : Nat → List Node → List Node
  | 0, found => found
  | n + 1, found => v.fed gs n (found ++ gs.filter fun c => !found.contains c && found.any fun p => v.feeds p c)

/-- Every grid of `gs` with the grids that it feeds. -/
def Vd.reach (v : Vd) (gs : List Node) : List (Node × List Node) := gs.map fun g => (g, v.fed gs gs.length [g])

/-- The order of the walk: a grid comes after those that feed it and that it does not feed in turn, lower GRIDID first where that leaves a
choice, on a cycle of feeding too (R355). -/
def walkOrder : Nat → List (Node × List Node) → List Node
  | 0, _ => []
  | n + 1, gs =>
    let open_ := gs.filter fun g => gs.all fun p => !p.2.contains g.1 || g.2.contains p.1
    match best (fun x y : Node × List Node => decide (x.1.order < y.1.order)) open_ with
    | none => []
    | some g => g.1 :: walkOrder n (gs.filter fun x => x.1 ≠ g.1)

def State.walkNodes (s : State) (v : Vd) (graph : Nat) : List Node :=
  let gs := s.nodes v graph
  walkOrder gs.length (v.reach gs)

/-- A team of the grid occupies cores. -/
def State.gridResident (s : State) (g : Grid) : Bool := s.teams.any fun t => t.key.vd = g.vd && t.key.gid = g.gid && t.occupies
/-- A message that a team of the grid sent has not been accepted (R356). -/
def State.gridSending (s : State) (g : Grid) : Bool :=
  s.vds.any fun v => v.eps.any fun e => e.2.out.any fun m => m.from_.vd = g.vd && m.from_.gid = g.gid

/-- Stops every resident team of a grid. -/
def State.stopGrid (s : State) (g : Grid) : State :=
  s.stopTeams ((s.teams.filter fun t => t.key.vd = g.vd && t.key.gid = g.gid && t.st == .resident).map (·.key))

/-- The walk has visited the grid: a Running one is stopped, any other is held (R356). -/
def Grid.visited (g : Grid) : Bool := g.stopped.isSome

/-- A visit of a grid of this module: no further team of it is placed, its resident teams stop, and when none is left on cores and every
message that they sent has been accepted the grid is marked with its place in the walk (R356). -/
def State.visitGrid (s : State) (g : Grid) : State :=
  let s1 := s.mapGrid g.vd g.gid fun g => { g with held := true }
  if s1.gridResident g || s1.gridSending g then s1.stopGrid g
  else State.mapGrid { s1 with stamp := s1.stamp + 1 } g.vd g.gid fun g => { g with stopped := some s1.stamp }

def Vd.mapRemote (v : Vd) (i : Nat) (f : Remote → Remote) : Vd := { v with remotes := v.remotes.modify i f }

/-- A visit of a grid on another module: a request goes out through its endpoint, and the walk waits for the acknowledgement. The request
waits for the launch's own answer (R356). -/
def State.visitRemote (s : State) (v : Vd) (i : Nat) (r : Remote) : State :=
  if r.asked || r.gid = 0 then s
  else (s.mapVd v.id (·.mapRemote i fun r => { r with asked := true })).report (.remoteStop (dEp r.desc) v.id r.gid)

/-- The next grid of the walk is visited; with every grid visited the walk is done. -/
def State.visit (s : State) (v : Vd) (graph : Nat) : List Node → State
  | [] => s.report (.stopWalkDone v.id graph)
  | x :: xs =>
    if x.remote then
      match v.remotes[x.ix]? with
      | some r => if r.stopped.isSome then s.visit v graph xs else s.visitRemote v x.ix r
      | none => s.visit v graph xs
    else
      match s.findGrid v.id x.ix with
      | some g => if g.visited then s.visit v graph xs else s.visitGrid g
      | none => s.visit v graph xs

/-- STOP_WALK: one visit; the event comes again until every grid of the graph has been visited (R355, R356). -/
def execStopWalk (vd : Nat) (graph : Nat) (s : State) : Res :=
  match s.findVd vd with
  | none => .next s
  | some v => .next (s.visit v graph (s.walkNodes v graph))

/-- REMOTE_STOP_REQUEST: another module's walk visits a grid that it sent here; the acknowledgement goes back when it is stopped, held, or
done. The event comes again until then (R356). -/
def execRemoteStopRequest (vd : Nat) (gid : Nat) (s : State) : Res :=
  match s.findGrid vd gid with
  | none => .next (s.report (.stopAck vd gid))
  | some g =>
    let s1 := if g.visited then s else s.visitGrid g
    .next (if (s1.findGrid vd gid).all Grid.visited then s1.report (.stopAck vd gid) else s1)

/-- Another module has stopped a grid (R356). -/
def State.stopAcked (s : State) (vd gid : Nat) : State :=
  let mark (r : Remote) : Remote := if r.gid = gid && r.asked && r.stopped.isNone then { r with stopped := some s.stamp } else r
  { s.mapVd vd (fun v => { v with remotes := v.remotes.map mark }) with stamp := s.stamp + 1 }

-- Resumption (R356)

/-- Another module has the grid that it was asked to resume resident again. -/
def State.resumeAcked (s : State) (vd gid : Nat) : State :=
  s.mapVd vd fun v => { v with remotes := v.remotes.map fun r => if r.gid = gid then { r with resuming := false } else r }

/-- The grid may go on, and its teams come back. -/
def State.freeGrid (s : State) (vd gid : Nat) : State := s.mapGrid vd gid fun g => { g with held := false, stopped := none }

/-- A grid has a team still to be restored. -/
def State.gridAway (s : State) (vd gid : Nat) : Bool := s.teams.any fun t => t.key.vd = vd && t.key.gid = gid && t.st != .resident

/-- Another module resumes a grid that it sent here; the acknowledgement goes back once the grid's teams are resident. The input comes again
until then. -/
def State.resumeGrid (s : State) (vd gid : Nat) : State :=
  let s1 := s.freeGrid vd gid
  if s1.gridAway vd gid then s1 else s1.report (.resumeAck vd gid)

/-- The last grid of the graph that the walk visited: when, and which. -/
def State.lastStopped (s : State) (v : Vd) (graph : Nat) : Option (Nat × Node) :=
  let mine := (s.grids.filter fun g => g.vd = v.id && inGraph graph g.desc).filterMap fun g => g.stopped.map fun t => (t, g.node)
  let away := v.remotes.zipIdx.filterMap fun r => if inGraph graph r.1.desc then r.1.stopped.map fun t => (t, r.1.node r.2) else none
  best (fun x y => decide (y.1 < x.1)) (mine ++ away)

/-- A grid of the graph is on its way back: not held, with a team still to be restored, or on another module that has not acknowledged. -/
def State.resuming (s : State) (v : Vd) (graph : Nat) : Bool :=
  (s.grids.any fun g => g.vd = v.id && inGraph graph g.desc && !g.held && s.gridAway g.vd g.gid) ||
    v.remotes.any fun r => inGraph graph r.desc && r.resuming

/-- The partition supervisor resumes a graph: its grids come back one by one in the reverse order of the walk, each resident before the next,
on another module too (R356). The input comes again until none is stopped or held. -/
def State.resumeGraph (s : State) (vd graph : Nat) : State :=
  match s.findVd vd with
  | none => s
  | some v =>
    if s.resuming v graph then s
    else match s.lastStopped v graph with
      | none => s
      | some (_, x) =>
        if x.remote then
          (s.mapVd vd (·.mapRemote x.ix fun r => { r with asked := false, stopped := none, resuming := true })).report
            (.remoteResume (dEp x.desc) vd (x.order - 2 ^ 62))
        else s.freeGrid vd x.ix

end Sys2Proof.Machine
end

