-- ==== Sys2Proof/Machine/Parts.lean ====
section
/-! DEFINITION. Partitions, core removal, the life of virtual devices and moves of versioned pages (R159, R311, R357, R383, R385 to R388,
R396). -/
namespace Sys2Proof.Machine

-- Partitions (R311, R357, R383, R385, R404)

/-- Every quota at the size of the module, until the partition supervisor sets others (R383, log 81). -/
def Quota.all : Quota := { frames := 2 ^ 26, vds := 1024, ways := 48, endpoints := 262144 }

/-- The shares of the power grant and of each of the ten bandwidth resources sum to at most 256 (R385). -/
def sharesFit (ps : List Part) : Bool :=
  decide ((ps.map (·.powerShare)).sum ≤ 256) && (List.range 10).all fun i => decide ((ps.map fun p => p.shares.getD i 0).sum ≤ 256)

/-- The team has a hart on a core that has been removed, or on a cluster that is leaving its partition (R357). -/
def State.departing (s : State) (t : Team) : Bool := t.coreIds.any s.removed.contains || s.parts.any fun p => p.leaving.contains t.clus

/-- Teams on departing cores are stopped, to be saved and placed again; one that Cloche was to restore there waits for another place. A save
that aborts there is asked for again (R311, R357). -/
def State.stopDeparting (s : State) : State :=
  let back (t : Team) : Team :=
    match t.st with
    | .restoring x => if s.departing t then { t with st := .saved x, charge := 0 } else t
    | _ => t
  let go := s.teams.filter fun t => s.movable t && s.departing t
  let s1 := { s with teams := s.teams.map back }
  if go.isEmpty then s1 else s1.swapOuts (go.map (·.key))

/-- Clusters that no team holds any longer leave their partition, and its votes leave the rails where it holds no other (R357, R404). -/
def State.releaseLeaving (s : State) : State :=
  s.parts.foldl (fun s p =>
    if p.leaving.isEmpty then s
    else
      let stay := p.leaving.filter fun c => s.teams.any fun t => t.occupies && t.clus == c
      State.retireVotes { s with parts := upd (fun q => q.id = p.id) (fun q => { q with leaving := stay }) s.parts } p.id (p.clusters ++ stay)) s

/-- PARTITION_RESIZE: the partition holds the listed clusters that no other partition holds; shares that would sum above 256 are refused
(R311, R357, R383, R385). -/
def execPartitionResize (part : Nat) (clusters : List Nat) (powerShare : Nat) (shares : List Nat) (s : State) : Res :=
  let others := s.parts.filter fun p => p.id ≠ part
  let taken := others.flatMap fun p => p.clusters ++ p.leaving
  let mine := (clusters.filter fun c => c < 256 && !taken.contains c).dedup
  let old := ((s.findPart part).map fun q => (q.clusters ++ q.leaving, q.quota)).getD ([], Quota.all)
  let p : Part :=
    { id := part, clusters := mine, leaving := (old.1.filter fun c => !mine.contains c).dedup, powerShare := powerShare, shares := shares
      quota := old.2 }
  if 32 ≤ part || !sharesFit (others ++ [p]) then .next s
  else .next (State.releaseLeaving (State.stopDeparting { s with parts := others ++ [p] }))

def State.setQuota (s : State) (part : Nat) (q : Quota) : State :=
  { s with parts := upd (fun p => p.id = part) (fun p => { p with quota := q }) s.parts }

/-- The partition supervisor removes a core after a lasting fault (R357). -/
def State.removeCore (s : State) (core : Nat) : State :=
  State.stopDeparting { s with removed := if s.removed.contains core then s.removed else s.removed ++ [core] }

-- Virtual devices (R368, R386 to R388, R396)

def Window.start : Window := { base := 0, ctl := 0, hold := 0, cnt := 0, slots := [], lastSlot := 65535, accepted := 0, cut := none, held := [] }
def Timer.start : Timer :=
  { period := 0, phase := 0, guardNs := 0, desc := 0, ctl := 0, ovr := 0, k := 0, fired := none, next := 0, held := none, running := none
    pending := none }

/-- A VD as the partition supervisor creates it (R368, R386, R387). -/
def Vd.create (id : Nat) (p : VdParams) : Vd :=
  { id := id, st := .created, root := p.root, control := p.control / 65536 * 65536
    vdcfg := va64 (p.idleMs % 65536 * 2 ^ 48 + min p.nmw 64 * 2 ^ 16 + p.part % 32 * 256 + p.wc.toNat)
    evbase := p.evbase &&& 0xFFFFFFFFFFFFF00F, evhead := 0, evlost := 0, evCount := 0, trapent := p.trapent &&& ~~~(0x3F : Word)
    ringhdr := va64 (p.ringhdr / 64 * 64 % 2 ^ 52), wins := Vector.replicate 64 Window.start, timers := Vector.replicate 16 Timer.start
    eps := [], inlet := [], remotes := [], nextGid := 1, remain := 0, col := false, wpend := false, roused := false, wakeAt := 0
    ringDue := false, moved := [] }

/-- VDs of a partition. -/
def State.vdsOf (s : State) (part : Nat) : Nat := (s.vds.filter fun v => v.st != .destroyed && v.part == part).length

/-- VD_CREATION, within the quota of its partition (R383, R386). -/
def execVdCreation (vd : Nat) (p : VdParams) (s : State) : Res :=
  let full := (s.findPart (p.part % 32)).any fun q => decide (q.quota.vds ≤ s.vdsOf q.id)
  if 1024 ≤ vd || s.vds.any (fun v => v.id = vd && v.st != .destroyed) || full then .next s
  else .next { s with vds := s.vds.filter (fun v => v.id ≠ vd) ++ [Vd.create vd p] }

/-- The frames that a table of level `lvl` names, the tables below it among them; the first argument is lvl + 1. -/
def framesOf (m : Memory) : Nat → Nat → List Nat
  | 0, _ => []
  | lvl + 1, t =>
    (tableEntries m t lvl).flatMap fun x =>
      if !pteV x.2 || pteMalformed lvl x.2 || !inDevice (pteBase x.2) then []
      else pteBase x.2 :: (if ptePointer x.2 then framesOf m lvl (pteBase x.2) else [])

/-- Destruction of a VD: its teams, grids, windows, timers and held work go, and its frames and endpoints go back to the partition
supervisor (R396). -/
def State.destroyVd (s : State) (vd : Nat) : State :=
  match s.findVd vd with
  | none => s
  | some v =>
    if v.st = .destroyed then s
    else
      let s1 := ((s.teams.filter fun t => t.key.vd = vd).map (·.key)).foldl State.discardTeam s
      let frames := (v.root / 65536 * 65536 :: v.control :: framesOf s.mem 4 v.root).dedup
      let back := (frames.map some ++ v.eps.map fun _ => none).map (Report.released vd)
      let gone (v : Vd) : Vd :=
        { v with
          st := .destroyed, evbase := 0, evhead := 0, evlost := 0, trapent := 0, ringhdr := 0
          wins := Vector.replicate 64 Window.start, timers := Vector.replicate 16 Timer.start, eps := [], inlet := [], remotes := []
          col := false, wpend := false, remain := 0, ringDue := false, moved := [] }
      { s1 with
        grids := s1.grids.filter (fun g => g.vd ≠ vd), vds := upd (fun v => v.id = vd) gone s1.vds, out := s1.out ++ back }

/-- VD_DESTRUCTION: the states of R388 from which a VD is destroyed are active, idle, mitten and waking (log 82). -/
def execVdDestruction (vd : Nat) (s : State) : Res :=
  .next (if (s.findVd vd).any fun v => v.st = .created then s else s.destroyVd vd)

-- Versioned pages (R159)

/-- The validate set records a line of the frame: its overflow is set (R159). -/
def Hart.frameMoved (h : Hart) (vd old bytes : Nat) : Hart :=
  if h.vd.toNat = vd ∧ h.vset.any (fun e => decide (old / 128 ≤ e.1 ∧ e.1 < (old + bytes) / 128)) then { h with vovf := true } else h

def Ctx.frameMoved (c : Ctx) (vd old bytes : Nat) : Ctx := { c with hart := c.hart.frameMoved vd old bytes }

/-- VOVF is set in every validate set of the VD, resident or saved, that records a line of the old frame (R159). -/
def State.frameMoved (s : State) (vd old bytes : Nat) : State :=
  { s with
    hart := s.hart.frameMoved vd old bytes
    parked := s.parked.map (·.frameMoved vd old bytes)
    teams := s.teams.map fun t =>
      match t.st with
      | .saved x => { t with st := .saved { x with ctxs := x.ctxs.map (·.frameMoved vd old bytes) } }
      | .restoring x => { t with st := .restoring { x with ctxs := x.ctxs.map (·.frameMoved vd old bytes) } }
      | _ => t }

/-- VERSIONED_PAGE_MOVE. The page's bytes and entry are software's. -/
def execVersionedPageMove (vd : Nat) (old _new : Nat) (bytes : Nat) (s : State) : Res := .next (s.frameMoved vd old bytes)

end Sys2Proof.Machine
end

