-- ==== Sys2Proof/Machine/VdEvents.lean ====
section
/-! DEFINITION. Events of timers, windows and the wake states of virtual devices (R372 to R378, R388 to R395). -/
namespace Sys2Proof.Machine

-- Ticks (R373, R374, R376, R378, R391)

/-- A VD whose timers and windows act. -/
def Vd.alive (v : Vd) : Bool := v.st ≠ .destroyed

/-- A further tick becomes the pending step; one already pending is replaced and OVR counts it (R378). -/
def Timer.pend (t : Timer) (k : Nat) : Timer :=
  { t with
    pending := some { k := k, gid := none, wins := [] }
    ovr := if t.pending.isSome then (t.ovr + 1) &&& 0xFFFFFFFF else t.ovr }

/-- Tick k arrives: it fires or is held, or with a step held or running becomes the pending step (R374, R376, R378). -/
def State.tickArrives (s : State) (vd : Nat) (t : BitVec 4) (k : Nat) : State :=
  let s1 := (s.wake vd).mapVd vd (·.mapTimer t fun tm => { tm with next := k + 1 })
  match s1.findVd vd with
  | none => s
  | some v =>
    let tm := v.timer t
    if tm.held.isSome || tm.running.isSome then s1.mapVd vd (·.mapTimer t (·.pend k)) else s1.fireOrHold vd t k

/-- The timer is enabled in a VD that exists. -/
def State.ticking (s : State) (vd : Nat) (t : BitVec 4) : Option Timer :=
  match s.findVd vd with
  | some v => if v.alive && ttEn (v.timer t).ctl then some (v.timer t) else none
  | none => none

/-- TICK: TIME reaches the timer's next tick. -/
def execTick (vd : Nat) (timer : BitVec 4) (s : State) : Res :=
  match s.ticking vd timer with
  | some tm => .next (State.tickArrives { s with time := max s.time (tm.tickAt tm.next) } vd timer tm.next)
  | none => .next s

/-- The running step's submission stands in the inlet. -/
def Vd.submitted (v : Vd) (t : BitVec 4) (k : Nat) : Bool := v.inlet.any fun x => x.timer == some (t, k)

/-- STEP_FIRE: a held step that may fire does; a firing delayed by a full inlet is tried again; with no step held or running the
pending step becomes the current one (R291, R376, R378). -/
def State.stepFire (s : State) (vd : Nat) (timer : BitVec 4) (arrival : Nat) : State :=
  match s.findVd vd with
  | none => s
  | some v =>
    let tm := v.timer timer
    match tm.held, tm.running with
    | some h, _ => if v.mayFire s.time tm h.k then (s.fire vd timer h.k).firePending vd timer else s
    | none, some r => if r.gid.isNone && !v.submitted timer r.k then (s.submitStep vd timer arrival).firePending vd timer else s
    | none, none => s.firePending vd timer

def execStepFire (vd : Nat) (timer : BitVec 4) (s : State) : Res := .next (s.stepFire vd timer s.stamp)

/-- The latest end of a hold among the timer's windows that do not hold enough records for step k (R376). -/
def Vd.holdEnd (v : Vd) (tm : Timer) (k : Nat) : Nat :=
  (ttWins tm.ctl).foldl (fun m i =>
    let w := v.win i
    if holdPolicy w && decide (w.assignable (tm.cutoff k) < winExpect w.ctl) then max m (tm.tickAt k + fld w.hold 0 32) else m) (tm.tickAt k)

/-- HOLD_EXPIRY: TIME reaches the end of a held step's hold. -/
def execHoldExpiry (vd : Nat) (timer : BitVec 4) (s : State) : Res :=
  match s.findVd vd with
  | none => .next s
  | some v =>
    let tm := v.timer timer
    match tm.held with
    | none => .next s
    | some h => .next ((State.fire { s with time := max s.time (v.holdEnd tm h.k) } vd timer h.k).firePending vd timer)

-- Records (R370, R372, R375, R395)

/-- A held step whose timer the window belongs to fires once it may (R376). -/
def State.fireHeld (s : State) (vd : Nat) (n : BitVec 6) : State :=
  match s.findVd vd with
  | none => s
  | some v =>
    match (List.finRange 16).find? fun i => v.timers[i].held.isSome && (ttWins v.timers[i].ctl).contains n with
    | none => s
    | some i =>
      let t := BitVec.ofNat 4 i.val
      match (v.timer t).held with
      | some h => if v.mayFire s.time (v.timer t) h.k then (s.fire vd t h.k).firePending vd t else s
      | none => s

/-- The record was kept: one that is late is counted (R375). -/
def State.countLate (s : State) (vd : Nat) (n : BitVec 6) (late : Bool) : State :=
  if late then s.mapVd vd (·.mapWin n (·.addLate)) else s

/-- Records that the ring or the hub holds for a window. -/
def State.recordsOf (s : State) (vd : Nat) (n : BitVec 6) : Nat :=
  match s.findVd vd with
  | some v => (v.win n).slots.length + (v.win n).held.length
  | none => 0

/-- An earlier record of the window that the hub holds for a pinned line. -/
def State.heldRecord (s : State) (vd : Nat) (n : BitVec 6) (arrival : Nat) : Option Nat :=
  (s.hubq.find? fun r => decide (r.arrival < arrival) &&
    match r.op with | .act (.recordAcceptance v m _) => v == vd && m == n | _ => false).map (·.lines.headD 0)

/-- The window takes the next place in its order of acceptance (R372, R395). -/
def State.numberRecord (s : State) (vd : Nat) (n : BitVec 6) : State := s.mapVd vd (·.mapWin n fun w => { w with accepted := w.accepted + 1 })

/-- A step of the window's timer is held whose cutoff is at or above T: the record is not late, and the firing assigns it (R376). -/
def Vd.heldFor (v : Vd) (n : BitVec 6) (t : Word) : Bool :=
  (List.finRange 16).any fun i => (ttWins v.timers[i].ctl).contains n && v.timers[i].held.any fun h => decide ((t.toNat : Int) ≤ v.timers[i].cutoff h.k)

/-- RECORD_ACCEPTANCE (R372, R375, R376, R395). A record for a slot on a pinned line reaches the ring, and is accepted, when the home takes
it (R333). -/
def State.acceptRecord (s : State) (v : Vd) (n : BitVec 6) (r : Rec) (arrival : Nat) : State :=
  let w := v.win n
  let late := match w.cut with | some c => decide ((r.t.toNat : Int) ≤ c) && !v.heldFor n r.t | none => false
  let hold := v.parked || !w.held.isEmpty
  let op : HubOp := .act (.recordAcceptance v.id n r)
  if late && winPol w.ctl = 2 then s.mapVd v.id (·.mapWin n (·.addDrop 1))
  else match (match s.heldRecord v.id n arrival with | some l => some l | none => if hold then none else s.recordWaits v n arrival) with
  | some l => s.hubKeep op l arrival
  | none =>
    let s1 := s.now.numberRecord v.id n
    let h : HubRec := { r := r, arr := va64 s1.time, late := late, step := none, order := w.accepted }
    let s2 := if hold then s1.holdRecord v.id n h else s1.placeRecord v.id n h
    let kept := decide (s1.recordsOf v.id n < s2.recordsOf v.id n)
    (s2.countLate v.id n (late && kept)).fireHeld v.id n

def State.recordAcceptance (s : State) (vd : Nat) (window : BitVec 6) (r : Rec) (arrival : Nat) : State :=
  match s.findVd vd with
  | none => s
  | some v => if v.alive && decide (window.toNat < v.nmw) && winEn (v.win window).ctl then s.acceptRecord v window r arrival else s

def execRecordAcceptance (vd : Nat) (window : BitVec 6) (r : Rec) (s : State) : Res := .next (s.recordAcceptance vd window r s.stamp)

-- Collapse (R388 to R390, R392, R394)

def State.vdTeams (s : State) (vd : Nat) : List Team := s.teams.filter fun t => t.key.vd = vd

/-- The clusters on which the VD has a team. -/
def State.vdClusters (s : State) (vd : Nat) : List Nat := ((s.vdTeams vd).map (·.clus)).dedup

/-- Every team on the cluster is stopped, and its VD is mitten. -/
def State.clusterQuiet (s : State) (cl : Nat) : Bool :=
  (s.teams.filter fun t => t.clus = cl && t.occupies).all fun t =>
    t.st == .stopping && !t.out && match s.findVd t.key.vd with | some v => v.st = .mitten | none => false

/-- The HBM is turned off: what its cells and side slots hold afterwards is open (R392, log 83). -/
def State.hbmOff (s : State) : State :=
  let lost (m : Memory) (c : Host.Cell) : Memory := if c.1 < 2 ^ 39 then m.set c.1 (Config.hbmByte s.tick c.1) else m
  { s with
    mem := s.mem.foldl lost s.mem
    vers := s.vers.map fun x => if x.1 < 2 ^ 39 then (x.1, BitVec.ofNat 48 (Config.hbmVersion s.tick x.1)) else x
    tick := s.tick + 1 }

/-- Module collapse: the compute dies, with their translations, and the HBM are off, and TIME is in holdover (R392). -/
def State.moduleOff (s : State) : State :=
  let s1 := (List.range 256).foldl (fun s cl => s.setClus cl { s.clusOf cl with retention := false, gated := true }) s.hbmOff
  { s1.dropTlb (fun _ => true) with moduleCollapsed := true, timeLocked := false }

/-- The end of a collapse: the VD's clusters that no team holds are power-gated; with every VD mitten under WC3 the module collapses too
(R390, R392). -/
def State.collapsed (s : State) (vd : Nat) : State :=
  let s1 := s.mapVd vd fun v => { v with col := false }
  let s2 := (s1.vdClusters vd).foldl (fun s cl =>
    if s.teams.any (fun t => t.clus = cl && t.occupies) then s else s.setClus cl { s.clusOf cl with gated := true }) s1
  if s2.vds.all fun v => v.st = .destroyed || (v.st = .mitten && v.wc == 3 && !v.col) then s2.moduleOff else s2

/-- Frames of the HBM that hold memory or tables of the VD (R390). -/
def State.hbmFrames (s : State) (v : Vd) : List Nat := (v.root :: framesOf s.mem 4 v.root).filter fun f => f < 2 ^ 39 && f != v.control

/-- The collapse's next unit would begin, and nothing stands in its way: no wake write has come, and no save fault waits for the partition
supervisor (R394). -/
def State.collapseOpen (s : State) (v : Vd) : Bool :=
  v.st = .mitten && v.col && !v.wpend && !(s.vdTeams v.id).any (·.faulted)

/-- The stop of a collapse's next team. Under WC0 no save follows: its accesses are released with the stop, once their lines' homes take the
bytes (R333, R347, R390). -/
def State.collapseStop (s : State) (v : Vd) (t : Team) : State :=
  if v.wc = 0 then
    match s.flushWaits t.coreIds with
    | some l => s.markRetried l
    | none => (s.stopTeams [t.key]).flushCores t.coreIds
  else s.stopTeams [t.key]

/-- One unit of a collapse: a team's stop, a cluster's entry into retention under WC0, or the end; a wake write during the
collapse ends it at the next unit (R394). Under the other classes a team's save, by CLOCHE_SAVE, belongs to its unit; under WC2 and WC3 the
partition supervisor then moves the frames, one a unit. -/
def State.collapseUnit (s : State) (v : Vd) : State :=
  let ts := s.vdTeams v.id
  let saving := decide (0 < v.wc) && ts.any fun t => t.st == .stopping
  if saving then s
  else if v.wpend then
    let units := s.savedUnits v.id
    s.mapVd v.id fun v => { v with col := false, wpend := false, st := .waking, remain := units }
  else if !s.collapseOpen v then s
  else match ts.find? fun t => t.st == .resident with
    | some t => s.collapseStop v t
    | none =>
      if v.wc = 0 then
        match (s.vdClusters v.id).find? fun cl => !(s.clusOf cl).retention && s.clusterQuiet cl with
        | some cl => s.setClus cl { s.clusOf cl with retention := true }
        | none => s.collapsed v.id
      else if 2 ≤ v.wc ∧ !(s.hbmFrames v).isEmpty then s
      else s.collapsed v.id

-- The move of a frame (R390, R394)

/-- The bytes from `old` on copied to `new`; what stood there is gone. -/
def Memory.copied (m : Memory) (old new bytes : Nat) : Memory :=
  (m.filter fun c => decide (old ≤ c.1 ∧ c.1 < old + bytes)).foldl (fun m c => m.set (new + (c.1 - old)) c.2)
    (m.filter fun c => !decide (new ≤ c.1 ∧ c.1 < new + bytes))

/-- Entries, with their addresses and levels, of a table of level `lvl` and those below; the first argument is lvl + 1. -/
def entriesOf (m : Memory) : Nat → Nat → List (Nat × Nat × Word)
  | 0, _ => []
  | lvl + 1, t =>
    (tableEntries m t lvl).flatMap fun x =>
      if !pteV x.2 || pteMalformed lvl x.2 then []
      else (t + 8 * x.1, lvl, x.2) :: (if ptePointer x.2 then entriesOf m lvl (pteBase x.2) else [])

/-- The entry with another frame of the other tier in it (R314, R360). -/
def pteMoved (e : Word) (new mt : Nat) : Word := if ptePointer e then setFld e 16 36 (new / 65536) else setFld (setFld e 16 36 (new / 65536)) 12 2 mt

/-- Bytes of the VD's frame at `old`, if its tables name it: 32 for the root, 64 KiB for another table, what its leaf maps otherwise. -/
def State.frameSize (s : State) (v : Vd) (old : Nat) : Option Nat :=
  if v.root = old then some 32
  else ((entriesOf s.mem 4 v.root).find? fun x => pteBase x.2.2 = old).map fun x => if ptePointer x.2.2 then 65536 else leafSize x.2.1

/-- A frame of the VD moves: its bytes, their poison, and every entry that names it; no translation of the VD is kept, and a versioned
page's move shows in the validate sets (R159, R390). -/
def State.moveBytes (s : State) (v : Vd) (old new bytes mt : Nat) : State :=
  let inside (base l : Nat) : Bool := decide (base ≤ l * 128 ∧ l * 128 < base + bytes)
  let slots (base r : Nat) : Bool := decide (base ≤ r * 256 ∧ r * 256 < base + bytes)
  let s1 := { s with
    mem := s.mem.copied old new bytes
    poison := s.poison.filter (fun l => !inside new l) ++ (s.poison.filter (inside old)).map fun l => l - old / 128 + new / 128
    raw := (s.raw.filter (slots old)).foldl (fun l r => setRaw l (r - old / 256 + new / 256, true)) (s.raw.filter fun r => !slots new r) }
  let s2 := s1.mapVd v.id fun v => if v.root = old then { v with root := new } else v
  let root := if v.root = old then new else v.root
  let named := (entriesOf s2.mem 4 root).filter fun x => pteBase x.2.2 = old
  let s3 := named.foldl (fun s x => s.homePut x.1 (leBytes 8 (pteMoved x.2.2 new mt).toNat)) s2
  let s4 := s3.dropTlb fun t => t.vd == v.id
  (if named.any fun x => pteVer x.2.2 then s4.frameMoved v.id old bytes else s4).report (.released v.id (some old))

/-- The partition supervisor moves a frame of a collapsing VD to the LPDDR tier, or one of a waking VD back (R390, R394,
log 89). -/
def State.moveFrame (s : State) (vd old new : Nat) : State :=
  match s.findVd vd with
  | none => s
  | some v =>
    match s.frameSize v old with
    | none => s
    | some bytes =>
      let away := s.collapseOpen v && decide (2 ≤ v.wc) && (s.vdTeams vd).all (fun t => !t.occupies)
      let fits := new % 65536 = 0 && new % (if bytes = 32 then 32 else bytes) = 0
      if away && decide (old < 2 ^ 39) && tierOf new == some 1 && fits then
        (s.moveBytes v old new bytes 1).mapVd vd fun v => { v with moved := v.moved ++ [(new, bytes)] }
      else if v.st = .waking && v.moved.contains (old, bytes) && tierOf new == some 0 && fits then
        let s1 := (s.moveBytes v old new bytes 0).mapVd vd fun v => { v with moved := v.moved.filter (· ≠ (old, bytes)) }
        let units := s1.savedUnits vd
        s1.mapVd vd fun v => { v with remain := units }
      else s

/-- COLLAPSE: an idle VD begins to collapse, or a collapse in progress takes its next unit. The event comes again until COL is 0. -/
def execCollapse (vd : Nat) (s : State) : Res :=
  match s.findVd vd with
  | none => .next s
  | some v =>
    if v.st = .mitten ∧ v.col then .next (s.collapseUnit v)
    else if s.vdState v = .idle then
      let v1 := { v with st := .mitten, col := true, wpend := false, roused := false }
      .next (State.collapseUnit (s.mapVd vd fun _ => v1) v1)
    else .next s

-- Wake (R388, R390, R391, R394, R395)

/-- A held submission is accepted; another module, or the stream whose launch it is, gets its answer (R291, R293). -/
def State.acceptHeld (s : State) (vd : Nat) (sub : Submission) : State :=
  match s.findVd vd with
  | none => s
  | some v =>
    let r := s.accept v { sub with asker := none }
    let s1 := if sub.remote then r.2.report (.remoteAnswer (va64 r.1)) else r.2
    match sub.asker with
    | some (k, ix, e) => s1.mapHart k ix (·.answered e (va64 r.1))
    | none => s1

/-- The inlet's submissions are accepted in order, `n` at most, as far as their counters' lines can be read; then a take of slots that the
full inlet stopped goes on (R290 to R292, R333, R391). -/
def State.drainInlet (vd : Nat) : Nat → State → State
  | 0, s => s
  | n + 1, s =>
    match s.findVd vd with
    | none => s
    | some v =>
      match v.inlet with
      | [] => if v.ringDue then s.ringTake v s.stamp else s
      | x :: xs =>
        match s.counterWaits vd x.desc s.stamp with
        | some l => s.markRetried l
        | none => State.drainInlet vd n ((s.mapVd vd fun v => { v with inlet := xs }).acceptHeld vd x)

/-- Inlets of VDs that are not away. -/
def State.drainInlets (s : State) : State :=
  s.vds.foldl (fun s v => if v.away || v.st = .destroyed || (v.inlet.isEmpty && !v.ringDue) then s else State.drainInlet v.id (v.inlet.length + 1) s) s

/-- The VD is active: its stopped teams go on, and event 0x0003 is sent; the end of the step accepts what the inlet held (R388, R390, R394). -/
def State.activate (s : State) (v : Vd) : State :=
  let s1 := (s.vdClusters v.id).foldl (fun s cl => s.setClus cl { s.clusOf cl with retention := false, gated := false }) s
  let s2 := { s1 with teams := upd (fun t : Team => t.key.vd = v.id && t.st == TeamState.stopping && !t.out) (fun t => { t with st := .resident }) s1.teams }
  let s3 := s2.mapVd v.id fun v => { v with st := .active, remain := 0 }
  s3.event v.id 3 (va64 v.wc) (va64 (s3.time - v.wakeAt))

/-- WAKE_COMPLETE: every team that the collapse saved is restored, and every frame that it moved is back; a team that the scheduler swapped
out waits for a place of its own (R304, R390, log 98). -/
def execWakeComplete (vd : Nat) (s : State) : Res :=
  match s.findVd vd with
  | none => .next s
  | some v =>
    let back := (s.vdTeams vd).all fun t => match t.st with | .saved _ | .restoring _ => t.out | _ => true
    .next (if v.st = .waking && back && v.moved.isEmpty then s.activate v else s)

/-- WAKE_WRITE: a write of any value to WAKE. -/
def execWakeWrite (vd : Nat) (s : State) : Res := .next (s.wake vd)

end Sys2Proof.Machine
end

