-- ==== Sys2Proof/Machine/HostEvents.lean ====
section
/-! DEFINITION. Events of the host, of other modules, of the stage links and of the time engine (R247, R282, R293, R366, R367, R399 to
R402). -/
namespace Sys2Proof.Machine

-- CXL.mem (R399, R400)

/-- The host window: the host's own lines, which the hub's agent keeps coherent over CXL.cache (R314, R398). -/
def inHostWindow (pa n : Nat) : Bool := mtAllowed pa 2 && mtAllowed (pa + n - 1) 2

/-- What the host reaches: its own lines, and device memory that a decoder exposes; the side slots lie outside every decoder (R398,
R399). -/
def State.hostReaches (s : State) (pa n : Nat) : Bool :=
  n ≠ 0 && (inHostWindow pa n ||
    inDevice pa && inDevice (pa + n - 1) && (linesOf pa n).all (fun l => !s.inSideSlots (l * 128)) &&
      s.decoders.any fun d => decide (d.1 ≤ pa ∧ pa + n ≤ d.1 + d.2))

/-- A transaction of CXL.mem or CXL.cache: at most 64 aligned bytes, reached by the host. -/
def State.hostFits (s : State) (pa n : Nat) : Bool := s.hostReaches pa n && pa / 64 == (pa + n - 1) / 64

/-- The doublewords in which a host write has an enabled byte: what the scheduler is shown of it (R290, R295). -/
def enabledWords (pa : Nat) (bytes : List (Option Byte)) : List (Nat × Nat) :=
  ((bytes.zipIdx.filterMap fun x => x.1.map fun _ => (pa + x.2) / 8).dedup).map fun k => (8 * k, 8)

/-- The enabled bytes of a host write take the place of the old ones: one write, whatever the enables (R399). -/
def State.hostPut (s : State) (pa : Nat) (bytes : List (Option Byte)) : State :=
  { s.homePut pa ((bytes.zip (s.mem.bytes pa bytes.length)).map fun x => x.1.getD x.2) with
    dirtyLog := s.dirtyLog ++ enabledWords pa bytes }

/-- A write to device memory is told to the host once it is performed (R399). -/
def State.hostTold (s : State) (pa n : Nat) : State := if inDevice pa then s.report (.hostWritten pa n) else s

/-- HOST_MEMORY_WRITE: performed at the line's home, and then completed; a line of the host's own changes as every device read of MT 10 sees
it (R398, log 95). While the line is pinned the hub holds the request, in order of arrival (R333, R399). -/
def State.hostWrite (s : State) (pa : Nat) (bytes : List (Option Byte)) (arrival : Nat) : State :=
  if s.hostFits pa bytes.length then
    match s.hubWaits pa bytes.length arrival with
    | some l => s.hubKeep (.act (.hostMemoryWrite pa bytes)) l arrival
    | none => (s.hostPut pa bytes).hostTold pa bytes.length
  else s

def execHostMemoryWrite (pa : Nat) (bytes : List (Option Byte)) (s : State) : Res := .next (s.hostWrite pa bytes s.stamp)

/-- HOST_MEMORY_READ: the value at the homes, with the poison indication (R400). -/
def State.hostRead (s : State) (pa len arrival : Nat) : State :=
  if s.hostReaches pa len then
    match s.hubWaits pa len arrival with
    | some l => s.hubKeep (.act (.hostMemoryRead pa len)) l arrival
    | none => s.report (.hostRead pa (s.mem.bytes pa len) (s.poisoned pa len))
  else s

def execHostMemoryRead (pa : Nat) (len : Nat) (s : State) : Res := .next (s.hostRead pa len s.stamp)

/-- The host reads a VD's control page through BAR0, once virtual functions are enabled: 8 aligned bytes read the register, and any other read
returns 0 (R368, R396, R416). -/
def State.hostControlRead (s : State) (vd off size : Nat) : State :=
  match s.findVd vd with
  | some v =>
    if s.booted && decide (0 < size ∧ off + size ≤ 65536) then
      s.report (.controlRead vd off size (if size = 8 && off % 8 = 0 then s.ctlRead v off else 0))
    else s
  | none => s

-- Launches between modules (R293, R391)

/-- A descriptor as the receiving module submits it: the bound VD takes the place of DW9.VD, and it is no longer remote. -/
def arrived (d : Desc) (vd : Nat) : Desc := (withVd d vd).set 8 (setFld d[8] 3 29 0)

/-- REMOTE_LAUNCH, which is a wake write. A VD that is mitten or waking answers once it has accepted the submission; a pinned counter line
holds it at the hub (R333). Its harts' s1 is a free value: the descriptor stands on another module (R19, log 22). -/
def State.remoteLaunch (s0 : State) (vd : Nat) (desc : List Word) (arrival : Nat) : State :=
  let s := s0.wake vd
  match s.findVd vd with
  | none => s0
  | some v =>
    let d := arrived (descOf desc) vd
    if v.st = .destroyed then s0
    else if Config.inletSize ≤ v.inlet.length then s.report (.remoteAnswer (refuseWord 1))
    else match s.counterWaits vd d arrival with
      | some l => s.hubKeep (.act (.remoteLaunch vd desc)) l arrival
      | none =>
        match s.refusalOf v d with
        | some c => s.report (.remoteAnswer (refuseWord c))
        | none =>
          let sub : Submission := { desc := d, va := Config.descAddress s.tick, prio := dPrio d, timer := none, remote := true, asker := none }
          let s2 := { s with tick := s.tick + 1 }
          if v.holds then s2.mapVd vd fun v => { v with inlet := v.inlet ++ [sub] } else s2.acceptHeld vd sub

def execRemoteLaunch (vd : Nat) (desc : List Word) (s : State) : Res := .next (s.remoteLaunch vd desc s.stamp)

/-- What a launch writes for an answer: the remote GRIDID with bit 62 set, or the refusal code. -/
def answerWord (w : Word) : Word := if bit w 63 then w else w ||| 0x4000000000000000

/-- The VD's oldest remote grid without an answer takes its GRIDID; a refused one is none (R293, R356). -/
def Vd.remoteAnswered (v : Vd) (w : Word) : Vd :=
  match v.remotes.findIdx? fun r => r.gid == 0 with
  | none => v
  | some i => if bit w 63 then { v with remotes := v.remotes.eraseIdx i } else { v with remotes := v.remotes.modify i fun r => { r with gid := w.toNat } }

def Strm.awaits (t : Strm) : Bool := match t.wait with | some (.answer ..) => true | _ => false

/-- A stream of a context that awaits another module's answer. -/
def Ctx.awaits (c : Ctx) : Option Bool := if c.a.awaits then some false else if c.e.awaits then some true else none

/-- The streams, on cores or saved, that await another module's answer: team, place in the team, class. -/
def State.awaiting (s : State) : List (TeamKey × Nat × Bool) :=
  (s.allCtxs.filterMap fun c => c.awaits.map fun e => (c.key, s.ixOf c, e)) ++
    s.teams.flatMap fun t =>
      match t.st with
      | .saved x | .restoring x => x.ctxs.zipIdx.filterMap fun c => c.1.awaits.map fun e => (t.key, c.2, e)
      | _ => []

/-- REMOTE_LAUNCH_ANSWER: the launch of the stream in focus that waits for it completes; if it waits for none, another stream's; and with
none waiting it answers a submission of a host ring or a timer (R137, R293). -/
def execRemoteLaunchAnswer (answer : Word) (s : State) : Res :=
  let w := answerWord answer
  let noted (vd : Nat) : State := s.mapVd vd (·.remoteAnswered answer)
  match s.me.wait with
  | some (.answer d a) =>
    let x := s.me.answered s.hart d a w
    .next { noted s.hart.vd.toNat with me := x.1, hart := x.2 }
  | _ =>
    match s.awaiting with
    | (k, i, e) :: _ => .next ((noted k.vd).mapHart k i (·.answered e w))
    | [] => .next (match s.vds.find? fun v => v.remotes.any fun r => r.gid == 0 with | some v => noted v.id | none => s)

-- Stage links (R247, R282, R401, R402)

/-- A linked cpy's message is accepted: the command ends, CPWP counts its bytes, and its barrier is credited (R247). -/
def Core.linkAccepted (c : Core) (i : BitVec 3) (id : Nat) : Core :=
  let ch := c.chans[i.toNat]
  match ch.queue with
  | [] => c
  | q :: qs =>
    if q.id = id then
      let c1 := { c with chans := c.chans.set i.toNat { ch with queue := qs, cpwp := va64 q.len } }
      let b := c1.tbs[q.tb.toNat]
      let b1 := if b.phase = q.phase then { b with arrived := b.arrived + BitVec.ofNat 40 q.len } else b
      Core.settleBar { c1 with tbs := c1.tbs.set q.tb.toNat b1 } q.tb
    else c

def Saved.linkAccepted (x : Saved) (i : BitVec 3) (id : Nat) : Saved := { x with cores := x.cores.map (·.linkAccepted i id) }

/-- The command is on a core, or in the saved context of its team. -/
def State.linkAccepted (s : State) (m : Msg) : State :=
  match m.credit with
  | none => s
  | some (i, id) =>
    { s with
      core := s.core.linkAccepted i id
      cores := s.cores.map fun c => (c.1, c.2.linkAccepted i id)
      teams := s.teams.map fun t =>
        match t.st with
        | .saved x => { t with st := .saved (x.linkAccepted i id) }
        | .restoring x => { t with st := .restoring (x.linkAccepted i id) }
        | _ => t }

/-- The endpoint of a VD that can take a message. -/
def State.takesMessage (s : State) (vd : Nat) (e : BitVec 8) : Bool :=
  match s.findVd vd with
  | some v => v.alive && (v.epConfig e).isSome
  | none => false

def State.receive (s : State) (vd : Nat) (e : BitVec 8) (bs : List Byte) : State :=
  s.mapEp vd e fun p => { p with inn := p.inn ++ [bs] }

/-- The endpoint's oldest message is accepted by its receiver: an endpoint of this module, or another module (R282). -/
def State.acceptOut (s : State) (vd : Nat) (e : BitVec 8) (p : Endpoint) (c : EpConfig) (m : Msg) : State :=
  let gone := (s.mapEp vd e fun _ => { p with out := p.out.drop 1 }).linkAccepted m
  let peer : BitVec 8 := BitVec.ofNat 8 c.remoteEp
  if c.onModule then (if s.takesMessage c.remoteVd peer then gone.receive c.remoteVd peer m.bytes else s)
  else gone.report (.message s.etherType vd e m.bytes)

/-- MESSAGE_ACCEPTANCE: a message from another module arrives whole at an endpoint, or with none the endpoint's own oldest message is
accepted. -/
def execMessageAcceptance (vd : Nat) (ep : BitVec 8) (incoming : Option (List Byte)) (s : State) : Res :=
  match (s.findVd vd).bind (·.ep ep) with
  | none => .next s
  | some p =>
    match p.cfg, incoming with
    | some _, some bs => .next (if s.takesMessage vd ep && decide (0 < bs.length ∧ bs.length ≤ 65536) then s.receive vd ep bs else s)
    | some c, none =>
      match p.out with
      | m :: _ => .next (if p.down then s else s.acceptOut vd ep p c m)
      | [] => .next s
    | none, _ => .next s

/-- LINK_ENDPOINT_DOWN (R402). -/
def execLinkEndpointDown (vd : Nat) (ep : BitVec 8) (s : State) : Res :=
  match (s.findVd vd).bind (·.ep ep) with
  | some p => .next (if p.cfg.isSome && !p.down then (s.mapEp vd ep fun p => { p with down := true }).event vd 9 (va64 ep.toNat) 0 else s)
  | none => .next s

/-- LINK_ENDPOINT_UP: the held messages are accepted from then on, in order (R402). -/
def execLinkEndpointUp (vd : Nat) (ep : BitVec 8) (s : State) : Res :=
  match (s.findVd vd).bind (·.ep ep) with
  | some p =>
    .next (if p.down then (s.mapEp vd ep fun p => { p with down := false }).event vd 0xA (va64 ep.toNat) (va64 p.out.length) else s)
  | none => .next s

/-- Endpoints that the VDs of a partition hold. -/
def State.endpointsOf (s : State) (part : Nat) : Nat := ((s.vds.filter fun v => v.part == part).map (·.eps.length)).sum

/-- LINK_ENDPOINT_CONFIGURATION: a reserved node is refused, and a new endpoint beyond the partition's quota (R383, R401, R402). -/
def execLinkEndpointConfiguration (vd : Nat) (ep : BitVec 8) (c : EpConfig) (s : State) : Res :=
  match s.findVd vd with
  | none => .next s
  | some v =>
    if 400000 ≤ c.node ∨ v.st = .destroyed then .next s
    else if (v.ep ep).isSome then .next (s.mapEp vd ep fun p => { p with cfg := some c })
    else if (s.findPart v.part).any (fun q => decide (q.quota.endpoints ≤ s.endpointsOf q.id)) then .next s
    else .next (s.mapVd vd fun v => { v with eps := v.eps ++ [(ep, { cfg := some c, out := [], inn := [], down := false })] })

-- Time (R366, R367)

/-- PTP_MESSAGE: `elapsed` nanoseconds after the last, TIME has advanced by them and been slewed by at most 200 ppm of them towards the
offset. -/
def execPtpMessage (offset : Int) (elapsed : Nat) (s : State) : Res :=
  let most : Int := (elapsed * 200 / 1000000 : Nat)
  .next { s with time := s.time + ((elapsed : Int) + clampInt (-most) most offset).toNat }

/-- `n` ticks from step k arrive at one instant: with a step held or running the rest coalesce into the pending step (R367, R378). -/
def State.ticksArrive (s : State) (vd : Nat) (t : BitVec 4) : Nat → Nat → State
  | 0, _ => s
  | n + 1, k =>
    match s.findVd vd with
    | none => s
    | some v =>
      let tm := v.timer t
      if tm.held.isSome || tm.running.isSome then
        (s.wake vd).mapVd vd (·.mapTimer t fun tm =>
          { tm with
            next := k + n + 1, pending := some { k := k + n, gid := none, wins := [] }
            ovr := (tm.ovr + va64 (n + boolNat tm.pending.isSome)) &&& 0xFFFFFFFF })
      else (s.tickArrives vd t k).ticksArrive vd t n (k + 1)

/-- Every tick of a timer at or before TIME arrives. -/
def State.catchUp (s : State) (vd : Nat) (t : BitVec 4) : State :=
  match s.ticking vd t with
  | some tm => if tm.tickAt tm.next ≤ s.time then s.ticksArrive vd t (tm.firstTick s.time - tm.next) tm.next else s
  | none => s

/-- Every timer catches up with TIME: its passed ticks arrive, and a held or delayed step that may fire does (R374, R376). -/
def State.timers (s : State) : State :=
  s.vds.foldl (fun s v => (List.range 16).foldl (fun s t => State.stepFire (s.catchUp v.id (BitVec.ofNat 4 t)) v.id (BitVec.ofNat 4 t) s.stamp) s) s

/-- TIME_STEP: forward only; the ticks that it passes over arrive together (R367). -/
def execTimeStep (ns : Nat) (s : State) : Res :=
  .next (State.timers { s with time := s.time + ns })

/-- Every VD receives an event. -/
def State.eventAll (s : State) (code : Nat) (a0 a1 : Vd → Word) : State :=
  (s.vds.filter Vd.alive).foldl (fun s v => s.event v.id code (a0 v) (a1 v)) s

/-- TIME_ENGINE_HOLDOVER (R367). -/
def execTimeHoldover (s : State) : Res :=
  .next (if s.timeLocked then State.eventAll { s with timeLocked := false } 6 (fun _ => 0) (fun _ => 0) else s)

/-- TIME_ENGINE_LOCKED_AGAIN (R384). -/
def execTimeLocked (offset : Int) (s : State) : Res :=
  .next (if s.timeLocked then s else State.eventAll { s with timeLocked := true } 7 (fun _ => 0) (fun _ => wordOf offset))

end Sys2Proof.Machine
end

