-- ==== Sys2Proof/Machine/KeyTable.lean ====
section
/-! DEFINITION. Key-table instructions (R47, R267 to R272). The table is a list of key and value in slot order. -/
namespace Sys2Proof.Machine

abbrev KeyTab := List (W32 × W32)

def keyFind (t : KeyTab) (k : W32) : Option W32 := (t.find? (fun e => e.1 = k)).map (·.2)

/-- Applies one lane: the entry of a present key becomes `f` of its value, a new key takes the next slot, and a new key of a
full table fails (R268, R269). -/
def keyPut (t : KeyTab) (k x : W32) (f : W32 → W32) : KeyTab × Bool :=
  if (keyFind t k).isSome then (upd (fun e => e.1 = k) (fun e => (e.1, f e.2)) t, false)
  else if t.length < Config.keySlots then (t ++ [(k, x)], false)
  else (t, true)

/-- Applies the lanes in order; the lanes paired with whether each failed (R269). -/
def keyLanes (f : W32 → W32 → W32) : List (Nat × W32 × W32) → KeyTab → List (Nat × Bool) × KeyTab
  | [], t => ([], t)
  | (e, k, x) :: r, t =>
    let p := keyPut t k x (fun old => f old x)
    let q := keyLanes f r p.1
    ((e, p.2) :: q.1, q.2)

/-- The lanes' keys and values (R268). -/
def State.keyInputs (s : State) (k : BitVec 3) (a b : Reg) : List (Nat × W32 × W32) :=
  (s.activeLanes k).map fun e => (e, BitVec.ofNat 32 (s.hart.elem a s.me.wA e), BitVec.ofInt 32 (s.hart.value b s.me.wB s.me.sB e))

def State.setKeys (s : State) (t : KeyTab) : State := { s with core := { s.core with keytab := t } }

/-- kins and kacc. -/
def State.keyWrite (s : State) (cb ca : Bool) (k d : BitVec 3) (a b : Reg) (f : W32 → W32 → W32) : Res :=
  let r : LaneReq := ⟨[s.srcA a ca, s.srcB b cb], none, true, 0⟩
  s.onLanes r [] [] fun _ s1 =>
    let x := keyLanes f (s.keyInputs k a b) s.core.keytab
    (((s1.setKeys x.2).laneDone r d none ⟨[], x.1, 0, false⟩).setVstart 0).done 1

def execKins (cb ca : Bool) (k : BitVec 3) (d : BitVec 3) (a b : Reg) (s : State) : Res := s.keyWrite cb ca k d a b fun _ x => x

/-- op of kacc (R267, R269). -/
def kaccValue (op : KaccOp) (old x : W32) : W32 :=
  match op with
  | .add => old + x
  | .max => if old.slt x then x else old
  | .min => if x.slt old then x else old
  | .or => old ||| x

def execKacc (op : KaccOp) (cb ca : Bool) (k : BitVec 3) (d : BitVec 3) (a b : Reg) (s : State) : Res :=
  s.keyWrite cb ca k d a b (kaccValue op)

/-- klook (R270). -/
def execKlook (ca : Bool) (k : BitVec 3) (d a : Reg) (b : BitVec 3) (s : State) : Res :=
  s.laneArray ⟨[s.srcA a ca], some (d, s.me.wD), true, 0⟩ [] b none fun _ =>
    let xs := (s.activeLanes k).map fun e => (e, keyFind s.core.keytab (BitVec.ofNat 32 (s.hart.elem a s.me.wA e)))
    let o := s.reduceAll s.me.wD (xs.filterMap fun x => x.2.map fun v => (x.1, valueOf s.me.sD 32 v.toNat))
    { o with mask := xs.map fun x => (x.1, x.2.isSome) }

/-- kdrain (R271). -/
def execKdrain (d a : Reg) (s : State) : Res :=
  s.issue .eOnly 1 <| s.operands [a] [d] fun v s1 =>
    let addr := (nth v 0).toNat
    let t := s.core.keytab
    let n := 8 * t.length
    if !inLocal addr then s.trap (.plain wrongStream (nth v 0))
    else if addr % 8 ≠ 0 then s.trap (.addr misaligned (nth v 0) .write)
    else if n ≠ 0 ∧ s.hart.scratchSize < addr - localBase + n then
      s.trap (.addr protection (va64 (max addr (localBase + s.hart.scratchSize / 8 * 8))) .write)
    else if s.interlocked addr n true then s.stall .interlock
    else
      let bs := t.flatMap fun e => leBytes 4 e.1.toNat ++ leBytes 4 e.2.toNat
      (State.wr { s1 with hart := { s1.hart with scratch := s1.hart.scratch.puts (addr - localBase) bs } } d (va64 t.length)).done 1

def execKclr (s : State) : Res := s.issue .eOnly 1 <| (s.setKeys []).done 1

end Sys2Proof.Machine
end

