-- ==== Sys2Proof/Machine/Settle.lean ====
section
/-! DEFINITION. What every step ends with beside its instruction or event: requests of the hub that their homes now take, the scheduler's
part, held records and submissions, departing teams (R290, R291, R295, R296, R333, R357, R395, R399). -/
namespace Sys2Proof.Machine

/-- A request of the hub is made again, in its place in the order of arrival (R333, R399). -/
def State.hubRetry (s : State) (r : HubReq) : State :=
  match r.op with
  | .act (.hostMemoryWrite pa bytes) => s.hostWrite pa bytes r.arrival
  | .act (.hostMemoryRead pa len) => s.hostRead pa len r.arrival
  | .act (.remoteLaunch vd desc) => s.remoteLaunch vd desc r.arrival
  | .act (.recordAcceptance vd w x) => s.recordAcceptance vd w x r.arrival
  | .act (.clocheSave k area limit) => s.clocheSave k area limit r.arrival
  | .act (.clocheRestore k) => s.clocheRestore k r.arrival
  | .act (.stepFire vd t) => s.stepFire vd t r.arrival
  | .act _ => s
  | .done vd gid => match s.findGrid vd gid with | some g => if g.finished then s.finishGrid g r.arrival else s | none => s
  | .look vd gid => s.lookAt vd gid r.arrival
  | .take vd => match s.findVd vd with | some v => if v.st = .destroyed then s else s.ringTake v r.arrival | none => s
  | .event vd code time a0 a1 => s.putEvent vd code time a0 a1 r.arrival

/-- A request of the hub is made again; if a further line of it must be waited for, it keeps its place at the lines it waited for (R333). -/
def State.hubServe (s : State) (r : HubReq) : State :=
  let s1 := s.hubRetry r
  { s1 with hubq := upd (fun x => x.op = r.op ∧ x.arrival = r.arrival) (fun x => { x with lines := x.lines.foldl addLine r.lines }) s1.hubq }

/-- Requests of the hub that their homes take, oldest first, `n` at most. -/
def State.hubRun : Nat → State → State
  | 0, s => s
  | n + 1, s =>
    match s.hubDue with
    | none => s
    | some r => State.hubRun n (State.hubServe { s with hubq := s.hubq.erase r } r)

/-- The scheduler's part of a step: it sees the writes that the step performed at the homes, in order, and completes the
grids whose last team ended; the writes of its own that this brings are seen in turn, `n` rounds deep. -/
def State.settleN : Nat → State → State
  | 0, s => s
  | n + 1, s =>
    let s1 := (s.hubRun s.hubq.length).finishGrids
    if s1.dirtyLog = [] then s1
    else State.settleN n (s1.dirtyLog.foldl State.noteWrite { s1 with dirtyLog := [] })

def State.settle (s : State) : State :=
  let s1 := State.releaseLeaving (State.stopDeparting s.flushHeld.drainInlets)
  (s1.settleN (s1.grids.length + s1.vds.length + s1.hubq.length + 2)).watchIdle

end Sys2Proof.Machine
end

