-- ==== Sys2Proof/Machine/PowerEvents.lean ====
section
/-! DEFINITION. Events of heat, rails, clocks, currents, leakage and lane tests (R385, R403, R404, R406 to R408, R411). -/
namespace Sys2Proof.Machine

-- Heat (R385, R408)

/-- A partition's guaranteed bytes per second on a stack (R385). -/
def State.guaranteed (s : State) (part stack : Nat) (derated : Bool) : Nat :=
  let share := ((s.findPart part).map fun p => p.shares.getD stack 0).getD 0
  share * (if derated then Config.deratedRate stack else Config.stackRate) / 256

/-- A stack crosses 85 °C: doubled refresh begins or ends, and every VD is told (R385). -/
def State.derate (s : State) (n : BitVec 3) (on : Bool) : State :=
  let i : Fin 8 := ⟨n.toNat % 8, Nat.mod_lt _ (by decide)⟩
  if s.hbm[i].derated = on then s
  else
    let s1 := { s with hbm := s.hbm.set i { s.hbm[i] with derated := on } }
    s1.eventAll (if on then 1 else 2) (fun _ => va64 n.toNat) (fun v => va64 (s.guaranteed v.part n.toNat on))

/-- Hatband powers the module off: all state is lost but fuses, images, the spare-lane maps and the counter of the free values (R408, R411). -/
def State.powerOff (s : State) (sensor : Sensor) : State :=
  { State.reset with
    powered := false, booted := false, agenda := s.agenda, tick := s.tick, out := s.out ++ [.powerOff sensor], spares := s.spares
    trust := { Trust.start with images := s.trust.images, fused := s.trust.fused, staged := s.trust.staged } }

/-- THERMAL_THRESHOLD: a sensor rises to a threshold (`above`), or falls 5 °C below it (R408). -/
def execThermalThreshold (sensor : Sensor) (degrees : Nat) (above : Bool) (s : State) : Res :=
  if degrees = 115 then .next (if above then s.powerOff sensor else s)
  else match sensor with
    | .stack n =>
      let i : Fin 8 := ⟨n.toNat % 8, Nat.mod_lt _ (by decide)⟩
      if degrees = 85 then .next (s.derate n above)
      else if degrees = 95 then .next { s with hbm := s.hbm.set i { s.hbm[i] with hot := above } }
      else .next s
    | .die n => if degrees = 105 then .next (s.setDie (dieIx n) { s.dies[dieIx n] with hot := above }) else .next s
    | .other => .next s

-- Rails (R404)

/-- RAIL_VOTE: a partition that holds a cluster on the rail casts a vote, or withdraws it. -/
def execRailVote (die rail : BitVec 2) (part : Nat) (vote : Option Nat) (s : State) : Res :=
  let holds := ((s.findPart part).map fun p => p.held.any (railClusters die.toNat rail.toNat).contains).getD false
  .next (if holds || vote.isNone then s.setRail die rail ((s.rail die rail).vote part vote) else s)

/-- RAIL_DWELL: the dwell timer expires; the rail may fall. -/
def execRailDwell (die rail : BitVec 2) (s : State) : Res :=
  let r := s.rail die rail
  .next (if r.dwell then s.setRail die rail { r with dwell := false, falling := true } else s)

/-- The vote of the partition that holds a cluster. -/
def State.voteFor (s : State) (r : Rail) (cl : Nat) : Nat :=
  match s.parts.find? fun p => p.held.contains cl with
  | some p => ((r.votes.find? fun x => x.1 = p.id).map (·.2)).getD 0
  | none => 0

/-- Clusters of a rail whose frequency would not be legal at a voltage. -/
def State.tooFast (s : State) (die rail : BitVec 2) (v : Nat) : List Nat :=
  (railClusters die.toNat rail.toNat).filter fun c => decide (fmax v < (s.clusOf c).freq)

/-- Every loop of a rail rises to the frequency its partition's vote makes legal (R403, R404). -/
def State.raiseLoops (s : State) (die rail : BitVec 2) (r : Rail) : State :=
  (railClusters die.toNat rail.toNat).foldl (fun s c =>
    let f := fmax (min (s.voteFor r c) r.volt)
    if (s.clusOf c).freq < f ∧ s.parts.any (fun p => p.held.contains c) then s.setClus c { s.clusOf c with freq := f } else s) s

/-- RAIL_STEP: the rail below its highest vote rises by one step, and its loops follow once it is there; a falling rail whose loops all
confirm a legal frequency falls by one step, and otherwise the loops are lowered first (R404). -/
def execRailStep (die rail : BitVec 2) (s : State) : Res :=
  let r := s.rail die rail
  if r.volt < r.top then
    let r1 := { r with volt := r.volt + 1, dwell := false, falling := false }
    let s1 := s.setRail die rail r1
    .next (if r1.volt = r1.top then s1.raiseLoops die rail r1 else s1)
  else if r.top < r.volt then
    if !r.falling then .next s
    else match s.tooFast die rail r.top with
      | [] => .next (s.setRail die rail { r with volt := r.volt - 1, falling := decide (r.top < r.volt - 1) })
      | cs => .next (cs.foldl (fun s c => s.setClus c { s.clusOf c with freq := fmax r.top }) s)
  else .next (s.raiseLoops die rail r)

-- Currents, leakage, lanes (R406, R407, R411)

/-- CURRENT_LIMIT: the die enters a level. Only timing depends on it (R407). -/
def execCurrentLimit (die level : BitVec 2) (s : State) : Res := .next (s.setDie (dieIx die) { s.dies[dieIx die] with cl := level })

/-- One microsecond's leakage of a cluster that is not power-gated; in module collapse the compute dies are off (R392). -/
def State.leak (s : State) (cl : Nat) : State :=
  let c := s.clusOf cl
  if c.gated || s.moduleCollapsed then s else s.setClus cl { c with energy := c.energy + Config.leakageOf (cl * 64 + s.voltOf cl) }

/-- LEAKAGE_ACCOUNTING (R406). -/
def execLeakageAccounting (s : State) : Res := .next ((List.range 256).foldl State.leak s)

/-- A lane's test is over: its row words are read again with their data, and lane work goes on (R411). -/
def Hart.laneTested (h : Hart) (lane : Nat) : Hart :=
  { h with laneBad := h.laneBad.filter (fun x => x % 16384 ≠ lane), tests := h.tests.filter (· ≠ lane) }

/-- The test of a word lane is over. -/
def Hart.wordLaneTested (h : Hart) : Hart := { h with tests := h.tests.filter (· < Config.laneCount) }

/-- Lanes of a lane's slice (64 lanes, R409) that are remapped to its spares; lanes are numbered through the cores. -/
def State.sparesOf (s : State) (lane : Nat) : Nat := (s.spares.filter fun x => x.1 / 64 = lane / 64).length

/-- LANE_TEST ends with a result for a lane of the core in focus (hart j of n has lanes j·16,384/n up), or for numbers from 16,384 up for a
word lane of the hart in focus. A lane that passes is returned with its data; one that fails is remapped to a spare of its slice with its
data; a third spare, or a failing word lane, is a lasting fault of the core, which the partition supervisor then removes (R357, R411). -/
def execLaneTest (lane : Nat) (pass : Bool) (s : State) : Res :=
  if Config.laneCount ≤ lane then
    let s1 := { s with hart := s.hart.wordLaneTested }
    .next (if pass then s1 else s1.report (.coreFault s.coreId))
  else
    let mine := lane / s.lanes = s.hart.id.toNat % 8
    let s1 := if mine then { s with hart := s.hart.laneTested (lane % s.lanes) } else s
    let key := s.coreId * 16384 + lane
    if pass then .next s1
    else if s.sparesOf key < 2 then
      .next (State.report { s1 with spares := s.spares ++ [(key, s.sparesOf key)] } (.laneFault s.hart.id lane))
    else .next (s1.report (.coreFault s.coreId))

end Sys2Proof.Machine
end

