-- ==== Sys2Proof/Machine/TrustEvents.lean ====
section
/-! DEFINITION. Resets, secure boot, attestation and Hatband (R412 to R416). -/
namespace Sys2Proof.Machine

-- Secure boot (R412, R416)

/-- The image's signature verifies and its security version is not older than the fused one (R412). -/
def Trust.verifies (t : Trust) (i : Image) : Bool := i.sigOk && decide (t.fused.getD i.slot.toNat 0 ≤ i.secVersion)

/-- The images with one put in its slot, slots rising: the order in which they are verified. -/
def putImage (i : Image) : List Image → List Image
  | [] => [i]
  | x :: xs => if i.slot < x.slot then i :: x :: xs else if i.slot = x.slot then i :: xs else x :: putImage i xs

/-- Each of the four images is there, and every image verifies (R412). -/
def Trust.complete (t : Trust) (images : List Image) : Bool :=
  (firmware.all fun f => images.any fun i => i.slot = f.slot) && images.all t.verifies

/-- Boot: staged images replace those in their slots; the module is in recovery unless every image is there and verifies. -/
def Trust.boot (t : Trust) : Trust :=
  let images := t.staged.foldl (fun l i => putImage i l) t.images
  { Trust.start with images := images, fused := t.fused, recovery := !t.complete images }

/-- COLD_RESET: full bring-up; all state is lost but the images, the fuses and the maps of lanes that were remapped for good. Bring-up is
complete when the partition-supervisor firmware starts (R411, R412, R415, R416). -/
def execColdReset (s : State) : Res :=
  .next { State.reset with agenda := s.agenda, tick := s.tick, out := s.out, spares := s.spares, booted := false, trust := s.trust.boot }

/-- Step 7 of bring-up: the partition-supervisor firmware starts and virtual functions are enabled (R416). -/
def State.supervisorStarts (s : State) : State := if s.powered && !s.trust.recovery then { s with booted := true } else s

/-- Every VD is destroyed (R396, R415). -/
def State.destroyAll (s : State) : State := s.vds.foldl (fun s v => s.destroyVd v.id) s

/-- CXL_HOT_RESET: every VD is destroyed; partitions, firmware, LPDDR contents and TIME are kept (R415). -/
def execCxlHotReset (s : State) : Res := .next s.destroyAll

def execFunctionLevelResetVf (vd : Nat) (s : State) : Res := .next (s.destroyVd vd)

/-- FUNCTION_LEVEL_RESET_PF: as CXL hot reset (R415). -/
def execFunctionLevelResetPf (s : State) : Res := .next s.destroyAll

/-- RECOVERY_IMAGE: in recovery, a signed image is accepted and the module boots again (R412). -/
def execRecoveryImage (img : Image) (s : State) : Res :=
  .next (if s.trust.recovery && s.trust.verifies img then
    { s with trust := Trust.boot { s.trust with images := putImage img s.trust.images } } else s)

-- SPDM (R413). Response codes are those of DTMF DSP0274 (log 18).

/-- The bytes of a response: its code, and contents that the manual leaves to DSP0274 and to the module's keys. -/
def State.respond (s : State) (code : Nat) (input : List Byte) : State :=
  s.report (.response code (BitVec.ofNat 8 code :: Config.trustBytes code input))

/-- SPDM ERROR, code UnexpectedRequest or InvalidRequest. -/
def State.spdmError (s : State) (code : Nat) : State := s.report (.response 0x7F [0x7F, BitVec.ofNat 8 code])

/-- A request that the connection must have come far enough for. -/
def State.spdm (s : State) (need : SpdmPhase) (code : Nat) (next : SpdmPhase) (input : List Byte) : Res :=
  .next (if s.trust.spdm = need then State.respond { s with trust := { s.trust with spdm := next } } code input else s.spdmError 4)

/-- GET_VERSION begins a connection anew. -/
def execGetVersion (s : State) : Res :=
  .next (State.respond { s with trust := { s.trust with spdm := .version, session := none, finished := false } } 0x04 [])

def execGetCapabilities (s : State) : Res := s.spdm .version 0x61 .capabilities []
def execNegotiateAlgorithms (s : State) : Res := s.spdm .capabilities 0x63 .negotiated []
def execGetDigests (s : State) : Res := s.spdm .negotiated 0x01 .negotiated []
def execGetCertificate (slot : BitVec 3) (s : State) : Res := s.spdm .negotiated 0x02 .negotiated [BitVec.ofNat 8 slot.toNat]
def execChallenge (nonce : List Byte) (s : State) : Res := s.spdm .negotiated 0x03 .negotiated nonce

/-- The partition layout: clusters, quotas and shares of every partition (R413, block 6). -/
def layoutBytes (ps : List Part) : List Byte :=
  ps.flatMap fun p => leBytes 1 p.id ++ leBytes 2 p.clusters.length ++ p.clusters.flatMap (leBytes 1) ++ leBytes 2 p.powerShare
    ++ leBytes 1 p.shares.length ++ p.shares.flatMap (leBytes 2)
    ++ leBytes 4 p.quota.frames ++ leBytes 2 p.quota.vds ++ leBytes 1 p.quota.ways ++ leBytes 4 p.quota.endpoints

/-- What is measured in a block (R412, R413): the ROM and root-of-trust configuration in 1, an image's digest in 2 to 5, the layout in 6. -/
def State.measured (s : State) (index : Nat) : List Byte :=
  if index = 6 then layoutBytes s.parts
  else if index = 1 then Config.romBytes
  else ((s.trust.images.find? fun i => i.slot.toNat + 2 = index).map (·.digest)).getD []

/-- GET_MEASUREMENTS: 0 asks for the number of blocks, 255 for all of them, 1 to 6 for one (R413). -/
def execGetMeasurements (index : BitVec 8) (s : State) : Res :=
  let i := index.toNat
  if 6 < i ∧ i ≠ 255 then .next (s.spdmError 1)
  else s.spdm .negotiated 0x60 .negotiated <|
    if i = 0 then [6] else if i = 255 then [1, 2, 3, 4, 5, 6].flatMap s.measured else index :: s.measured i

/-- KEY_EXCHANGE opens a session for IDE keys. -/
def execKeyExchange (session : Nat) (s : State) : Res :=
  .next (if s.trust.spdm = .negotiated then
    State.respond { s with trust := { s.trust with session := some session, finished := false } } 0x64 (leBytes 4 session) else s.spdmError 4)

/-- FINISH completes the session that KEY_EXCHANGE opened. -/
def execFinish (session : Nat) (s : State) : Res :=
  .next (if s.trust.session = some session && !s.trust.finished then
    State.respond { s with trust := { s.trust with finished := true } } 0x65 (leBytes 4 session) else s.spdmError 4)

-- Hatband (R414)

def execMctpControl (request : List Byte) (s : State) : Res := .next (s.respond 0x100 request)

/-- What platform monitoring covers: temperatures of the eight stacks, the four dies and the rest (free values), rail voltages, grants, error
counts and spares in use (R414). -/
def State.monitored (s : State) : List Byte :=
  (List.range 13).flatMap (fun i => leBytes 1 (Config.degrees i s.tick))
    ++ s.dies.toList.flatMap (fun d => d.rails.toList.flatMap (fun r => leBytes 1 r.volt) ++ leBytes 4 d.grant)
    ++ leBytes 4 s.trust.errors ++ leBytes 4 s.trust.fixed ++ leBytes 4 s.spares.length

def execPldmMonitoring (request : List Byte) (s : State) : Res :=
  .next (State.respond { s with tick := s.tick + 1 } 0x102 (request ++ s.monitored))

/-- PLDM_FIRMWARE_UPDATE: an image that verifies is staged, to be activated at the next boot (R412, R414). -/
def execPldmFirmwareUpdate (img : Image) (s : State) : Res :=
  .next (if s.trust.verifies img then State.respond { s with trust := { s.trust with staged := putImage img s.trust.staged } } 0x105 [0]
    else s.respond 0x105 [1])

/-- HATBAND_WAKE: a wake write (R391, R414). -/
def execHatbandWake (vd : Nat) (s : State) : Res := .next (s.wake vd)

end Sys2Proof.Machine
end

