-- ==== Sys2Proof/Machine/RegEvents.lean ====
section
/-! DEFINITION. Writes of registers that have rows of their own, and REGISTER_WRITE (R6, R229, R256, R261, R264, R265, R320, R322, R371,
R373, R380, R404). -/
namespace Sys2Proof.Machine

-- Windows and timers (R371, R373, R380)

def execMwctlWrite (vd : Nat) (window : BitVec 6) (v : Word) (s : State) : Res :=
  .next (s.ctlWrite vd (0x1000 + 0x40 * window.toNat + 0x08) v)

def execMwbaseWrite (vd : Nat) (window : BitVec 6) (v : Word) (s : State) : Res :=
  .next (s.ctlWrite vd (0x1000 + 0x40 * window.toNat) v)

def execTtctlWrite (vd : Nat) (timer : BitVec 4) (v : Word) (s : State) : Res :=
  .next (s.ctlWrite vd (0x2000 + 0x40 * timer.toNat + 0x20) v)

-- Residency ranges (R320)

def rrErr : Word := 0x40000000
/-- Ways of the ranges in force on a die, range `n` left out. -/
def Die.waysBeside (d : Die) (n : Nat) : Nat :=
  ((List.finRange 16).map fun i => if i.val ≠ n && bit d.rr[i].ctl 31 then fld d.rr[i].ctl 0 4 else 0).sum

/-- A write of RRCTLn; `beyond` says that its partition's quota of ways does not hold it (R320, R383). -/
def RRange.writeCtl (r : RRange) (v : Word) (others : Nat) (beyond : Bool) : RRange :=
  let new := (v &&& 0x801F0F0F) ||| (r.ctl &&& rrErr &&& ~~~v)
  if bit v 31 && (decide (8 < fld v 8 4 ∨ r.limit.toNat / 65536 < r.base.toNat / 65536 ∨ fld v 0 4 = 0 ∨ 12 < others + fld v 0 4) || beyond) then
    { r with ctl := r.ctl ||| rrErr }
  else { r with ctl := new }

def rangeIx (n : BitVec 4) : Fin 16 := ⟨n.toNat % 16, Nat.mod_lt _ (by decide)⟩
def State.mapRange (s : State) (die : BitVec 2) (n : BitVec 4) (f : RRange → RRange) : State :=
  let d := s.dies[dieIx die]
  s.setDie (dieIx die) { d with rr := d.rr.set (rangeIx n) (f d.rr[rangeIx n]) }

/-- Ways that a partition's ranges in force hold on all dies, range `n` of a die left out (R383). -/
def State.waysOf (s : State) (part : Nat) (die : BitVec 2) (n : Nat) : Nat :=
  ((List.finRange 4).map fun i => ((List.finRange 16).map fun j =>
    let r := s.dies[i].rr[j]
    if (i.val ≠ die.toNat || j.val ≠ n) && bit r.ctl 31 && fld r.ctl 16 5 = part then fld r.ctl 0 4 else 0).sum).sum

def execRrctlWrite (die : BitVec 2) (n : BitVec 4) (v : Word) (s : State) : Res :=
  let part := fld v 16 5
  let beyond := (s.findPart part).any fun p => decide (p.quota.ways < s.waysOf part die n.toNat + fld v 0 4)
  .next (s.mapRange die n fun r => r.writeCtl v (s.dies[dieIx die].waysBeside n.toNat) beyond)

-- CPSTAT, one status bit of one channel of the core in focus (R256, R261, R264, R265)

/-- Software writes 1 to a bit of a channel's CPSTAT byte. -/
def State.clearStatus (s : State) (ch : BitVec 3) (b : Nat) : State := s.setChan ch ((s.chan ch).clear (2 ^ b))

def execCpstatFltRestart (ch : BitVec 3) (s : State) : Res := .next (s.clearStatus ch 1)
def execCpstatAbtClear (ch : BitVec 3) (s : State) : Res := .next (s.clearStatus ch 4)
def execCpstatOobClear (ch : BitVec 3) (s : State) : Res := .next (s.clearStatus ch 2)
def execCpstatRperrClear (ch : BitVec 3) (s : State) : Res := .next (s.clearStatus ch 3)

-- MPROG and the rest

/-- MPROG_WRITE, in mode S (R229); in mode U the register is read only. -/
def execMprogWrite (v : Word) (s : State) : Res := .next (if s.user then s else s.writeMprog v)

/-- A write of a system register, under its access codes; the value checks of VTYPE and HVTYPE leave it unchanged (R6, R30, R48). -/
def State.writeSystem (s : State) (num : BitVec 12) (v : Word) : State :=
  match srAccess num.toNat with
  | none => s
  | some a =>
    if (num = 0x002 ∨ num = 0x012) ∧ vtypeBad (v.extractLsb' 0 21) then s
    else if if s.user then a.userWrite else a.superWrite then s.writeSr num.toNat v
    else s

def tierIx (lpddr : Bool) : Fin 2 := if lpddr then 1 else 0
def State.mapTier (s : State) (lpddr : Bool) (f : VerRange → VerRange) : State :=
  { s with verRegs := s.verRegs.set (tierIx lpddr) (f s.verRegs[tierIx lpddr]) }

/-- REGISTER_WRITE (R6). -/
def execRegisterWrite (r : RegTarget) (v : Word) (s : State) : Res :=
  match r with
  | .system num => .next (s.writeSystem num v)
  | .control vd off => .next (if off % 8 = 0 then s.ctlWrite vd off v else s)
  | .residency die n limit =>
    let x := v &&& 0x000FFFFFFFFF0000
    .next (s.mapRange die n fun r => if limit then { r with limit := x } else { r with base := x })
  | .verLo t => .next (s.mapTier t fun r => { r with lo := v.toNat })
  | .verHi t => .next (s.mapTier t fun r => { r with hi := v.toNat })
  | .verBase t => .next (s.mapTier t fun r => { r with base := v.toNat })
  | .railDwell => .next { s with railDwellUs := v.toNat }

end Sys2Proof.Machine
end

