-- ==== Sys2Proof/Machine/Rings.lean ====
section
/-! DEFINITION. Key-value rings and page pools: operations of a bank ALU on a 64-byte descriptor and its list (R277 to R280, R381,
R382). -/
namespace Sys2Proof.Machine

/-- Checks an address that a bank ALU reads and writes, `n` bytes aligned to n on device memory of MT 00 or 01 (R152, R277). -/
def State.bankAddr (s : State) (a n : Nat) (user : Bool) : Chk (Nat × State) :=
  match s.windowCheck a n .atomic false with
  | some t => .trap t
  | none =>
    if s.interlocked a n true then .stall .interlock
    else (s.transBut a .atomic user fun _ pte _ => decide (1 < pteMt pte)).bind fun (pa, _, s1) =>
      match s1.mustWait pa n with
        | some l => .stall (s.pinWait l)
        | none => .ok (pa, s1.counted pa n)

/-- The physical addresses of doublewords, checked in order; with a poisoned line the trap reports it (R153, R409). -/
def State.bankWords (s : State) (user : Bool) : List Nat → List Nat → Chk (List Nat × State)
  | [], ps => .ok (ps, s)
  | a :: as, ps =>
    match s.bankAddr a 8 user with
    | .trap t => .trap t
    | .stall w => .stall w
    | .ok (pa, s1) => s1.bankWords user as (ps ++ [pa])

/-- Runs `k` unless a line of the listed ranges that are read is poisoned: then "memory error" at the address of the first such range,
nothing changed (R153, R341). A range is its address, its physical address and its bytes. -/
def State.unpoisoned (s0 s : State) (rs : List (Nat × Nat × Nat)) (k : Res) : Res :=
  match rs.find? fun r => s.poisoned r.2.1 r.2.2 with
  | some r => (State.reportPoison { s with hart := s0.hart } r.2.1).trap (.addr memoryError (va64 r.1) .atomic)
  | none => k

/-- The eight doublewords of a descriptor, the core's dirty bytes of its line written back first (R317). -/
def State.readDesc8 (s : State) (pa : Nat) : Vector Word 8 × State :=
  let s1 := s.beforeHome pa 64
  (Vector.ofFn fun i : Fin 8 => va64 (s1.mem.rd (pa + 8 * i.val) 8), s1)

def descBytes (v : Vector Word 8) : List Byte := v.toList.flatMap fun w => leBytes 8 w.toNat

/-- Writes a descriptor and doublewords of its list: the descriptor's line is written once (R278). -/
def State.writeDesc8 (s : State) (pa : Nat) (v : Vector Word 8) (ws : List (Nat × Word)) : State :=
  let s1 := ws.foldl (fun s w =>
    if lineOf w.1 = lineOf pa then { s with mem := s.mem.wr w.1 8 w.2.toNat, dirtyLog := s.dirtyLog ++ [(w.1, 8)] }
    else s.homeWrite w.1 (leBytes 8 w.2.toNat)) s
  s1.homeWrite pa (descBytes v)

-- kvapp (R277, R278)

/-- The fields of a ring descriptor. -/
structure Ring where
  h : Nat
  u : Nat
  s : Nat
  p : Nat
  nt : Word
  tpg : Nat
  list : Nat

def ringOf (v : Vector Word 8) : Ring :=
  { h := fld v[0] 48 16, u := fld v[0] 32 16, s := fld v[0] 16 16, p := fld v[0] 0 16, nt := v[1], tpg := fld v[2] 0 32, list := v[3].toNat }

/-- The descriptor's own fields are malformed (R278); so is a LIST that is not 16-byte aligned. -/
def ringBad (v : Vector Word 8) : Bool :=
  let r := ringOf v
  r.p == 0 || decide (r.p < r.s) || decide (r.p < r.u) || r.tpg == 0 || fld v[2] 32 32 != 0 || v[5] != 0 || v[6] != 0 || v[7] != 0
    || r.list % 16 != 0 || (r.u == r.p && decide (r.s < r.p) && (decide (r.h < r.s) || decide (r.p ≤ r.h)))

/-- The entry that kvapp hands out: the next unused one, else the one to recycle. -/
def Ring.entry (r : Ring) : Nat := if r.u < r.p then r.u else r.h

/-- The descriptor after entry i is handed out; `first` is what its list entry held. -/
def Ring.after (r : Ring) (v : Vector Word 8) (first : Word) : Vector Word 8 :=
  let dw0 := if r.u < r.p then setFld v[0] 32 16 (r.u + 1) else setFld v[0] 48 16 (r.s + (r.h - r.s + 1) % (r.p - r.s))
  let v1 := (v.set 0 dw0).set 1 (r.nt + va64 r.tpg)
  if r.u < r.p then v1 else v1.set 4 first

def execKvapp (d a : Reg) (s : State) : Res :=
  s.issue .aOnly 1 <| s.operands [a] [d] fun v s1 =>
    let addr := (nth v 0).toNat
    (s1.bankAddr addr 64 s.user).run s fun (pa, s2) =>
      s.releaseThen s2 true .module fun s3 =>
        s.unpoisoned s3 [(addr, pa, 64)] <|
          let (dsc, s4) := s3.readDesc8 pa
          let r := ringOf dsc
          let answer (st : State) (w : Word) : Res := ((st.acquire .module).deliverLater d w).done 1
          if ringBad dsc then answer s4 (refuseWord 2)
          else if r.u = r.p ∧ r.s = r.p then answer s4 (refuseWord 1)
          else
            let e := r.list + 16 * r.entry
            (s4.bankWords s.user [e, e + 8] []).run s fun (ps, s5) =>
              let pe := ps.getD 0 0
              s.unpoisoned s5 [(e, pe, 16)] <|
                let s6 := s5.beforeHome pe 16
                let page := va64 (s6.mem.rd pe 8)
                let first := va64 (s6.mem.rd (pe + 8) 8)
                let finish (st : State) : Res :=
                  answer (st.writeDesc8 pa (r.after dsc first) [(pe + 8, r.nt)]) (page ||| (if r.u < r.p then 0 else 1))
                if page.toNat % 65536 ≠ 0 then answer s6 (refuseWord 2)
                else if r.u < r.p then finish s6
                else (s6.trans page.toNat .read s.user true).run s fun (_, pte, s7) =>
                  if pteSink pte then answer s7 (refuseWord 3) else finish s7

-- pgget and pgput (R279, R280)

def poolFree (v : Vector Word 8) : Nat := fld v[0] 0 32
def poolCap (v : Vector Word 8) : Nat := fld v[0] 32 32
def poolResv (v : Vector Word 8) : Nat := fld v[1] 0 32
def poolStack (v : Vector Word 8) : Nat := v[2].toNat

def poolBad (v : Vector Word 8) : Bool :=
  fld v[1] 32 32 != 0 || (v.toList.drop 3).any (· != 0) || poolStack v % 8 != 0 || decide (poolCap v < poolFree v)

/-- Checks the buffer's doublewords as stores (R280). -/
def State.bufferLocs (s : State) : List Nat → List Loc → Chk (List Loc × State)
  | [], ls => .ok (ls, s)
  | a :: as, ls =>
    match s.findLoc a 8 .write false with
    | .trap t => .trap t
    | .stall w => .stall w
    | .ok (l, _, s1) => s1.bufferLocs as (ls ++ [l])

/-- pgget (R280). The descriptor's address S[A] is checked before the buffer; the manual does not order the two (log 84). -/
def execPgget (run : Bool) (d a b : Reg) (s : State) : Res :=
  s.issue .aOnly 1 <| s.operands [a, b] [d] fun v s1 =>
    let addr := (nth v 0).toNat
    let req := nth v 1
    let n := fld req 0 4 + 1
    let buf := req.toNat / 64 * 64
    (s1.bankAddr addr 64 s.user).run s fun (pa, s2) =>
      (s2.bufferLocs ((List.range n).map fun t => (buf + 8 * t) % 2 ^ 64) []).run s fun (ls, s3) =>
        s.releaseThen s3 true .module fun s4 =>
          s.unpoisoned s4 [(addr, pa, 64)] <|
            let (p, s5) := s4.readDesc8 pa
            let free := poolFree p
            let answer (st : State) (w : Word) : Res := ((st.acquire .module).deliverLater d w).done 1
            if poolBad p || fld req 4 2 != 0 then answer s5 (refuseWord 2)
            else if (!run && decide ((free : Int) - n < poolResv p)) || decide (free < n) then answer s5 (refuseWord 1)
            else
              let es := (List.range n).map fun t => (poolStack p + 8 * (free - 1 - t)) % 2 ^ 64
              (s5.bankWords s.user es []).run s fun (ps, s6) =>
                s.unpoisoned s6 ((es.zip ps).map fun x => (x.1, x.2, 8)) <|
                  let s7 := ps.foldl (fun st x => st.beforeHome x 8) s6
                  let taken := ps.map fun x => s7.mem.rd x 8
                  let s8 := s7.writeDesc8 pa (p.set 0 (setFld p[0] 0 32 (free - n))) []
                  answer ((ls.zip taken).foldl (fun st x => st.writeLoc x.1 8 x.2) s8) (va64 (free - n))

/-- pgput (R280). The push reads no entry: on a poisoned line it is a store, which is performed (R145, log 39). -/
def execPgput (d a b : Reg) (s : State) : Res :=
  s.issue .aOnly 1 <| s.operands [a, b] [d] fun v s1 =>
    let addr := (nth v 0).toNat
    let page := nth v 1
    (s1.bankAddr addr 64 s.user).run s fun (pa, s2) =>
      s.releaseThen s2 true .module fun s3 =>
        s.unpoisoned s3 [(addr, pa, 64)] <|
          let (p, s4) := s3.readDesc8 pa
          let free := poolFree p
          let answer (st : State) (w : Word) : Res := ((st.acquire .module).deliverLater d w).done 1
          if poolBad p || fld page 0 16 != 0 then answer s4 (refuseWord 2)
          else if free = poolCap p then answer s4 (refuseWord 4)
          else
            let e := (poolStack p + 8 * free) % 2 ^ 64
            (s4.bankWords s.user [e] []).run s fun (ps, s5) =>
              answer (s5.writeDesc8 pa (p.set 0 (setFld p[0] 0 32 (free + 1))) (ps.map fun x => (x, page))) (va64 (free + 1))

end Sys2Proof.Machine
end

