-- ==== Sys2Proof/Machine/Windows.lean ====
section
/-! DEFINITION. The timed-window instructions (R273 to R276, R377 to R380). -/
namespace Sys2Proof.Machine

/-- Records of a window's ring that belong to a step and are not taken. -/
def Window.pendingOf (w : Window) (k : StepId) : List WSlot := w.slots.filter (fun x => x.st = .assigned k)

/-- The step that is running with the window bound to it: that of the timer to which the window is bound now, before one that fired under
an earlier binding (R374, R377, R380). -/
def Vd.stepOf (v : Vd) (w : BitVec 6) : Option StepId :=
  let running (i : Fin 16) : Option StepId :=
    (v.timers[i].running).bind fun r => if r.wins.contains w then some (BitVec.ofNat 4 i.val, r.k) else none
  (((List.finRange 16).filter fun i => (ttWins v.timers[i].ctl).contains w) ++ List.finRange 16).findSome? running

/-- An item of a window (R274). -/
def Vd.winItem (v : Vd) (n : BitVec 6) (item : Nat) : Word :=
  let w := v.win n
  match item with
  | 0 => match v.stepOf n with | some k => va64 (w.pendingOf k).length | none => 0
  | 1 => va64 w.latec
  | 2 => va64 w.dropc
  | 3 => va64 w.slots.length
  | _ => w.base

/-- An item of a timer: cutoff and tick time are those of the most recently fired step, whatever was written since; before a first firing
they are those of step 0 as PERIOD, PHASE and GUARD stand (R274, R379, log 74). -/
def Vd.timerItem (v : Vd) (n : BitVec 4) (item : Nat) : Word :=
  let t := v.timer n
  let f := t.fired.getD (t.cutoff 0, t.tickAt 0)
  match item with
  | 0 => t.k
  | 1 => wordOf f.1
  | 2 => t.ovr
  | _ => va64 f.2

/-- The VD of the hart in focus with a window that it has configured; otherwise "protection" (R273). -/
def State.withWindow (s : State) (n : BitVec 6) (k : Vd → Res) : Res :=
  match s.vd? with
  | some v => if n.toNat < v.nmw then k v else s.trap (.plain protection s.insWord)
  | none => s.trap (.plain protection s.insWord)

def execTwin (timer : Bool) (n : BitVec 6) (item : BitVec 3) (d : Reg) (s : State) : Res :=
  s.issue .aOnly 1 <|
    if (if timer then 3 else 4) < item.toNat then s.illegal
    else s.operands [] [d] fun _ s1 =>
      if timer then
        match s.vd? with
        | some v =>
          if n.toNat < 16 then (s1.deliverLater d (v.timerItem (BitVec.ofNat 4 n.toNat) item.toNat)).done 1
          else s.trap (.plain protection s.insWord)
        | none => s.trap (.plain protection s.insWord)
      else s.withWindow n fun v => (s1.deliverLater d (v.winItem n item.toNat)).done 1

/-- The timer and step under which a grid of the VD was launched, if the window was bound to it then (R275). -/
def State.gridStep (s : State) (v : Vd) (n : BitVec 6) : Option StepId :=
  match (s.findGrid v.id s.hart.grid.toNat).bind (·.timer) with
  | none => none
  | some (t, k) =>
    match (v.timer t).running with
    | some r => if r.k = k ∧ r.wins.contains n then some (t, k) else none
    | none => none

def recordBefore (x y : WSlot) : Bool := decide (x.t.toNat < y.t.toNat ∨ (x.t = y.t ∧ x.order < y.order))

/-- twtake (R275, R379). -/
def execTwtake (n : BitVec 6) (d : Reg) (s : State) : Res :=
  s.issue .aOnly 1 <| s.operands [] [d] fun _ s1 =>
    s.withWindow n fun v =>
      match s.gridStep v n with
      | none => s.trap (.plain protection s.insWord)
      | some k =>
        let w := v.win n
        match best recordBefore (w.pendingOf k) with
        | none => (s1.deliverLater d 0).done 1
        | some r => s.acquireThen .die <|
          let s2 := s1.mapVd v.id (·.mapWin n fun w => { w with slots := upd (fun x => x.slot = r.slot) (fun x => { x with st := .taken k }) w.slots })
          ((s2.acquire .die).deliverLater d (w.base + va64 (r.slot * 64))).done 1

/-- The taken records, the oldest first; twack returns them in the order in which twtake returned them. -/
def Window.taken (w : Window) : List WSlot :=
  sortBy (fun x y => !recordBefore y x) (w.slots.filter fun x => match x.st with | .taken _ => true | _ => false)

/-- twack (R276). -/
def execTwack (n : BitVec 6) (d a : Reg) (s : State) : Res :=
  s.issue .aOnly 1 <| s.operands [a] [d] fun v s1 =>
    s.withWindow n fun vd =>
      s.releaseThen s1 true .die fun s2 =>
        let back := ((vd.win n).taken.take (nth v 0).toNat).map (·.slot)
        let s3 := s2.mapVd vd.id (·.mapWin n fun w => { w with slots := w.slots.filter fun x => !back.contains x.slot })
        (s3.deliverLater d (va64 back.length)).done 1

end Sys2Proof.Machine
end

