-- ==== Sys2Proof/Machine/Dispatch.lean ====
section
/-! DEFINITION. What each instruction and event does: one arm per constructor of Instr. -/
namespace Sys2Proof.Machine

def exec (i : Instr) (s : State) : Host.Outcome State Fault Refusal :=
  match i with
  | .add w d a b => Sys2Proof.Machine.execAdd w d a b s
  | .sub w d a b => Sys2Proof.Machine.execSub w d a b s
  | .and w d a b => Sys2Proof.Machine.execAnd w d a b s
  | .or w d a b => Sys2Proof.Machine.execOr w d a b s
  | .xor w d a b => Sys2Proof.Machine.execXor w d a b s
  | .andn w d a b => Sys2Proof.Machine.execAndn w d a b s
  | .shl w d a b => Sys2Proof.Machine.execShl w d a b s
  | .shr w d a b => Sys2Proof.Machine.execShr w d a b s
  | .sar w d a b => Sys2Proof.Machine.execSar w d a b s
  | .rol w d a b => Sys2Proof.Machine.execRol w d a b s
  | .mul w d a b => Sys2Proof.Machine.execMul w d a b s
  | .mulh w d a b => Sys2Proof.Machine.execMulh w d a b s
  | .mulhu w d a b => Sys2Proof.Machine.execMulhu w d a b s
  | .div w d a b => Sys2Proof.Machine.execDiv w d a b s
  | .divu w d a b => Sys2Proof.Machine.execDivu w d a b s
  | .rem w d a b => Sys2Proof.Machine.execRem w d a b s
  | .remu w d a b => Sys2Proof.Machine.execRemu w d a b s
  | .min w d a b => Sys2Proof.Machine.execMin w d a b s
  | .max w d a b => Sys2Proof.Machine.execMax w d a b s
  | .minu w d a b => Sys2Proof.Machine.execMinu w d a b s
  | .maxu w d a b => Sys2Proof.Machine.execMaxu w d a b s
  | .slt w d a b => Sys2Proof.Machine.execSlt w d a b s
  | .sltu w d a b => Sys2Proof.Machine.execSltu w d a b s
  | .seq w d a b => Sys2Proof.Machine.execSeq w d a b s
  | .clz w d a => Sys2Proof.Machine.execClz w d a s
  | .ctz w d a => Sys2Proof.Machine.execCtz w d a s
  | .popc w d a => Sys2Proof.Machine.execPopc w d a s
  | .bswap w d a => Sys2Proof.Machine.execBswap w d a s
  | .sext z d a => Sys2Proof.Machine.execSext z d a s
  | .zext z d a => Sys2Proof.Machine.execZext z d a s
  | .qstat d q => Sys2Proof.Machine.execQstat d q s
  | .vadd cb ca k d a b => Sys2Proof.Machine.execVadd cb ca k d a b s
  | .vsub cb ca k d a b => Sys2Proof.Machine.execVsub cb ca k d a b s
  | .vmul cb ca k d a b => Sys2Proof.Machine.execVmul cb ca k d a b s
  | .vmac cb ca k d a b => Sys2Proof.Machine.execVmac cb ca k d a b s
  | .vmin cb ca k d a b => Sys2Proof.Machine.execVmin cb ca k d a b s
  | .vmax cb ca k d a b => Sys2Proof.Machine.execVmax cb ca k d a b s
  | .vlog op cb ca k d a b => Sys2Proof.Machine.execVlog op cb ca k d a b s
  | .vneg ca k d a => Sys2Proof.Machine.execVneg ca k d a s
  | .vabs ca k d a => Sys2Proof.Machine.execVabs ca k d a s
  | .vshl cb ca k d a b => Sys2Proof.Machine.execVshl cb ca k d a b s
  | .vshr cb ca k d a b => Sys2Proof.Machine.execVshr cb ca k d a b s
  | .vsar cb ca k d a b => Sys2Proof.Machine.execVsar cb ca k d a b s
  | .vcmp c cb ca k d a b => Sys2Proof.Machine.execVcmp c cb ca k d a b s
  | .vsel cb ca k d a b => Sys2Proof.Machine.execVsel cb ca k d a b s
  | .vmv ca k d a => Sys2Proof.Machine.execVmv ca k d a s
  | .vbc k d a => Sys2Proof.Machine.execVbc k d a s
  | .vid k d => Sys2Proof.Machine.execVid k d s
  | .vext ca d a b => Sys2Proof.Machine.execVext ca d a b s
  | .vins d a b => Sys2Proof.Machine.execVins d a b s
  | .vslide up ca k d a b => Sys2Proof.Machine.execVslide up ca k d a b s
  | .vdot cb ca k d a b => Sys2Proof.Machine.execVdot cb ca k d a b s
  | .vred op ca k d a => Sys2Proof.Machine.execVred op ca k d a s
  | .vgred op ca k g d a => Sys2Proof.Machine.execVgred op ca k g d a s
  | .vmlog op k d a b => Sys2Proof.Machine.execVmlog op k d a b s
  | .vmpop k d a => Sys2Proof.Machine.execVmpop k d a s
  | .vmfirst k d a => Sys2Proof.Machine.execVmfirst k d a s
  | .vcompact ca k d a => Sys2Proof.Machine.execVcompact ca k d a s
  | .vexpand ca k d a => Sys2Proof.Machine.execVexpand ca k d a s
  | .vclz ca k d a => Sys2Proof.Machine.execVclz ca k d a s
  | .vcvtw ca k n d a => Sys2Proof.Machine.execVcvtw ca k n d a s
  | .vxq ca k d a => Sys2Proof.Machine.execVxq ca k d a s
  | .vzp ca d a => Sys2Proof.Machine.execVzp ca d a s
  | .addi d a imm => Sys2Proof.Machine.execAddi d a imm s
  | .andi d a imm => Sys2Proof.Machine.execAndi d a imm s
  | .ori d a imm => Sys2Proof.Machine.execOri d a imm s
  | .xori d a imm => Sys2Proof.Machine.execXori d a imm s
  | .shli d a sh => Sys2Proof.Machine.execShli d a sh s
  | .shri d a sh => Sys2Proof.Machine.execShri d a sh s
  | .sari d a sh => Sys2Proof.Machine.execSari d a sh s
  | .slti d a imm => Sys2Proof.Machine.execSlti d a imm s
  | .sltiu d a imm => Sys2Proof.Machine.execSltiu d a imm s
  | .movi d imm => Sys2Proof.Machine.execMovi d imm s
  | .ld u z d a ofs => Sys2Proof.Machine.execLd u z d a ofs s
  | .st z d a ofs => Sys2Proof.Machine.execSt z d a ofs s
  | .amo op o c d a b => Sys2Proof.Machine.execAmo op o c d a b s
  | .ldv d a ofs => Sys2Proof.Machine.execLdv d a ofs s
  | .vval d => Sys2Proof.Machine.execVval d s
  | .vclr => Sys2Proof.Machine.execVclr s
  | .fence o c => Sys2Proof.Machine.execFence o c s
  | .cflush a => Sys2Proof.Machine.execCflush a s
  | .cinv a => Sys2Proof.Machine.execCinv a s
  | .wld f d a ofs => Sys2Proof.Machine.execWld f d a ofs s
  | .wst f d a b ofs => Sys2Proof.Machine.execWst f d a b ofs s
  | .wadd f d a b => Sys2Proof.Machine.execWadd f d a b s
  | .wsub f d a b => Sys2Proof.Machine.execWsub f d a b s
  | .wmul f d a b => Sys2Proof.Machine.execWmul f d a b s
  | .wfma f d a b => Sys2Proof.Machine.execWfma f d a b s
  | .wmin f d a b => Sys2Proof.Machine.execWmin f d a b s
  | .wmax f d a b => Sys2Proof.Machine.execWmax f d a b s
  | .wun op f d a => Sys2Proof.Machine.execWun op f d a s
  | .wcvt g f d a => Sys2Proof.Machine.execWcvt g f d a s
  | .wcmp c f d a b => Sys2Proof.Machine.execWcmp c f d a b s
  | .wsel d a b => Sys2Proof.Machine.execWsel d a b s
  | .wred op f g d a => Sys2Proof.Machine.execWred op f g d a s
  | .wperm d a b => Sys2Proof.Machine.execWperm d a b s
  | .wmov op f d a b => Sys2Proof.Machine.execWmov op f d a b s
  | .wq dq d a b => Sys2Proof.Machine.execWq dq d a b s
  | .semtas c n => Sys2Proof.Machine.execSemtas c n s
  | .semtry c n d => Sys2Proof.Machine.execSemtry c n d s
  | .semclr c n => Sys2Proof.Machine.execSemclr c n s
  | .crd n d => Sys2Proof.Machine.execCrd n d s
  | .cwr n a => Sys2Proof.Machine.execCwr n a s
  | .tbar c => Sys2Proof.Machine.execTbar c s
  | .bexp n a => Sys2Proof.Machine.execBexp n a s
  | .barv c n a => Sys2Proof.Machine.execBarv c n a s
  | .bwait c n d a => Sys2Proof.Machine.execBwait c n d a s
  | .qflush q => Sys2Proof.Machine.execQflush q s
  | .setvl d a => Sys2Proof.Machine.execSetvl d a s
  | .setvtReg d a => Sys2Proof.Machine.execSetvtReg d a s
  | .setvtImm sat sd wd sb wb sa wa d => Sys2Proof.Machine.execSetvtImm sat sd wd sb wb sa wa d s
  | .b ofs => Sys2Proof.Machine.execB ofs s
  | .jal d ofs => Sys2Proof.Machine.execJal d ofs s
  | .jalr d a ofs => Sys2Proof.Machine.execJalr d a ofs s
  | .bcc c a b ofs => Sys2Proof.Machine.execBcc c a b ofs s
  | .loop l a n => Sys2Proof.Machine.execLoop l a n s
  | .lstride l a imm => Sys2Proof.Machine.execLstride l a imm s
  | .ecall code => Sys2Proof.Machine.execEcall code s
  | .ebreak => Sys2Proof.Machine.execEbreak s
  | .eret => Sys2Proof.Machine.execEret s
  | .wfi => Sys2Proof.Machine.execWfi s
  | .mfsr d num => Sys2Proof.Machine.execMfsr d num s
  | .mtsr a num => Sys2Proof.Machine.execMtsr a num s
  | .tlbinv k a => Sys2Proof.Machine.execTlbinv k a s
  | .nop => Sys2Proof.Machine.execNop s
  | .launch d a => Sys2Proof.Machine.execLaunch d a s
  | .signal a b => Sys2Proof.Machine.execSignal a b s
  | .exit => Sys2Proof.Machine.execExit s
  | .yield => Sys2Proof.Machine.execYield s
  | .mcfg a => Sys2Proof.Machine.execMcfg a s
  | .mma c f z d a b => Sys2Proof.Machine.execMma c f z d a b s
  | .mmas c f z d a b => Sys2Proof.Machine.execMmas c f z d a b s
  | .mwait done a => Sys2Proof.Machine.execMwait done a s
  | .mprog d => Sys2Proof.Machine.execMprog d s
  | .mclr => Sys2Proof.Machine.execMclr s
  | .vtow ca f d a b => Sys2Proof.Machine.execVtow ca f d a b s
  | .wtov f d a b => Sys2Proof.Machine.execWtov f d a b s
  | .kins cb ca k d a b => Sys2Proof.Machine.execKins cb ca k d a b s
  | .klook ca k d a b => Sys2Proof.Machine.execKlook ca k d a b s
  | .kacc op cb ca k d a b => Sys2Proof.Machine.execKacc op cb ca k d a b s
  | .kdrain d a => Sys2Proof.Machine.execKdrain d a s
  | .kclr => Sys2Proof.Machine.execKclr s
  | .twin timer n item d => Sys2Proof.Machine.execTwin timer n item d s
  | .twtake n d => Sys2Proof.Machine.execTwtake n d s
  | .twack n d a => Sys2Proof.Machine.execTwack n d a s
  | .kvapp d a => Sys2Proof.Machine.execKvapp d a s
  | .pgget run d a b => Sys2Proof.Machine.execPgget run d a b s
  | .pgput d a b => Sys2Proof.Machine.execPgput d a b s
  | .send e a b => Sys2Proof.Machine.execSend e a b s
  | .recv e d a => Sys2Proof.Machine.execRecv e d a s
  | .lnkwait e => Sys2Proof.Machine.execLnkwait e s
  | .pfx lvl iter fz sat rm => Sys2Proof.Machine.execPfx lvl iter fz sat rm s
  | .movl d imm => Sys2Proof.Machine.execMovl d imm s
  | .movh d imm => Sys2Proof.Machine.execMovh d imm s
  | .addl d a imm => Sys2Proof.Machine.execAddl d a imm s
  | .fshl d a b im sh c => Sys2Proof.Machine.execFshl d a b im sh c s
  | .fshr d a b im sh c => Sys2Proof.Machine.execFshr d a b im sh c s
  | .bext d a sg len pos => Sys2Proof.Machine.execBext d a sg len pos s
  | .bins d a len pos => Sys2Proof.Machine.execBins d a len pos s
  | .sel d a b c => Sys2Proof.Machine.execSel d a b c s
  | .cas z o sc d a b c => Sys2Proof.Machine.execCas z o sc d a b c s
  | .casv z o sc d a b c => Sys2Proof.Machine.execCasv z o sc d a b c s
  | .ldo u z o sc d a disp => Sys2Proof.Machine.execLdo u z o sc d a disp s
  | .sto z o sc d a disp => Sys2Proof.Machine.execSto z o sc d a disp s
  | .jl d ofs => Sys2Proof.Machine.execJl d ofs s
  | .vld ord u z k d a disp => Sys2Proof.Machine.execVld ord u z k d a disp s
  | .vlds ord u z k d a b disp => Sys2Proof.Machine.execVlds ord u z k d a b disp s
  | .vldx ord u z cb k d a b disp => Sys2Proof.Machine.execVldx ord u z cb k d a b disp s
  | .vldff ord u z k d a disp => Sys2Proof.Machine.execVldff ord u z k d a disp s
  | .vst ord z cd k d a disp => Sys2Proof.Machine.execVst ord z cd k d a disp s
  | .vsts ord z cd k d a b disp => Sys2Proof.Machine.execVsts ord z cd k d a b disp s
  | .vstx ord z cd cb k d a b disp => Sys2Proof.Machine.execVstx ord z cd cb k d a b disp s
  | .vstb cd k d a b disp => Sys2Proof.Machine.execVstb cd k d a b disp s
  | .vamo op ord cd cb o sc k d a b => Sys2Proof.Machine.execVamo op ord cd cb o sc k d a b s
  | .cpy o lk => Sys2Proof.Machine.execCpy o lk s
  | .cpys o rby c => Sys2Proof.Machine.execCpys o rby c s
  | .cpyt o x t dq xf pw kb c => Sys2Proof.Machine.execCpyt o x t dq xf pw kb c s
  | .cpyo o z q red xf kb c => Sys2Proof.Machine.execCpyo o z q red xf kb c s
  | .cpyg o nm qm rng iw fill sw srow c => Sys2Proof.Machine.execCpyg o nm qm rng iw fill sw srow c s
  | .cpwait ch a sc drain => Sys2Proof.Machine.execCpwait ch a sc drain s
  | .cpstat ch d item => Sys2Proof.Machine.execCpstat ch d item s
  | .fetchLine => Sys2Proof.Machine.execFetchLine s
  | .asyncDelivery => Sys2Proof.Machine.execAsyncDelivery s
  | .vloadCompletion => Sys2Proof.Machine.execVloadCompletion s
  | .laneCompletion => Sys2Proof.Machine.execLaneCompletion s
  | .matrixRowStep => Sys2Proof.Machine.execMatrixRowStep s
  | .matrixDone => Sys2Proof.Machine.execMatrixDone s
  | .copyChunk ch => Sys2Proof.Machine.execCopyChunk ch s
  | .pageWalk va acc => Sys2Proof.Machine.execPageWalk va acc s
  | .trapEntry => Sys2Proof.Machine.execTrapEntry s
  | .queueWatchdog => Sys2Proof.Machine.execQueueWatchdog s
  | .wfiTimeout => Sys2Proof.Machine.execWfiTimeout s
  | .pinExpiry line => Sys2Proof.Machine.execPinExpiry line s
  | .cacheEviction line => Sys2Proof.Machine.execCacheEviction line s
  | .streamStop => Sys2Proof.Machine.execStreamStop s
  | .placementOffer => Sys2Proof.Machine.execPlacementOffer s
  | .quantumExpiry teams => Sys2Proof.Machine.execQuantumExpiry teams s
  | .aging vd gid => Sys2Proof.Machine.execAging vd gid s
  | .energyWindow die => Sys2Proof.Machine.execEnergyWindow die s
  | .powerGrant available => Sys2Proof.Machine.execPowerGrant available s
  | .clocheSave team area limit => Sys2Proof.Machine.execClocheSave team area limit s
  | .clocheRestore team => Sys2Proof.Machine.execClocheRestore team s
  | .stopWalk vd graph => Sys2Proof.Machine.execStopWalk vd graph s
  | .partitionResize part clusters powerShare shares => Sys2Proof.Machine.execPartitionResize part clusters powerShare shares s
  | .vdCreation vd p => Sys2Proof.Machine.execVdCreation vd p s
  | .vdDestruction vd => Sys2Proof.Machine.execVdDestruction vd s
  | .versionedPageMove vd old new bytes => Sys2Proof.Machine.execVersionedPageMove vd old new bytes s
  | .tick vd timer => Sys2Proof.Machine.execTick vd timer s
  | .stepFire vd timer => Sys2Proof.Machine.execStepFire vd timer s
  | .holdExpiry vd timer => Sys2Proof.Machine.execHoldExpiry vd timer s
  | .recordAcceptance vd window r => Sys2Proof.Machine.execRecordAcceptance vd window r s
  | .collapse vd => Sys2Proof.Machine.execCollapse vd s
  | .wakeComplete vd => Sys2Proof.Machine.execWakeComplete vd s
  | .wakeWrite vd => Sys2Proof.Machine.execWakeWrite vd s
  | .hostMemoryWrite pa bytes => Sys2Proof.Machine.execHostMemoryWrite pa bytes s
  | .hostMemoryRead pa len => Sys2Proof.Machine.execHostMemoryRead pa len s
  | .remoteLaunch vd desc => Sys2Proof.Machine.execRemoteLaunch vd desc s
  | .messageAcceptance vd ep incoming => Sys2Proof.Machine.execMessageAcceptance vd ep incoming s
  | .linkEndpointDown vd ep => Sys2Proof.Machine.execLinkEndpointDown vd ep s
  | .linkEndpointUp vd ep => Sys2Proof.Machine.execLinkEndpointUp vd ep s
  | .ptpMessage offset elapsed => Sys2Proof.Machine.execPtpMessage offset elapsed s
  | .timeStep ns => Sys2Proof.Machine.execTimeStep ns s
  | .timeHoldover => Sys2Proof.Machine.execTimeHoldover s
  | .timeLocked offset => Sys2Proof.Machine.execTimeLocked offset s
  | .thermalThreshold sensor degrees above => Sys2Proof.Machine.execThermalThreshold sensor degrees above s
  | .railVote die rail part vote => Sys2Proof.Machine.execRailVote die rail part vote s
  | .railDwell die rail => Sys2Proof.Machine.execRailDwell die rail s
  | .railStep die rail => Sys2Proof.Machine.execRailStep die rail s
  | .currentLimit die level => Sys2Proof.Machine.execCurrentLimit die level s
  | .leakageAccounting => Sys2Proof.Machine.execLeakageAccounting s
  | .laneTest lane pass => Sys2Proof.Machine.execLaneTest lane pass s
  | .coldReset => Sys2Proof.Machine.execColdReset s
  | .cxlHotReset => Sys2Proof.Machine.execCxlHotReset s
  | .functionLevelResetVf vd => Sys2Proof.Machine.execFunctionLevelResetVf vd s
  | .functionLevelResetPf => Sys2Proof.Machine.execFunctionLevelResetPf s
  | .getVersion => Sys2Proof.Machine.execGetVersion s
  | .getCapabilities => Sys2Proof.Machine.execGetCapabilities s
  | .negotiateAlgorithms => Sys2Proof.Machine.execNegotiateAlgorithms s
  | .getDigests => Sys2Proof.Machine.execGetDigests s
  | .getCertificate slot => Sys2Proof.Machine.execGetCertificate slot s
  | .challenge nonce => Sys2Proof.Machine.execChallenge nonce s
  | .getMeasurements index => Sys2Proof.Machine.execGetMeasurements index s
  | .keyExchange session => Sys2Proof.Machine.execKeyExchange session s
  | .finish session => Sys2Proof.Machine.execFinish session s
  | .mctpControl request => Sys2Proof.Machine.execMctpControl request s
  | .pldmMonitoring request => Sys2Proof.Machine.execPldmMonitoring request s
  | .pldmFirmwareUpdate img => Sys2Proof.Machine.execPldmFirmwareUpdate img s
  | .hatbandWake vd => Sys2Proof.Machine.execHatbandWake vd s
  | .recoveryImage img => Sys2Proof.Machine.execRecoveryImage img s
  | .mwctlWrite vd window v => Sys2Proof.Machine.execMwctlWrite vd window v s
  | .mwbaseWrite vd window v => Sys2Proof.Machine.execMwbaseWrite vd window v s
  | .ttctlWrite vd timer v => Sys2Proof.Machine.execTtctlWrite vd timer v s
  | .rrctlWrite die n v => Sys2Proof.Machine.execRrctlWrite die n v s
  | .cpstatFltRestart ch => Sys2Proof.Machine.execCpstatFltRestart ch s
  | .cpstatAbtClear ch => Sys2Proof.Machine.execCpstatAbtClear ch s
  | .cpstatOobClear ch => Sys2Proof.Machine.execCpstatOobClear ch s
  | .cpstatRperrClear ch => Sys2Proof.Machine.execCpstatRperrClear ch s
  | .mprogWrite v => Sys2Proof.Machine.execMprogWrite v s
  | .registerWrite r v => Sys2Proof.Machine.execRegisterWrite r v s
  | .reservedOpcode w => Sys2Proof.Machine.execReservedOpcode w s
  | .vectorMemoryCompletion => Sys2Proof.Machine.execVectorMemoryCompletion s
  | .linkEndpointConfiguration vd ep c => Sys2Proof.Machine.execLinkEndpointConfiguration vd ep c s
  | .remoteLaunchAnswer answer => Sys2Proof.Machine.execRemoteLaunchAnswer answer s
  | .remoteStopRequest vd gid => Sys2Proof.Machine.execRemoteStopRequest vd gid s

end Sys2Proof.Machine
end

