-- ==== Sys2Proof/Machine/Inputs.lean ====
section
/-! DEFINITION. What reaches the machine from outside, or befalls it, and has no row of the opcode table (log 73; R302, R307, R350, R356,
R357, R368, R383, R390, R398, R409, R410, R416). -/
namespace Sys2Proof.Machine

/-- The list with an element that it does not hold yet. -/
def addNew (x : Nat) (l : List Nat) : List Nat := if l.contains x then l else l ++ [x]

/-- An uncorrectable, or a corrected, error is counted (R414). -/
def State.countError (s : State) : State := { s with trust := { s.trust with errors := s.trust.errors + 1 } }
def State.countFixed (s : State) : State := { s with trust := { s.trust with fixed := s.trust.fixed + 1 } }

/-- What an input does. -/
def State.input (s : State) (x : Input) : State :=
  match x with
  | .lineError line => { s with poison := addNew line s.poison }.countError
  | .slotError slot => { s with slotBad := addNew slot s.slotBad }.countError
  | .scratchError h w => (s.atHart h fun h => { h with scratchBad := addNew w h.scratchBad }).countError
  | .laneError h row lane => (s.atHart h fun h => { h with laneBad := addNew (row % 512 * 16384 + lane % 16384) h.laneBad }).countError
  | .residueError h => (s.atHart h fun h => { h with residue := h.residue + 1 }).countFixed
  | .laneFixed h row lane =>
    ((s.atHart h fun h => h.testLane lane).countFixed).report (.corrected (rowWindow (row % 512 * 16384 + lane % 16384)).toNat)
  | .correctedError a => s.countFixed.report (.corrected a)
  | .removeCore c => s.removeCore c
  | .figures ec => s.setFigures ec
  | .quotas part q => s.setQuota part q
  | .decoder lo len => { s with decoders := s.decoders.filter (fun d => d.1 ≠ lo) ++ if len = 0 then [] else [(lo, len)] }
  | .saveDealt k => s.saveDealt k
  | .areaMoved k area limit => s.areaMoved k area limit
  | .resumeGraph vd graph => s.resumeGraph vd graph
  | .moveFrame vd old new => s.moveFrame vd old new
  | .stopAcked vd gid => s.stopAcked vd gid
  | .resumeGrid vd gid => s.resumeGrid vd gid
  | .resumeAcked vd gid => s.resumeAcked vd gid
  | .controlRead vd off size => s.hostControlRead vd off size
  | .etherType e => { s with etherType := e }
  | .supervisorStarts => s.supervisorStarts

end Sys2Proof.Machine
end

