-- ==== Sys2Proof/Machine/Background.lean ====
section
/-! DEFINITION. What moves by itself beside the streams: the engines of a hart, Cloche, receivers, pins and the scheduler (log 8). -/
namespace Sys2Proof.Machine

/-- A stream that the cores hold, by its hart and class. -/
structure Runner where
  hart : BitVec 14
  e : Bool
  strm : Strm

def Runner.core (r : Runner) : Nat := r.hart.toNat / 8
/-- The place of a stream in the machine's fixed order, and its slot: its core and class (R309). -/
def Runner.order (r : Runner) : Nat := r.hart.toNat * 2 + boolNat r.e
def Runner.slot (r : Runner) : Nat := r.core * 2 + boolNat r.e

def Ctx.runners (c : Ctx) : List Runner := [⟨c.hart.id, false, c.a⟩, ⟨c.hart.id, true, c.e⟩]

/-- Every stream of a team that has not ended. -/
def State.runners (s : State) : List Runner := s.allCtxs.flatMap Ctx.runners

-- Engines (log 8)

/-- A pinned line that has been asked for, in any core. -/
def State.retriedPin (s : State) : Option Nat :=
  ((s.core :: s.cores.map (·.2)).flatMap (·.dcache)).findSome? fun l => if l.pin.isSome && l.retried then some l.line else none

/-- The scheduler has a team to place, or a pre-emption to ask for (R301, R304). -/
def State.offerDue (s : State) : Bool := !s.waiting.isEmpty && decide (s.offer.teams ≠ s.teams)

/-- A message that its receiver can accept. -/
def State.acceptable (s : State) : Option (Nat × BitVec 8) :=
  s.vds.findSome? fun v => v.eps.findSome? fun e =>
    match e.2.cfg, e.2.out with
    | some c, _ :: _ => if !e.2.down && v.alive && (!c.onModule || s.takesMessage c.remoteVd (BitVec.ofNat 8 c.remoteEp)) then some (v.id, e.1) else none
    | _, _ => none

/-- A team that Cloche is to restore. -/
def State.toRestore (s : State) : Option TeamKey :=
  s.teams.findSome? fun t =>
    match t.st with
    | .restoring _ => if s.hubHas (.act (.clocheRestore t.key)) then none else some t.key
    | _ => none

/-- The oldest matrix operation has only its end to come. -/
def State.opDone (s : State) : Bool := match s.hart.mq with | o :: _ => o.stage == .consumed | [] => false

/-- The oldest matrix operation can take a row step (R224, R225, R229, R411). -/
def State.rowDue (s : State) : Bool :=
  match s.hart.mq with
  | o :: _ => o.stage != .consumed && s.hart.mhalt.isNone && s.hart.laneBusy == 0 && s.hart.tests.isEmpty && !s.matrixWaits o
  | [] => false

/-- The line that a channel's command waits for can be had now (R333). -/
def State.chanFree (s : State) (ch : Channel) : Bool :=
  match ch.pinWait with
  | some (ls, a) => ls.all fun l => (s.waitsFor a (l * 128) 1).isNone
  | none => true

/-- A channel's head command is of the hart in focus and can go on; a linked cpy waits for its endpoint and then for acceptance (R247,
R260, R282). -/
def State.chunkDue (s : State) (i : BitVec 3) : Bool :=
  match (s.chan i).queue with
  | c :: _ =>
    !(s.chan i).flt && c.hart == s.hart.id && !s.held && s.chanFree (s.chan i) &&
      match c.kind with
      | .cpy (some e) => decide (c.pos < c.len ∧ s.unaccepted e < Config.epSize) && !s.linkBefore e c.id
      | _ => true
  | [] => false

/-- An access that has asked for some lines can go on: it need wait for none, or must ask for a further one (R333). -/
def goesOn (ask : Option (List Nat × Nat)) (blocked : Option Nat) : Bool := blocked.all fun l => !ask.any (·.1.contains l)

/-- The oldest vector memory completion can take place: the lines of its acquire can be written back (R208, R318, R333). -/
def State.vmemDue (s : State) : Bool :=
  match s.me.vmem with
  | [] => false
  | m :: _ => match m.acq with | some c => !wideScope c || goesOn m.asked (s.dirtyWaitsAt (m.since s.stamp)) | none => true

/-- The stream in focus can stop: its work is complete, and its team's lines can be written back if the team ends with it (R139, R296). -/
def State.stopDue (s : State) : Bool :=
  s.me.exiting && !s.me.stopped && s.quiet && s.me.faults.isEmpty && goesOn s.me.ask (s.flushWaits (s.coresOf s.key))

/-- The work of the engines of the stream in focus and its hart, in a fixed order: the first event that changes the state. -/
def State.engineEvent (s : State) : Option Instr :=
  if !s.me.pend.isEmpty then some .asyncDelivery
  else if !s.hart.vloads.isEmpty then some .vloadCompletion
  else if s.vmemDue then some .vectorMemoryCompletion
  else if s.hart.laneBusy ≠ 0 then some .laneCompletion
  else if s.opDone then some .matrixDone
  else if !s.held && s.rowDue then some .matrixRowStep
  else match (List.finRange 8).find? fun i => s.chunkDue (BitVec.ofNat 3 i.val) with
    | some i => some (.copyChunk (BitVec.ofNat 3 i.val))
    | none => if s.stopDue then some .streamStop else none

/-- The streams in the machine's order, from the one after that in focus. -/
def State.roundFrom (s : State) : List Runner :=
  let rs := sortBy (fun x y : Runner => x.order ≤ y.order) s.runners
  let here := s.hart.id.toNat * 2 + boolNat s.isE
  rs.filter (fun r => here < r.order) ++ rs.filter fun r => r.order ≤ here

/-- The next event that comes by itself, and the stream in whose focus: a pin's end, an engine's work, a restore, a message's acceptance. -/
def State.background (s : State) : Option (BitVec 14 × Bool × Instr) :=
  match s.retriedPin with
  | some l => some (s.hart.id, s.isE, .pinExpiry l)
  | none =>
    match s.roundFrom.findSome? fun r => (s.focusOn r.hart r.e).engineEvent.map fun i => (r.hart, r.e, i) with
    | some x => some x
    | none =>
      match s.toRestore with
      | some k => some (s.hart.id, s.isE, .clocheRestore k)
      | none => s.acceptable.map fun m => (s.hart.id, s.isE, .messageAcceptance m.1 m.2 none)

end Sys2Proof.Machine
end

