-- ==== Sys2Proof/Machine/Select.lean ====
section
/-! DEFINITION. Which stream issues: each core's selection for each class, the cores and classes taking turns (R36, R140, R309, R310;
log 2, log 8). -/
namespace Sys2Proof.Machine

/-- What a stream, or a word that is no instruction, does when it goes on. -/
inductive Go where
  | ins (i : Instr)
  | bad (tval : Word)
  | reserved (w : W32)

/-- The stream in focus goes on: a pending channel fault first, then the end of a wfi, then the instruction at its program counter (R134,
R342). -/
def State.goOn (s : State) : Go :=
  if !s.me.faults.isEmpty && s.me.pfx.isNone && !s.me.launching then .ins .trapEntry
  else if s.me.inWfi then .ins .wfiTimeout
  else match s.me.find s.me.pc with
    | .absent => .ins .fetchLine
    | .bad t => .bad t
    | .reserved w => .reserved w
    | .ins i _ => .ins i

/-- The outcome of going on. -/
def State.run (s : State) (g : Go) : Host.Outcome State Fault Refusal :=
  match g with
  | .ins i => exec i s
  | .bad t => s.badWord t
  | .reserved w => s.reservedTrap w

/-- What going on would come to: nothing, since the stream has not what it waits for; a fetch, a wait's beginning or end, or a trap of a
pending fault; or an instruction's issue. -/
inductive Readiness where
  | blocked | free | ready
  deriving DecidableEq, Repr

/-- A stall that the instruction will be issued again after. -/
def Strm.reissues (t : Strm) : Bool :=
  match t.wait with
  | some (.wfi _) | some (.answer ..) | some (.inlet ..) | none => false
  | _ => true

/-- What going on comes to, a prefixed pair being one instruction (R87). -/
def State.attempt (s : State) (g : Go) : Host.Outcome State Fault Refusal :=
  match s.run g with
  | .next t => if t.me.pfx.isSome then t.run t.goOn else .next t
  | r => r

/-- What the stream in focus would come to (R309). A wfi ends by itself at the earliest after 64 cycles of the model (log 8). -/
def State.readiness (s : State) : Readiness :=
  if s.me.stopped || s.held || s.me.launching then .blocked
  else if !s.me.faults.isEmpty && s.me.pfx.isNone then .free
  else if s.me.exiting then .blocked
  else if s.me.inWfi then (if 64 ≤ s.me.age then .free else .blocked)
  else
    let g := s.goOn
    match s.attempt g with
    | .next t =>
      if t.me.reissues then (if t.me.wait = s.me.wait then .blocked else .free)
      else match g with
        | .ins .fetchLine => .free
        | _ => .ready
    | _ => .ready

def State.readinessOf (s : State) (r : Runner) : Readiness := (s.focusOn r.hart r.e).readiness

/-- An instruction that the word unit executes, the transposes among them (R231, R238, R239). -/
def isWordUnit : Instr → Bool
  | .wld .. | .wst .. | .wadd .. | .wsub .. | .wmul .. | .wfma .. | .wmin .. | .wmax .. | .wun .. | .wcvt .. | .wcmp .. | .wsel ..
  | .wred .. | .wperm .. | .wmov .. | .wq .. | .vtow .. | .wtov .. => true
  | _ => false

/-- The instruction that the stream issues next: of a prefixed pair, the one behind the prefix (R87). -/
def Strm.nextIns (t : Strm) : Option Instr :=
  match t.find t.pc with
  | .ins (.pfx ..) _ => match t.find (nextSlot t.pc 1) with | .ins i _ => some i | _ => none
  | .ins i _ => some i
  | _ => none

def Runner.wordNext (r : Runner) : Bool := r.e && r.strm.nextIns.any isWordUnit

/-- How many harts on from the one that last issued a word-unit instruction (R310). -/
def State.wordTurn (s : State) (r : Runner) : Nat := (r.hart.toNat % 8 + 7 - (s.coreOf r.core).wordLast.toNat) % 8

/-- Of the word-unit candidates of a core only the next hart in turn is compared (R310). -/
def State.inTurn (s : State) (rs : List Runner) : List Runner :=
  rs.filter fun r => !r.wordNext || rs.all fun x => !x.wordNext || decide (s.wordTurn r ≤ s.wordTurn x)

/-- The selection of R309 among the candidates of one core and class: one ready for 64 cycles or more, the longest first; else the greatest
age; ties go to the lowest hart. -/
def select (rs : List Runner) : Option Runner :=
  let old := rs.filter fun r => 64 ≤ r.strm.ready
  let key (r : Runner) : Nat := if old.isEmpty then r.strm.age else r.strm.ready
  best (fun x y => decide (key y < key x ∨ (key x = key y ∧ x.hart < y.hart))) (if old.isEmpty then rs else old)

/-- A move of a stream: which, and, for an issue, the harts whose streams of the same core and class were ready beside it. -/
structure Pick where
  r : Runner
  ready : Option (List (BitVec 14))

/-- What the streams of one slot do: a stream that need not be selected goes on first; else the selection's candidate issues. -/
def State.pickIn (s : State) (rs : List Runner) : Option Pick :=
  let got := rs.map fun r => (r, s.readinessOf r)
  match got.find? fun x => x.2 = .free with
  | some x => some ⟨x.1, none⟩
  | none =>
    let cands := (got.filter fun x => x.2 = .ready).map (·.1)
    (select (s.inTurn cands)).map fun r => ⟨r, some (cands.map (·.hart))⟩

/-- The other harts whose streams of the same core and class are ready beside the stream in focus. -/
def State.readyHere (s : State) : List (BitVec 14) :=
  (s.runners.filter fun r => r.core == s.hart.id.toNat / 8 && r.e == s.isE && r.hart != s.hart.id && s.readinessOf r == .ready).map (·.hart)

/-- The slots, in turn from the one after that which last had its turn. -/
def State.slotsFrom (s : State) : List Nat :=
  let all := sortBy (· ≤ ·) (s.runners.map Runner.slot).dedup
  all.filter (fun x => s.slot < x) ++ all.filter fun x => x ≤ s.slot

/-- The stream that goes on next: the first slot in turn that has one. -/
def State.pick (s : State) : Option Pick := s.slotsFrom.findSome? fun x => s.pickIn (s.runners.filter fun r => r.slot = x)

/-- What a step does: a stream goes on; an event befalls a stream's focus; the rest as the agenda asks. -/
inductive Act where
  | pick (p : Pick)
  | issue
  | engine (hart : BitVec 14) (e : Bool) (i : Instr)
  | focus (hart : BitVec 14) (e : Bool)
  | part (n : Nat)
  | event (i : Instr)
  | input (x : Input)
  | notEvent
  | idle

/-- The move of a state whose agenda is empty: bring-up ends (log 90); the scheduler places what it can; else a stream goes on, and after
64 such moves, or with no stream to go on, what moves by itself (R301, R309, log 8). -/
def State.selfMove (s : State) : Act :=
  if s.powered && !s.trust.recovery && !s.booted then .input .supervisorStarts
  else if s.offerDue then .engine s.hart.id s.isE .placementOffer
  else
    let other : Option Act := s.background.map fun x => .engine x.1 x.2.1 x.2.2
    let mine : Option Act := s.pick.map .pick
    match (if s.turn < 64 then mine.or other else other.or mine) with
    | some a => a
    | none => .idle

/-- The head of the agenda, unless a prefixed pair is in progress: then the stream in focus goes on (R87). -/
def State.choose (s : State) : Act × State :=
  if s.me.pfx.isSome then (.issue, s)
  else match s.agenda with
    | m :: rest =>
      let s1 := { s with agenda := rest }
      match m with
      | .focus h e => (.focus h e, s1)
      | .issue => (.issue, s1)
      | .part n => (.part n, s1)
      | .event i => (if i.isEvent then .event i else .notEvent, s1)
      | .input x => (.input x, s1)
    | [] => (s.selfMove, s)

end Sys2Proof.Machine
end

