-- ==== Sys2Proof/Machine/Serve.lean ====
section
/-! DEFINITION. What every step adds to the instruction or event that it runs: which events the module serves in its present state, the energy
of an event, the cycles of the streams, and the scheduler's part (R309, R347, R406, R412, R414, R416). -/
namespace Sys2Proof.Machine

/-- Continues a next state. -/
def after (r : Res) (f : State → State) : Res :=
  match r with
  | .next s => .next (f s)
  | .fault e => .fault e
  | .refused e => .refused e

-- What is served (R412, R414, R416)

/-- What Hatband and the root of trust serve with the module off or in recovery (R412 to R415). -/
def hatbandServes : Instr → Bool
  | .coldReset | .recoveryImage .. | .mctpControl .. | .pldmMonitoring .. | .pldmFirmwareUpdate .. | .hatbandWake .. | .getVersion
  | .getCapabilities | .negotiateAlgorithms | .getDigests | .getCertificate .. | .challenge .. | .getMeasurements .. | .keyExchange ..
  | .finish .. => true
  | _ => false

/-- What the partition-supervisor firmware does. -/
def supervisorServes : Instr → Bool
  | .vdCreation .. | .vdDestruction .. | .partitionResize .. | .registerWrite .. | .rrctlWrite .. | .railVote ..
  | .linkEndpointConfiguration .. | .versionedPageMove .. => true
  | _ => false

/-- The module serves the event now: with the power off, or in recovery, only Hatband runs; before the end of bring-up no partition-supervisor
firmware does (R412, R414, R416). Another event finds nobody there, and nothing happens
(log 90). -/
def State.serves (s : State) (i : Instr) : Bool :=
  if s.powered && !s.trust.recovery then s.booted || !supervisorServes i else hatbandServes i

/-- What the partition supervisor brings. -/
def Input.supervisors : Input → Bool
  | .removeCore _ | .figures _ | .quotas .. | .decoder .. | .saveDealt _ | .areaMoved .. | .resumeGraph .. | .moveFrame ..
  | .etherType _ => true
  | _ => false

/-- The input finds the module on, and the partition supervisor running if it is the one that brings it. -/
def State.takes (s : State) (x : Input) : Bool := s.powered && !s.trust.recovery && (s.booted || !x.supervisors)

-- Energy (R406, log 17)

/-- The class of an instruction that `t` results from: its first byte if it retired, that is, neither stalled nor trapped; an instruction that
waits for its result counts when it has had its effect. -/
def issueClass (i : Instr) (s t : State) : Option Nat :=
  let trapped := t.me.inHandler && t.me.pc == handlerEntry t.me.tvec && t.me.tpc == s.me.issueAddr
  if trapped || t.me.reissues || (s.hart.live && !t.hart.live) then none else (encode i).head?.map fun w => w.toNat % 256

/-- Where a command stands. -/
def CopyCmd.progress (c : CopyCmd) : List Nat := [c.pos, c.gt, c.gj, c.gx, c.got.length]

/-- The step from `s` to `t` completed a chunk of a channel: its head command went on, or left the queue and was not abandoned, for an
abandoned one, like one that faults, leaves a fault pending (R259, R262, R406). -/
def chunkCompleted (s t : State) (ch : BitVec 3) : Bool :=
  let q := (s.chan ch).queue
  let r := (t.chan ch).queue
  s.me.faults.length + s.peer.faults.length == t.me.faults.length + t.peer.faults.length &&
    (decide (r.length < q.length) || q.head?.map CopyCmd.progress != r.head?.map CopyCmd.progress)

/-- The class and operand widths (VTYPE) of an event of an engine that acted: 257 for a row step, which is complete when MPROG has counted it,
258 for a copy chunk, 260 to 262 for what a memory request delivers to the vector registers, to memory and to a fetch buffer. -/
def eventClass (i : Instr) (s t : State) : Option (Nat × Nat) :=
  match i with
  | .matrixRowStep => if t.hart.mprog ≠ s.hart.mprog then s.hart.mq.head?.map fun o => (257, o.vtype.toNat) else none
  | .copyChunk ch => if chunkCompleted s t ch then some (258, 0) else none
  | .vloadCompletion => if t.hart.vloads ≠ s.hart.vloads then some (260, 0) else none
  | .vectorMemoryCompletion => if t.me.vmem.length < s.me.vmem.length then some (261, 0) else none
  | .fetchLine => if s.me.fetchBuf.length < t.me.fetchBuf.length then some (262, 0) else none
  | _ => none

/-- What a step from `s` to `t` adds from the table: for what `i` did, for the line that an instruction itself brought into a fetch buffer, and
for every request that was delivered to a register, by an ASYNC_DELIVERY or at a trap's entry (class 259; R339). -/
def energyEntries (i : Option Instr) (s t : State) : List (Nat × Nat) :=
  let own := match i with
    | none => none
    | some i => if i.isEvent then eventClass i s t else (issueClass i s t).map fun c => (c, s.me.vtype.toNat)
  let fetched := match i with
    | none => 0
    | some i => if i.isEvent then 0 else t.me.fetchBuf.length - s.me.fetchBuf.length
  own.toList ++ List.replicate fetched (262, 0) ++ List.replicate (s.me.pend.length - t.me.pend.length) (259, 0)

/-- The entries' energy, by class, widths and the voltage step of the rail, is added to the cluster in focus. -/
def State.addEnergy (l : List (Nat × Nat)) (s : State) : State :=
  { s with clus := { s.clus with
      energy := s.clus.energy + (l.map fun x => Config.energyOf ((x.1 * 64 + s.voltOf s.clusId) * 2 ^ 21 + x.2)).sum } }

-- Cycles (R309, log 8)

/-- Applies `f` to every stream that the cores hold, given its hart and class. -/
def State.mapStrms (f : BitVec 14 → Bool → Strm → Strm) (s : State) : State :=
  { s with
    me := f s.hart.id s.isE s.me, peer := f s.hart.id (!s.isE) s.peer
    parked := s.parked.map fun c => { c with a := f c.hart.id false c.a, e := f c.hart.id true c.e } }

/-- A cycle of a slot in which another stream issued: the instruction of a stream there is a cycle older, and ready for a cycle more if it was
ready. -/
def Strm.grow (t : Strm) (ready : Bool) : Strm := { t with age := t.age + 1, ready := if ready then t.ready + 1 else 0 }

/-- The cycle of the slot of the stream in focus, which issued beside the ready harts. -/
def State.cycle (s : State) (ready : List (BitVec 14)) : State :=
  let core := s.hart.id.toNat / 8
  let me := s.hart.id
  let e := s.isE
  let f (h : BitVec 14) (c : Bool) (t : Strm) : Strm :=
    if h = me ∧ c = e then { t with ready := 0 } else if h.toNat / 8 = core ∧ c = e then t.grow (ready.contains h) else t
  s.mapStrms f

-- Wake events of wfi (R134)

/-- Between two states of a hart and its core a queue that the hart's stream of class `e` reads received an entry, or a transfer barrier
completed a phase. -/
def wakeEvent (e : Bool) (h0 h1 : Hart) (c0 c1 : Core) : Bool :=
  (List.finRange 8).any (fun i => decide (i.val < 4) == e && decide (entries (h0.q i) < entries (h1.q i))) ||
    (List.finRange 16).any fun i => c0.tbs[i].phase != c1.tbs[i].phase

/-- A hart of the cores by its number. -/
def State.hartNo (s : State) (id : BitVec 14) : Hart :=
  if s.hart.id = id then s.hart else ((s.parked.find? fun c => c.hart.id = id).map (·.hart)).getD (Hart.vacant id)

/-- A step that led from `s` to `t` brought a wake event for a stream of a hart: an entry, a phase, a stop request, or a pending
trap: a channel fault, or on the E-stream a halted matrix operation that is still to be reported (R134, R342). -/
def State.wakes (s t : State) (id : BitVec 14) (e : Bool) (x : Strm) : Bool :=
  let h := t.hartNo id
  !x.faults.isEmpty || (e && h.mhalt.isSome && h.mtold.isNone) || !t.notHeld ⟨h.vd.toNat, h.grid.toNat, h.team.toNat⟩ ||
    wakeEvent e (s.hartNo id) h (s.coreOf (id.toNat / 8)) (t.coreOf (id.toNat / 8))

/-- The wfis that the step from `s` to `t` woke complete. -/
def State.woken (s t : State) : State := t.mapStrms fun id e x => if x.inWfi && s.wakes t id e x then x.wfiDone else x

/-- The instruction wrote a semaphore or data word of its cluster's communication file. -/
def wroteComm (i : Instr) (s t : State) : Bool :=
  match i with
  | .cwr .. | .semclr .. => (issueClass i s t).isSome
  | .semtas .. | .semtry .. => t.clus.comm.sems != s.clus.comm.sems
  | _ => false

/-- Every wfi of the cluster in focus completes. -/
def State.wakeCluster (s : State) : State := s.mapStrms fun id _ x => if x.inWfi && id.toNat / 64 == s.clusId then x.wfiDone else x

/-- Every step is a cycle of the streams that wait in a wfi (R134). -/
def Strm.tickWfi (t : Strm) : Strm := if t.inWfi then { t with age := t.age + 1 } else t

/-- What every step from `s` ends with: timers that TIME has reached, the scheduler's part, and the waits in wfi (R134, R290, R295, R296,
R374). -/
def State.conclude (s t : State) : State := (s.woken t.timers.settle).mapStrms fun _ _ x => x.tickWfi

-- Going on, and events

/-- The stream in focus may go on: no stop request and no wait of its own keeps it; a prefixed pair in progress always does (R87, R347). -/
def State.mayGo (s : State) : Bool :=
  s.me.pfx.isSome || (!s.me.stopped && !s.held && !s.me.launching && (!s.me.exiting || !s.me.faults.isEmpty))

/-- The energy and the cycle that going on comes to; its slot has had its turn. -/
def State.went (s : State) (g : Go) (ready : Option (List (BitVec 14))) (t : State) : State :=
  let t1 := t.addEnergy (energyEntries (match g with | .ins i => some i | _ => none) s t)
  let t2 := match ready with | some hs => t1.cycle hs | none => t1
  let t3 := match g with | .ins i => (if wroteComm i s t then t2.wakeCluster else t2) | _ => t2
  { t3 with turn := t3.turn + 1, slot := s.hart.id.toNat / 8 * 2 + boolNat s.isE }

/-- The stream in focus goes on; `ready` names the harts that were ready beside it, if it issues. -/
def State.goes (s : State) (ready : Option (List (BitVec 14))) : Res := after (s.run s.goOn) (s.went s.goOn ready)

/-- An event takes place. -/
def State.events (s : State) (i : Instr) : Res := after (exec i s) fun t => { t.addEnergy (energyEntries (some i) s t) with turn := 0 }

/-- A stop request finds the stream in focus within a vector memory instruction without a prefix, `n` elements of it performed (R211, R348,
log 77). -/
def State.stopsAt (s : State) (n : Nat) : State :=
  if s.held && !s.me.stopped && !s.me.exiting && !s.me.launching && !s.me.inWfi && s.me.faults.isEmpty then
    match s.me.find s.me.pc with
    | .ins i _ => State.partOf i n s
    | _ => s
  else s

end Sys2Proof.Machine
end

