-- ==== Sys2Proof/Machine/Step.lean ====
section
/-! DEFINITION. One step of the machine: what runs in which state of the module, what every step ends with, and the placing of one instruction
for it. What this file only puts together, Serve.lean and Select.lean define. -/
namespace Sys2Proof.Machine

/-- Runs one move of the agenda or of the machine's own; the second word of a prefixed pair takes no cycle of its own (R87, R309, R347). -/
def runAct (s : State) (a : Act) : Host.Outcome State Fault Refusal :=
  match a with
  | .pick p => after ((s.focusOn p.r.hart p.r.e).goes p.ready) s.conclude
  | .issue => if s.mayGo then after (s.goes (if s.me.pfx.isSome then none else some s.readyHere)) s.conclude else .next (s.conclude s)
  | .engine h e i => after ((s.focusOn h e).events i) s.conclude
  | .focus h e => .next (s.focusOn h e)
  | .part n => .next (s.conclude (s.stopsAt n))
  | .event i => if s.serves i then after (s.events i) s.conclude else .next s
  | .input x => if s.takes x then .next (s.conclude (s.input x)) else .next s
  | .notEvent => .refused .notAnEvent
  | .idle => .next (s.conclude s)

def step (s : State) : Host.Outcome State Fault Refusal := runAct s.choose.2 s.choose.1

/-- The same instruction where step fetches its next one: slot 1 of a line of its own in the fetch buffer of the stream in
focus, that stream free to issue and of a class that issues it (log 6). -/
def State.withFetchWord (s : State) (nbits w : Nat) : State :=
  let v := w % 2 ^ nbits
  let w0 : W32 := BitVec.ofNat 32 v
  let e : W32 := BitVec.ofNat 32 (v / 2 ^ 32)
  let line : FetchLine := ⟨lineBase s.me.pc, [0x00010001, w0, e] ++ List.replicate 13 0⟩
  { s with
    agenda := [.issue], turn := 0, teams := s.teams.filter (fun t => t.key ≠ s.key)
    isE := eStreamByte (w0.toNat % 256)
    me := { s.me with
      pc := lineBase s.me.pc + 4, fetchBuf := [line], stopped := false, exiting := false, wait := none, pfx := none
      pend := [], faults := [] } }

end Sys2Proof.Machine
end

