-- ==== Sys2Proof/Laws/PerInstr.lean ====
section
/-! SUPPORT. One lemma for each instruction: its words are as many as its class says (R80, R81). -/
namespace Sys2Proof.Laws

theorem word1_class (l op : Nat) (fs : List (Nat × Nat)) (h : l < 4) : (word1 l op fs).toNat % 4 = l := by
  simp only [word1, BitVec.toNat_ofNat]
  omega

/-- An instruction whose first word has L = 11 has an EXT word, any other has none. -/
def Length.Statement (i : Instr) : Prop := ∀ w es, encode i = w :: es → es.length = if w.toNat % 4 = 3 then 1 else 0

theorem length_short {l op : Nat} {fs : List (Nat × Nat)} (h : l < 3) (w : W32) (es : List W32) (e : [word1 l op fs] = w :: es) :
    es.length = if w.toNat % 4 = 3 then 1 else 0 := by
  obtain ⟨rfl, rfl⟩ := List.cons.inj e
  rw [word1_class l op fs (by omega), if_neg (by omega)]; rfl

theorem length_long {op : Nat} {fs : List (Nat × Nat)} {x : W32} (w : W32) (es : List W32) (e : [word1 3 op fs, x] = w :: es) :
    es.length = if w.toNat % 4 = 3 then 1 else 0 := by
  obtain ⟨rfl, rfl⟩ := List.cons.inj e
  rw [word1_class 3 op fs (by omega)]; rfl

theorem length_event (w : W32) (es : List W32) (e : ([] : List W32) = w :: es) : es.length = if w.toNat % 4 = 3 then 1 else 0 := nomatch e

theorem Length.add (w : Bool) (d a b : Reg) : Length.Statement (.add w d a b) := length_short (by decide)
theorem Length.sub (w : Bool) (d a b : Reg) : Length.Statement (.sub w d a b) := length_short (by decide)
theorem Length.and (w : Bool) (d a b : Reg) : Length.Statement (.and w d a b) := length_short (by decide)
theorem Length.or (w : Bool) (d a b : Reg) : Length.Statement (.or w d a b) := length_short (by decide)
theorem Length.xor (w : Bool) (d a b : Reg) : Length.Statement (.xor w d a b) := length_short (by decide)
theorem Length.andn (w : Bool) (d a b : Reg) : Length.Statement (.andn w d a b) := length_short (by decide)
theorem Length.shl (w : Bool) (d a b : Reg) : Length.Statement (.shl w d a b) := length_short (by decide)
theorem Length.shr (w : Bool) (d a b : Reg) : Length.Statement (.shr w d a b) := length_short (by decide)
theorem Length.sar (w : Bool) (d a b : Reg) : Length.Statement (.sar w d a b) := length_short (by decide)
theorem Length.rol (w : Bool) (d a b : Reg) : Length.Statement (.rol w d a b) := length_short (by decide)
theorem Length.mul (w : Bool) (d a b : Reg) : Length.Statement (.mul w d a b) := length_short (by decide)
theorem Length.mulh (w : Bool) (d a b : Reg) : Length.Statement (.mulh w d a b) := length_short (by decide)
theorem Length.mulhu (w : Bool) (d a b : Reg) : Length.Statement (.mulhu w d a b) := length_short (by decide)
theorem Length.div (w : Bool) (d a b : Reg) : Length.Statement (.div w d a b) := length_short (by decide)
theorem Length.divu (w : Bool) (d a b : Reg) : Length.Statement (.divu w d a b) := length_short (by decide)
theorem Length.rem (w : Bool) (d a b : Reg) : Length.Statement (.rem w d a b) := length_short (by decide)
theorem Length.remu (w : Bool) (d a b : Reg) : Length.Statement (.remu w d a b) := length_short (by decide)
theorem Length.min (w : Bool) (d a b : Reg) : Length.Statement (.min w d a b) := length_short (by decide)
theorem Length.max (w : Bool) (d a b : Reg) : Length.Statement (.max w d a b) := length_short (by decide)
theorem Length.minu (w : Bool) (d a b : Reg) : Length.Statement (.minu w d a b) := length_short (by decide)
theorem Length.maxu (w : Bool) (d a b : Reg) : Length.Statement (.maxu w d a b) := length_short (by decide)
theorem Length.slt (w : Bool) (d a b : Reg) : Length.Statement (.slt w d a b) := length_short (by decide)
theorem Length.sltu (w : Bool) (d a b : Reg) : Length.Statement (.sltu w d a b) := length_short (by decide)
theorem Length.seq (w : Bool) (d a b : Reg) : Length.Statement (.seq w d a b) := length_short (by decide)
theorem Length.clz (w : Bool) (d a : Reg) : Length.Statement (.clz w d a) := length_short (by decide)
theorem Length.ctz (w : Bool) (d a : Reg) : Length.Statement (.ctz w d a) := length_short (by decide)
theorem Length.popc (w : Bool) (d a : Reg) : Length.Statement (.popc w d a) := length_short (by decide)
theorem Length.bswap (w : Bool) (d a : Reg) : Length.Statement (.bswap w d a) := length_short (by decide)
theorem Length.sext (z : Size) (d a : Reg) : Length.Statement (.sext z d a) := length_short (by decide)
theorem Length.zext (z : Size) (d a : Reg) : Length.Statement (.zext z d a) := length_short (by decide)
theorem Length.qstat (d : Reg) (q : BitVec 3) : Length.Statement (.qstat d q) := length_short (by decide)
theorem Length.vadd (cb ca : Bool) (k : BitVec 3) (d a b : Reg) : Length.Statement (.vadd cb ca k d a b) := length_short (by decide)
theorem Length.vsub (cb ca : Bool) (k : BitVec 3) (d a b : Reg) : Length.Statement (.vsub cb ca k d a b) := length_short (by decide)
theorem Length.vmul (cb ca : Bool) (k : BitVec 3) (d a b : Reg) : Length.Statement (.vmul cb ca k d a b) := length_short (by decide)
theorem Length.vmac (cb ca : Bool) (k : BitVec 3) (d a b : Reg) : Length.Statement (.vmac cb ca k d a b) := length_short (by decide)
theorem Length.vmin (cb ca : Bool) (k : BitVec 3) (d a b : Reg) : Length.Statement (.vmin cb ca k d a b) := length_short (by decide)
theorem Length.vmax (cb ca : Bool) (k : BitVec 3) (d a b : Reg) : Length.Statement (.vmax cb ca k d a b) := length_short (by decide)
theorem Length.vlog (op : LogOp) (cb ca : Bool) (k : BitVec 3) (d a b : Reg) : Length.Statement (.vlog op cb ca k d a b) := length_short (by decide)
theorem Length.vneg (ca : Bool) (k : BitVec 3) (d a : Reg) : Length.Statement (.vneg ca k d a) := length_short (by decide)
theorem Length.vabs (ca : Bool) (k : BitVec 3) (d a : Reg) : Length.Statement (.vabs ca k d a) := length_short (by decide)
theorem Length.vshl (cb ca : Bool) (k : BitVec 3) (d a b : Reg) : Length.Statement (.vshl cb ca k d a b) := length_short (by decide)
theorem Length.vshr (cb ca : Bool) (k : BitVec 3) (d a b : Reg) : Length.Statement (.vshr cb ca k d a b) := length_short (by decide)
theorem Length.vsar (cb ca : Bool) (k : BitVec 3) (d a b : Reg) : Length.Statement (.vsar cb ca k d a b) := length_short (by decide)
theorem Length.vcmp (c : Cond) (cb ca : Bool) (k : BitVec 3) (d : BitVec 3) (a b : Reg) :
    Length.Statement (.vcmp c cb ca k d a b) := length_short (by decide)
theorem Length.vsel (cb ca : Bool) (k : BitVec 3) (d a b : Reg) : Length.Statement (.vsel cb ca k d a b) := length_short (by decide)
theorem Length.vmv (ca : Bool) (k : BitVec 3) (d a : Reg) : Length.Statement (.vmv ca k d a) := length_short (by decide)
theorem Length.vbc (k : BitVec 3) (d a : Reg) : Length.Statement (.vbc k d a) := length_short (by decide)
theorem Length.vid (k : BitVec 3) (d : Reg) : Length.Statement (.vid k d) := length_short (by decide)
theorem Length.vext (ca : Bool) (d a b : Reg) : Length.Statement (.vext ca d a b) := length_short (by decide)
theorem Length.vins (d a b : Reg) : Length.Statement (.vins d a b) := length_short (by decide)
theorem Length.vslide (up : Bool) (ca : Bool) (k : BitVec 3) (d a b : Reg) : Length.Statement (.vslide up ca k d a b) := length_short (by decide)
theorem Length.vdot (cb ca : Bool) (k : BitVec 3) (d a b : Reg) : Length.Statement (.vdot cb ca k d a b) := length_short (by decide)
theorem Length.vred (op : RedOp) (ca : Bool) (k : BitVec 3) (d a : Reg) : Length.Statement (.vred op ca k d a) := length_short (by decide)
theorem Length.vgred (op : RedOp) (ca : Bool) (k : BitVec 3) (g : BitVec 3) (d a : Reg) :
    Length.Statement (.vgred op ca k g d a) := length_short (by decide)
theorem Length.vmlog (op : LogOp) (k d a b : BitVec 3) : Length.Statement (.vmlog op k d a b) := length_short (by decide)
theorem Length.vmpop (k : BitVec 3) (d : Reg) (a : BitVec 3) : Length.Statement (.vmpop k d a) := length_short (by decide)
theorem Length.vmfirst (k : BitVec 3) (d : Reg) (a : BitVec 3) : Length.Statement (.vmfirst k d a) := length_short (by decide)
theorem Length.vcompact (ca : Bool) (k : BitVec 3) (d a : Reg) : Length.Statement (.vcompact ca k d a) := length_short (by decide)
theorem Length.vexpand (ca : Bool) (k : BitVec 3) (d a : Reg) : Length.Statement (.vexpand ca k d a) := length_short (by decide)
theorem Length.vclz (ca : Bool) (k : BitVec 3) (d a : Reg) : Length.Statement (.vclz ca k d a) := length_short (by decide)
theorem Length.vcvtw (ca : Bool) (k : BitVec 3) (n : BitVec 5) (d a : Reg) : Length.Statement (.vcvtw ca k n d a) := length_short (by decide)
theorem Length.vxq (ca : Bool) (k : BitVec 3) (d a : Reg) : Length.Statement (.vxq ca k d a) := length_short (by decide)
theorem Length.vzp (ca : Bool) (d a : Reg) : Length.Statement (.vzp ca d a) := length_short (by decide)
theorem Length.addi (d a : Reg) (imm : BitVec 14) : Length.Statement (.addi d a imm) := length_short (by decide)
theorem Length.andi (d a : Reg) (imm : BitVec 14) : Length.Statement (.andi d a imm) := length_short (by decide)
theorem Length.ori (d a : Reg) (imm : BitVec 14) : Length.Statement (.ori d a imm) := length_short (by decide)
theorem Length.xori (d a : Reg) (imm : BitVec 14) : Length.Statement (.xori d a imm) := length_short (by decide)
theorem Length.shli (d a : Reg) (sh : BitVec 6) : Length.Statement (.shli d a sh) := length_short (by decide)
theorem Length.shri (d a : Reg) (sh : BitVec 6) : Length.Statement (.shri d a sh) := length_short (by decide)
theorem Length.sari (d a : Reg) (sh : BitVec 6) : Length.Statement (.sari d a sh) := length_short (by decide)
theorem Length.slti (d a : Reg) (imm : BitVec 14) : Length.Statement (.slti d a imm) := length_short (by decide)
theorem Length.sltiu (d a : Reg) (imm : BitVec 14) : Length.Statement (.sltiu d a imm) := length_short (by decide)
theorem Length.movi (d : Reg) (imm : BitVec 19) : Length.Statement (.movi d imm) := length_short (by decide)
theorem Length.ld (u : Bool) (z : Size) (d a : Reg) (ofs : BitVec 11) : Length.Statement (.ld u z d a ofs) := length_short (by decide)
theorem Length.st (z : Size) (d a : Reg) (ofs : BitVec 11) : Length.Statement (.st z d a ofs) := length_short (by decide)
theorem Length.amo (op : AmoOp) (o : Order) (c : Scope) (d a b : Reg) : Length.Statement (.amo op o c d a b) := length_short (by decide)
theorem Length.ldv (d a : Reg) (ofs : BitVec 11) : Length.Statement (.ldv d a ofs) := length_short (by decide)
theorem Length.vval (d : Reg) : Length.Statement (.vval d) := length_short (by decide)
theorem Length.vclr : Length.Statement .vclr := length_short (by decide)
theorem Length.fence (o : Order) (c : Scope) : Length.Statement (.fence o c) := length_short (by decide)
theorem Length.cflush (a : Reg) : Length.Statement (.cflush a) := length_short (by decide)
theorem Length.cinv (a : Reg) : Length.Statement (.cinv a) := length_short (by decide)
theorem Length.wld (f : Fmt) (d a : Reg) (ofs : BitVec 7) : Length.Statement (.wld f d a ofs) := length_short (by decide)
theorem Length.wst (f : Fmt) (d a b : Reg) (ofs : BitVec 7) : Length.Statement (.wst f d a b ofs) := length_short (by decide)
theorem Length.wadd (f : Fmt) (d a b : Reg) : Length.Statement (.wadd f d a b) := length_short (by decide)
theorem Length.wsub (f : Fmt) (d a b : Reg) : Length.Statement (.wsub f d a b) := length_short (by decide)
theorem Length.wmul (f : Fmt) (d a b : Reg) : Length.Statement (.wmul f d a b) := length_short (by decide)
theorem Length.wfma (f : Fmt) (d a b : Reg) : Length.Statement (.wfma f d a b) := length_short (by decide)
theorem Length.wmin (f : Fmt) (d a b : Reg) : Length.Statement (.wmin f d a b) := length_short (by decide)
theorem Length.wmax (f : Fmt) (d a b : Reg) : Length.Statement (.wmax f d a b) := length_short (by decide)
theorem Length.wun (op : WunOp) (f : Fmt) (d a : Reg) : Length.Statement (.wun op f d a) := length_short (by decide)
theorem Length.wcvt (g f : Fmt) (d a : Reg) : Length.Statement (.wcvt g f d a) := length_short (by decide)
theorem Length.wcmp (c : Cond) (f : Fmt) (d a b : Reg) : Length.Statement (.wcmp c f d a b) := length_short (by decide)
theorem Length.wsel (d a b : Reg) : Length.Statement (.wsel d a b) := length_short (by decide)
theorem Length.wred (op : WRedOp) (f : Fmt) (g : BitVec 3) (d a : Reg) : Length.Statement (.wred op f g d a) := length_short (by decide)
theorem Length.wperm (d a b : Reg) : Length.Statement (.wperm d a b) := length_short (by decide)
theorem Length.wmov (op : WmovOp) (f : Fmt) (d a b : Reg) : Length.Statement (.wmov op f d a b) := length_short (by decide)
theorem Length.wq (dq : Bool) (d a b : Reg) : Length.Statement (.wq dq d a b) := length_short (by decide)
theorem Length.semtas (c : Scope) (n : BitVec 6) : Length.Statement (.semtas c n) := length_short (by decide)
theorem Length.semtry (c : Scope) (n : BitVec 6) (d : Reg) : Length.Statement (.semtry c n d) := length_short (by decide)
theorem Length.semclr (c : Scope) (n : BitVec 6) : Length.Statement (.semclr c n) := length_short (by decide)
theorem Length.crd (n : BitVec 6) (d : Reg) : Length.Statement (.crd n d) := length_short (by decide)
theorem Length.cwr (n : BitVec 6) (a : Reg) : Length.Statement (.cwr n a) := length_short (by decide)
theorem Length.tbar (c : Scope) : Length.Statement (.tbar c) := length_short (by decide)
theorem Length.bexp (n : BitVec 4) (a : Reg) : Length.Statement (.bexp n a) := length_short (by decide)
theorem Length.barv (c : Scope) (n : BitVec 4) (a : Reg) : Length.Statement (.barv c n a) := length_short (by decide)
theorem Length.bwait (c : Scope) (n : BitVec 4) (d a : Reg) : Length.Statement (.bwait c n d a) := length_short (by decide)
theorem Length.qflush (q : BitVec 3) : Length.Statement (.qflush q) := length_short (by decide)
theorem Length.setvl (d a : Reg) : Length.Statement (.setvl d a) := length_short (by decide)
theorem Length.setvtReg (d a : Reg) : Length.Statement (.setvtReg d a) := length_short (by decide)
theorem Length.setvtImm (sat : BitVec 2) (sd : Bool) (wd : BitVec 5) (sb : Bool) (wb : BitVec 4) (sa : Bool) (wa : BitVec 4) (d : Reg) :
    Length.Statement (.setvtImm sat sd wd sb wb sa wa d) := length_short (by decide)
theorem Length.b (ofs : BitVec 24) : Length.Statement (.b ofs) := length_short (by decide)
theorem Length.jal (d : Reg) (ofs : BitVec 19) : Length.Statement (.jal d ofs) := length_short (by decide)
theorem Length.jalr (d a : Reg) (ofs : BitVec 14) : Length.Statement (.jalr d a ofs) := length_short (by decide)
theorem Length.bcc (c : Cond) (a b : Reg) (ofs : BitVec 11) : Length.Statement (.bcc c a b ofs) := length_short (by decide)
theorem Length.loop (l : BitVec 3) (a : Reg) (n : BitVec 14) : Length.Statement (.loop l a n) := length_short (by decide)
theorem Length.lstride (l : BitVec 3) (a : Reg) (imm : BitVec 14) : Length.Statement (.lstride l a imm) := length_short (by decide)
theorem Length.ecall (code : BitVec 14) : Length.Statement (.ecall code) := length_short (by decide)
theorem Length.ebreak : Length.Statement .ebreak := length_short (by decide)
theorem Length.eret : Length.Statement .eret := length_short (by decide)
theorem Length.wfi : Length.Statement .wfi := length_short (by decide)
theorem Length.mfsr (d : Reg) (num : BitVec 12) : Length.Statement (.mfsr d num) := length_short (by decide)
theorem Length.mtsr (a : Reg) (num : BitVec 12) : Length.Statement (.mtsr a num) := length_short (by decide)
theorem Length.tlbinv (k : TlbKind) (a : Reg) : Length.Statement (.tlbinv k a) := length_short (by decide)
theorem Length.nop : Length.Statement .nop := length_short (by decide)
theorem Length.launch (d a : Reg) : Length.Statement (.launch d a) := length_short (by decide)
theorem Length.signal (a b : Reg) : Length.Statement (.signal a b) := length_short (by decide)
theorem Length.exit : Length.Statement .exit := length_short (by decide)
theorem Length.yield : Length.Statement .yield := length_short (by decide)
theorem Length.mcfg (a : Reg) : Length.Statement (.mcfg a) := length_short (by decide)
theorem Length.mma (c f z : Bool) (d a b : Reg) : Length.Statement (.mma c f z d a b) := length_short (by decide)
theorem Length.mmas (c f z : Bool) (d a b : Reg) : Length.Statement (.mmas c f z d a b) := length_short (by decide)
theorem Length.mwait (done : Bool) (a : Reg) : Length.Statement (.mwait done a) := length_short (by decide)
theorem Length.mprog (d : Reg) : Length.Statement (.mprog d) := length_short (by decide)
theorem Length.mclr : Length.Statement .mclr := length_short (by decide)
theorem Length.vtow (ca : Bool) (f : Fmt) (d a b : Reg) : Length.Statement (.vtow ca f d a b) := length_short (by decide)
theorem Length.wtov (f : Fmt) (d a b : Reg) : Length.Statement (.wtov f d a b) := length_short (by decide)
theorem Length.kins (cb ca : Bool) (k : BitVec 3) (d : BitVec 3) (a b : Reg) : Length.Statement (.kins cb ca k d a b) := length_short (by decide)
theorem Length.klook (ca : Bool) (k : BitVec 3) (d a : Reg) (b : BitVec 3) : Length.Statement (.klook ca k d a b) := length_short (by decide)
theorem Length.kacc (op : KaccOp) (cb ca : Bool) (k : BitVec 3) (d : BitVec 3) (a b : Reg) :
    Length.Statement (.kacc op cb ca k d a b) := length_short (by decide)
theorem Length.kdrain (d a : Reg) : Length.Statement (.kdrain d a) := length_short (by decide)
theorem Length.kclr : Length.Statement .kclr := length_short (by decide)
theorem Length.twin (timer : Bool) (n : BitVec 6) (item : BitVec 3) (d : Reg) : Length.Statement (.twin timer n item d) := length_short (by decide)
theorem Length.twtake (n : BitVec 6) (d : Reg) : Length.Statement (.twtake n d) := length_short (by decide)
theorem Length.twack (n : BitVec 6) (d a : Reg) : Length.Statement (.twack n d a) := length_short (by decide)
theorem Length.kvapp (d a : Reg) : Length.Statement (.kvapp d a) := length_short (by decide)
theorem Length.pgget (run : Bool) (d a b : Reg) : Length.Statement (.pgget run d a b) := length_short (by decide)
theorem Length.pgput (d a b : Reg) : Length.Statement (.pgput d a b) := length_short (by decide)
theorem Length.send (e : BitVec 8) (a b : Reg) : Length.Statement (.send e a b) := length_short (by decide)
theorem Length.recv (e : BitVec 8) (d a : Reg) : Length.Statement (.recv e d a) := length_short (by decide)
theorem Length.lnkwait (e : BitVec 8) : Length.Statement (.lnkwait e) := length_short (by decide)
theorem Length.pfx (lvl : BitVec 3) (iter : BitVec 2) (fz : Bool) (sat : BitVec 2) (rm : BitVec 3) :
    Length.Statement (.pfx lvl iter fz sat rm) := length_short (by decide)
theorem Length.movl (d : Reg) (imm : W32) : Length.Statement (.movl d imm) := length_long
theorem Length.movh (d : Reg) (imm : W32) : Length.Statement (.movh d imm) := length_long
theorem Length.addl (d a : Reg) (imm : W32) : Length.Statement (.addl d a imm) := length_long
theorem Length.fshl (d a b : Reg) (i : Bool) (sh : BitVec 6) (c : Reg) : Length.Statement (.fshl d a b i sh c) := length_long
theorem Length.fshr (d a b : Reg) (i : Bool) (sh : BitVec 6) (c : Reg) : Length.Statement (.fshr d a b i sh c) := length_long
theorem Length.bext (d a : Reg) (s : Bool) (len : BitVec 7) (pos : BitVec 6) : Length.Statement (.bext d a s len pos) := length_long
theorem Length.bins (d a : Reg) (len : BitVec 7) (pos : BitVec 6) : Length.Statement (.bins d a len pos) := length_long
theorem Length.sel (d a b c : Reg) : Length.Statement (.sel d a b c) := length_long
theorem Length.cas (z : Size) (o : Order) (sc : Scope) (d a b c : Reg) : Length.Statement (.cas z o sc d a b c) := length_long
theorem Length.casv (z : Size) (o : Order) (sc : Scope) (d a b c : Reg) : Length.Statement (.casv z o sc d a b c) := length_long
theorem Length.ldo (u : Bool) (z : Size) (o : Order) (sc : Scope) (d a : Reg) (disp : W32) : Length.Statement (.ldo u z o sc d a disp) := length_long
theorem Length.sto (z : Size) (o : Order) (sc : Scope) (d a : Reg) (disp : W32) : Length.Statement (.sto z o sc d a disp) := length_long
theorem Length.jl (d : Reg) (ofs : W32) : Length.Statement (.jl d ofs) := length_long
theorem Length.vld (ord u : Bool) (z : Size) (k : BitVec 3) (d a : Reg) (disp : W32) : Length.Statement (.vld ord u z k d a disp) := length_long
theorem Length.vlds (ord u : Bool) (z : Size) (k : BitVec 3) (d a b : Reg) (disp : W32) : Length.Statement (.vlds ord u z k d a b disp) := length_long
theorem Length.vldx (ord u : Bool) (z : Size) (cb : Bool) (k : BitVec 3) (d a b : Reg) (disp : W32) :
    Length.Statement (.vldx ord u z cb k d a b disp) := length_long
theorem Length.vldff (ord u : Bool) (z : Size) (k : BitVec 3) (d a : Reg) (disp : W32) : Length.Statement (.vldff ord u z k d a disp) := length_long
theorem Length.vst (ord : Bool) (z : Size) (cd : Bool) (k : BitVec 3) (d a : Reg) (disp : W32) :
    Length.Statement (.vst ord z cd k d a disp) := length_long
theorem Length.vsts (ord : Bool) (z : Size) (cd : Bool) (k : BitVec 3) (d a b : Reg) (disp : W32) :
    Length.Statement (.vsts ord z cd k d a b disp) := length_long
theorem Length.vstx (ord : Bool) (z : Size) (cd cb : Bool) (k : BitVec 3) (d a b : Reg) (disp : W32) :
    Length.Statement (.vstx ord z cd cb k d a b disp) := length_long
theorem Length.vstb (cd : Bool) (k : BitVec 3) (d a b : Reg) (disp : W32) : Length.Statement (.vstb cd k d a b disp) := length_long
theorem Length.vamo (op : AmoOp) (ord : Bool) (cd cb : Bool) (o : Order) (sc : Scope) (k : BitVec 3) (d a b : Reg) :
    Length.Statement (.vamo op ord cd cb o sc k d a b) := length_long
theorem Length.cpy (o : CopyOps) (lk : Bool) : Length.Statement (.cpy o lk) := length_long
theorem Length.cpys (o : CopyOps) (rby : BitVec 16) (c : Reg) : Length.Statement (.cpys o rby c) := length_long
theorem Length.cpyt (o : CopyOps) (x t : Bool) (dq : BitVec 2) (xf : BitVec 3) (pw : BitVec 5) (kb : BitVec 11) (c : Reg) :
    Length.Statement (.cpyt o x t dq xf pw kb c) := length_long
theorem Length.cpyo (o : CopyOps) (z q : Bool) (red : CopyRed) (xf : BitVec 3) (kb : BitVec 11) (c : Reg) :
    Length.Statement (.cpyo o z q red xf kb c) := length_long
theorem Length.cpyg (o : CopyOps) (nm : BitVec 3) (qm rng iw : Bool) (fill : Byte) (sw : Bool) (srow : BitVec 4) (c : Reg) :
    Length.Statement (.cpyg o nm qm rng iw fill sw srow c) := length_long
theorem Length.cpwait (ch : BitVec 3) (a : Reg) (sc : Scope) (drain : Bool) : Length.Statement (.cpwait ch a sc drain) := length_long
theorem Length.cpstat (ch : BitVec 3) (d : Reg) (item : BitVec 3) : Length.Statement (.cpstat ch d item) := length_long
theorem Length.fetchLine : Length.Statement .fetchLine := length_event
theorem Length.asyncDelivery : Length.Statement .asyncDelivery := length_event
theorem Length.vloadCompletion : Length.Statement .vloadCompletion := length_event
theorem Length.laneCompletion : Length.Statement .laneCompletion := length_event
theorem Length.matrixRowStep : Length.Statement .matrixRowStep := length_event
theorem Length.matrixDone : Length.Statement .matrixDone := length_event
theorem Length.copyChunk (ch : BitVec 3) : Length.Statement (.copyChunk ch) := length_event
theorem Length.pageWalk (va : Word) (acc : Acc) : Length.Statement (.pageWalk va acc) := length_event
theorem Length.trapEntry : Length.Statement .trapEntry := length_event
theorem Length.queueWatchdog : Length.Statement .queueWatchdog := length_event
theorem Length.wfiTimeout : Length.Statement .wfiTimeout := length_event
theorem Length.pinExpiry (line : Nat) : Length.Statement (.pinExpiry line) := length_event
theorem Length.cacheEviction (line : Nat) : Length.Statement (.cacheEviction line) := length_event
theorem Length.streamStop : Length.Statement .streamStop := length_event
theorem Length.placementOffer : Length.Statement .placementOffer := length_event
theorem Length.quantumExpiry (teams : List TeamKey) : Length.Statement (.quantumExpiry teams) := length_event
theorem Length.aging (vd gid : Nat) : Length.Statement (.aging vd gid) := length_event
theorem Length.energyWindow (die : BitVec 2) : Length.Statement (.energyWindow die) := length_event
theorem Length.powerGrant (available : Nat) : Length.Statement (.powerGrant available) := length_event
theorem Length.clocheSave (team : TeamKey) (area : Word) (limit : Nat) : Length.Statement (.clocheSave team area limit) := length_event
theorem Length.clocheRestore (team : TeamKey) : Length.Statement (.clocheRestore team) := length_event
theorem Length.stopWalk (vd : Nat) (graph : Nat) : Length.Statement (.stopWalk vd graph) := length_event
theorem Length.partitionResize (part : Nat) (clusters : List Nat) (powerShare : Nat) (shares : List Nat) :
    Length.Statement (.partitionResize part clusters powerShare shares) := length_event
theorem Length.vdCreation (vd : Nat) (p : VdParams) : Length.Statement (.vdCreation vd p) := length_event
theorem Length.vdDestruction (vd : Nat) : Length.Statement (.vdDestruction vd) := length_event
theorem Length.versionedPageMove (vd : Nat) (old new : Nat) (bytes : Nat) : Length.Statement (.versionedPageMove vd old new bytes) := length_event
theorem Length.tick (vd : Nat) (timer : BitVec 4) : Length.Statement (.tick vd timer) := length_event
theorem Length.stepFire (vd : Nat) (timer : BitVec 4) : Length.Statement (.stepFire vd timer) := length_event
theorem Length.holdExpiry (vd : Nat) (timer : BitVec 4) : Length.Statement (.holdExpiry vd timer) := length_event
theorem Length.recordAcceptance (vd : Nat) (window : BitVec 6) (r : Rec) : Length.Statement (.recordAcceptance vd window r) := length_event
theorem Length.collapse (vd : Nat) : Length.Statement (.collapse vd) := length_event
theorem Length.wakeComplete (vd : Nat) : Length.Statement (.wakeComplete vd) := length_event
theorem Length.wakeWrite (vd : Nat) : Length.Statement (.wakeWrite vd) := length_event
theorem Length.hostMemoryWrite (pa : Nat) (bytes : List Byte) : Length.Statement (.hostMemoryWrite pa bytes) := length_event
theorem Length.hostMemoryRead (pa : Nat) (len : Nat) : Length.Statement (.hostMemoryRead pa len) := length_event
theorem Length.remoteLaunch (vd : Nat) (desc : List Word) : Length.Statement (.remoteLaunch vd desc) := length_event
theorem Length.messageAcceptance (vd : Nat) (ep : BitVec 8) (incoming : Option (List Byte)) :
    Length.Statement (.messageAcceptance vd ep incoming) := length_event
theorem Length.linkEndpointDown (vd : Nat) (ep : BitVec 8) : Length.Statement (.linkEndpointDown vd ep) := length_event
theorem Length.linkEndpointUp (vd : Nat) (ep : BitVec 8) : Length.Statement (.linkEndpointUp vd ep) := length_event
theorem Length.ptpMessage (offset : Int) (elapsed : Nat) : Length.Statement (.ptpMessage offset elapsed) := length_event
theorem Length.timeStep (ns : Nat) : Length.Statement (.timeStep ns) := length_event
theorem Length.timeHoldover : Length.Statement .timeHoldover := length_event
theorem Length.timeLocked (offset : Int) : Length.Statement (.timeLocked offset) := length_event
theorem Length.thermalThreshold (sensor : Sensor) (degrees : Nat) (above : Bool) :
    Length.Statement (.thermalThreshold sensor degrees above) := length_event
theorem Length.railVote (die rail : BitVec 2) (part : Nat) (vote : Option Nat) : Length.Statement (.railVote die rail part vote) := length_event
theorem Length.railDwell (die rail : BitVec 2) : Length.Statement (.railDwell die rail) := length_event
theorem Length.railStep (die rail : BitVec 2) : Length.Statement (.railStep die rail) := length_event
theorem Length.currentLimit (die : BitVec 2) (level : BitVec 2) : Length.Statement (.currentLimit die level) := length_event
theorem Length.leakageAccounting : Length.Statement .leakageAccounting := length_event
theorem Length.laneTest (lane : Nat) (pass : Bool) : Length.Statement (.laneTest lane pass) := length_event
theorem Length.coldReset : Length.Statement .coldReset := length_event
theorem Length.cxlHotReset : Length.Statement .cxlHotReset := length_event
theorem Length.functionLevelResetVf (vd : Nat) : Length.Statement (.functionLevelResetVf vd) := length_event
theorem Length.functionLevelResetPf : Length.Statement .functionLevelResetPf := length_event
theorem Length.getVersion : Length.Statement .getVersion := length_event
theorem Length.getCapabilities : Length.Statement .getCapabilities := length_event
theorem Length.negotiateAlgorithms : Length.Statement .negotiateAlgorithms := length_event
theorem Length.getDigests : Length.Statement .getDigests := length_event
theorem Length.getCertificate (slot : BitVec 3) : Length.Statement (.getCertificate slot) := length_event
theorem Length.challenge (nonce : List Byte) : Length.Statement (.challenge nonce) := length_event
theorem Length.getMeasurements (index : BitVec 8) : Length.Statement (.getMeasurements index) := length_event
theorem Length.keyExchange (session : Nat) : Length.Statement (.keyExchange session) := length_event
theorem Length.finish (session : Nat) : Length.Statement (.finish session) := length_event
theorem Length.mctpControl (request : List Byte) : Length.Statement (.mctpControl request) := length_event
theorem Length.pldmMonitoring (request : List Byte) : Length.Statement (.pldmMonitoring request) := length_event
theorem Length.pldmFirmwareUpdate (img : Image) : Length.Statement (.pldmFirmwareUpdate img) := length_event
theorem Length.hatbandWake (vd : Nat) : Length.Statement (.hatbandWake vd) := length_event
theorem Length.recoveryImage (img : Image) : Length.Statement (.recoveryImage img) := length_event
theorem Length.mwctlWrite (vd : Nat) (window : BitVec 6) (v : Word) : Length.Statement (.mwctlWrite vd window v) := length_event
theorem Length.mwbaseWrite (vd : Nat) (window : BitVec 6) (v : Word) : Length.Statement (.mwbaseWrite vd window v) := length_event
theorem Length.ttctlWrite (vd : Nat) (timer : BitVec 4) (v : Word) : Length.Statement (.ttctlWrite vd timer v) := length_event
theorem Length.rrctlWrite (die : BitVec 2) (n : BitVec 4) (v : Word) : Length.Statement (.rrctlWrite die n v) := length_event
theorem Length.cpstatFltRestart (ch : BitVec 3) : Length.Statement (.cpstatFltRestart ch) := length_event
theorem Length.cpstatAbtClear (ch : BitVec 3) : Length.Statement (.cpstatAbtClear ch) := length_event
theorem Length.cpstatOobClear (ch : BitVec 3) : Length.Statement (.cpstatOobClear ch) := length_event
theorem Length.cpstatRperrClear (ch : BitVec 3) : Length.Statement (.cpstatRperrClear ch) := length_event
theorem Length.mprogWrite (v : Word) : Length.Statement (.mprogWrite v) := length_event
theorem Length.registerWrite (r : RegTarget) (v : Word) : Length.Statement (.registerWrite r v) := length_event
theorem Length.reservedOpcode (w : W32) : Length.Statement (.reservedOpcode w) := length_event
theorem Length.vectorMemoryCompletion : Length.Statement .vectorMemoryCompletion := length_event
theorem Length.linkEndpointConfiguration (vd : Nat) (ep : BitVec 8) (c : EpConfig) :
    Length.Statement (.linkEndpointConfiguration vd ep c) := length_event
theorem Length.remoteLaunchAnswer (answer : Word) : Length.Statement (.remoteLaunchAnswer answer) := length_event
theorem Length.remoteStopRequest (vd : Nat) (gid : Nat) : Length.Statement (.remoteStopRequest vd gid) := length_event

end Sys2Proof.Laws
end

