-- ==== Sys2Proof/Safety.lean ====
section
/-! DEFINITION. What a safe state is, and the words in which claims are made: when an instruction issues, what it reads,
and which parts of the state may differ afterwards. -/
namespace Sys2Proof.Machine

/-- The memories keep their canonical form. -/
abbrev State.MemOk (s : State) : Prop := s.mem.wf ∧ s.hart.scratch.wf

/-- The sources can be read and the destinations written: each queue may be used by this class of stream, no register waits for a
delivery, every pop finds an entry and every push a free place (R14, R16, R17, R115, R431). -/
abbrev State.Ready (s : State) (srcs dsts : List Reg) : Prop :=
  (∀ r ∈ srcs, popOk s.isE r = true) ∧ (∀ r ∈ dsts, pushOk s.isE r = true) ∧
  (∀ r ∈ srcs ++ dsts, s.me.scoreboarded r = false) ∧ missing srcs s.hart = none ∧ noRoom dsts s.hart = none

/-- An instruction of the class and of `n` words may issue at the program counter (R98, R126). -/
abbrev State.Fits (s : State) (c : Class) (n : Nat) : Prop :=
  ¬ (n = 2 ∧ s.me.lastOfBody s.me.pc = true) ∧ c.ok s.isE = true

/-- An instruction with these sources and destinations issues and reads its operands. -/
abbrev State.Issues (s : State) (c : Class) (n : Nat) (srcs dsts : List Reg) : Prop := s.Fits c n ∧ s.Ready srcs dsts

/-- The i-th source value. -/
def State.arg (s : State) (srcs : List Reg) (i : Nat) : Word := nth (popAll srcs s.me s.hart).1 i
/-- The state with the sources' queues popped. -/
def State.popped (s : State) (srcs : List Reg) : State := { s with hart := (popAll srcs s.me s.hart).2 }

/-- The instruction of `n` words has read `srcs`, written `v` to `d`, and completed in sequence. -/
def State.wrote (s : State) (n : Nat) (srcs : List Reg) (d : Reg) (v : Word) : State := ((s.popped srcs).wr d v).retire n

/-- An operation of 32 or 64 bits: the low halves of the sources with a sign-extended result, or the whole words (R107). -/
def atWidth (w : Bool) (f : (n : Nat) → BitVec n → BitVec n → BitVec n) (x y : Word) : Word :=
  if w then (f 32 (x.setWidth 32) (y.setWidth 32)).signExtend 64 else f 64 x y

/-- Words, sources and destination of the instructions that read registers and write one (R108, R112, R113). -/
def scalarShape : Instr → Option (Nat × List Reg × Reg)
  | .add _ d a b | .sub _ d a b | .and _ d a b | .or _ d a b | .xor _ d a b | .andn _ d a b | .shl _ d a b | .shr _ d a b
  | .sar _ d a b | .rol _ d a b | .mul _ d a b | .mulh _ d a b | .mulhu _ d a b | .div _ d a b | .divu _ d a b | .rem _ d a b
  | .remu _ d a b | .min _ d a b | .max _ d a b | .minu _ d a b | .maxu _ d a b | .slt _ d a b | .sltu _ d a b
  | .seq _ d a b => some (1, [a, b], d)
  | .clz _ d a | .ctz _ d a | .popc _ d a | .bswap _ d a | .sext _ d a | .zext _ d a | .addi d a _ | .andi d a _ | .ori d a _
  | .xori d a _ | .shli d a _ | .shri d a _ | .sari d a _ | .slti d a _ | .sltiu d a _ => some (1, [a], d)
  | .qstat d _ | .movi d _ => some (1, [], d)
  | .movl d _ => some (2, [], d)
  | .movh d _ => some (2, [d], d)
  | .addl d a _ | .bext d a _ _ _ => some (2, [a], d)
  | .bins d a _ _ => some (2, [a, d], d)
  | .fshl d a b _ _ c | .fshr d a b _ _ c | .sel d a b c => some (2, [a, b, c], d)
  | _ => none

/-- The registers to which the completion of the instruction whose last word lies at `last` adds a stride (R123). -/
def Strm.strided (t : Strm) (last : Word) : List Reg :=
  (List.finRange 6).flatMap fun i => match t.active i with | some a => if a.last = last then a.strides.map (·.1) else [] | none => []

/-- What the strides of a body's end make of the value of register `r` (R123). -/
def stridden (strides : List (Reg × Word)) (r : Reg) (v : Word) : Word := strides.foldl (fun x p => if p.1 = r then x + p.2 else x) v

/-- The slot of the last word of an instruction of `n` words at the program counter. -/
def State.lastSlot (s : State) (n : Nat) : Word := if n = 2 then s.me.pc + 4 else s.me.pc

/-- `t` differs from `s` in nothing but the stream's program counter, scalar registers, pending deliveries, loop levels, prefix and
waiting, and in the queues: every special register, flag, mode, vector and word register, accumulator, memory and the rest of the
machine are as they were. -/
abbrev State.OnlyScalars (s t : State) : Prop :=
  t = { s with
    me := { s.me with
      pc := t.me.pc, regs := t.me.regs, pend := t.me.pend, loops := t.me.loops, pfx := none, wait := none, age := 0 }
    hart := { s.hart with queues := t.hart.queues } }

/-- The instructions that one class of stream executes, with their words (R98). -/
def streamClass : Instr → Option (Class × Nat)
  | .vadd .. | .vsub .. | .vmul .. | .vmac .. | .vmin .. | .vmax .. | .vlog .. | .vneg .. | .vabs .. | .vshl .. | .vshr .. | .vsar ..
  | .vcmp .. | .vsel .. | .vmv .. | .vbc .. | .vid .. | .vext .. | .vins .. | .vslide .. | .vdot .. | .vred .. | .vgred ..
  | .vmlog .. | .vmpop .. | .vmfirst .. | .vcompact .. | .vexpand .. | .vclz .. | .vcvtw .. | .vxq .. | .vzp .. => some (.eOnly, 1)
  | .wld .. | .wst .. | .wadd .. | .wsub .. | .wmul .. | .wfma .. | .wmin .. | .wmax .. | .wun .. | .wcvt .. | .wcmp .. | .wsel ..
  | .wred .. | .wperm .. | .wmov .. | .wq .. => some (.eOnly, 1)
  | .mcfg .. | .mma .. | .mmas .. | .mwait .. | .mprog .. | .mclr | .vtow .. | .wtov .. => some (.eOnly, 1)
  | .kins .. | .klook .. | .kacc .. | .kdrain .. | .kclr => some (.eOnly, 1)
  | .amo .. | .ldv .. | .vval .. | .vclr | .cflush .. | .cinv .. | .bexp .. => some (.aOnly, 1)
  | .twin .. | .twtake .. | .twack .. | .kvapp .. | .pgget .. | .pgput .. | .send .. | .recv .. | .lnkwait .. => some (.aOnly, 1)
  | .cas .. | .casv .. => some (.aOnly, 2)
  | .vld .. | .vlds .. | .vldx .. | .vldff .. | .vst .. | .vsts .. | .vstx .. | .vstb .. | .vamo .. => some (.aOnly, 2)
  | .cpy .. | .cpys .. | .cpyt .. | .cpyo .. | .cpyg .. | .cpwait .. | .cpstat .. => some (.aOnly, 2)
  | _ => none

-- Lanes

/-- An instruction on the lanes with this request issues: its widths are legal, its scalars ready, its sources FULL, the lanes free, its
destination not held by a matrix operation, no lane test under way, and every row word it reads is readable (R23, R172 to R179, R410, R411). -/
abbrev State.LaneIssues (s : State) (r : LaneReq) (ssrc sdst : List Reg) : Prop :=
  s.Fits .eOnly 1 ∧ r.ok = true ∧ r.wide = true ∧ s.Ready ssrc sdst ∧ s.hart.notFull r.srcRegs = none ∧ s.hart.laneBusy = 0 ∧
  s.hart.matrixB r.dstRegs = false ∧ s.hart.tests = [] ∧ s.hart.badRow r.srcs = none

/-- The lane is active: at or above VSTART, below VL, and in the mask (R21, R33). -/
def State.active (s : State) (k : BitVec 3) (e : Nat) : Prop := s.me.vstart.toNat ≤ e ∧ e < s.me.vl.toNat ∧ s.hart.mask k e = true

/-- An exact result under the saturation mode in force at the destination's width (R52). -/
def State.satValue (s : State) (x : Int) : Int :=
  if s.satMode = 1 then max (-2 ^ (s.me.wD - 1)) (min (2 ^ (s.me.wD - 1) - 1) x)
  else if s.satMode = 2 then max 0 (min (2 ^ s.me.wD - 1) x) else x
/-- Its pattern (R52, R172). -/
def State.fits (s : State) (x : Int) : Nat := (s.satValue x % (2 ^ s.me.wD : Nat)).toNat
/-- The pattern as a scalar result: extended in D's signedness (R190). -/
def State.fitsScalar (s : State) (x : Int) : Word :=
  if s.me.sD then (BitVec.ofNat s.me.wD (s.fits x)).signExtend 64 else BitVec.ofNat 64 (s.fits x)

/-- The channel but for the rows that transposes have set aside. -/
def Channel.bare (c : Channel) : Channel := { c with queue := c.queue.map fun q => { q with before := none } }

/-- Nothing of the channels differs but the rows that transposes under way have set aside, if there are any (R179). -/
abbrev State.ChansKept (s t : State) : Prop :=
  (s.transposes = [] → t.core.chans = s.core.chans) ∧ ∀ i : Fin 8, t.core.chans[i].bare = s.core.chans[i].bare

/-- What an instruction on the lanes leaves as it was: everything but the destination's plane rows, mask register `m` (none for k0),
SATF, VSTART (now 0), the presence bits (consumed sources EMPTY, then the destination FULL), the lanes' occupation, and the destination's
elements among the rows that transposes have set aside. -/
abbrev State.LaneFrame (s t : State) (r : LaneReq) (m : BitVec 3) : Prop :=
  t = { s with
    me := { s.me with vstart := 0, vstat := t.me.vstat }
    hart := { s.hart with planes := t.hart.planes, pres := t.hart.pres, masks := t.hart.masks, laneBusy := t.hart.laneBusy }
    core := { s.core with chans := t.core.chans } } ∧ s.ChansKept t ∧
  (∀ i, i < 4 → t.me.vstat.getLsbD i = s.me.vstat.getLsbD i) ∧
  (∀ x : Reg, t.hart.full x = if x ∈ r.dstRegs then true else if x ∈ r.eaten then false else s.hart.full x) ∧
  (∀ j : Fin 8, j.val ≠ m.toNat ∨ m = 0 → t.hart.masks[j] = s.hart.masks[j]) ∧
  (∀ i (h : i < 512), (∀ d w, r.dst = some (d, w) → ¬ (16 * d.toNat ≤ i ∧ i < 16 * d.toNat + w)) → t.hart.planes[i] = s.hart.planes[i])

/-- A vector memory instruction with this D register issues: its width is legal, its scalars ready, its index registers (and a store's data
registers) FULL, and a load's own registers EMPTY, with no load outstanding for them and no matrix operation still to read them (R23, R198, R224). -/
abbrev State.VecIssues (s : State) (load : Bool) (d : Reg) (idx srcs : List Reg) : Prop :=
  s.Fits .aOnly 2 ∧ pairOk d s.me.wD = true ∧ s.Ready srcs [] ∧
  s.hart.notFull (if load then idx else idx ++ regsOf d s.me.wD) = none ∧
  (load = true → (∀ r ∈ regsOf d s.me.wD, s.hart.full r = false ∧ s.hart.loading [r] = false) ∧
    s.hart.matrixB (regsOf d s.me.wD) = false)

/-- The elements of the listed lanes are read in order, each where its access lies in the state that the earlier ones left, after the
write-back that an access at the home brings (R200, R202, R317). -/
inductive ReadsElems (ea : Nat → Word) (n : Nat) : List Nat → State → List (Nat × Nat) → State → Prop where
  | done (s : State) : ReadsElems ea n [] s [] s
  | next {e : Nat} {es : List Nat} {s s1 s3 : State} {l : Loc} {p : Word} {vs : List (Nat × Nat)} :
      s.findLoc (ea e).toNat n .read false = .ok (l, p, s1) → (s1.settleLoc l n).locPoisoned l n = false →
      ReadsElems ea n es ((s1.settleLoc l n).readLoc l n).2 vs s3 →
      ReadsElems ea n (e :: es) s ((e, ((s1.settleLoc l n).readLoc l n).1) :: vs) s3

/-- The elements of the listed lanes are written in order; the lanes' places, and the state after them. -/
inductive WritesElems (ea : Nat → Word) (n : Nat) (v : Nat → Nat) : List Nat → State → List (Nat × Loc) → State → Prop where
  | done (s : State) : WritesElems ea n v [] s [] s
  | next {e : Nat} {es : List Nat} {s s1 s3 : State} {l : Loc} {p : Word} {ls : List (Nat × Loc)} :
      s.findLoc (ea e).toNat n .write false = .ok (l, p, s1) → WritesElems ea n v es (s1.writeLoc l n (v e)) ls s3 →
      WritesElems ea n v (e :: es) s ((e, l) :: ls) s3

/-- The physical addresses of the words that a vamo's lanes name, each checked as an atomic (R152, R208). -/
inductive FindsWords (ea : Nat → Word) : List Nat → State → List (Nat × Nat) → State → Prop where
  | done (s : State) : FindsWords ea [] s [] s
  | next {e pa : Nat} {es : List Nat} {s s1 s3 : State} {ps : List (Nat × Nat)} :
      s.vamoElem (ea e) = .ok pa s1 → FindsWords ea es s1 ps s3 → FindsWords ea (e :: es) s ((e, pa) :: ps) s3

/-- A word-unit instruction issues (R36, R310, R410, R411). -/
abbrev State.WordIssues (s : State) (srcs dsts : List Reg) : Prop :=
  s.Fits .eOnly 1 ∧ s.hart.residue < 2 ∧ s.hart.wordTest = false ∧ s.Ready srcs dsts

/-- A word-unit instruction is over: the mark of residue mismatches is gone, a mismatch met has asked for a test of the word lanes, and the
core's word unit remembers the hart (R310, R410, R411). -/
def State.wordOver (s : State) : State :=
  { s with
    out := if s.hart.residue = 0 then s.out else s.out ++ [.residueCured s.hart.id]
    hart := { s.hart with residue := 0, tests := if s.hart.residue = 0 then s.hart.tests else s.hart.tests ++ [16384] }
    core := { s.core with wordLast := s.hart.id.setWidth 3 } }

/-- The instruction has written word register `d` and completed: nothing else of the hart changed but what its end brings. -/
def State.wordWrote (s : State) (srcs : List Reg) (d : Reg) (v : Vector W32 64) : State :=
  let p := s.popped srcs
  (State.wordOver { p with hart := { p.hart with wregs := p.hart.wregs.set d.toNat v } }).retire 1

-- Memory

/-- The core data cache in focus holds every line at most once (R316). -/
abbrev State.LinesOnce (s : State) : Prop := (s.core.dcache.map (·.line)).Nodup

/-- The core data cache in focus holds the byte `v` for physical address `x`, not yet written back. -/
def State.DirtyAt (s : State) (x : Nat) (v : Byte) : Prop :=
  ∃ l ∈ s.core.dcache, l.line = lineOf x ∧ l.dirty.getD (x % 128) false = true ∧ l.data.getD (x % 128) 0 = v

/-- Outside the addresses of `w`, a byte of memory is as it was, or it is the byte that the core data cache held for it and has
written back; and no byte outside `w` turned dirty. -/
abbrev State.BytesKept (s t : State) (w : Nat → Prop) : Prop :=
  (∀ x, ¬ w x → t.mem.get x = s.mem.get x ∨ s.DirtyAt x (t.mem.get x)) ∧ (∀ x, ¬ w x → ∀ v, t.DirtyAt x v → s.DirtyAt x v)

/-- The byte that a read performed in the core data cache finds: the cache's, or that of the home (R316). -/
def State.cacheByte (s : State) (x : Nat) : Byte :=
  match s.cached (lineOf x) with
  | some l => l.data.getD (x % 128) 0
  | none => s.mem.get x

/-- The byte that a read of this core performed at the home finds: the cache's own dirty byte, written back first, or the home's
(R317). -/
def State.homeByte (s : State) (x : Nat) : Byte :=
  match s.cached (lineOf x) with
  | some l => if l.dirty.getD (x % 128) false then l.data.getD (x % 128) 0 else s.mem.get x
  | none => s.mem.get x

/-- The byte `i` places into a location of memory. -/
def State.locByte (s : State) (l : Loc) (i : Nat) : Byte :=
  match l with
  | .scratch o => s.hart.scratch.get (o + i)
  | .cached pa => s.cacheByte (pa + i)
  | .home pa => s.homeByte (pa + i)
  | .control _ _ => 0

/-- No scratchpad word among the `n` bytes at the location has an uncorrectable error (R409). -/
def State.Sound (s : State) (l : Loc) (n : Nat) : Prop :=
  ∀ o, l = .scratch o → ∀ w ∈ s.hart.scratchBad, ¬ (o < 8 * w + 8 ∧ 8 * w < o + n)

/-- The physical addresses of `n` bytes at a location. -/
def Loc.holds (l : Loc) (n : Nat) (x : Nat) : Prop :=
  match l with
  | .cached pa => pa ≤ x ∧ x < pa + n
  | .home pa => pa ≤ x ∧ x < pa + n
  | _ => False

/-- The location lies in memory within one line, as every aligned access does. -/
def Loc.inLine (l : Loc) (n : Nat) : Prop :=
  match l with
  | .scratch _ => True
  | .cached pa => pa % 128 + n ≤ 128
  | .home pa => pa % 128 + n ≤ 128
  | .control _ _ => False

end Sys2Proof.Machine
end

