-- ==== Sys2Proof/Certificates/Slice0/Obligations.lean ====
section
/-! DEFINITION. The statements for the provers. A statement of an instruction's result says that `exec` answers that next state. -/
open Sys2Proof Sys2Proof.Machine

-- Scalar operands, results and sequencing

/-- R14, R15, R17: a register source gives its value, s0 reads 0, a queue source gives and removes the oldest entry, and the same queue named
twice gives two entries in source order. R14, R15: a result for s1 to s23 replaces that register alone, s0 discards it, a queue takes it as
its newest entry. -/
def Obligations.OperandsAndResults : Prop :=
  (∀ (s : State) (a b : Reg), s.Ready [a, b] [] →
    (a = 0 → s.arg [a, b] 0 = 0) ∧ (b = 0 → s.arg [a, b] 1 = 0) ∧
    (isQ a = false → s.arg [a, b] 0 = s.me.reg a) ∧ (isQ b = false → s.arg [a, b] 1 = s.me.reg b) ∧
    (∀ v q, isQ a = true → s.hart.q (qIdx a) = .val v :: q →
      s.arg [a, b] 0 = v ∧ (b ≠ a → (s.popped [a, b]).hart.q (qIdx a) = q)) ∧
    (∀ v q, isQ b = true → b ≠ a → s.hart.q (qIdx b) = .val v :: q →
      s.arg [a, b] 1 = v ∧ (s.popped [a, b]).hart.q (qIdx b) = q) ∧
    (∀ v w q, isQ a = true → b = a → s.hart.q (qIdx a) = .val v :: .val w :: q →
      s.arg [a, b] 0 = v ∧ s.arg [a, b] 1 = w ∧ (s.popped [a, b]).hart.q (qIdx a) = q) ∧
    (∀ i : Fin 8, (∀ r ∈ [a, b], isQ r = true → qIdx r ≠ i) → (s.popped [a, b]).hart.q i = s.hart.q i)) ∧
  (∀ (s : State) (d : Reg) (v : Word),
    (d = 0 → s.wr d v = s) ∧
    (isQ d = true → (∀ i : Fin 8, (s.wr d v).hart.q i = if i = qIdx d then s.hart.q i ++ [.val v] else s.hart.q i) ∧
      s.wr d v = { s with hart := { s.hart with queues := (s.wr d v).hart.queues } }) ∧
    (d ≠ 0 → isQ d = false → (∀ r : Reg, (s.wr d v).me.reg r = if r = d then v else s.me.reg r) ∧
      s.wr d v = { s with me := { s.me with regs := (s.wr d v).me.regs } }))

/-- R76, R126: an instruction that ends no active body passes control to the next slot in sequence, which is never a header, and changes nothing
else. R123: at the end of an iteration of the one level whose body ends there, its strides are added in registration order; the last
iteration ends the activation and control goes on in sequence; otherwise the counts step and control returns to the body's first slot. Of two
levels that end at the slot the deeper is treated first, and the enclosing one only once the deeper has ended. That a stride meets a late
result after it is the model's reading (log 58). -/
def Obligations.SequencingResults : Prop :=
  (∀ (s : State) (n : Nat), n = 1 ∨ n = 2 → s.me.lastOfBody (s.lastSlot n) = false →
    s.retire n = { s with me := { s.me with pc := nextSlot s.me.pc n, pfx := none, wait := none, age := 0 } } ∧
    slotOf (nextSlot s.me.pc n) ≠ 0 ∧
    (s.me.pc.toNat % 4 = 0 → slotOf s.me.pc + n < 16 → nextSlot s.me.pc n = s.me.pc + BitVec.ofNat 64 (4 * n)) ∧
    (s.me.pc.toNat % 4 = 0 → slotOf s.me.pc + n = 16 → nextSlot s.me.pc n = lineBase s.me.pc + 68)) ∧
  (∀ (s : State) (n : Nat) (i : Fin 6) (a : Loop), s.me.active i = some a → a.last = s.lastSlot n →
    (∀ j, j ≠ i → ∀ b, s.me.active j = some b → b.last ≠ s.lastSlot n) →
    (∀ p ∈ a.strides, p.1 ≠ 0 ∧ isQ p.1 = false ∧ s.me.scoreboarded p.1 = false) → (a.strides.map (·.1)).Nodup →
    (∀ p ∈ a.strides, (s.retire n).me.reg p.1 = s.me.reg p.1 + p.2) ∧
    (∀ r, r ∉ a.strides.map (·.1) → (s.retire n).me.reg r = s.me.reg r) ∧
    (a.left = 1 → (s.retire n).me.pc = nextSlot s.me.pc n ∧ (s.retire n).me.active i = none) ∧
    (a.left ≠ 1 → (s.retire n).me.pc = a.first ∧
      (s.retire n).me.active i = some { a with left := a.left - 1, iter := a.iter + 1 }) ∧
    (∀ j, j ≠ i → (s.retire n).me.active j = s.me.active j)) ∧
  (∀ (s : State) (n : Nat) (i j : Fin 6) (a b : Loop), i < j → s.me.active i = some a → s.me.active j = some b →
    a.last = s.lastSlot n → b.last = s.lastSlot n →
    (∀ k, k ≠ i → k ≠ j → ∀ c, s.me.active k = some c → c.last ≠ s.lastSlot n) →
    let t := (s.retire n).me
    let kept (r : Reg) : Prop := r ≠ 0 ∧ isQ r = false ∧ s.me.scoreboarded r = false
    (b.left ≠ 1 → t.pc = b.first ∧ t.active j = some { b with left := b.left - 1, iter := b.iter + 1 } ∧ t.active i = some a ∧
      ∀ r, kept r → t.reg r = stridden b.strides r (s.me.reg r)) ∧
    (b.left = 1 → t.active j = none ∧
      (a.left ≠ 1 → t.pc = a.first ∧ t.active i = some { a with left := a.left - 1, iter := a.iter + 1 }) ∧
      (a.left = 1 → t.pc = nextSlot s.me.pc n ∧ t.active i = none) ∧
      ∀ r, kept r → t.reg r = stridden a.strides r (stridden b.strides r (s.me.reg r))))

-- Scalar instructions

/-- R107 to R109: the results of the two-source instructions, with no saturation asked for. A shift count is taken modulo the width; a quotient
by 0 is all ones and a remainder by 0 the dividend. R110: under the prefix SAT the exact result of add, sub, mul and of the shifts left is
clamped, signed from signed sources with SAT 1, unsigned from unsigned ones with SAT 2. -/
def Obligations.ScalarArithmeticResults : Prop :=
  (∀ (s : State) (w : Bool) (d a b : Reg), s.Issues .both 1 [a, b] [d] → s.pfxSat = 0 →
    let x := s.arg [a, b] 0
    let y := s.arg [a, b] 1
    let gives (i : Instr) (f : (n : Nat) → BitVec n → BitVec n → BitVec n) : Prop :=
      exec i s = .next (s.wrote 1 [a, b] d (atWidth w f x y))
    gives (.add w d a b) (fun _ x y => x + y) ∧
    gives (.sub w d a b) (fun _ x y => x - y) ∧
    gives (.and w d a b) (fun _ x y => x &&& y) ∧
    gives (.or w d a b) (fun _ x y => x ||| y) ∧
    gives (.xor w d a b) (fun _ x y => x ^^^ y) ∧
    gives (.andn w d a b) (fun _ x y => x &&& ~~~y) ∧
    gives (.shl w d a b) (fun n x y => x <<< (y.toNat % n)) ∧
    gives (.shr w d a b) (fun n x y => x >>> (y.toNat % n)) ∧
    gives (.sar w d a b) (fun n x y => x.sshiftRight (y.toNat % n)) ∧
    gives (.rol w d a b) (fun n x y => x.rotateLeft (y.toNat % n)) ∧
    gives (.mul w d a b) (fun _ x y => x * y) ∧
    gives (.mulh w d a b) (fun n x y => ((x.signExtend (2 * n) * y.signExtend (2 * n)) >>> n).setWidth n) ∧
    gives (.mulhu w d a b) (fun n x y => ((x.zeroExtend (2 * n) * y.zeroExtend (2 * n)) >>> n).setWidth n) ∧
    gives (.div w d a b) (fun _ x y => if y = 0 then -1 else x.sdiv y) ∧
    gives (.divu w d a b) (fun _ x y => if y = 0 then -1 else x / y) ∧
    gives (.rem w d a b) (fun _ x y => if y = 0 then x else x.srem y) ∧
    gives (.remu w d a b) (fun _ x y => if y = 0 then x else x % y) ∧
    gives (.min w d a b) (fun _ x y => if x.slt y then x else y) ∧
    gives (.max w d a b) (fun _ x y => if x.slt y then y else x) ∧
    gives (.minu w d a b) (fun _ x y => if x.ult y then x else y) ∧
    gives (.maxu w d a b) (fun _ x y => if x.ult y then y else x) ∧
    gives (.slt w d a b) (fun _ x y => if x.slt y then 1 else 0) ∧
    gives (.sltu w d a b) (fun _ x y => if x.ult y then 1 else 0) ∧
    gives (.seq w d a b) (fun _ x y => if x = y then 1 else 0)) ∧
  (∀ (s : State) (w : Bool) (d a b : Reg), s.Issues .both 1 [a, b] [d] →
    let n := if w then 32 else 64
    let x := (s.arg [a, b] 0).setWidth n
    let y := (s.arg [a, b] 1).setWidth n
    let put (v : Int) : Host.Outcome State Fault Refusal := .next (s.wrote 1 [a, b] d ((BitVec.ofInt n v).signExtend 64))
    let ssat (v : Int) : Int := max (-2 ^ (n - 1)) (min (2 ^ (n - 1) - 1) v)
    let usat (v : Int) : Int := max 0 (min (2 ^ n - 1) v)
    (s.pfxSat = 1 →
      exec (.add w d a b) s = put (ssat (x.toInt + y.toInt)) ∧ exec (.sub w d a b) s = put (ssat (x.toInt - y.toInt)) ∧
      exec (.mul w d a b) s = put (ssat (x.toInt * y.toInt)) ∧
      exec (.shl w d a b) s = put (ssat (x.toInt * 2 ^ (y.toNat % n)))) ∧
    (s.pfxSat = 2 →
      exec (.add w d a b) s = put (usat ((x.toNat : Int) + y.toNat)) ∧ exec (.sub w d a b) s = put (usat ((x.toNat : Int) - y.toNat)) ∧
      exec (.mul w d a b) s = put (usat ((x.toNat : Int) * y.toNat)) ∧
      exec (.shl w d a b) s = put (usat ((x.toNat : Int) * 2 ^ (y.toNat % n)))))

/-- R108, R111: counts of bits, byte reversal, extension, and the entries a queue holds. A leading- or trailing-zero count is said by what it
means: every bit before the counted ones is 0, and the next one, if there is one, is 1. R112: the immediate forms. The immediate is
sign-extended; addi and shli take the prefix SAT. -/
def Obligations.ScalarUnaryResults : Prop :=
  (∀ (s : State) (w : Bool) (z : Size) (q : BitVec 3) (d a : Reg), s.Issues .both 1 [a] [d] →
    let n := if w then 32 else 64
    let x := (s.arg [a] 0).setWidth n
    let put (v : Word) : Host.Outcome State Fault Refusal := .next (s.wrote 1 [a] d v)
    (∃ c ≤ n, exec (.clz w d a) s = put (BitVec.ofNat 64 c) ∧ x.toNat < 2 ^ (n - c) ∧ (c < n → x.getMsbD c = true)) ∧
    (∃ c ≤ n, exec (.ctz w d a) s = put (BitVec.ofNat 64 c) ∧ x.toNat % 2 ^ c = 0 ∧ (c < n → x.getLsbD c = true)) ∧
    exec (.popc w d a) s = put (BitVec.ofNat 64 ((List.range n).filter (fun i => x.getLsbD i)).length) ∧
    (∃ v : BitVec n, exec (.bswap w d a) s = put (v.signExtend 64) ∧ ∀ i < n / 8, v.extractLsb' (8 * i) 8 = x.extractLsb' (n - 8 - 8 * i) 8) ∧
    exec (.sext z d a) s = put (((s.arg [a] 0).setWidth (8 * sizeBytes z)).signExtend 64) ∧
    exec (.zext z d a) s = put (((s.arg [a] 0).setWidth (8 * sizeBytes z)).zeroExtend 64) ∧
    (s.Ready [] [d] → exec (.qstat d q) s =
      .next (s.wrote 1 [] d (BitVec.ofNat 64 ((s.hart.q q.toFin).filter (fun e => e ≠ .reserved)).length)))) ∧
  (∀ (s : State) (d a : Reg) (imm : BitVec 14) (sh : BitVec 6) (big : BitVec 19), s.Issues .both 1 [a] [d] →
    let x := s.arg [a] 0
    let m : Word := imm.signExtend 64
    let put (v : Word) : Host.Outcome State Fault Refusal := .next (s.wrote 1 [a] d v)
    let ssat (v : Int) : Word := BitVec.ofInt 64 (max (-2 ^ 63) (min (2 ^ 63 - 1) v))
    let usat (v : Int) : Word := BitVec.ofInt 64 (max 0 (min (2 ^ 64 - 1) v))
    (s.pfxSat = 0 → exec (.addi d a imm) s = put (x + m) ∧ exec (.shli d a sh) s = put (x <<< sh.toNat)) ∧
    (s.pfxSat = 1 → exec (.addi d a imm) s = put (ssat (x.toInt + m.toInt)) ∧ exec (.shli d a sh) s = put (ssat (x.toInt * 2 ^ sh.toNat))) ∧
    (s.pfxSat = 2 → exec (.addi d a imm) s = put (usat ((x.toNat : Int) + m.toNat)) ∧
      exec (.shli d a sh) s = put (usat ((x.toNat : Int) * 2 ^ sh.toNat))) ∧
    exec (.andi d a imm) s = put (x &&& m) ∧
    exec (.ori d a imm) s = put (x ||| m) ∧
    exec (.xori d a imm) s = put (x ^^^ m) ∧
    exec (.shri d a sh) s = put (x >>> sh.toNat) ∧
    exec (.sari d a sh) s = put (x.sshiftRight sh.toNat) ∧
    exec (.slti d a imm) s = put (if x.slt m then 1 else 0) ∧
    exec (.sltiu d a imm) s = put (if x.ult m then 1 else 0) ∧
    (s.Ready [] [d] → exec (.movi d big) s = .next (s.wrote 1 [] d (big.signExtend 64))))

/-- R113, R114: the wide constants, the funnel shifts, the bit fields and the select. -/
def Obligations.WideResults : Prop :=
  ∀ (s : State) (d a b c : Reg) (imm : W32) (f : Bool) (sh pos : BitVec 6) (g : Bool) (len : BitVec 7),
    (s.Issues .both 2 [] [d] → exec (.movl d imm) s = .next (s.wrote 2 [] d (imm.signExtend 64))) ∧
    (s.Issues .both 2 [d] [d] → exec (.movh d imm) s = .next (s.wrote 2 [d] d (imm ++ (s.arg [d] 0).setWidth 32))) ∧
    (s.Issues .both 2 [a] [d] → exec (.addl d a imm) s = .next (s.wrote 2 [a] d (s.arg [a] 0 + imm.signExtend 64))) ∧
    (s.Issues .both 2 [a, b, c] [d] →
      let pair : BitVec 128 := s.arg [a, b, c] 0 ++ s.arg [a, b, c] 1
      let k := if f then sh.toNat else (s.arg [a, b, c] 2).toNat % 64
      exec (.fshl d a b f sh c) s = .next (s.wrote 2 [a, b, c] d ((pair <<< k).extractLsb' 64 64)) ∧
      exec (.fshr d a b f sh c) s = .next (s.wrote 2 [a, b, c] d ((pair >>> k).extractLsb' 0 64)) ∧
      exec (.sel d a b c) s =
        .next (s.wrote 2 [a, b, c] d (if s.arg [a, b, c] 2 ≠ 0 then s.arg [a, b, c] 0 else s.arg [a, b, c] 1))) ∧
    (1 ≤ len.toNat → pos.toNat + len.toNat ≤ 64 →
      (s.Issues .both 2 [a] [d] →
        let x := (s.arg [a] 0).extractLsb' pos.toNat len.toNat
        exec (.bext d a g len pos) s = .next (s.wrote 2 [a] d (if g then x.signExtend 64 else x.zeroExtend 64))) ∧
      (s.Issues .both 2 [a, d] [d] → ∃ v, exec (.bins d a len pos) s = .next (s.wrote 2 [a, d] d v) ∧
        ∀ i < 64, v.getLsbD i =
          if pos.toNat ≤ i ∧ i < pos.toNat + len.toNat then (s.arg [a, d] 0).getLsbD (i - pos.toNat) else (s.arg [a, d] 1).getLsbD i))

/-- THE FRAME of the scalar register, immediate, constant and bit-field instructions (R17, R107, R123): they complete, and nothing changes but
the destination, the registers that an ending iteration strides, the queues read and written, and the stream's own sequencing; every byte of
memory is as it was. -/
def Obligations.ScalarFrame : Prop :=
  ∀ (s : State) (i : Instr) (n : Nat) (srcs : List Reg) (d : Reg), scalarShape i = some (n, srcs, d) → s.Issues .both n srcs [d] →
    ∃ t : State, exec i s = .next t ∧ s.OnlyScalars t ∧
      (∀ r : Reg, r ≠ d → r ∉ s.me.strided (s.lastSlot n) → t.me.reg r = s.me.reg r) ∧
      (∀ p ∈ s.me.pend, p.dst ∉ s.me.strided (s.lastSlot n) → p ∈ t.me.pend) ∧
      (∀ q : Fin 8, (∀ r ∈ d :: srcs, isQ r = true → qIdx r ≠ q) → t.hart.q q = s.hart.q q) ∧
      (∀ a, t.mem.get a = s.mem.get a) ∧ (∀ a, t.hart.scratch.get a = s.hart.scratch.get a)

-- Memory

/-- R144: the checks of a scalar access, the first that fails giving its trap with TVAL the effective address; a partition access that passes
lies at its offset, after the interlocks; the rest is translated. R316, R333: an access that may be performed in the core data cache is,
if its page may be held there; one that goes to a home, or fills a line, first waits while the home answers with a retry, and so does the
walk of a translation. -/
def Obligations.ScalarAccessChecks : Prop :=
  ∀ (s : State) (a n : Nat) (acc : Acc) (inCache : Bool), a < 2 ^ 64 →
    let out := s.findLoc a n acc inCache
    let va := BitVec.ofNat 64 a
    (s.isE = true ∧ a < 0xFFFFFFFF00000000 → out = .trap (.plain 0x02 va)) ∧
    (¬ (s.isE = true ∧ a < 0xFFFFFFFF00000000) →
      (a % n ≠ 0 → out = .trap (.addr 0x06 va acc)) ∧
      (a % n = 0 →
        (0xFFFFFFFF00000000 ≤ a → s.hart.scratchSize < a - 0xFFFFFFFF00000000 + n → out = .trap (.addr 0x08 va acc)) ∧
        (0xFFFFFFFE00000000 ≤ a → a < 0xFFFFFFFE00080000 → out = .trap (.addr 0x08 va acc)) ∧
        (0xFFFFFFFF00000000 ≤ a → a - 0xFFFFFFFF00000000 + n ≤ s.hart.scratchSize →
          out = if s.interlocked a n (writes acc) then .stall .interlock else .ok (.scratch (a - 0xFFFFFFFF00000000), 0, s)) ∧
        (a < 0xFFFFFFFF00000000 → ¬ (0xFFFFFFFE00000000 ≤ a ∧ a < 0xFFFFFFFE00080000) → s.interlocked a n (writes acc) = false →
          (∀ l, s.walkWaits a acc s.user = some l → out = .stall (s.pinWait l)) ∧
          (s.walkWaits a acc s.user = none →
            (∀ t, s.translate a acc s.user false = .error t → out = .trap t) ∧
            (∀ pa pte s1, s.translate a acc s.user false = .ok (pa, pte, s1) → s1.controlOf pa pte = none →
              let held : Prop := inCache = true ∧ pteMt pte ≠ 3 ∧ pteCmp pte = false
              (held → (s1.cached (pa / 128)).isSome = true → out = .ok (.cached pa, pte, s1)) ∧
              (¬ (held ∧ (s1.cached (pa / 128)).isSome = true) →
                (∀ l, s1.mustWait pa n = some l → out = .stall (s.pinWait l)) ∧
                (s1.mustWait pa n = none →
                  (¬ held → out = .ok (.home pa, pte, s1.counted pa n)) ∧
                  (held → s1.setWaits (pa / 128) = none → out = .ok (.cached pa, pte, s1.counted pa 1)))))))))

/-- R358, R359, R362: an address with no held translation is walked. Three valid pointers and a valid 64 KiB leaf that permits the access give
the frame's address plus the offset; an entry that is not valid gives "page not present" with its level in WLVL, and a leaf without the
permission gives "protection". R362, R363: a translation changes no byte of memory but the eight of the leaf's entry, where it sets A, and D
for a write; it changes no register, and no line of the cache. R136, R363: tlbinv in mode S removes from every core's and die's TLB the
translations of its kind for the hart's VD, and no others; in mode U it raises "protection", after the direction of a queue is checked (R92,
R107). When A and D are set is the model's reading (log 25), and so is that the protection of R314 and R322 comes before the CMP test (log 91). -/
def Obligations.TranslationResults : Prop :=
  (∀ (s : State) (va : Nat) (acc : Acc) (user : Bool) (v : Vd), va < 2 ^ 56 → s.vds.find? (fun v => v.id = s.hart.vd.toNat) = some v →
    s.tlbFind s.hart.vd.toNat va = none →
    let entry (t i : Nat) : Word := BitVec.ofNat 64 (s.mem.rd (t + i * 8) 8)
    let e3 := entry v.root (va / 2 ^ 55)
    let e2 := entry (pteBase e3) (va / 2 ^ 42 % 8192)
    let e1 := entry (pteBase e2) (va / 2 ^ 29 % 8192)
    let e0 := entry (pteBase e1) (va / 2 ^ 16 % 8192)
    let down (lvl : Nat) (e : Word) : Prop := pteV e = true ∧ pteMalformed lvl e = false ∧ ptePointer e = true
    let stop (lvl : Nat) : Except TrapInfo (Nat × Word × State) :=
      .error { TrapInfo.addr 0x07 (BitVec.ofNat 64 va) acc with wlvl := BitVec.ofNat 3 (lvl + 1) }
    (pteV e3 = false → s.translate va acc user false = stop 3) ∧
    (down 3 e3 → pteV e2 = false → s.translate va acc user false = stop 2) ∧
    (down 3 e3 → down 2 e2 → pteV e1 = false → s.translate va acc user false = stop 1) ∧
    (down 3 e3 → down 2 e2 → down 1 e1 → pteV e0 = false → s.translate va acc user false = stop 0) ∧
    (down 3 e3 → down 2 e2 → down 1 e1 → pteV e0 = true → pteMalformed 0 e0 = false → ptePointer e0 = false →
      (permits e0 acc user = false → s.translate va acc user false = .error (.addr 0x08 (BitVec.ofNat 64 va) acc)) ∧
      (permits e0 acc user = true → s.reachable (pteBase e0 + va % 65536) e0 = false →
        s.translate va acc user false = .error (.addr 0x08 (BitVec.ofNat 64 va) acc)) ∧
      (permits e0 acc user = true → s.reachable (pteBase e0 + va % 65536) e0 = true →
        (pteCmp e0 = true → s.translate va acc user false = .error (.addr 0x09 (BitVec.ofNat 64 va) acc)) ∧
        (pteCmp e0 = false → ∃ s1, s.translate va acc user false = .ok (pteBase e0 + va % 65536, e0, s1))))) ∧
  (∀ (s s1 : State) (va pa : Nat) (acc : Acc) (user cmp : Bool) (pte : Word), s.translate va acc user cmp = .ok (pa, pte, s1) →
    s1.me = s.me ∧ s1.peer = s.peer ∧ s1.hart = s.hart ∧ s1.core.dcache = s.core.dcache ∧ s1.core.tbs = s.core.tbs ∧
    s1.core.chans = s.core.chans ∧ s1.clus = s.clus ∧ s1.vds = s.vds ∧ s1.out = s.out ∧
    (s1.mem = s.mem ∨ ∃ l, s.walkVd s.hart.vd.toNat va = .ok l ∧ permits l.pte acc user = true ∧
      s1.mem = s.mem.puts l.addr (leBytes 8 (l.pte ||| 0x40 ||| (if writes acc then 0x80 else 0)).toNat) ∧
      ∀ x, ¬ (l.addr ≤ x ∧ x < l.addr + 8) → s1.mem.get x = s.mem.get x)) ∧
  (∀ (s : State) (k : TlbKind) (a : Reg),
    (s.Fits .both 1 → popOk s.isE a = false → exec (.tlbinv k a) s = s.trap (.plain 0x02 s.insWord)) ∧
    (s.Fits .both 1 → popOk s.isE a = true → s.me.mode = .u → exec (.tlbinv k a) s = s.trap (.plain 0x08 s.insWord)) ∧
    (s.Issues .both 1 [a] [] → s.me.mode = .s →
      let va := (s.arg [a] 0).toNat
      let gone (t : TlbEntry) : Prop :=
        t.vd = s.hart.vd.toNat ∧ match k with
          | .va => t.vpn = va % 2 ^ 57 / 2 ^ (16 + 13 * t.lvl)
          | .vd => t.pte.getLsbD 5 = false
          | .all => True
      ∃ t : State, exec (.tlbinv k a) s = .next (t.retire 1) ∧ t.hart = (s.popped [a]).hart ∧ t.me = s.me ∧ t.mem = s.mem ∧
        (∀ e, e ∈ t.core.tlb ↔ e ∈ s.core.tlb ∧ ¬ gone e) ∧
        (∀ i : Fin 4, ∀ e, e ∈ t.dies[i].tlb ↔ e ∈ s.dies[i].tlb ∧ ¬ gone e) ∧
        (∀ c ∈ t.cores, ∃ c0 ∈ s.cores, c.1 = c0.1 ∧ ∀ e, e ∈ c.2.tlb ↔ e ∈ c0.2.tlb ∧ ¬ gone e) ∧ t.cores.length = s.cores.length))

/-- R5, R316, R317: a read gives the little-endian number of the location's bytes and changes none of them; a scratchpad word with an
uncorrectable error that it reads is reported to the VD (R409), the value and the local-window address of the event being the model's reading (log
67). R5, R316, R317: a write leaves the low bytes of its value at the location, little-endian; a later read of the location finds them, whatever
it is performed at; every byte outside is kept. R317, R318: what is written in a core's cache and what is performed at the home agree: the byte
written by a store performed in the cache is the byte that an access of the same core performed at the home finds, and conversely. -/
def Obligations.LocationResults : Prop :=
  (∀ (s : State) (l : Loc) (n : Nat), s.LinesOnce → l.inLine n →
    let r := s.readLoc l n
    r.1 < 256 ^ n ∧ (∀ i < n, BitVec.ofNat 8 (r.1 / 256 ^ i) = s.locByte l i) ∧
    r.2.hart = s.hart ∧ r.2.me = s.me ∧ (s.Sound l n → s.BytesKept r.2 (fun _ => False) ∧ r.2.LinesOnce) ∧
    (∀ o w, l = .scratch o → s.hart.scratchBad = [w] → o < 8 * w + 8 → 8 * w < o + n →
      r.2 = s.event s.hart.vd.toNat 8 0 (BitVec.ofNat 64 (0xFFFFFFFF00000000 + max o (8 * w))))) ∧
  (∀ (s : State) (l : Loc) (n v : Nat), s.LinesOnce → l.inLine n →
    let t := s.writeLoc l n v
    (∀ i < n, t.locByte l i = BitVec.ofNat 8 (v / 256 ^ i)) ∧
    (∀ o, l = .scratch o → t.mem = s.mem ∧ t.core = s.core ∧ ∀ x, ¬ (o ≤ x ∧ x < o + n) → t.hart.scratch.get x = s.hart.scratch.get x) ∧
    ((∀ o, l ≠ .scratch o) → s.BytesKept t (l.holds n) ∧ t.hart = s.hart ∧
      ∀ x, ¬ l.holds n x → t.cacheByte x = s.cacheByte x ∨ t.cacheByte x = t.mem.get x) ∧
    t.LinesOnce ∧ t.me = s.me) ∧
  (∀ (s : State) (pa n v i : Nat), s.LinesOnce → pa % 128 + n ≤ 128 → i < n →
    (s.writeLoc (.cached pa) n v).homeByte (pa + i) = BitVec.ofNat 8 (v / 256 ^ i) ∧
    (s.writeLoc (.home pa) n v).cacheByte (pa + i) = BitVec.ofNat 8 (v / 256 ^ i))

/-- R318, R333: a release at die scope or wider leaves no byte of the core data cache dirty and no line pinned, every dirty byte at its home; a
narrower one changes nothing. R318, R78: an acquire at die scope or wider drops every line that is not pinned, its dirty bytes written back,
and the stream's fetched lines; a narrower one changes nothing. -/
def Obligations.CoherenceOrderResults : Prop :=
  (∀ (s : State) (c : Scope), s.LinesOnce →
    (c = .hart ∨ c = .core ∨ c = .clus → s.release c = s) ∧
    (c = .die ∨ c = .module ∨ c = .sys →
      (∀ x v, ¬ (s.release c).DirtyAt x v) ∧ (∀ l ∈ (s.release c).core.dcache, l.pin = none) ∧
      (∀ x v, s.DirtyAt x v → (s.release c).mem.get x = v) ∧
      (∀ x, (∀ v, ¬ s.DirtyAt x v) → (s.release c).mem.get x = s.mem.get x) ∧
      (∀ x, (s.release c).cacheByte x = s.cacheByte x))) ∧
  (∀ (s : State) (c : Scope), s.LinesOnce →
    (c = .hart ∨ c = .core ∨ c = .clus → s.acquire c = s) ∧
    (c = .die ∨ c = .module ∨ c = .sys →
      (s.acquire c).me = { s.me with fetchBuf := [] } ∧ s.BytesKept (s.acquire c) (fun _ => False) ∧
      (∀ l ∈ (s.acquire c).core.dcache, l ∈ s.core.dcache ∧ l.pin ≠ none) ∧
      (∀ l ∈ s.core.dcache, l.pin ≠ none → l ∈ (s.acquire c).core.dcache) ∧
      (∀ x v, s.DirtyAt x v → (∀ l ∈ s.core.dcache, l.line = lineOf x → l.pin = none) → (s.acquire c).mem.get x = v)))

/-- R142, R143, R115: a load whose access is allowed reads its location and delivers the value, sign- or zero-extended, after it completes; one
whose check fails takes that trap, and one of a line that is poisoned, after the write-back that an access at the home brings, takes "memory
error" (R145, R317). That the access is performed at issue is the model's choice (log 4). -/
def Obligations.LoadResults : Prop :=
  ∀ (s : State) (u : Bool) (z : Size) (o : Order) (c : Scope) (d a : Reg) (ofs : BitVec 11) (disp : W32),
    let n := sizeBytes z
    let value (x : Nat) : Word := if u then BitVec.ofNat 64 x else (BitVec.ofNat (8 * n) x).signExtend 64
    (s.Issues .both 1 [a] [d] →
      let ea := (s.arg [a] 0 + ofs.signExtend 64 * BitVec.ofNat 64 n).toNat
      (∀ t, (s.popped [a]).findLoc ea n .read true = .trap t → exec (.ld u z d a ofs) s = s.trap t) ∧
      (∀ l pte s1, (s.popped [a]).findLoc ea n .read true = .ok (l, pte, s1) →
        let m := s1.settleLoc l n
        (m.locPoisoned l n = true → ∃ s2 : State, s2.hart = s.hart ∧ s2.me = s.me ∧
          exec (.ld u z d a ofs) s = s2.trap (.addr 0x0B (BitVec.ofNat 64 ea) .read)) ∧
        (m.locPoisoned l n = false →
          exec (.ld u z d a ofs) s = .next (((m.readLoc l n).2.deliverLater d (value (m.readLoc l n).1)).retire 1)))) ∧
    (s.Issues .both 2 [a] [d] → o = .rlx ∨ o = .acq → s.orderWaits false (acqOf o) c = none →
      let ea := (s.arg [a] 0 + disp.signExtend 64).toNat
      ∀ l pte s1, (s.popped [a]).findLoc ea n .read (decide (c = .hart ∨ c = .core)) = .ok (l, pte, s1) →
        let m := s1.settleLoc l n
        m.locPoisoned l n = false →
        let s2 := (m.readLoc l n).2
        exec (.ldo u z o c d a disp) s =
          .next (((if o = .acq then s2.acquire c else s2).deliverLater d (value (m.readLoc l n).1)).retire 2))

/-- R142, R143, R325, R333: a store whose access is allowed writes the low bytes of its data at its location and completes; sto first performs
its release, once the copy commands and matrix operations issued before it are done and the line it writes in the cache is not pinned elsewhere,
and a release that wrote in the cache pins the line. That the access is performed at issue is the model's choice (log 4), and that a release
waits for a pin elsewhere even on a cached copy is its reading (log 65). -/
def Obligations.StoreResults : Prop :=
  ∀ (s : State) (z : Size) (o : Order) (c : Scope) (d a : Reg) (ofs : BitVec 11) (disp : W32),
    let n := sizeBytes z
    (s.Issues .both 1 [a, d] [] →
      let ea := (s.arg [a, d] 0 + ofs.signExtend 64 * BitVec.ofNat 64 n).toNat
      (∀ t, (s.popped [a, d]).findLoc ea n .write true = .trap t → exec (.st z d a ofs) s = s.trap t) ∧
      (∀ l pte s1, (s.popped [a, d]).findLoc ea n .write true = .ok (l, pte, s1) →
        exec (.st z d a ofs) s = .next ((s1.writeLoc l n (s.arg [a, d] 1).toNat).retire 1))) ∧
    (s.Issues .both 2 [a, d] [] →
      let ea := (s.arg [a, d] 0 + disp.signExtend 64).toNat
      ∀ l pte s1, (s.popped [a, d]).findLoc ea n .write (decide (c = .hart ∨ c = .core)) = .ok (l, pte, s1) →
        (o = .rlx → exec (.sto z o c d a disp) s = .next ((s1.writeLoc l n (s.arg [a, d] 1).toNat).retire 2)) ∧
        (o = .rel → ∀ x, s1.pinWaits l = some x → exec (.sto z o c d a disp) s = s.stall (s.pinWait x)) ∧
        (o = .rel → s1.pinWaits l = none → s.copiesOutstanding = true → exec (.sto z o c d a disp) s = s.stall .channel) ∧
        (o = .rel → s1.pinWaits l = none → ∀ w, s.orderWaits true false c = some w → exec (.sto z o c d a disp) s = s.stall w) ∧
        (o = .rel → s1.pinWaits l = none → s.orderWaits true false c = none →
          let t := (s1.release c).writeLoc l n (s.arg [a, d] 1).toNat
          exec (.sto z o c d a disp) s =
            .next (match l with | .cached pa => (t.pin (pa / 128)).retire 2 | _ => t.retire 2)))

/-- THE FRAME of ld, ldo, st and sto where they complete: no register changes at once but those an ending iteration strides (a load's
destination receives its value later), no special register, flag, mode or vector register does, the fetch buffer only where an acquire
discards it, and no byte of memory outside the stored ones, the store's address being the one that findLoc gives; bytes of the leaf's
page-table entry are the translation's. A load of a scratchpad word in error sends an event beside that (LocationResults). -/
def Obligations.MemoryFrame : Prop :=
  ∀ (s : State) (u : Bool) (z : Size) (o : Order) (c : Scope) (d a : Reg) (ofs : BitVec 11) (disp : W32),
    let n := sizeBytes z
    let near := decide (c = .hart ∨ c = .core)
    let quiet (w : Nat) (t : State) : Prop :=
      (∀ r : Reg, r ∉ s.me.strided (s.lastSlot w) → t.me.reg r = s.me.reg r) ∧
      t.me = { s.me with
        pc := t.me.pc, regs := t.me.regs, pend := t.me.pend, loops := t.me.loops, fetchBuf := t.me.fetchBuf, pfx := none, wait := none
        age := 0 } ∧
      t.peer = s.peer ∧ t.core.tbs = s.core.tbs ∧ t.core.chans = s.core.chans ∧ t.core.keytab = s.core.keytab ∧ t.clus = s.clus ∧
      t.vds = s.vds
    let loaded (s1 t : State) : Prop := s1.BytesKept t (fun _ => False) ∧ t.hart = { s.hart with queues := t.hart.queues }
    let stored (l : Loc) (s1 t : State) : Prop :=
      s1.BytesKept t (l.holds n) ∧ (∀ x, (∀ o, l = .scratch o → ¬ (o ≤ x ∧ x < o + n)) → t.hart.scratch.get x = s.hart.scratch.get x) ∧
      t.hart = { s.hart with queues := t.hart.queues, scratch := t.hart.scratch } ∧ t.me.fetchBuf = s.me.fetchBuf
    (s.Issues .both 1 [a] [d] → ∀ l pte s1,
      (s.popped [a]).findLoc (s.arg [a] 0 + ofs.signExtend 64 * BitVec.ofNat 64 n).toNat n .read true = .ok (l, pte, s1) →
      (s1.settleLoc l n).locPoisoned l n = false → s1.LinesOnce → l.inLine n → s1.Sound l n →
      ∃ t : State, exec (.ld u z d a ofs) s = .next t ∧ quiet 1 t ∧ loaded s1 t ∧ t.me.fetchBuf = s.me.fetchBuf) ∧
    (s.Issues .both 2 [a] [d] → o = .rlx ∨ o = .acq → s.orderWaits false (acqOf o) c = none → ∀ l pte s1,
      (s.popped [a]).findLoc (s.arg [a] 0 + disp.signExtend 64).toNat n .read near = .ok (l, pte, s1) →
      (s1.settleLoc l n).locPoisoned l n = false → s1.LinesOnce → l.inLine n → s1.Sound l n →
      ∃ t : State, exec (.ldo u z o c d a disp) s = .next t ∧ quiet 2 t ∧ loaded s1 t ∧
        (t.me.fetchBuf = s.me.fetchBuf ∨ o = .acq ∧ t.me.fetchBuf = [])) ∧
    (s.Issues .both 1 [a, d] [] → ∀ l pte s1,
      (s.popped [a, d]).findLoc (s.arg [a, d] 0 + ofs.signExtend 64 * BitVec.ofNat 64 n).toNat n .write true = .ok (l, pte, s1) →
      s1.LinesOnce → l.inLine n → ∃ t : State, exec (.st z d a ofs) s = .next t ∧ quiet 1 t ∧ stored l s1 t) ∧
    (s.Issues .both 2 [a, d] [] → o = .rlx ∨ o = .rel → ∀ l pte s1,
      (s.popped [a, d]).findLoc (s.arg [a, d] 0 + disp.signExtend 64).toNat n .write near = .ok (l, pte, s1) →
      (o = .rel → s1.pinWaits l = none ∧ s.orderWaits true false c = none) → s1.LinesOnce → l.inLine n →
      ∃ t : State, exec (.sto z o c d a disp) s = .next t ∧ quiet 2 t ∧ stored l s1 t)

/-- R146, R147, R329: a fence with an acquire part waits while copy commands or matrix operations of its stream have bytes of their sources still
to read; it performs its release, once the stream's copy commands and matrix operations are done, and then its acquire; cflush writes the
line of an address back and keeps it, cinv drops it, both doing nothing in the partition and on a page that is not cached. -/
def Obligations.FenceAndCacheResults : Prop :=
  ∀ (s : State) (o : Order) (c : Scope) (a : Reg),
    (s.Fits .both 1 → o ≠ .rlx →
      (acqOf o = true → s.copiesReading = true → exec (.fence o c) s = s.stall .channel) ∧
      (acqOf o = true → s.opsUnread = true → exec (.fence o c) s = s.stall .engine) ∧
      (relOf o = true → s.copiesOutstanding = true → exec (.fence o c) s = s.stall .channel) ∧
      ((acqOf o = true → s.copiesReading = false ∧ s.opsUnread = false) →
        (∀ w, s.orderWaits (relOf o) (acqOf o) c = some w → exec (.fence o c) s = s.stall w) ∧
        (s.orderWaits (relOf o) (acqOf o) c = none →
          let r := if relOf o then s.release c else s
          exec (.fence o c) s = .next ((if acqOf o then r.acquire c else r).retire 1)))) ∧
    (s.Issues .aOnly 1 [a] [] →
      let va := (s.arg [a] 0).toNat
      let s1 := s.popped [a]
      (0xFFFFFFFF00000000 ≤ va → exec (.cflush a) s = .next (s1.retire 1) ∧ exec (.cinv a) s = .next (s1.retire 1)) ∧
      (va < 0xFFFFFFFF00000000 → ¬ (0xFFFFFFFE00000000 ≤ va ∧ va < 0xFFFFFFFE00080000) → s1.walkWaits va .read s.user = none →
        ∀ pa pte s2, s1.translate va .read s.user true = .ok (pa, pte, s2) →
        (pteMt pte = 3 ∨ pteCmp pte = true → exec (.cflush a) s = .next (s2.retire 1) ∧ exec (.cinv a) s = .next (s2.retire 1)) ∧
        (pteMt pte ≠ 3 → pteCmp pte = false → s2.LinesOnce → s2.mustWait pa 1 = none →
          ∃ f i : State, exec (.cflush a) s = .next (f.retire 1) ∧ exec (.cinv a) s = .next (i.retire 1) ∧
            s2.BytesKept f (fun _ => False) ∧ s2.BytesKept i (fun _ => False) ∧ f.me = s2.me ∧ i.me = s2.me ∧ f.hart = s2.hart ∧
            i.hart = s2.hart ∧ i.cached (pa / 128) = none ∧ (∀ x, f.cacheByte x = s2.cacheByte x) ∧
            (∀ x v, x / 128 = pa / 128 → s2.DirtyAt x v → f.mem.get x = v ∧ i.mem.get x = v))))

/-- R148 to R152: where an atomic's page and access allow it, its line is free and unpoisoned after the write-back that precedes it (R317, R333),
amo and cas run at the core data cache (scopes hart and core, memory types 00 and
01) or at the home: the old value is read, the new one written there as one operation between the release and the acquire that the order
asks for, and the old value is delivered; cas writes only on a match. -/
def Obligations.AtomicResults : Prop :=
  ∀ (s : State) (op : AmoOp) (z : Size) (o : Order) (c : Scope) (d a b e : Reg) (pa : Nat) (pte : Word) (s1 s3 : State),
    let inCache := decide ((c = .hart ∨ c = .core) ∧ pteMt pte ≤ 1)
    let l : Loc := if inCache then .cached pa else .home pa
    let m := if relOf o then s1.release c else s1
    let fin (t : State) : State := if acqOf o then t.acquire c else t
    let pins (t : State) : State := if inCache then t.pin (pa / 128) else t
    let q (n : Nat) : State := s3.settleLoc l n
    let open_ (va n : Nat) (p : State) : Prop :=
      va < 0xFFFFFFFF00000000 ∧ ¬ (0xFFFFFFFE00000000 ≤ va ∧ va < 0xFFFFFFFE00080000) ∧ va % n = 0 ∧
      p.interlocked va n true = false ∧ p.walkWaits va .atomic s.user = none ∧ p.translate va .atomic s.user false = .ok (pa, pte, s1) ∧
      s1.controlOf pa pte = none ∧ s.orderWaits (relOf o) (acqOf o) c = none ∧ m.atomicLoc pa inCache n = .ok (l, s3) ∧
      (q n).poisoned pa n = false
    (s.Issues .aOnly 1 [a, b] [d] →
      let n := if op = .fadd then 4 else 8
      open_ (s.arg [a, b] 0).toNat n (s.popped [a, b]) →
      let old := ((q n).readLoc l n).1
      let x : Word := BitVec.ofNat 64 old
      let y := s.arg [a, b] 1
      ∃ new : Word, exec (.amo op o c d a b) s =
          .next (((fin (pins (((q n).readLoc l n).2.writeLoc l n new.toNat))).deliverLater d x).retire 1) ∧
        (op = .add → new = x + y) ∧ (op = .and → new = x &&& y) ∧ (op = .or → new = x ||| y) ∧ (op = .xor → new = x ^^^ y) ∧
        (op = .swap → new = y) ∧ (op = .min → new = if x.slt y then x else y) ∧ (op = .max → new = if x.slt y then y else x) ∧
        (op = .minu → new = if x.ult y then x else y) ∧ (op = .maxu → new = if x.ult y then y else x) ∧
        (op = .fadd → new = BitVec.ofNat 64 (fadd32 (old % 2 ^ 32) (y.toNat % 2 ^ 32)))) ∧
    (s.Issues .aOnly 2 [a, b, e] [d] → z = .w ∨ z = .d →
      let n := sizeBytes z
      open_ (s.arg [a, b, e] 0).toNat n (s.popped [a, b, e]) →
      let r := (q n).readLoc l n
      let val : Word := (BitVec.ofNat (8 * n) r.1).signExtend 64
      exec (.cas z o c d a b e) s =
        .next (((fin (if r.1 = (s.arg [a, b, e] 1).toNat % 256 ^ n then pins (r.2.writeLoc l n (s.arg [a, b, e] 2).toNat) else r.2)).deliverLater
          d val).retire 2))

/-- R154 to R160: ldv delivers the doubleword read at the home and records its line with the version; a line recorded before keeps its first
version, and a full set sets VOVF. vval writes 1 exactly when no record overflowed the set and each recorded line, its own dirty bytes
written back, has a readable side slot that still holds the recorded version. vclr empties the set. casv writes only where the expected
version is current, and delivers the current version, or the raised one with bit 63 set. R153, R323: an ldv or casv of a line whose bytes or
side slot have an uncorrectable error raises "memory error". R154, R322: a write performed at a line's home raises the version of a versioned
line by one, modulo 2^48, and of no line with another side slot. That a line is versioned by its physical range, whatever the VER bit, and
that vval waits for earlier deliveries and writes the core's own dirty bytes back is the model's reading (log 36). -/
def Obligations.VersionResults : Prop :=
  (∀ (s : State) (z : Size) (o : Order) (c : Scope) (d a b e : Reg) (ofs : BitVec 11),
    (s.Issues .aOnly 1 [a] [d] →
      let ea := (s.arg [a] 0 + ofs.signExtend 64 * 8).toNat
      ∀ pa s2, (s.popped [a]).versionedLoc ea 8 .read s.user = .ok (pa, s2) →
        let r := s2.homeRead pa 8
        (r.2.poisoned pa 8 = true ∨ r.2.slotError (pa / 128) = true → ∃ q : State, q.hart = s.hart ∧ q.me = s.me ∧
          exec (.ldv d a ofs) s = q.trap (.addr 0x0B (BitVec.ofNat 64 ea) .read)) ∧
        (r.2.poisoned pa 8 = false → r.2.slotError (pa / 128) = false →
        let seen := r.2.version (pa / 128)
        ∃ h : Hart, exec (.ldv d a ofs) s = .next ((State.deliverLater { r.2 with hart := h } d (BitVec.ofNat 64 r.1)).retire 1) ∧
          h = { r.2.hart with vset := h.vset, vovf := h.vovf } ∧
          ((∃ v, (pa / 128, v) ∈ r.2.hart.vset) → h = r.2.hart) ∧
          ((∀ v, (pa / 128, v) ∉ r.2.hart.vset) → r.2.hart.vset.length < 64 →
            h.vset = r.2.hart.vset ++ [(pa / 128, seen)] ∧ h.vovf = r.2.hart.vovf) ∧
          ((∀ v, (pa / 128, v) ∉ r.2.hart.vset) → 64 ≤ r.2.hart.vset.length → h.vset = r.2.hart.vset ∧ h.vovf = true))) ∧
    (s.Issues .aOnly 1 [] [d] → s.me.pend = [] → (∀ x ∈ s.hart.vset, s.mustWait (x.1 * 128) 1 = none) →
      ∃ (t : State) (v : Word), exec (.vval d) s = .next ((t.wr d v).retire 1) ∧ t.hart = s.hart ∧ t.me = s.me ∧ (v = 0 ∨ v = 1) ∧
        ((∀ x ∈ s.hart.vset, ∀ y ∈ s.hart.vset, x.1 ≠ y.1 → s.sideSlot (x.1 * 128) = none ∨ s.sideSlot (x.1 * 128) ≠ s.sideSlot (y.1 * 128)) →
          (v = 1 ↔ s.hart.vovf = false ∧
            ∀ x ∈ s.hart.vset, s.slotError x.1 = false ∧ (s.beforeHome (x.1 * 128) 128).version x.1 = x.2))) ∧
    (s.Fits .aOnly 1 → exec .vclr s = .next (State.retire { s with hart := { s.hart with vset := [], vovf := false } } 1)) ∧
    (s.Issues .aOnly 2 [a, b, e] [d] → z = .w ∨ z = .d →
      let n := sizeBytes z
      ∀ pa s2, (s.popped [a, b, e]).versionedLoc (s.arg [a, b, e] 0).toNat n .atomic s.user = .ok (pa, s2) →
        s.orderWaits (relOf o) (acqOf o) c = none →
        let m := if relOf o then s2.release c else s2
        let p := m.beforeHome pa n
        (p.poisoned pa n = true ∨ p.slotError (pa / 128) = true → ∃ q : State, q.hart = s.hart ∧ q.me = s.me ∧
          exec (.casv z o c d a b e) s = q.trap (.addr 0x0B (s.arg [a, b, e] 0) .atomic)) ∧
        (p.poisoned pa n = false → p.slotError (pa / 128) = false →
        let cur := (p.version (pa / 128)).toNat
        let want := s.arg [a, b, e] 1
        let fin (t : State) : State := if acqOf o then t.acquire c else t
        (want.getLsbD 63 = false → want.toNat % 2 ^ 48 = cur →
          exec (.casv z o c d a b e) s = .next (((fin (p.homeWrite pa (leBytes n (s.arg [a, b, e] 2).toNat))).deliverLater d
            (BitVec.ofNat 64 (2 ^ 63 + (cur + 1) % 2 ^ 48))).retire 2)) ∧
        (want.getLsbD 63 = true ∨ want.toNat % 2 ^ 48 ≠ cur →
          exec (.casv z o c d a b e) s = .next (((fin p).deliverLater d (BitVec.ofNat 64 cur)).retire 2))))) ∧
  (∀ (s : State) (pa : Nat) (bs : List Byte), bs ≠ [] → pa % 128 + bs.length ≤ 128 →
    let t := s.homePut pa bs
    (s.versioned (pa / 128 * 128) = true → t.version (pa / 128) = s.version (pa / 128) + 1) ∧
    (s.versioned (pa / 128 * 128) = false → t.version (pa / 128) = s.version (pa / 128)) ∧
    (∀ line, s.sideSlot (line * 128) = none ∨ s.sideSlot (line * 128) ≠ s.sideSlot (pa / 128 * 128) → t.version line = s.version line))

-- Control and system

/-- R117, R118, R124: a taken branch whose target lies in a fetched line, at a slot that the line marks as a target, writes its link and goes
there; a target whose line has to be fetched is the same once the line has come, and a line that cannot be fetched traps only at the target.
bcc that is not taken goes on in sequence. R118: of each of the five forms, the checks of a taken branch in their order, each trap before any
pop, link or jump; that their TSTAT names a fetch is the model's reading (log 26). -/
def Obligations.BranchResults : Prop :=
  ∀ (s : State) (d a b : Reg) (c : Cond) (o24 : BitVec 24) (o19 : BitVec 19) (o14 : BitVec 14) (o11 : BitVec 11) (o32 : W32),
    let opens (p p' : State) (target : Word) : Prop :=
      target.toNat % 4 = 0 ∧ (target.toNat < 2 ^ 56 ∨ 2 ^ 64 - 2 ^ 56 ≤ target.toNat) ∧ target.toNat % 64 ≠ 0 ∧
      ((p' = p ∧ (p.me.line? target).isSome = true ∧ p.me.isTarget target = true) ∨
       (p.me.line? target = none ∧ ∃ l q, p.readRaw target = .ok (.line l, q) ∧ headerOk l.header = true ∧ p' = q.keepLine l ∧
         p'.me.isTarget target = true) ∨
       (p.me.line? target = none ∧ p' = p ∧ ∃ t, p.readRaw target = .trap t) ∨
       (p.me.line? target = none ∧ ∃ r, p.readRaw target = .ok (r, p') ∧
         match r with | .line l => headerOk l.header = false | .parity => True | .poisoned _ => True))
    let bars (p : State) (i : Instr) (target : Word) : Prop :=
      let inside := target.toNat < 2 ^ 56 ∨ 2 ^ 64 - 2 ^ 56 ≤ target.toNat
      (target.toNat % 4 ≠ 0 → exec i s = s.trap (.addr 0x06 target .fetch)) ∧
      (target.toNat % 4 = 0 → ¬ inside → exec i s = s.trap (.addr 0x08 target .fetch)) ∧
      (target.toNat % 4 = 0 → inside → target.toNat % 64 = 0 → exec i s = s.trap (.plain 0x03 target)) ∧
      (target.toNat % 4 = 0 → inside → target.toNat % 64 ≠ 0 →
        ((s.me.line? target).isSome = true → s.me.isTarget target = false → exec i s = s.trap (.plain 0x03 target)) ∧
        (s.me.line? target = none → ∀ l q, p.readRaw target = .ok (.line l, q) → headerOk l.header = true →
          (q.keepLine l).me.isTarget target = false → exec i s = State.trap { q with hart := s.hart } (.plain 0x03 target)))
    let lands (p' : State) (n : Nat) (d : Reg) (target : Word) : Host.Outcome State Fault Refusal :=
      let q := p'.wr d (nextSlot s.me.pc n)
      .next { q with me := q.me.jumpTo target }
    let goes (p : State) (i : Instr) (n : Nat) (d : Reg) (target : Word) : Prop :=
      (∀ p', opens p p' target → exec i s = lands p' n d target) ∧ bars p i target
    (s.Issues .both 1 [] [] → goes s (.b o24) 1 0 (s.me.pc + 4 * o24.signExtend 64)) ∧
    (s.Issues .both 1 [] [d] → goes s (.jal d o19) 1 d (s.me.pc + 4 * o19.signExtend 64)) ∧
    (s.Issues .both 1 [a] [d] → goes (s.popped [a]) (.jalr d a o14) 1 d (s.arg [a] 0 + 4 * o14.signExtend 64)) ∧
    (s.Issues .both 2 [] [d] → goes s (.jl d o32) 2 d (s.me.pc + 4 * o32.signExtend 64)) ∧
    (s.Issues .both 1 [a, b] [] →
      let x := s.arg [a, b] 0
      let y := s.arg [a, b] 1
      let taken : Bool := match c with | .eq => x == y | .ne => x != y | .lt => x.slt y | .ge => y.sle x | .ltu => x.ult y | .geu => y.ule x
      (taken = true → goes (s.popped [a, b]) (.bcc c a b o11) 1 0 (s.me.pc + 4 * o11.signExtend 64)) ∧
      (taken = false → exec (.bcc c a b o11) s = .next ((s.popped [a, b]).retire 1)))

/-- R120 to R122: a loop with a count makes its level active over the slots that follow, with the strides registered for it; a count of 0 passes
over the body and drops them; where the body ends at the last slot of an enclosing level's, the skipped body stands for that slot, and the
enclosing iteration ends. lstride registers one more pair. What R121 and R122 forbid traps as illegal. R124: a jump ends, of the levels
active in the current mode, those whose body it leaves and every deeper one, and no other, none recorded in the other mode; it changes no
register. A loop on a level of the
other mode replaces it (log 12). -/
def Obligations.LoopResults : Prop :=
  (∀ (s : State) (l : BitVec 3) (a : Reg) (n : BitVec 14) (imm : BitVec 14) (h : l.toNat < 6),
    let i : Fin 6 := ⟨l.toNat, h⟩
    let first := nextSlot s.me.pc 1
    let last := slotsOn first (n.toNat - 1)
    let clear := n ≠ 0 ∧ (∀ j : Fin 6, i ≤ j → s.me.active j = none) ∧
      ∀ j : Fin 6, j < i → ∀ b, s.me.active j = some b → last ≤ b.last
    (s.Issues .both 1 [a] [] →
      (clear → s.arg [a] 0 ≠ 0 → ∃ t : State, exec (.loop l a n) s = .next t ∧ t.me.pc = first ∧
        t.me.active i = some ⟨first, last, s.arg [a] 0, 0, s.me.mode, s.me.loops[i].pairs⟩ ∧ t.me.loops[i].pairs = [] ∧
        (∀ j, j ≠ i → t.me.loops[j] = s.me.loops[j]) ∧ t.me.regs = s.me.regs) ∧
      (clear → s.arg [a] 0 = 0 → (∀ j : Fin 6, ∀ b, s.me.active j = some b → b.last ≠ last) →
        ∃ t : State, exec (.loop l a n) s = .next t ∧ t.me.pc = nextSlot last 1 ∧ t.me.active i = none ∧ t.me.loops[i].pairs = [] ∧
          (∀ j, j ≠ i → t.me.loops[j] = s.me.loops[j]) ∧ t.me.regs = s.me.regs) ∧
      (clear → s.arg [a] 0 = 0 → ∀ (j : Fin 6) (b : Loop), s.me.active j = some b → b.last = last →
        (∀ k, k ≠ j → ∀ c, s.me.active k = some c → c.last ≠ last) →
        ∃ t : State, exec (.loop l a n) s = .next t ∧ t.me.active i = none ∧ t.me.loops[i].pairs = [] ∧
          (b.left ≠ 1 → t.me.pc = b.first ∧ t.me.active j = some { b with left := b.left - 1, iter := b.iter + 1 }) ∧
          (b.left = 1 → t.me.pc = nextSlot last 1 ∧ t.me.active j = none) ∧
          ∀ r, r ≠ 0 → isQ r = false → s.me.scoreboarded r = false → t.me.reg r = stridden b.strides r (s.me.reg r)) ∧
      (¬ clear → exec (.loop l a n) s = s.trap (.plain 0x01 s.insWord))) ∧
    (s.Fits .both 1 →
      (s.me.active i = none → s.me.loops[i].pairs.length < 4 → isQ a = false → ∃ t : State, exec (.lstride l a imm) s = .next (t.retire 1) ∧
        t.me.loops[i].pairs = s.me.loops[i].pairs ++ [(a, imm.signExtend 64)] ∧ (∀ j, j ≠ i → t.me.loops[j] = s.me.loops[j]) ∧
        t = { s with me := { s.me with loops := t.me.loops } }) ∧
      (s.me.active i ≠ none ∨ 4 ≤ s.me.loops[i].pairs.length ∨ isQ a = true →
        exec (.lstride l a imm) s = s.trap (.plain 0x01 s.insWord)))) ∧
  (∀ (t : Strm) (target : Word),
    let u := t.jumpTo target
    let left (i : Fin 6) : Prop := ∃ j ≤ i, ∃ a, t.active j = some a ∧ ¬ (a.first ≤ target ∧ target ≤ a.last)
    u.pc = target ∧ u = { t with pc := u.pc, loops := u.loops, pfx := none, wait := none, age := 0 } ∧
    (∀ i, left i → u.active i = none) ∧ (∀ i, ¬ left i → u.active i = t.active i) ∧
    (∀ i : Fin 6, u.loops[i].pairs = t.loops[i].pairs) ∧
    (∀ (i : Fin 6) (a : Loop), t.loops[i].act = some a → a.mode ≠ t.mode → u.loops[i] = t.loops[i]))

/-- R127, R129, R130, R134, R139, R140: the queue is emptied of its entries, not of places reserved; setvl takes the lesser of the count and
LANES; setvt writes a VTYPE whose XF and SAT are legal and traps otherwise; nop and yield only go on; exit ends the stream's issuing. That exit
and wfi leave the stream standing at the instruction, or at its prefix, is the model's choice (log 30). R87 to R89, R125: a prefix whose next slot
holds an instruction that accepts its fields is held for that instruction; with ITER naming another iteration than the current one the pair is
passed over; a next slot that is a target, or a next instruction that takes no prefix, makes it an orphan. -/
def Obligations.SetupAndPrefixResults : Prop :=
  (∀ (s : State) (q : BitVec 3) (d a : Reg) (sat : BitVec 2) (sd : Bool) (wd : BitVec 5) (sb : Bool) (wb : BitVec 4) (sa : Bool)
    (wa : BitVec 4),
    (s.Fits .both 1 → ∃ t : State, exec (.qflush q) s = .next (t.retire 1) ∧ t = { s with hart := t.hart } ∧
      t.hart = { s.hart with queues := t.hart.queues } ∧ (∀ i, i ≠ q.toFin → t.hart.q i = s.hart.q i) ∧
      (∀ e ∈ t.hart.q q.toFin, e = .reserved) ∧ (t.hart.q q.toFin).length = ((s.hart.q q.toFin).filter (· = .reserved)).length) ∧
    (s.Issues .both 1 [a] [d] →
      (∃ vl : BitVec 15, vl.toNat = min (s.arg [a] 0).toNat (16384 / 2 ^ s.hart.lph.toNat) ∧
        exec (.setvl d a) s =
          .next ((State.wr { s.popped [a] with me := { s.me with vl := vl } } d (vl.zeroExtend 64)).retire 1)) ∧
      (let v : BitVec 21 := (s.arg [a] 0).setWidth 21
       (v.toNat / 2 ^ 18 < 5 ∧ v.toNat / 2 ^ 16 % 4 < 3 → exec (.setvtReg d a) s =
         .next ((State.wr { s.popped [a] with me := { s.me with vtype := v } } d (v.zeroExtend 64)).retire 1)) ∧
       (¬ (v.toNat / 2 ^ 18 < 5 ∧ v.toNat / 2 ^ 16 % 4 < 3) →
         exec (.setvtReg d a) s = s.trap (.plain 0x0E (s.me.vtype.zeroExtend 64))))) ∧
    (s.Issues .both 1 [] [d] →
      let v : BitVec 21 := (0 : BitVec 3) ++ sat ++ BitVec.ofBool sd ++ BitVec.ofBool sb ++ BitVec.ofBool sa ++ wd ++ wb ++ wa
      (sat ≠ 3 → exec (.setvtImm sat sd wd sb wb sa wa d) s =
        .next ((State.wr { s with me := { s.me with vtype := v } } d (v.zeroExtend 64)).retire 1)) ∧
      (sat = 3 → exec (.setvtImm sat sd wd sb wb sa wa d) s = s.trap (.plain 0x0E (s.me.vtype.zeroExtend 64)))) ∧
    (s.Fits .both 1 →
      exec .nop s = .next (s.retire 1) ∧ exec .yield s = .next (s.retire 1) ∧
      exec .exit s = .next { s with me := { s.me with exiting := true, pc := s.me.issueAddr, pfx := none, wait := none } } ∧
      exec .wfi s = .next { s with me := { s.me with wait := some (.wfi s.me.pc), pc := s.me.issueAddr, pfx := none, age := 0 } })) ∧
  (∀ (s : State) (lvl : BitVec 3) (iter : BitVec 2) (fz : Bool) (sat : BitVec 2) (rm : BitVec 3) (i : Instr) (n : Nat),
    let next := nextSlot s.me.pc 1
    let p : Instr := .pfx lvl iter fz sat rm
    let held : State := { s with me := { s.me with pfx := some ⟨s.me.pc, fz, sat, rm⟩, pc := next } }
    let legal := lvl.toNat ≤ 5 ∧ iter ≠ 3 ∧ sat ≠ 3 ∧ rm.toNat ≤ 4 ∧ (iter = 0 → lvl = 0) ∧ s.me.lastOfBody s.me.pc = false
    s.me.find next = .ins i n →
    (s.me.orphan next = true → exec p s = s.trap (.plain 0x04 s.insWord)) ∧
    (s.me.orphan next = false → ¬ legal → exec p s = s.trap (.plain 0x01 s.insWord)) ∧
    (s.me.orphan next = false → legal → pfxRefused i fz sat rm = false →
      (iter = 0 → exec p s = .next held) ∧
      (iter ≠ 0 → s.me.iterLevel lvl = none → exec p s = s.trap (.plain 0x01 s.insWord)) ∧
      (iter ≠ 0 → ∀ a, s.me.iterLevel lvl = some a →
        ((iter = 1 ∧ a.iter = 0) ∨ (iter = 2 ∧ a.left = 1) → exec p s = .next held) ∧
        (¬ ((iter = 1 ∧ a.iter = 0) ∨ (iter = 2 ∧ a.left = 1)) → ¬ (n = 2 ∧ s.me.lastOfBody next = true) →
          exec p s = .next (State.retire { s with me := { s.me with pc := next } } n)))) ∧
    (s.me.orphan next = false → legal → (iter = 0 ∨ s.me.iterLevel lvl ≠ none) → pfxRefused i fz sat rm = true →
      exec p s = s.trap (.plain 0x01 s.insWord)))

/-- R339, R340, R35, R87: taking a trap with a handler line. The cause, the address of the instruction or of its prefix, the value and TSTAT
with the mode and stream it came from are saved; VL, VTYPE and VSTART go to the handler bank, VSTART becomes 0, HBUSY is set and VLOST notes
a bank already in use; the stream runs in mode S at slot 1 of the handler line; every delivery outstanding is made. R344: a trap of a stream
whose TVEC names no line ends its team without a save: its grid counts one more ended team and is marked, so that its DONE add is not made,
the team is gone, and the partition supervisor is told the cause, address, value, hart and stream. -/
def Obligations.TrapEntry : Prop :=
  (∀ (s : State) (i : TrapInfo), s.deliverAll.me.tvec &&& ~~~(0x3F : Word) ≠ 0 →
    let p := s.deliverAll
    let t := p.me.enterTrap i s.isE
    s.trap i = .next { p with me := t } ∧ p.me.pend = [] ∧
    t.tcause = i.cause ∧ t.tval = i.tval ∧ t.tpc = (match s.me.pfx with | some x => x.addr | none => s.me.pc) ∧
    t.pc = (s.me.tvec &&& ~~~(0x3F : Word)) + 4 ∧ t.mode = .s ∧
    t.tstat.getLsbD 0 = (s.me.mode == .s) ∧ t.tstat.getLsbD 1 = s.isE ∧ t.tstat.extractLsb' 13 3 = i.wlvl ∧
    t.tstat.extractLsb' 11 2 = i.ak ∧ t.tstat.extractLsb' 8 3 = i.ech ∧ t.tstat.getLsbD 7 = i.ef ∧ t.tstat.getLsbD 6 = i.mh ∧
    t.hvl = s.me.vl ∧ t.hvtype = s.me.vtype ∧ t.hvstart = s.me.vstart ∧ t.vl = s.me.vl ∧ t.vtype = s.me.vtype ∧ t.vstart = 0 ∧
    t.vstat.getLsbD 2 = true ∧ t.vstat.getLsbD 1 = (s.me.vstat.getLsbD 1 || s.me.vstat.getLsbD 2) ∧
    (∀ j, j ≠ 1 → j ≠ 2 → t.vstat.getLsbD j = s.me.vstat.getLsbD j) ∧
    t.loops = s.me.loops ∧ t.pfx = none ∧ t.wait = none ∧ t.regs = p.me.regs ∧ t.tvec = s.me.tvec ∧ t.faults = s.me.faults ∧
    (s.me.pend = [] → p = s)) ∧
  (∀ (s : State) (i : TrapInfo), s.me.pend = [] → s.me.tvec &&& ~~~(0x3F : Word) = 0 →
    s.hart.live = true →
    ∃ t, s.trap i = .next t ∧ (∀ x ∈ t.teams, x.key ≠ s.key) ∧ t.me.stopped = true ∧ t.peer.stopped = true ∧
      (∀ c ∈ t.parked, c.hart.live = true → c.key ≠ s.key) ∧
      t.grids = s.grids.map (fun g => if g.vd = s.hart.vd.toNat ∧ g.gid = s.hart.grid.toNat then
        { g with ended := g.ended + 1, unhandled := true } else g) ∧
      t.out = s.out ++ [.unhandledTrap i.cause (match s.me.pfx with | some x => x.addr | none => s.me.pc) i.tval s.hart.id s.isE s.key])

/-- R132, R133, R35: ecall and ebreak take their traps, ecall's value being its code; nop only goes on; eret in mode S returns to TPC in the
saved mode with VL, VTYPE and VSTART from the handler bank and HBUSY clear; in mode U it raises "protection". R229: an eret of the E-stream to
the instruction that reported a halted matrix operation, and no other, lets the operation go on. -/
def Obligations.TrapRequestAndReturn : Prop :=
  ∀ (s : State) (code : BitVec 14), s.Fits .both 1 →
    exec (.ecall code) s = .next (s.takeTrap (.plain 0x10 (code.zeroExtend 64))) ∧
    exec .ebreak s = .next (s.takeTrap (.plain 0x11 0)) ∧
    exec .nop s = .next (s.retire 1) ∧
    (s.me.mode = .u → exec .eret s = .next (s.takeTrap (.plain 0x08 s.insWord))) ∧
    (s.me.mode = .s → ∃ t : State, exec .eret s = .next t ∧ t.me.pc = s.me.tpc ∧
      t.me.mode = (if s.me.tstat.getLsbD 0 then Mode.s else Mode.u) ∧ t.me.vl = s.me.hvl ∧ t.me.vtype = s.me.hvtype ∧
      t.me.vstart = s.me.hvstart ∧ t.me.vstat.getLsbD 2 = false ∧ (∀ j, j ≠ 2 → t.me.vstat.getLsbD j = s.me.vstat.getLsbD j) ∧
      t.me.regs = s.me.regs ∧ t.me.loops = s.me.loops ∧ t.me.hvl = s.me.hvl ∧ t.me.tcause = s.me.tcause ∧ t.me.tpc = s.me.tpc ∧
      t.me.tval = s.me.tval ∧ t.me.tvec = s.me.tvec ∧ t.me.tstat = s.me.tstat ∧ t.mem = s.mem ∧ t.core = s.core ∧ t.peer = s.peer ∧
      (s.isE = false ∨ s.hart.mtold ≠ some s.me.tpc → t.hart = s.hart) ∧
      (s.isE = true → s.hart.mtold = some s.me.tpc → t.hart = { s.hart with mhalt := none, mtold := none }))

/-- R98: an instruction of the other stream's class raises "wrong stream" with TVAL its first word, whatever its operands, and before any of its
effects; only a 64-bit instruction in the last slot of an active body is illegal before that (R126). -/
def Obligations.WrongStreamTraps : Prop :=
  ∀ (s : State) (i : Instr) (c : Machine.Class) (n : Nat), streamClass i = some (c, n) → c.ok s.isE = false →
    (¬ (n = 2 ∧ s.me.lastOfBody s.me.pc = true) → exec i s = .next (s.takeTrap (.plain 0x02 s.insWord))) ∧
    (n = 2 ∧ s.me.lastOfBody s.me.pc = true → exec i s = .next (s.takeTrap (.plain 0x01 s.insWord)))

/-- R48, R135, R6: mfsr reads every register of the table in a mode that may; a register of mode S read in mode U raises "protection", a number
the table does not list "illegal instruction". TIME reads the time after its free advance (log 15). R48, R135, R6, R29 to R35: mtsr writes
the registers that the mode may write, with their own limits: VL is at most LANES, TPC and TVEC keep no low bits, TSTAT only its mode bit,
VSTAT's SATF, VLOST and HBUSY clear on 1; CPSTAT's FLT, OOB, RPERR and ABT clear on 1 channel by channel, with their records (R265); MPROG takes
the resume row of a halted operation in mode S (R229); a write of a register that the mode may only read is discarded. The advance of TIME is
free (log 15). -/
def Obligations.SystemRegisterResults : Prop :=
  (∀ (s : State) (d : Reg), s.Issues .both 1 [] [d] →
    let gives (num : BitVec 12) (v : Word) : Prop := exec (.mfsr d num) s = .next (s.wrote 1 [] d v)
    gives 0x001 (s.me.vl.zeroExtend 64) ∧ gives 0x002 (s.me.vtype.zeroExtend 64) ∧ gives 0x003 (s.me.vstart.zeroExtend 64) ∧
    gives 0x004 (s.me.vstat.zeroExtend 64) ∧ gives 0x030 (BitVec.ofNat 64 s.hart.mprog) ∧
    (∀ ch : Fin 8, gives (BitVec.ofNat 12 (0x040 + ch)) s.core.chans[ch].cpwp) ∧
    (∃ v : Word, gives 0x048 v ∧ ∀ ch : Fin 8, v.toNat / 2 ^ (8 * ch.val) % 256 = s.core.chans[ch].status) ∧
    gives 0x060 (s.hart.id.zeroExtend 64) ∧ gives 0x061 (s.hart.team.zeroExtend 64) ∧ gives 0x062 (s.hart.grid.zeroExtend 64) ∧
    gives 0x063 (s.hart.vd.zeroExtend 64) ∧ gives 0x064 (BitVec.ofNat 64 (16384 / 2 ^ s.hart.lph.toNat)) ∧
    gives 0x070 (BitVec.ofNat 64 s.clus.energy) ∧
    (s.hart.vset.length + s.hart.endCount ≤ 64 → ∃ v : Word, gives 0x080 v ∧ v.toNat % 128 = s.hart.vset.length + s.hart.endCount ∧
      v.getLsbD 7 = s.hart.vovf) ∧
    (exec (.mfsr d 0x050) s = .next (s.now.wrote 1 [] d (BitVec.ofNat 64 s.now.time)) ∧ s.time ≤ s.now.time) ∧
    (s.me.mode = .s →
      gives 0x011 (s.me.hvl.zeroExtend 64) ∧ gives 0x012 (s.me.hvtype.zeroExtend 64) ∧ gives 0x013 (s.me.hvstart.zeroExtend 64) ∧
      gives 0x020 (s.me.tcause.zeroExtend 64) ∧ gives 0x021 s.me.tpc ∧ gives 0x022 s.me.tval ∧ gives 0x023 s.me.tvec ∧
      gives 0x024 (s.me.tstat.zeroExtend 64)) ∧
    (s.me.mode = .u → ∀ num ∈ ([0x011, 0x012, 0x013, 0x020, 0x021, 0x022, 0x023, 0x024] : List (BitVec 12)),
      exec (.mfsr d num) s = s.trap (.plain 0x08 s.insWord)) ∧
    (∀ num : BitVec 12, srAccess num.toNat = none → exec (.mfsr d num) s = s.trap (.plain 0x01 s.insWord))) ∧
  (∀ (s : State) (a : Reg), s.Issues .both 1 [a] [] →
    let v := s.arg [a] 0
    let p := s.popped [a]
    let sets (num : BitVec 12) (m : Strm) : Prop := exec (.mtsr a num) s = .next (State.retire { p with me := m } 1)
    let legal := ¬ (5 ≤ (v.setWidth 21).toNat / 2 ^ 18 ∨ (v.setWidth 21).toNat / 2 ^ 16 % 4 = 3)
    (∃ vl : BitVec 15, vl.toNat = min v.toNat (16384 / 2 ^ s.hart.lph.toNat) ∧ sets 0x001 { s.me with vl := vl } ∧
      (s.me.mode = .s → sets 0x011 { s.me with hvl := vl })) ∧
    (legal → sets 0x002 { s.me with vtype := v.setWidth 21 } ∧ (s.me.mode = .s → sets 0x012 { s.me with hvtype := v.setWidth 21 })) ∧
    (¬ legal → exec (.mtsr a 0x002) s = s.trap (.plain 0x0E (s.me.vtype.zeroExtend 64))) ∧
    sets 0x003 { s.me with vstart := v.setWidth 14 } ∧
    (∃ st : BitVec 5, sets 0x004 { s.me with vstat := st } ∧ st.getLsbD 0 = v.getLsbD 0 ∧
      st.getLsbD 3 = s.me.vstat.getLsbD 3 ∧ ∀ i, i = 1 ∨ i = 2 ∨ i = 4 → st.getLsbD i = (s.me.vstat.getLsbD i && !v.getLsbD i)) ∧
    (s.me.mode = .s →
      sets 0x013 { s.me with hvstart := v.setWidth 14 } ∧ sets 0x021 { s.me with tpc := v &&& ~~~3 } ∧
      sets 0x023 { s.me with tvec := v &&& ~~~0x3F } ∧
      sets 0x024 { s.me with tstat := (s.me.tstat &&& 0xFFFE) ||| (v.setWidth 16 &&& 1) } ∧
      sets 0x020 s.me ∧ sets 0x022 s.me) ∧
    (s.me.mode = .u → ∀ num ∈ ([0x011, 0x012, 0x013, 0x020, 0x021, 0x022, 0x023, 0x024] : List (BitVec 12)),
      exec (.mtsr a num) s = s.trap (.plain 0x08 s.insWord)) ∧
    (∀ num ∈ ([0x050, 0x060, 0x061, 0x062, 0x063, 0x064, 0x070, 0x080] : List (BitVec 12)), sets num s.me) ∧
    (∀ ch : Fin 8, sets (BitVec.ofNat 12 (0x040 + ch)) s.me) ∧
    (s.me.mode = .u ∨ s.hart.mq = [] ∨ s.hart.mhalt = none → sets 0x030 s.me) ∧
    (s.me.mode = .s → s.hart.mq ≠ [] → s.hart.mhalt ≠ none →
      exec (.mtsr a 0x030) s = .next (State.retire { p with hart := { p.hart with mprog := v.toNat % 2 ^ 32 } } 1)) ∧
    (∃ t : State, exec (.mtsr a 0x048) s = .next (t.retire 1) ∧ t = { p with core := { p.core with chans := t.core.chans } } ∧
      ∀ ch : Fin 8,
        let c := s.core.chans[ch]
        let one (i : Nat) : Bool := v.getLsbD (8 * ch.val + i)
        t.core.chans[ch] = { c with
          flt := c.flt && !one 1, oob := if one 2 then none else c.oob, rperr := if one 3 then none else c.rperr
          abt := if one 4 then none else c.abt }) ∧
    (∀ num : BitVec 12, srAccess num.toNat = none → exec (.mtsr a num) s = s.trap (.plain 0x01 s.insWord)))

/-- R137, R288, R291, R292, R295: launch, its earlier copy commands done and its descriptor read: a full inlet answers code 1. A descriptor with a
reserved bit or a field out of range answers code 2, as does one whose dependence counter cannot be read. A descriptor in range whose team
fits no aligned block of unremoved cores of any cluster of the partition, or whose die holds none, answers code 3. Otherwise a local grid is
listed with the caller's VD and priority limits, Ready if it has no counter or one at or below 0 and else Pending, and its new GRIDID is the
result; while the VD is mitten or waking, or earlier submissions are held, the submission is held in the inlet and the stream waits; a remote
launch is sent and its stream waits for the answer (R293). R138, R318: signal adds S[B] to the doubleword at its home after a release at
system scope and writes no register; a poisoned line is left as it is and reported. The order of refusals and what a remote launch leaves
are the model's reading (log 40, log 41). -/
def Obligations.LaunchAndSignalResults : Prop :=
  (∀ (s : State) (d a : Reg) (v : Vd), s.Issues .both 1 [a] [d] →
    let at_ := (s.arg [a] 0).toNat
    let s2 := (s.popped [a]).release .module
    (at_ % 64 ≠ 0 → exec (.launch d a) s = s.trap (.addr 0x06 (s.arg [a] 0) .read)) ∧
    (at_ % 64 = 0 → s.orderWaits true false .module = none → s.vd? = some v →
      ∀ raw s3, s2.readLaunch at_ = .ok (.ok raw, s3) →
        let bits (i : Fin 16) (lo n : Nat) : Nat := raw[i].toNat / 2 ^ lo % 2 ^ n
        let n := 2 ^ bits 2 8 2
        let counter (x : Word) : Prop := x.toNat % 8 = 0 ∧ x.toNat < 0xFFFFFFFF00000000 ∧ ¬ (0xFFFFFFFE00000000 ≤ x.toNat ∧ x.toNat < 0xFFFFFFFE00080000)
        let remote := bits 8 3 1 = 1
        let pinned := bits 8 2 1 = 1
        let inRange : Prop :=
          bits 1 33 31 = 0 ∧ bits 2 30 34 = 0 ∧ bits 2 27 1 = 0 ∧ bits 2 10 6 = 0 ∧ bits 2 7 1 = 0 ∧ bits 8 48 16 = 0 ∧ bits 9 10 54 = 0 ∧
          (∀ i : Fin 16, 10 ≤ i.val → raw[i] = 0) ∧
          raw[0].toNat % 64 = 0 ∧ (raw[0].toNat < 2 ^ 56 ∨ 2 ^ 64 - 2 ^ 56 ≤ raw[0].toNat) ∧
          1 ≤ bits 1 0 33 ∧ bits 1 0 33 ≤ 2 ^ 32 ∧ 1 ≤ bits 2 0 7 ∧ bits 2 0 7 ≤ 8 * n ∧ bits 2 16 7 ≤ 64 / n ∧ counter raw[3] ∧ counter raw[4] ∧
          (¬ pinned → bits 8 0 2 = 0) ∧ (¬ remote → bits 8 12 20 = 0 ∧ bits 8 4 8 = 0) ∧
          (remote → ∃ x, v.epConfig (BitVec.ofNat 8 (bits 8 4 8)) = some x ∧ x.node = bits 8 12 20)
        let value := (s3.readCounter v.id raw[3]).1
        let m := (bits 2 0 7 + n - 1) / n
        let fits (cl : Nat) : Prop :=
          ∃ k b, m ≤ 2 ^ k ∧ (k = 0 ∨ 2 ^ (k - 1) < m) ∧ (b + 1) * 2 ^ k ≤ 8 ∧ ∀ i < m, cl * 8 + b * 2 ^ k + i ∉ s3.removed
        let shape : Prop :=
          (∃ cl ∈ s3.partClusters v, fits cl) ∧ (pinned → ∃ cl ∈ s3.partClusters v, cl / 64 = bits 8 0 2)
        let prio := if s.me.mode = .u then
          min (bits 2 24 3) (match s.findGrid s.hart.vd.toNat s.hart.grid.toNat with | some g => g.prio | none => 0) else bits 2 24 3
        let answer (w : Word) : Prop := exec (.launch d a) s = .next ((s3.wr d w).retire 1)
        (256 ≤ v.inlet.length → answer 0x8000000000000001) ∧
        (v.inlet.length < 256 → s3.counterWaits v.id raw s.arrival = none →
          (¬ inRange → answer 0x8000000000000002) ∧
          (inRange → ¬ remote → raw[3] ≠ 0 → value = none → answer 0x8000000000000002) ∧
          (inRange → ¬ remote → (raw[3] ≠ 0 → value ≠ none) → ¬ shape → answer 0x8000000000000003) ∧
          (inRange → ¬ remote → (raw[3] ≠ 0 → value ≠ none) → shape →
            (v.st ≠ .mitten → v.st ≠ .waking → v.inlet = [] →
              ∃ (gid : Nat) (t : State) (g : Grid), exec (.launch d a) s = .next ((t.wr d (BitVec.ofNat 64 gid)).retire 1) ∧
                t.grids = s3.grids ++ [g] ∧ g.vd = v.id ∧ g.gid = gid ∧ g.prio = prio ∧ g.descVa = s.arg [a] 0 ∧
                fld g.desc[9] 0 10 = v.id % 1024 ∧ g.ended = 0 ∧
                g.st = (if raw[3] = 0 ∨ ∃ x, value = some x ∧ x ≤ 0 then GridState.ready else .pending) ∧
                (s3.grids.length + 2 ≤ 2 ^ 32 → gid ≠ 0 ∧ gid < 2 ^ 32 ∧ ∀ y ∈ s3.grids, y.vd = v.id → y.gid ≠ gid) ∧
                t.me = s3.me ∧ t.hart = s3.hart ∧
                (∀ x, t.mem.get x ≠ s3.mem.get x → ∃ l, s3.walkVd v.id raw[3].toNat = .ok l ∧ l.addr ≤ x ∧ x < l.addr + 8)) ∧
            (v.st = .mitten ∨ v.st = .waking ∨ v.inlet ≠ [] → ∃ (t : State) (u : Submission), exec (.launch d a) s = t.suspend (.inlet d) ∧
              t.me = s3.me ∧ t.hart = (s3.reserve d).hart ∧ t.grids = s3.grids ∧ u.va = s.arg [a] 0 ∧ u.prio = prio ∧
              u.asker = some (s.key, s.hartIx, s.isE) ∧
              ∀ w, s3.findVd v.id = some w → t.findVd v.id = some { w with inlet := w.inlet ++ [u] })) ∧
          (inRange → remote → ∃ (t : State) (desc : Vector Word 16), exec (.launch d a) s = t.suspend (.answer d) ∧
            t.out = s3.out ++ [.remoteLaunch (BitVec.ofNat 8 (bits 8 4 8)) desc] ∧ (∀ i : Fin 16, i ≠ 2 → i ≠ 9 → desc[i] = raw[i]) ∧
            t.me = s3.me ∧ t.hart = (s3.reserve d).hart ∧ t.mem = s3.mem)))) ∧
  (∀ (s : State) (a b : Reg), s.Issues .both 1 [a, b] [] →
    let va := (s.arg [a, b] 0).toNat
    (va % 8 ≠ 0 → exec (.signal a b) s = s.trap (.addr 0x06 (s.arg [a, b] 0) .atomic)) ∧
    (va % 8 = 0 → va < 0xFFFFFFFF00000000 → ¬ (0xFFFFFFFE00000000 ≤ va ∧ va < 0xFFFFFFFE00080000) → s.interlocked va 8 true = false →
      (s.popped [a, b]).walkWaits va .atomic s.user = none → s.orderWaits true false .sys = none →
      ∀ pa pte s2, (s.popped [a, b]).translate va .atomic s.user false = .ok (pa, pte, s2) → s2.controlOf pa pte = none →
        s2.mustWait pa 8 = none →
        let r := (s2.counted pa 8).release .sys
        (r.poisoned pa 8 = true → exec (.signal a b) s = .next ((r.reportPoison pa).retire 1)) ∧
        (r.poisoned pa 8 = false → pa % 8 = 0 → s.LinesOnce →
          ∃ t : State, exec (.signal a b) s = .next (t.retire 1) ∧ t.me = s.me ∧ t.hart = (s.popped [a, b]).hart ∧
            t.mem.rd pa 8 = (r.mem.rd pa 8 + (s.arg [a, b] 1).toNat) % 2 ^ 64 ∧
            ∀ x, ¬ (pa ≤ x ∧ x < pa + 8) → t.mem.get x = r.mem.get x)))

-- Synchronisation

/-- R42, R161, R162: without the team's declaration every instruction of the communication file raises "protection", after the direction of a
queue is checked (R92). With it, semtas sets a
clear bit that no other stream was promised, and otherwise waits in order of request; semtry answers 0 with the bit set or 1; semclr clears
after its release; crd and cwr read and write the communication words. That a promised bit counts as set is the model's reading (log 31). -/
def Obligations.CommunicationFileResults : Prop :=
  ∀ (s : State) (c : Scope) (n : BitVec 6) (d a : Reg),
    let f := s.clus.comm
    let comm (s : State) (f : CommFile) : State := { s with clus := { s.clus with comm := f } }
    let sem := f.sems[n.toNat]
    let waiting := f.semq.filter (fun x => x.1 = n)
    (s.Fits .both 1 → s.hart.cf = false →
      (∀ i ∈ [Instr.semtas c n, .semclr c n, .tbar c], exec i s = s.trap (.plain 0x08 s.insWord)) ∧
      (pushOk s.isE d = true → ∀ i ∈ [Instr.semtry c n d, .crd n d], exec i s = s.trap (.plain 0x08 s.insWord)) ∧
      (pushOk s.isE d = false → ∀ i ∈ [Instr.semtry c n d, .crd n d], exec i s = s.trap (.plain 0x02 s.insWord)) ∧
      (popOk s.isE a = true → exec (.cwr n a) s = s.trap (.plain 0x08 s.insWord)) ∧
      (popOk s.isE a = false → exec (.cwr n a) s = s.trap (.plain 0x02 s.insWord))) ∧
    (s.Fits .both 1 → s.hart.cf = true →
      (sem = false → (waiting = [] ∨ waiting.head? = some (n, s.streamId)) → s.orderWaits false true c = none →
        exec (.semtas c n) s = .next (((comm s
          { f with sems := f.sems.set n.toNat true, semq := f.semq.filter (· ≠ (n, s.streamId)) }).acquire c).retire 1)) ∧
      (sem = true ∨ (∃ x, waiting.head? = some x ∧ x.2 ≠ s.streamId) → ∃ q, exec (.semtas c n) s = (comm s { f with semq := q }).stall .sync ∧
        (n, s.streamId) ∈ q ∧ ((n, s.streamId) ∉ f.semq → q = f.semq ++ [(n, s.streamId)]) ∧ ((n, s.streamId) ∈ f.semq → q = f.semq)) ∧
      (s.copiesOutstanding = true → exec (.semclr c n) s = s.stall .channel) ∧
      (s.orderWaits true false c = none → exec (.semclr c n) s =
        .next ((comm (s.release c) { f with sems := f.sems.set n.toNat false }).retire 1))) ∧
    (s.Issues .both 1 [] [d] → s.hart.cf = true →
      exec (.crd n d) s = .next (s.wrote 1 [] d f.cws[n.toNat]) ∧
      (sem = true ∨ waiting ≠ [] → exec (.semtry c n d) s = .next (s.wrote 1 [] d 1)) ∧
      (sem = false → waiting = [] → s.orderWaits false true c = none → exec (.semtry c n d) s =
        .next ((((comm s { f with sems := f.sems.set n.toNat true }).wr d 0).acquire c).retire 1))) ∧
    (s.Issues .both 1 [a] [] → s.hart.cf = true →
      exec (.cwr n a) s = .next ((comm (s.popped [a]) { f with cws := f.cws.set n.toNat (s.arg [a] 0) }).retire 1))

/-- R163: tbar arrives after its release; the last stream of the team still running completes the episode and goes on with its acquire, an earlier
one waits; a stream whose episode is complete goes on; a second tbar of a stream that has arrived and abandoned no wait is illegal. R164 to R168:
bexp posts bytes expected, barv counts bytes arrived, each completing the phase at once where it is posted, met, and no command tagged with it has
bytes to deliver; bwait reads whether its phase is over, or overrun, and waits otherwise. That the posted count never wraps is the model's reading
(log 92). -/
def Obligations.BarrierResults : Prop :=
  (∀ (s : State) (c : Scope), s.Fits .both 1 → s.hart.cf = true →
    let f := s.clus.comm
    let comm (s : State) (f : CommFile) : State := { s with clus := { s.clus with comm := f } }
    let arrive (s : State) (g : Option Nat) : State := { s with me := { s.me with arrive := g } }
    (s.me.arrive = none → s.streamId ∈ f.arrived → exec (.tbar c) s = s.trap (.plain 0x01 s.insWord)) ∧
    (s.me.arrive = none → s.streamId ∉ f.arrived → s.copiesOutstanding = true → exec (.tbar c) s = s.stall .channel) ∧
    (s.me.arrive = none → s.orderWaits true false c = none → s.streamId ∉ f.arrived →
      let r := s.release c
      let all := f.arrived ++ [s.streamId]
      let complete := ∀ x ∈ s.ctx :: s.parked, x.hart.live = true → x.key = s.key →
        (x.a.stopped = true ∨ ⟨x.hart.id, false⟩ ∈ all) ∧ (x.e.stopped = true ∨ ⟨x.hart.id, true⟩ ∈ all)
      (complete → exec (.tbar c) s =
        .next (((arrive (comm r { f with gen := f.gen + 1, arrived := [] }) none).acquire c).retire 1)) ∧
      (¬ complete → exec (.tbar c) s = (arrive (comm r { f with arrived := all }) (some f.gen)).stall .sync)) ∧
    (∀ g, s.me.arrive = some g →
      (f.gen ≠ g → s.orderWaits false true c = none → exec (.tbar c) s = .next (((arrive s none).acquire c).retire 1)) ∧
      (f.gen = g → exec (.tbar c) s = (arrive s (some g)).stall .sync))) ∧
  (∀ (s : State) (c : Scope) (n : BitVec 4) (d a : Reg),
    let b := s.core.tbs[n.toNat]
    let tagged : Prop := ∃ i : Fin 8, ∃ q ∈ s.core.chans[i].queue, q.tb = n ∧ q.phase = b.phase ∧ (q.more = true ∨ q.credited < q.counted)
    let becomes (t p : State) (x : Barrier) : Prop :=
      t = { p with core := { p.core with tbs := t.core.tbs } } ∧ (∀ i : Fin 16, i.val ≠ n.toNat → t.core.tbs[i] = p.core.tbs[i]) ∧
      ((x.posted = true ∧ x.arrived.toInt = x.expected ∧ ¬ tagged) →
        t.core.tbs[n.toNat] = { phase := !x.phase, posted := false, expected := 0, arrived := 0 }) ∧
      (¬ (x.posted = true ∧ x.arrived.toInt = x.expected ∧ ¬ tagged) → t.core.tbs[n.toNat] = x)
    let v := s.arg [a] 0
    (s.Issues .aOnly 1 [a] [] →
      (2 ^ 39 ≤ v.toNat → exec (.bexp n a) s = s.trap (.plain 0x01 s.insWord)) ∧
      (v.toNat < 2 ^ 39 → ∃ t : State, exec (.bexp n a) s = .next (t.retire 1) ∧
        becomes t (s.popped [a]) { b with posted := true, expected := b.expected + v.toNat })) ∧
    (s.Issues .both 1 [a] [] →
      (v.toInt < -2 ^ 39 ∨ 2 ^ 39 ≤ v.toInt → exec (.barv c n a) s = s.trap (.plain 0x01 s.insWord)) ∧
      (-2 ^ 39 ≤ v.toInt → v.toInt < 2 ^ 39 → s.orderWaits true false c = none → ∃ t : State, exec (.barv c n a) s = .next (t.retire 1) ∧
        becomes t ((s.popped [a]).release c) { b with arrived := b.arrived + BitVec.ofInt 40 v.toInt })) ∧
    (s.Issues .both 1 [a] [d] →
      (b.phase ≠ v.getLsbD 0 → s.orderWaits false true c = none → exec (.bwait c n d a) s = .next ((((s.popped [a]).wr d 0).acquire c).retire 1)) ∧
      (b.phase = v.getLsbD 0 → (b.posted = true ∧ ¬ tagged ∧ (b.expected : Int) < b.arrived.toInt) →
        exec (.bwait c n d a) s = .next (s.wrote 1 [a] d 1)) ∧
      (b.phase = v.getLsbD 0 → ¬ (b.posted = true ∧ ¬ tagged ∧ (b.expected : Int) < b.arrived.toInt) →
        exec (.bwait c n d a) s = s.stall .sync)))

-- Lanes and vector memory

/-- R172, R181 to R186, R194 to R196: the elementwise instructions give every active lane of D the exact result of its lanes of the sources,
saturated and reduced to D's width, and change nothing else: not the other lanes, nor what the frame names. R23, R130, R174, R178, R179: on
the lanes a width that the entry refuses raises "width error" with the VTYPE in effect; a source that is not FULL is waited for, as are busy
lanes and a destination that a matrix operation has yet to consume. R179: rows that a transpose of the copy engine is still writing read as they
stood before its write. That D is written at issue is the model's reading (log 14). -/
def Obligations.LaneArithmeticResults : Prop :=
  (∀ (s : State) (cb ca : Bool) (k : BitVec 3) (d a b : Reg) (op : LogOp) (n : BitVec 5),
    let A : VSrc := ⟨a, s.me.wA, ca⟩
    let B : VSrc := ⟨b, s.me.wB, cb⟩
    let D := some (d, s.me.wD)
    let h := s.laneHart
    let x (e : Nat) := h.value a s.me.wA s.me.sA e
    let y (e : Nat) := h.value b s.me.wB s.me.sB e
    let z (e : Nat) := h.value d s.me.wD s.me.sD e
    let p (e : Nat) := h.elem a s.me.wA e
    let q (e : Nat) := h.elem b s.me.wB e
    let lanes (i : Instr) (r : LaneReq) (srcs : List Reg) (on : Nat → Prop) (f : Nat → Nat) (sat : Nat → Prop) : Prop :=
      s.LaneIssues r srcs [] → ∃ t : State, exec i s = .next (t.retire 1) ∧ (s.popped srcs).LaneFrame t r 0 ∧
        (∀ e, on e → t.hart.elem d s.me.wD e = f e) ∧ (∀ e, ¬ on e → t.hart.elem d s.me.wD e = s.hart.elem d s.me.wD e) ∧
        (t.me.vstat.getLsbD 4 = true ↔ s.me.vstat.getLsbD 4 = true ∨ ∃ e, on e ∧ sat e)
    let nums (i : Instr) (r : LaneReq) (srcs : List Reg) (on : Nat → Prop) (f : Nat → Int) : Prop :=
      lanes i r srcs on (fun e => s.fits (f e)) (fun e => s.satValue (f e) ≠ f e)
    let two (i : Instr) (f : Nat → Int) : Prop := nums i ⟨[A, B], D, true, 0⟩ [] (s.active k) f
    let one (i : Instr) (f : Nat → Int) : Prop := nums i ⟨[A], D, true, 0⟩ [] (s.active k) f
    two (.vadd cb ca k d a b) (fun e => x e + y e) ∧ two (.vsub cb ca k d a b) (fun e => x e - y e) ∧
    two (.vmul cb ca k d a b) (fun e => x e * y e) ∧ two (.vmin cb ca k d a b) (fun e => min (x e) (y e)) ∧
    two (.vmax cb ca k d a b) (fun e => max (x e) (y e)) ∧
    nums (.vmac cb ca k d a b) ⟨[A, B, ⟨d, s.me.wD, false⟩], D, true, 0⟩ [] (s.active k) (fun e => z e + x e * y e) ∧
    one (.vneg ca k d a) (fun e => -x e) ∧ one (.vabs ca k d a) (fun e => max (x e) (-x e)) ∧ one (.vmv ca k d a) x ∧
    (s.me.wB ≤ 6 → two (.vshl cb ca k d a b) (fun e => x e * 2 ^ q e) ∧ two (.vshr cb ca k d a b) (fun e => (p e / 2 ^ q e : Nat)) ∧
      two (.vsar cb ca k d a b) (fun e => x e / 2 ^ q e)) ∧
    lanes (.vlog op cb ca k d a b) ⟨[A, B], D, true, 0⟩ [] (s.active k) (fun e =>
      let u := BitVec.ofInt s.me.wD (x e)
      let v := BitVec.ofInt s.me.wD (y e)
      (match op with
        | .and => u &&& v
        | .or => u ||| v
        | .xor => u ^^^ v
        | .andn => u &&& ~~~v
        | .orn => u ||| ~~~v
        | .xnor => ~~~(u ^^^ v)).toNat) (fun _ => False) ∧
    nums (.vsel cb ca k d a b) ⟨[A, B], D, true, 0⟩ [] (fun e => s.me.vstart.toNat ≤ e ∧ e < s.me.vl.toNat)
      (fun e => if s.hart.mask k e then x e else y e) ∧
    nums (.vbc k d a) ⟨[], D, true, 0⟩ [a] (s.active k)
      (fun _ => if s.me.sA then (s.arg [a] 0).toInt else (s.arg [a] 0).toNat) ∧
    nums (.vid k d) ⟨[], D, true, 0⟩ [] (s.active k) (fun e => e) ∧
    (∃ lz : Nat → Nat, (∀ e, lz e ≤ s.me.wA ∧ p e < 2 ^ (s.me.wA - lz e) ∧ (lz e < s.me.wA → (p e).testBit (s.me.wA - 1 - lz e) = true)) ∧
      one (.vclz ca k d a) (fun e => lz e)) ∧
    (∃ rd : Nat → Int, (∀ e, 2 * (x e - rd e * 2 ^ n.toNat).natAbs ≤ 2 ^ n.toNat ∧
        (2 * (x e - rd e * 2 ^ n.toNat).natAbs = 2 ^ n.toNat → rd e % 2 = 0)) ∧ one (.vcvtw ca k n d a) rd) ∧
    (s.me.xf ≠ 0 → s.me.wA = mxWidth s.me.xf → one (.vxq ca k d a) (fun e => mxExpand s.me.xf (p e)))) ∧
  (∀ (s : State) (cb ca : Bool) (k : BitVec 3) (d a b : Reg), s.Fits .eOnly 1 →
    let odd (r : Reg) (w : Nat) : Prop := 16 < w ∧ r.getLsbD 0 = true
    let bad := odd a s.me.wA ∨ odd b s.me.wB ∨ odd d s.me.wD
    let srcs := (if 16 < s.me.wA then [a, a + 1] else [a]) ++ (if 16 < s.me.wB then [b, b + 1] else [b])
    let dsts := if 16 < s.me.wD then [d, d + 1] else [d]
    (bad → exec (.vadd cb ca k d a b) s = s.trap (.plain 0x0E (s.me.vtype.zeroExtend 64))) ∧
    (7 ≤ s.me.wB → exec (.vshl cb ca k d a b) s = s.trap (.plain 0x0E (s.me.vtype.zeroExtend 64))) ∧
    (¬ bad → ∀ r, srcs.find? (fun r => !s.hart.full r) = some r → exec (.vadd cb ca k d a b) s = s.stall (.presence false r)) ∧
    (¬ bad → (∀ r ∈ srcs, s.hart.full r = true) →
      (s.hart.laneBusy ≠ 0 ∨ ∃ o ∈ s.hart.mq, o.stage ≠ .consumed ∧ o.breg ∈ dsts) → exec (.vadd cb ca k d a b) s = s.stall .engine)) ∧
  (∀ s : State,
    (s.transposes = [] → s.laneHart = s.hart) ∧
    (∀ x, s.transposes = [x] → (x.rows.map (·.1)).Nodup →
      s.laneHart = { s.hart with planes := s.laneHart.planes } ∧
      ∀ i < 512, ∀ e, (s.laneHart.row i).testBit e =
        match x.rows.find? (fun y => y.1 = i) with
        | some y => if x.lanes.testBit e then y.2.testBit e else (s.hart.row i).testBit e
        | none => (s.hart.row i).testBit e))

/-- R184, R187 to R193, R197: comparisons and mask operations give lanes of a mask register; the reductions, vext and the mask counts give a
scalar; vins, the slides, vcompact, vexpand and vgred move or gather elements. SATF is set exactly where a result was clamped, and otherwise
keeps its value, as it does under the instructions of masks, bits and counts (R172). Nothing outside the frame changes. -/
def Obligations.LaneMovementResults : Prop :=
  ∀ (s : State) (cb ca : Bool) (k m ma mb : BitVec 3) (g : BitVec 3) (d a b : Reg) (c : Cond) (op : LogOp) (rop : RedOp),
    let A : VSrc := ⟨a, s.me.wA, ca⟩
    let B : VSrc := ⟨b, s.me.wB, cb⟩
    let D := some (d, s.me.wD)
    let h := s.laneHart
    let x (e : Nat) := h.value a s.me.wA s.me.sA e
    let y (e : Nat) := h.value b s.me.wB s.me.sB e
    let p (e : Nat) := h.elem a s.me.wA e
    let q (e : Nat) := h.elem b s.me.wB e
    let satf (t : State) (clamped : Prop) : Prop := t.me.vstat.getLsbD 4 = true ↔ s.me.vstat.getLsbD 4 = true ∨ clamped
    let act := (List.range s.me.vl.toNat).filter fun e => decide (s.me.vstart.toNat ≤ e) && s.hart.mask k e
    let masks (i : Instr) (r : LaneReq) (f : Nat → Bool) : Prop :=
      s.LaneIssues r [] [] → ∃ t : State, exec i s = .next (t.retire 1) ∧ s.LaneFrame t r m ∧ satf t False ∧
        ∀ e, t.hart.mask m e = if m ≠ 0 ∧ e ∈ act then f e else s.hart.mask m e
    let scalar (i : Instr) (r : LaneReq) (srcs : List Reg) (v : Word) (clamped : Prop) : Prop :=
      s.LaneIssues r srcs [d] → ∃ t : State, exec i s = .next (t.retire 1) ∧
        ∃ u : State, (s.popped srcs).LaneFrame u r 0 ∧ satf u clamped ∧ t = u.wr d v
    let fitted (i : Instr) (r : LaneReq) (v : Int) : Prop := scalar i r [] (s.fitsScalar v) (s.satValue v ≠ v)
    let elems (i : Instr) (r : LaneReq) (srcs : List Reg) (f : Nat → Option Int) : Prop :=
      s.LaneIssues r srcs [] → ∃ t : State, exec i s = .next (t.retire 1) ∧ (s.popped srcs).LaneFrame t r 0 ∧
        satf t (∃ e v, f e = some v ∧ s.satValue v ≠ v) ∧
        ∀ e, t.hart.elem d s.me.wD e = match f e with | some v => s.fits v | none => s.hart.elem d s.me.wD e
    let red (es : List Nat) : Int := match rop with
      | .sum => (es.map x).sum
      | .max => es.foldl (fun v e => max v (x e)) (if s.me.sA then -2 ^ (s.me.wA - 1) else 0)
      | .min => es.foldl (fun v e => min v (x e)) (if s.me.sA then 2 ^ (s.me.wA - 1) - 1 else 2 ^ s.me.wA - 1)
      | .maxu => (es.foldl (fun v e => max v (p e)) 0 : Nat)
      | .minu => (es.foldl (fun v e => min v (p e)) (2 ^ s.me.wA - 1) : Nat)
      | .or => let v := es.foldl (fun v e => v ||| BitVec.ofNat s.me.wA (p e)) 0; if s.me.sA then v.toInt else v.toNat
      | .and => let v := es.foldl (fun v e => v &&& BitVec.ofNat s.me.wA (p e)) (-1); if s.me.sA then v.toInt else v.toNat
    masks (.vcmp c cb ca k m a b) ⟨[A, B], none, true, 0⟩ (fun e => match c with
      | .eq => x e == y e | .ne => x e != y e | .lt => decide (x e < y e) | .ge => decide (y e ≤ x e)
      | .ltu => decide (p e < q e) | .geu => decide (q e ≤ p e)) ∧
    masks (.vmlog op k m ma mb) ⟨[], none, true, 0⟩ (fun e =>
      let u := s.hart.mask ma e
      let v := s.hart.mask mb e
      match op with | .and => u && v | .or => u || v | .xor => u != v | .andn => u && !v | .orn => u || !v | .xnor => u == v) ∧
    scalar (.vmpop k d ma) ⟨[], none, true, 0⟩ [] (BitVec.ofNat 64 (act.filter (s.hart.mask ma)).length) False ∧
    scalar (.vmfirst k d ma) ⟨[], none, true, 0⟩ [] (match act.find? (s.hart.mask ma) with | some e => BitVec.ofNat 64 e | none => -1) False ∧
    fitted (.vdot cb ca k d a b) ⟨[A, B], none, true, 0⟩ ((act.map fun e => x e * y e).sum) ∧
    fitted (.vred rop ca k d a) ⟨[A], none, true, 0⟩ (red act) ∧
    scalar (.vext ca d a b) ⟨[A], none, true, 0⟩ [b] (if (s.arg [b] 0).toNat < 16384 / 2 ^ s.hart.lph.toNat then
      (BitVec.ofInt 64 (x (s.arg [b] 0).toNat)) else 0) False ∧
    scalar (.vzp ca d a) ⟨[⟨a, 16, ca⟩], none, true, 0⟩ [] (BitVec.ofNat 64
      ((List.range 16).map fun i => if h.row (16 * a.toNat + i) = 0 then 2 ^ i else 0).sum) False ∧
    elems (.vins d a b) ⟨[], D, true, 0⟩ [a, b] (fun e => if e = (s.arg [a, b] 1).toNat ∧ e < 16384 / 2 ^ s.hart.lph.toNat then
      some (if s.me.sA then (s.arg [a, b] 0).toInt else (s.arg [a, b] 0).toNat) else none) ∧
    elems (.vslide true ca k d a b) ⟨[A], D, true, 0⟩ [b] (fun e =>
      if e ∈ act ∧ (s.arg [b] 0).toNat ≤ e then some (x (e - (s.arg [b] 0).toNat)) else none) ∧
    elems (.vslide false ca k d a b) ⟨[A], D, true, 0⟩ [b] (fun e =>
      if e ∈ act then some (if e + (s.arg [b] 0).toNat < s.me.vl.toNat then x (e + (s.arg [b] 0).toNat) else 0) else none) ∧
    elems (.vcompact ca k d a) ⟨[A], D, true, 0⟩ [] (fun e => (act[e]?).map x) ∧
    elems (.vexpand ca k d a) ⟨[A], D, true, 0⟩ [] (fun e => if e ∈ act then some (x (act.idxOf e)) else none) ∧
    elems (.vgred rop ca k g d a) ⟨[A], D, true, 0⟩ [] (fun i =>
      if s.me.vstart.toNat < s.me.vl.toNat ∧ i * 2 ^ (g.toNat + 3) < s.me.vl.toNat then
        some (red (act.filter fun e => decide (e / 2 ^ (g.toNat + 3) = i))) else none)

/-- R198 to R206: where every active element's access is allowed, vld, vlds, vldx and vldff read them in ascending order, write each, extended
as the access says and reduced to D's width, into its lane, and leave a load of D outstanding; VSTART is 0. Other lanes and rows, the
scalars and the queues but for the sources are as they were. R203: a vld whose element e is the first to fail has written the elements
before it with their values, sets VSTART to e, pops nothing, and takes the trap of that element's access. R206: a vldff that has loaded an
element before it instead keeps the elements loaded and ends at e: VL becomes e, FFS is set, no trap. What kf holds after an element of a
vldff has faulted is free (log 71). The ascending order without .ord is the model's choice (log 13). -/
def Obligations.VectorLoadResults : Prop :=
  (∀ (s : State) (ord u : Bool) (z : Size) (cb : Bool) (k : BitVec 3) (d a b : Reg) (disp : W32),
    let n := sizeBytes z
    let val (x : Nat) : Int := if u then x else (BitVec.ofNat (8 * n) x).toInt
    let loads (i : Instr) (srcs idx eaten : List Reg) (lanes : List Nat) (ea : Nat → Word) (st : Strm → BitVec 5 → Prop) : Prop :=
      s.VecIssues true d idx srcs → ∀ vs s2, ReadsElems ea n lanes (s.popped srcs) vs s2 →
        (∀ x, s.hart.live = true → s.hart.laneBad = [x] → rowsHold (idx.map fun r => ⟨r, s.me.wB, false⟩) x = true →
          (∃ e ∈ lanes, e / 64 = x % 16384 / 64) →
          ∃ t : State, exec i s = .next (t.retire 2) ∧ t.hart.tests = s.hart.tests ++ [x % 16384]) ∧
        (s.hart.badRow (idx.map fun r => ⟨r, s.me.wB, false⟩) = none →
        ∃ t : State, exec i s = .next (t.retire 2) ∧
          (∀ x ∈ vs, t.hart.elem d s.me.wD x.1 = s.fits (val x.2)) ∧
          (∀ e, e ∉ lanes → t.hart.elem d s.me.wD e = s.hart.elem d s.me.wD e) ∧
          (∀ i (h : i < 512), ¬ (16 * d.toNat ≤ i ∧ i < 16 * d.toNat + s.me.wD) → t.hart.planes[i] = s.hart.planes[i]) ∧
          (∀ r, t.hart.full r = (s.hart.full r && !decide (r ∈ eaten))) ∧
          t.hart.vloads = s.hart.vloads ++ [⟨d, decide (16 < s.me.wD)⟩] ∧ t.mem = s2.mem ∧
          t.core = { s2.core with chans := t.core.chans } ∧ s2.ChansKept t ∧
          t.me = { s.me with vstart := 0, vstat := t.me.vstat } ∧ st s.me t.me.vstat ∧
          (t.me.vstat.getLsbD 4 = true ↔ s.me.vstat.getLsbD 4 = true ∨ ∃ x ∈ vs, s.satValue (val x.2) ≠ val x.2) ∧
          t.hart.queues = (s.popped srcs).hart.queues ∧ t.hart.wregs = s.hart.wregs ∧ t.hart.masks = s.hart.masks)
    let keeps (is : List Nat) (m : Strm) (v : BitVec 5) : Prop := ∀ i ∈ is, v.getLsbD i = m.vstat.getLsbD i
    let acts := (List.range s.me.vl.toNat).filter fun e => decide (s.me.vstart.toNat ≤ e) && s.hart.mask k e
    let gath := if s.me.resume then (List.range s.me.vl.toNat).filter fun e => decide (s.me.vstart.toNat ≤ e) && s.hart.kf.testBit e else acts
    let base (srcs : List Reg) : Word := s.arg srcs 0 + disp.signExtend 64
    loads (.vld ord u z k d a disp) [a] [] [] acts (fun e => base [a] + BitVec.ofNat 64 (e * n)) (keeps [0, 1, 2, 3]) ∧
    loads (.vlds ord u z k d a b disp) [a, b] [] [] acts (fun e => base [a, b] + BitVec.ofNat 64 e * s.arg [a, b] 1) (keeps [0, 1, 2, 3]) ∧
    loads (.vldx ord u z cb k d a b disp) [a] [b] (if cb then [b] else []) gath
      (fun e => base [a] + BitVec.ofInt 64 (s.hart.value b s.me.wB s.me.sB e * n)) (fun m v => keeps [1, 2, 3] m v ∧ v.getLsbD 0 = false) ∧
    loads (.vldff ord u z k d a disp) [a] [] [] acts (fun e => base [a] + BitVec.ofNat 64 (e * n))
      (fun m v => keeps [0, 1, 2] m v ∧ v.getLsbD 3 = false)) ∧
  (∀ (s : State) (ord u : Bool) (z : Size) (k : BitVec 3) (d a : Reg) (disp : W32), s.VecIssues true d [] [a] →
    let n := sizeBytes z
    let val (x : Nat) : Int := if u then x else (BitVec.ofNat (8 * n) x).toInt
    let acts := (List.range s.me.vl.toNat).filter fun e => decide (s.me.vstart.toNat ≤ e) && s.hart.mask k e
    let ea (e : Nat) : Word := s.arg [a] 0 + disp.signExtend 64 + BitVec.ofNat 64 (e * n)
    ∀ es e rest vs s2 tr, acts = es ++ e :: rest → ReadsElems ea n es (s.popped [a]) vs s2 → s2.findLoc (ea e).toNat n .read false = .trap tr →
      let written (t : State) : Prop := vs.map (·.1) = es ∧ (∀ x ∈ vs, t.hart.elem d s.me.wD x.1 = s.fits (val x.2)) ∧
        (∀ x, x ∉ es → t.hart.elem d s.me.wD x = s.hart.elem d s.me.wD x) ∧ t.hart.pres = s.hart.pres
      (∃ t : State, exec (.vld ord u z k d a disp) s = t.trap tr ∧ t.me.vstart.toNat = e % 2 ^ 14 ∧ t.hart.queues = s.hart.queues ∧
        written t ∧ t.hart.vloads = s.hart.vloads) ∧
      (es = [] → ∃ t : State, exec (.vldff ord u z k d a disp) s = t.trap tr ∧ t.me.vstart.toNat = e % 2 ^ 14 ∧ written t ∧
        t.hart.queues = s.hart.queues ∧ t.hart.vloads = s.hart.vloads) ∧
      (es ≠ [] → ∃ t : State, exec (.vldff ord u z k d a disp) s = .next (t.retire 2) ∧ t.me.vl = BitVec.ofNat 15 e ∧
        t.me.vstat.getLsbD 3 = true ∧ t.me.vstart = 0 ∧ written t ∧ t.hart.vloads = s.hart.vloads ++ [⟨d, decide (16 < s.me.wD)⟩]))

/-- R198 to R205, R199: where every active element's access is allowed, vst, vsts and vstx write each lane's value, reduced to the element's
size, in ascending order; memory is what these writes leave, each at the address its access gives, and no byte outside theirs changes beside
the translations' entries; consumed registers turn EMPTY, the completion is outstanding. R207: vstb writes the planes of the lanes 0 to VL −
1 one after the other as a bit string, bit p × VL + e being bit p of lane e's value reduced to the width in S[B], inactive lanes and the
bits past the end 0. A width above 32 raises "width error" with VSTART 0. R409, R411: a row word in error that a store reads is reported, and
its lane's test begins; that the store goes on is the model's reading (log 67). R205, R207: a "width error" at issue clears RESUME of a gather
or scatter and VSTART of a vstb, which R338 could be read to forbid (log 93). The ascending order without .ord is the model's choice (log 13). -/
def Obligations.VectorStoreResults : Prop :=
  (∀ (s : State) (ord : Bool) (z : Size) (cd cb : Bool) (k : BitVec 3) (d a b : Reg) (disp : W32),
    let n := sizeBytes z
    let num (e : Nat) : Int := s.hart.value d s.me.wD s.me.sD e
    let cut (x : Int) : Int := if s.satMode = 1 then max (-2 ^ (8 * n - 1)) (min (2 ^ (8 * n - 1) - 1) x)
      else if s.satMode = 2 then max 0 (min (2 ^ (8 * n) - 1) x) else x
    let pat (e : Nat) : Nat := (cut (num e) % (2 ^ (8 * n) : Nat)).toNat
    let meets (data other : List VSrc) (lanes : List Nat) (x : Nat) : Prop :=
      s.hart.laneBad = [x] ∧ rowsHold data x = true ∧ rowsHold other x = false ∧ ∃ e ∈ lanes, e / 64 = x % 16384 / 64
    let reported (s2 t : State) (x : Nat) : Prop :=
      t.hart.tests = s.hart.tests ++ [x % 16384] ∧ t.hart.planes = s.hart.planes ∧
      ∃ p : State, p.mem = s2.mem ∧ p.vds = s2.vds ∧
        t.mem = (p.event s.hart.vd.toNat 8 2 (rowWindow x)).mem ∧ t.vds = (p.event s.hart.vd.toNat 8 2 (rowWindow x)).vds
    let stores (i : Instr) (srcs idx eaten : List Reg) (lanes : List Nat) (ea : Nat → Word) : Prop :=
      s.VecIssues false d idx srcs → ∀ ls s2, WritesElems ea n pat lanes (s.popped srcs) ls s2 →
        (∀ x, s.hart.live = true → meets [⟨d, s.me.wD, false⟩] (idx.map fun r => ⟨r, s.me.wB, false⟩) lanes x →
          ∃ t : State, exec i s = .next (t.retire 2) ∧ reported s2 t x ∧ t.me.vmem = s.me.vmem ++ [⟨none, none⟩]) ∧
        (s.hart.badRow (⟨d, s.me.wD, false⟩ :: idx.map fun r => ⟨r, s.me.wB, false⟩) = none →
        ∃ t : State, exec i s = .next (t.retire 2) ∧ t.mem = s2.mem ∧ t.core = s2.core ∧ t.hart.scratch = s2.hart.scratch ∧
          t.me.vmem = s.me.vmem ++ [⟨none, none⟩] ∧ t.me.vstart = 0 ∧ t.me.regs = s.me.regs ∧ t.me.pend = s.me.pend ∧ t.me.vl = s.me.vl ∧
          t.me.vtype = s.me.vtype ∧
          (t.me.vstat.getLsbD 4 = true ↔ s.me.vstat.getLsbD 4 = true ∨ ∃ e ∈ lanes, cut (num e) ≠ num e) ∧
          (∀ r, t.hart.full r = (s.hart.full r && !decide (r ∈ eaten))) ∧ t.hart.planes = s.hart.planes ∧
          t.hart.queues = (s.popped srcs).hart.queues ∧ t.hart.wregs = s.hart.wregs ∧ t.hart.masks = s.hart.masks)
    let acts := (List.range s.me.vl.toNat).filter fun e => decide (s.me.vstart.toNat ≤ e) && s.hart.mask k e
    let gath := if s.me.resume then (List.range s.me.vl.toNat).filter fun e => decide (s.me.vstart.toNat ≤ e) && s.hart.kf.testBit e else acts
    let base (srcs : List Reg) : Word := s.arg srcs 0 + disp.signExtend 64
    let gone (c : Bool) (r : Reg) (w : Nat) : List Reg := if c then (if 16 < w then [r, r + 1] else [r]) else []
    stores (.vst ord z cd k d a disp) [a] [] (gone cd d s.me.wD) acts (fun e => base [a] + BitVec.ofNat 64 (e * n)) ∧
    stores (.vsts ord z cd k d a b disp) [a, b] [] (gone cd d s.me.wD) acts
      (fun e => base [a, b] + BitVec.ofNat 64 e * s.arg [a, b] 1) ∧
    stores (.vstx ord z cd cb k d a b disp) [a] [b] (gone cd d s.me.wD ++ gone cb b s.me.wB) gath
      (fun e => base [a] + BitVec.ofInt 64 (s.hart.value b s.me.wB s.me.sB e * n))) ∧
  (∀ (s : State) (cd : Bool) (k : BitVec 3) (d a b : Reg) (disp : W32), s.VecIssues false d [] [a, b] →
    let pw := (s.arg [a, b] 1).toNat
    let vl := s.me.vl.toNat
    let num (e : Nat) : Int := s.hart.value d s.me.wD s.me.sD e
    let cut (x : Int) : Int := if s.satMode = 1 then max (-2 ^ (pw - 1)) (min (2 ^ (pw - 1) - 1) x)
      else if s.satMode = 2 then max 0 (min (2 ^ pw - 1) x) else x
    let u (e : Nat) : Nat := if s.hart.mask k e then (cut (num e) % (2 ^ pw : Nat)).toNat else 0
    let byte (j : Nat) : Nat := ((List.range 8).map fun i =>
      if 8 * j + i < pw * vl ∧ (u ((8 * j + i) % vl)).testBit ((8 * j + i) / vl) = true then 2 ^ i else 0).sum
    let count := (pw * vl + 7) / 8
    (32 < pw → exec (.vstb cd k d a b disp) s = State.trap { s with me := { s.me with vstart := 0 } } (.plain 0x0E (s.me.vtype.zeroExtend 64))) ∧
    (pw ≤ 32 → ∀ locs s2, (s.popped [a, b]).byteLocs
        ((List.range count).map fun j => s.arg [a, b] 0 + disp.signExtend 64 + BitVec.ofNat 64 j) [] = Sum.inr (locs, s2) →
      s.hart.badRow [⟨d, s.me.wD, false⟩] = none →
      ∃ t : State, exec (.vstb cd k d a b disp) s = .next (t.retire 2) ∧ locs.length = count ∧
        t.mem = ((locs.zip (List.range count)).foldl (fun st x => st.writeLoc x.1 1 (byte x.2)) s2).mem ∧
        t.hart.scratch = ((locs.zip (List.range count)).foldl (fun st x => st.writeLoc x.1 1 (byte x.2)) s2).hart.scratch ∧
        t.me.vmem = s.me.vmem ++ [⟨none, none⟩] ∧ t.me.vstart = 0 ∧ t.me.regs = s.me.regs ∧ t.hart.planes = s.hart.planes ∧
        (∀ r, t.hart.full r = (s.hart.full r && !(cd && decide (r ∈ if 16 < s.me.wD then [d, d + 1] else [d])))))) ∧
  (∀ (s : State) (op : AmoOp) (ord u : Bool) (z : Size) (o : Order) (c : Scope) (cd cb : Bool) (k : BitVec 3) (d a b : Reg) (disp : W32),
    s.Fits .aOnly 2 → popOk s.isE a = true → popOk s.isE b = true → 16 < s.me.wD → d.getLsbD 0 = true →
    let bad (t : State) (i : Instr) : Prop := exec i s = t.trap (.plain 0x0E (s.me.vtype.zeroExtend 64))
    (∀ i ∈ [Instr.vld ord u z k d a disp, .vlds ord u z k d a b disp, .vldff ord u z k d a disp, .vst ord z cd k d a disp,
      .vsts ord z cd k d a b disp], bad s i) ∧
    (∀ i ∈ [Instr.vldx ord u z cb k d a b disp, .vstx ord z cd cb k d a b disp, .vamo op ord cd cb o c k d a b],
      bad { s with me := { s.me with vstat := s.me.vstat &&& 0b11110 } } i) ∧
    bad { s with me := { s.me with vstart := 0 } } (.vstb cd k d a b disp))

/-- R208 to R210: where every lane's word is allowed and, its line's own dirty bytes written back (R317), readable, vamo combines the data of the
lanes that name one word in a pairwise tree and applies the operation once to the word; no other byte changes but what its release writes back;
the completion, with the acquire its order asks for, is outstanding. R208, R209: the operations on 32-bit patterns, and the tree: neighbours are
combined level by level, an odd last one passing to the next level. -/
def Obligations.VectorAtomicResults : Prop :=
  (∀ x y : W32,
    let gives (op : AmoOp) (r : W32) : Prop := amo32 op x.toNat y.toNat = r.toNat
    gives .add (x + y) ∧ gives .and (x &&& y) ∧ gives .or (x ||| y) ∧ gives .xor (x ^^^ y) ∧ gives .min (if y.slt x then y else x) ∧
    gives .max (if x.slt y then y else x) ∧ gives .minu (if y.ult x then y else x) ∧ gives .maxu (if x.ult y then y else x) ∧
    amo32 .fadd x.toNat y.toNat =
      fpEncode .f32 .rne false (Fv.add .rne (fpDecode .f32 false x.toNat) (fpDecode .f32 false y.toNat))) ∧
  (∀ (f : Nat → Nat → Nat) (x : Nat) (xs : List Nat),
    let next := pairLevel f xs
    combine f 1 [x] = x ∧ (2 ≤ xs.length → combine f xs.length xs = combine f next.length next) ∧
    next.length = (xs.length + 1) / 2 ∧
    (∀ i, 2 * i + 1 < xs.length → next.getD i 0 = f (xs.getD (2 * i) 0) (xs.getD (2 * i + 1) 0)) ∧
    (∀ i, xs.length = 2 * i + 1 → next.getD i 0 = xs.getD (2 * i) 0)) ∧
  ∀ (s : State) (op : AmoOp) (ord cd cb : Bool) (o : Order) (c : Scope) (k : BitVec 3) (d a b : Reg), s.VecIssues false d [b] [a] →
    op ≠ .swap → s.orderWaits (relOf o) (acqOf o) c = none →
    let acts := (List.range s.me.vl.toNat).filter fun e => decide (s.me.vstart.toNat ≤ e) && s.hart.mask k e
    let lanes := if s.me.resume then (List.range s.me.vl.toNat).filter fun e => decide (s.me.vstart.toNat ≤ e) && s.hart.kf.testBit e else acts
    let ea (e : Nat) : Word := s.arg [a] 0 + BitVec.ofInt 64 (s.hart.value b s.me.wB s.me.sB e * 4)
    let num (e : Nat) : Int := s.hart.value d s.me.wD s.me.sD e
    let data (e : Nat) : Nat := if op = .fadd then fpEncode .f32 .rne false (Fv.ofInt (num e)) else (num e % (2 ^ 32 : Nat)).toNat
    ∀ ps s2, FindsWords ea lanes (s.popped [a]) ps s2 →
      let r := if relOf o then s2.release c else s2
      s.hart.badRow [⟨d, s.me.wD, false⟩, ⟨b, s.me.wB, false⟩] = none →
      r.LinesOnce → (∀ p ∈ ps, (r.beforeHome p.2 4).poisoned p.2 4 = false ∧ p.2 % 4 = 0) →
      ∃ t : State, exec (.vamo op ord cd cb o c k d a b) s = .next (t.retire 2) ∧
        (∀ p ∈ ps, ∃ old < 2 ^ 32, (∀ i < 4, BitVec.ofNat 8 (old / 256 ^ i) = r.homeByte (p.2 + i)) ∧
          (let xs := (ps.filter fun x => x.2 = p.2).map fun x => data x.1
           t.mem.rd p.2 4 = amo32 op old (combine (amo32 op) xs.length xs) ∧ (op = .add → t.mem.rd p.2 4 = (old + xs.sum) % 2 ^ 32))) ∧
        r.BytesKept t (fun x => ∃ p ∈ ps, p.2 ≤ x ∧ x < p.2 + 4) ∧
        t.me.vmem = s.me.vmem ++ [⟨if acqOf o then some c else none, none⟩] ∧ t.me.vstart = 0 ∧ t.me.vstat.getLsbD 0 = false ∧
        t.me.regs = s.me.regs ∧ t.hart.planes = s.hart.planes

-- Word unit and matrix engine

/-- R54, R55: an encoding that is not a NaN is decoded to a value that encodes back to it under every rounding mode; a NaN becomes the canonical
quiet NaN. R56, R57: an exact value m × 2^e between two neighbouring magnitudes of the format becomes one of them, as its rounding mode says, the
magnitude after the largest finite one standing for infinity; one at or beyond that becomes what the table of R57 gives. R58: with FZ a
subnormal result is the zero of its sign. R59: an integer is the value rounded in the same way, and then clamped. R63, R64: what an MX code
expands to. R67: the scale and the codes of a quantised block: the nearest value of the format, ties to an even code, saturated. -/
def Obligations.NumberFormatResults : Prop :=
  (∀ (f : Fmt) (rm : Rm) (x : Nat), f ≠ .i32 → x < 2 ^ fpWidth f →
    (fpDecode f false x ≠ .nan → fpEncode f rm false (fpDecode f false x) = x) ∧
    (fpDecode f false x = .nan → fpEncode f rm false (fpDecode f false x) = fpNan f)) ∧
  (∀ (f : Fmt) (rm : Rm) (m e : Int), f ≠ .i32 → m ≠ 0 →
    let frac : Nat := match f with | .f32 => 23 | .bf16 => 7 | _ => 10
    let bias : Nat := match f with | .f32 | .bf16 => 127 | _ => 15
    let width : Nat := match f with | .f32 => 31 | _ => 15
    -- the magnitude of pattern p in units of the smallest subnormal, and |m × 2^e| on the same footing
    let mag (p : Nat) : Nat := if p < 2 ^ frac then p else (2 ^ frac + p % 2 ^ frac) * 2 ^ (p / 2 ^ frac - 1)
    let low : Int := 1 - bias - frac
    let a := m.natAbs * 2 ^ (e - low).toNat
    let u := 2 ^ (low - e).toNat
    let inf := 2 ^ width - 2 ^ frac
    let sign := if m < 0 then 2 ^ width else 0
    let r := fpEncode f rm false (.fin m e)
    (∀ p < inf, mag p * u ≤ a → a < mag (p + 1) * u →
      let up : Prop := match rm with
        | .rne => (mag p + mag (p + 1)) * u < 2 * a ∨ ((mag p + mag (p + 1)) * u = 2 * a ∧ p % 2 = 1)
        | .rna => (mag p + mag (p + 1)) * u ≤ 2 * a
        | .rtz => False
        | .rdn => m < 0 ∧ mag p * u < a
        | .rup => 0 < m ∧ mag p * u < a
      (up → r = sign + p + 1) ∧ (¬ up → r = sign + p)) ∧
    (mag inf * u ≤ a → r = sign + match rm with
      | .rne | .rna => inf
      | .rtz => inf - 1
      | .rdn => if m < 0 then inf else inf - 1
      | .rup => if m < 0 then inf - 1 else inf) ∧
    fpEncode f rm true (.fin m e) = if r % 2 ^ width < 2 ^ frac then sign else r) ∧
  (∀ (rm : Rm) (lo hi : Int), lo ≤ hi →
    Fv.toInt rm lo hi .nan = 0 ∧ Fv.toInt rm lo hi (.inf false) = hi ∧ Fv.toInt rm lo hi (.inf true) = lo ∧
    (∀ b, Fv.toInt rm lo hi (.zero b) = 0) ∧
    ∀ m e : Int,
      let clamp (x : Int) : Int := max lo (min hi x)
      (0 ≤ e → Fv.toInt rm lo hi (.fin m e) = clamp (m * 2 ^ e.toNat)) ∧
      (e < 0 →
        let u : Int := 2 ^ (-e).toNat
        let r := m % u
        let up : Prop := match rm with
          | .rne => u < 2 * r ∨ (2 * r = u ∧ m / u % 2 = 1)
          | .rna => u < 2 * r ∨ (2 * r = u ∧ 0 < m)
          | .rtz => m < 0 ∧ 0 < r
          | .rdn => False
          | .rup => 0 < r
        (up → Fv.toInt rm lo hi (.fin m e) = clamp (m / u + 1)) ∧ (¬ up → Fv.toInt rm lo hi (.fin m e) = clamp (m / u)))) ∧
  (∀ m e : Nat,
    let n (bits : Nat) : Int := if e = 0 then m else (2 ^ bits + m) * 2 ^ (e - 1)
    (m < 2 → e < 4 → mxExpand 1 (e * 2 + m) = n 1 ∧ mxExpand 1 (8 + e * 2 + m) = -n 1) ∧
    (m < 8 → e < 4 → mxExpand 2 (e * 8 + m) = n 3 ∧ mxExpand 2 (32 + e * 8 + m) = -n 3) ∧
    (m < 4 → e < 8 → mxExpand 3 (e * 4 + m) = n 2 ∧ mxExpand 3 (32 + e * 4 + m) = -n 2)) ∧
  (∀ c < 256, mxExpand 4 c = (BitVec.ofNat 8 c).toInt) ∧
  (∀ (xf : Nat) (vs : List Fv), 1 ≤ xf → xf ≤ 4 → (∀ e, Fv.fin 0 e ∉ vs) →
    let emax : Int := match xf with | 1 | 2 => 2 | 3 => 4 | _ => 0
    let width : Nat := match xf with | 1 => 4 | 2 | 3 => 6 | _ => 8
    let frac : Int := match xf with | 1 => 1 | 2 => 3 | 3 => 4 | _ => 6
    let zero (neg : Bool) : Nat := if neg ∧ xf ≠ 4 then 2 ^ (width - 1) else 0
    ((.nan ∈ vs ∨ ∃ b, .inf b ∈ vs) → mxQuant xf vs = (0xFF, vs.map fun _ => 0)) ∧
    ((∀ v ∈ vs, ∃ b, v = .zero b) → mxQuant xf vs = (0, vs.map fun v => zero (v = .zero true))) ∧
    (∀ (m e : Int) (t : Nat), .nan ∉ vs → (∀ b, .inf b ∉ vs) → .fin m e ∈ vs → 2 ^ t ≤ m.natAbs → m.natAbs < 2 ^ (t + 1) →
      (∀ (m' e' : Int) (t' : Nat), .fin m' e' ∈ vs → 2 ^ t' ≤ m'.natAbs → e' + t' ≤ e + t) →
      let x : Int := max (-127) (min 127 (e + t - emax))
      (mxQuant xf vs).1 = (x + 127).toNat ∧ (mxQuant xf vs).2.length = vs.length ∧
      ∀ i < vs.length,
        let c := (mxQuant xf vs).2.getD i 0
        (∀ b, vs.getD i .nan = .zero b → c = zero b) ∧
        (∀ m e : Int, vs.getD i .nan = .fin m e →
          -- the distance of an element value from m × 2^(e − x), in a common unit
          let a : Nat := m.natAbs * 2 ^ (e - x + frac).toNat
          let u : Nat := 2 ^ (x - frac - e).toNat
          let far (k : Nat) : Nat := ((a : Int) - k * u).natAbs
          (xf ≠ 4 → ∃ k < 2 ^ (width - 1), c = k + (if m < 0 then 2 ^ (width - 1) else 0) ∧
            ∀ j < 2 ^ (width - 1), far (mxExpand xf k).natAbs ≤ far (mxExpand xf j).natAbs ∧
              (j ≠ k → far (mxExpand xf k).natAbs = far (mxExpand xf j).natAbs → k % 2 = 0)) ∧
          (xf = 4 → ∃ k : Nat, 2 * far k ≤ u ∧ (2 * far k = u → k % 2 = 0) ∧
            c = (((if m < 0 then -1 else 1) * (min 127 k : Nat) : Int) % 256).toNat))))

/-- R231, R233 to R235: each lane of D is the operation on the same lane of the sources: on integers the exact result, saturated under the
prefix and reduced to 32 bits; on FP formats the exact result rounded once under the prefix's mode; conversions, comparisons and selects as
the rule gives them. No other register changes. exp2, log2, rcp and rsqrt take FP formats: a BF16 or FP16 result is an FP32 value rounded
once, a NaN gives NaN, and the inputs of the table of R234 give its exact results; on other inputs the value is the model's wunFp of the
free value (log 16). -/
def Obligations.WordArithmeticResults : Prop :=
  ∀ (s : State) (f g : Fmt) (d a b : Reg) (c : Cond), s.WordIssues [] [] →
    let x (i : Fin 64) : W32 := s.hart.wregs[a.toNat][i]
    let y (i : Fin 64) : W32 := s.hart.wregs[b.toNat][i]
    let z (i : Fin 64) : W32 := s.hart.wregs[d.toNat][i]
    let v (w : W32) : Fv := fpDecode f s.fz w.toNat
    let ints (w : Int) : W32 := BitVec.ofInt 32 (if s.pfxSat = 1 then max (-2 ^ 31) (min (2 ^ 31 - 1) w)
      else if s.pfxSat = 2 then max 0 (min (2 ^ 32 - 1) w) else w)
    let reals (w : Fv) : W32 := BitVec.ofNat 32 (fpEncode f s.rm s.fz w)
    let gives (i : Instr) (r : Fin 64 → W32) : Prop := exec i s = .next (s.wordWrote [] d (Vector.ofFn r))
    let both (i : Instr) (p : Int → Int → Int) (q : Fv → Fv → Fv) : Prop :=
      gives i fun i => if f = .i32 then ints (p (x i).toInt (y i).toInt) else reals (q (v (x i)) (v (y i)))
    both (.wadd f d a b) (· + ·) (Fv.add s.rm) ∧ both (.wsub f d a b) (· - ·) (fun p q => Fv.add s.rm p q.negate) ∧
    both (.wmul f d a b) (· * ·) Fv.mul ∧ both (.wmin f d a b) min (Fv.minMax false) ∧ both (.wmax f d a b) max (Fv.minMax true) ∧
    gives (.wfma f d a b) (fun i => if f = .i32 then ints ((x i).toInt * (y i).toInt + (z i).toInt)
      else reals (Fv.add s.rm (Fv.mul (v (x i)) (v (y i))) (v (z i)))) ∧
    gives (.wun .abs f d a) (fun i => if f = .i32 then ints |(x i).toInt| else BitVec.ofNat 32 (fpEncode f .rne s.fz (v (x i)).absolute)) ∧
    gives (.wun .neg f d a) (fun i => if f = .i32 then ints (-(x i).toInt) else BitVec.ofNat 32 (fpEncode f .rne s.fz (v (x i)).negate)) ∧
    (f ≠ .i32 → ∀ op ∈ [WunOp.exp2, .log2, .rcp, .rsqrt], ∃ q : Fin 64 → Nat,
      gives (.wun op f d a) (fun i => BitVec.ofNat 32 (fpEncode f .rne s.fz (fpDecode .f32 false (q i)))) ∧
      ∀ i,
        let z := v (x i)
        let two (sg n : Int) : Nat := fpEncode .f32 .rne false (.fin sg n)
        q i = wunFp op (Config.wunValue (Machine.wunCode op * 4 + Machine.fmtCode f) (if f = .f32 then x i else x i &&& 0xFFFF)).toNat z ∧
        (z = .nan → q i = 0x7FC00000) ∧
        (op = .exp2 → (∀ n, z = .zero n → q i = 0x3F800000) ∧ (∀ n, z = .inf n → q i = if n then 0 else 0x7F800000) ∧
          (∀ m e n : Int, z = .fin m e → m * 2 ^ e.toNat = n * 2 ^ (-e).toNat → -149 ≤ n → n ≤ 127 → q i = two 1 n)) ∧
        (op = .log2 → (∀ n, z = .zero n → q i = 0xFF800000) ∧ (∀ n, z = .inf n → q i = if n then 0x7FC00000 else 0x7F800000) ∧
          (∀ m e : Int, z = .fin m e → m < 0 → q i = 0x7FC00000) ∧
          (∀ (k : Nat) (e : Int), z = .fin (2 ^ k : Nat) e → q i = fpEncode .f32 .rne false (Fv.ofInt (e + k)))) ∧
        (op = .rcp → (∀ n, z = .zero n → q i = if n then 0xFF800000 else 0x7F800000) ∧ (∀ n, z = .inf n → q i = if n then 0x80000000 else 0) ∧
          (∀ (sg : Int) (k : Nat) (e : Int), sg = 1 ∨ sg = -1 → z = .fin (sg * (2 ^ k : Nat)) e → -149 ≤ -(e + k) → -(e + k) ≤ 127 →
            q i = two sg (-(e + k)))) ∧
        (op = .rsqrt → (∀ n, z = .zero n → q i = if n then 0xFF800000 else 0x7F800000) ∧ (∀ n, z = .inf n → q i = if n then 0x7FC00000 else 0) ∧
          (∀ m e : Int, z = .fin m e → m < 0 → q i = 0x7FC00000) ∧
          (∀ (k : Nat) (e h : Int), z = .fin (2 ^ k : Nat) e → e + k = 2 * h → q i = two 1 (-h)))) ∧
    gives (.wcvt g f d a) (fun i => if f = .i32 then (if g = .i32 then x i else BitVec.ofNat 32 (fpEncode g s.rm s.fz (Fv.ofInt (x i).toInt)))
      else if g = .i32 then BitVec.ofInt 32 ((v (x i)).toInt s.rm (-2 ^ 31) (2 ^ 31 - 1)) else BitVec.ofNat 32 (fpEncode g s.rm s.fz (v (x i)))) ∧
    ((f = .i32 ∨ c ≠ .ltu ∧ c ≠ .geu) → gives (.wcmp c f d a b) (fun i =>
      let p := v (x i)
      let q := v (y i)
      let t : Bool := if f = .i32 then
        match c with
        | .eq => x i == y i
        | .ne => x i != y i
        | .lt => (x i).slt (y i)
        | .ge => (y i).sle (x i)
        | .ltu => (x i).ult (y i)
        | .geu => (y i).ule (x i)
        else match c with
        | .eq => p.eq q
        | .ne => !p.eq q
        | .lt => p.lt q
        | .ge => q.lt p || p.eq q
        | _ => false
      if t then 0xFFFFFFFF else 0)) ∧
    gives (.wsel d a b) (fun i => if z i ≠ 0 then x i else y i) ∧
    gives (.wperm d a b) (fun i => s.hart.wregs[a.toNat][(y i).toNat % 64]'(Nat.mod_lt _ (by decide)))

/-- R232, R236, R237: wld and wst move 64 elements between a word register and the partition, wst also writing the map of nonzero lanes; wld and
wst check their address first: outside the local window "wrong stream", misaligned, or past the partition "protection". wred reduces each group of
lanes: on INT32 to the exact sum, reduced once, or to the extreme, on FP formats by the pairwise tree of R236, each level's value rounded; the
lanes above are 0. wmov moves single lanes or broadcasts. wq.q quantises two blocks (R67), their codes packed as R61 says and the scales in S[B];
wq.dq reads codes in that layout from W[A] and expands each under its block's scale, flushed under the prefix FZ (R58). XF = 0 raises "width
error". That FZ flushes at every level of a tree, and that SAT leaves wred's extremes alone, is the model's choice (log 92). -/
def Obligations.WordMovementResults : Prop :=
  ∀ (s : State) (f : Fmt) (d a b : Reg) (ofs : BitVec 7) (rop : WRedOp) (g : BitVec 3),
    let n := if f = .f32 ∨ f = .i32 then 4 else 2
    let addr (srcs : List Reg) : Nat := (s.arg srcs 0 + ofs.signExtend 64 * BitVec.ofNat 64 (64 * n)).toNat
    let low (x : Word) : W32 := if n = 4 then x.setWidth 32 else (x.setWidth 16).setWidth 32
    let lane (r : Reg) (i : Fin 64) : W32 := s.hart.wregs[r.toNat][i]
    (s.WordIssues [a] [] →
      (addr [a] < 0xFFFFFFFF00000000 → exec (.wld f d a ofs) s = s.trap (.plain 0x02 (BitVec.ofNat 64 (addr [a])))) ∧
      (0xFFFFFFFF00000000 ≤ addr [a] → addr [a] % n ≠ 0 → exec (.wld f d a ofs) s = s.trap (.addr 0x06 (BitVec.ofNat 64 (addr [a])) .read)) ∧
      (0xFFFFFFFF00000000 ≤ addr [a] → addr [a] % n = 0 → s.hart.scratchSize < addr [a] - 0xFFFFFFFF00000000 + 64 * n →
        exec (.wld f d a ofs) s = s.trap (.addr 0x08 (BitVec.ofNat 64 (addr [a])) .read)) ∧
      (0xFFFFFFFF00000000 ≤ addr [a] → addr [a] % n = 0 → addr [a] - 0xFFFFFFFF00000000 + 64 * n ≤ s.hart.scratchSize →
        s.interlocked (addr [a]) (64 * n) false = false →
        let o := addr [a] - 0xFFFFFFFF00000000
        let p := (s.popped [a]).noteScratch o (64 * n)
        let v : Vector W32 64 := Vector.ofFn fun i : Fin 64 => BitVec.ofNat 32 (s.hart.scratch.rd (o + i.val * n) n)
        exec (.wld f d a ofs) s = .next ((State.wordOver { p with hart := { p.hart with wregs := p.hart.wregs.set d.toNat v } }).retire 1) ∧
        (s.Sound (.scratch o) (64 * n) → p = s.popped [a]))) ∧
    (s.WordIssues [a] [b] →
      (addr [a] < 0xFFFFFFFF00000000 → exec (.wst f d a b ofs) s = s.trap (.plain 0x02 (BitVec.ofNat 64 (addr [a])))) ∧
      (0xFFFFFFFF00000000 ≤ addr [a] → addr [a] % n ≠ 0 →
        exec (.wst f d a b ofs) s = s.trap (.addr 0x06 (BitVec.ofNat 64 (addr [a])) .write)) ∧
      (0xFFFFFFFF00000000 ≤ addr [a] → addr [a] % n = 0 → s.hart.scratchSize < addr [a] - 0xFFFFFFFF00000000 + 64 * n →
        exec (.wst f d a b ofs) s = s.trap (.addr 0x08 (BitVec.ofNat 64 (addr [a])) .write))) ∧
    (s.WordIssues [a] [b] → 0xFFFFFFFF00000000 ≤ addr [a] → addr [a] % n = 0 →
      addr [a] - 0xFFFFFFFF00000000 + 64 * n ≤ s.hart.scratchSize → s.interlocked (addr [a]) (64 * n) true = false →
      let o := addr [a] - 0xFFFFFFFF00000000
      ∃ (t : State) (m : Word), exec (.wst f d a b ofs) s = .next ((t.wr b m).retire 1) ∧
        t = State.wordOver { s.popped [a] with hart := { (s.popped [a]).hart with scratch := t.hart.scratch } } ∧
        (∀ i : Fin 64, ∀ j < n, t.hart.scratch.get (o + i.val * n + j) = BitVec.ofNat 8 ((lane d i).toNat / 256 ^ j)) ∧
        (∀ x, ¬ (o ≤ x ∧ x < o + 64 * n) → t.hart.scratch.get x = s.hart.scratch.get x) ∧
        (∀ i : Fin 64, m.getLsbD i = !encZero f (lane d i).toNat) ∧ t.hart.wregs = s.hart.wregs ∧ t.mem = s.mem ∧ t.me = s.me) ∧
    (s.WordIssues [] [] → (rop ≠ .maxu ∧ rop ≠ .minu ∨ f = .i32) → g ≠ 7 →
      let w := 2 ^ g.toNat
      ∃ r : Fin 64 → W32, exec (.wred rop f g d a) s = .next (s.wordWrote [] d (Vector.ofFn r)) ∧
        (∀ i : Fin 64, 64 / w ≤ i.val → r i = 0) ∧
        (f = .i32 → ∀ i : Fin 64, i.val < 64 / w →
          let group := (List.finRange 64).filter fun j => decide (j.val / w = i.val)
          let sum : Int := (group.map fun j => (lane a j).toInt).sum
          let best (le : W32 → W32 → Prop) : Prop := (∃ j ∈ group, r i = lane a j) ∧ ∀ j ∈ group, le (lane a j) (r i)
          (rop = .sum → r i = BitVec.ofInt 32 (if s.pfxSat = 1 then max (-2 ^ 31) (min (2 ^ 31 - 1) sum)
            else if s.pfxSat = 2 then max 0 (min (2 ^ 32 - 1) sum) else sum)) ∧
          (rop = .max → best fun p q => p.toInt ≤ q.toInt) ∧ (rop = .min → best fun p q => q.toInt ≤ p.toInt) ∧
          (rop = .maxu → best fun p q => p.toNat ≤ q.toNat) ∧ (rop = .minu → best fun p q => q.toNat ≤ p.toNat)) ∧
        (f ≠ .i32 →
          let v (x : W32) : Fv := fpDecode f s.fz x.toNat
          let rounded (x : Fv) : W32 := BitVec.ofNat 32 (fpEncode f s.rm s.fz x)
          let op (x y : Fv) : Fv := match rop with | .max => Fv.minMax true x y | .min => Fv.minMax false x y | _ => Fv.add s.rm x y
          ∃ level : Nat → Nat → Fv, (∀ i : Fin 64, level 0 i = v (lane a i)) ∧
            (∀ k i, k < g.toNat → i < 64 / 2 ^ (k + 1) → level (k + 1) i = v (rounded (op (level k (2 * i)) (level k (2 * i + 1))))) ∧
            ∀ i : Fin 64, i.val < 64 / w → r i = rounded (level g.toNat i))) ∧
    (s.WordIssues [b] [d] → exec (.wmov .ts f d a b) s =
      .next (State.retire (State.wr (State.wordOver (s.popped [b])) d
        (let w := low ((lane a ⟨(s.arg [b] 0).toNat % 64, Nat.mod_lt _ (by decide)⟩).setWidth 64)
         if f = .i32 then w.signExtend 64 else w.zeroExtend 64)) 1)) ∧
    (s.WordIssues [a, b] [] → exec (.wmov .st f d a b) s = .next (s.wordWrote [a, b] d
      (Vector.ofFn fun i : Fin 64 => if i.val = (s.arg [a, b] 1).toNat % 64 then low (s.arg [a, b] 0) else lane d i))) ∧
    (s.WordIssues [a] [] → exec (.wmov .bc f d a b) s = .next (s.wordWrote [a] d (Vector.ofFn fun _ => low (s.arg [a] 0)))) ∧
    (s.Fits .eOnly 1 → s.me.xf = 0 →
      (popOk s.isE b = true → exec (.wq true d a b) s = s.trap (.plain 0x0E (s.me.vtype.zeroExtend 64))) ∧
      (pushOk s.isE b = true → exec (.wq false d a b) s = s.trap (.plain 0x0E (s.me.vtype.zeroExtend 64)))) ∧
    (let w := mxWidth s.me.xf
      -- bit p of lane i of a word register
      let bitOf (v : Fin 64 → W32) (i p : Nat) : Bool := (v ⟨i % 64, Nat.mod_lt _ (by decide)⟩).getLsbD p
      (s.WordIssues [b] [] → s.me.xf ≠ 0 → ∃ code : Fin 64 → Nat,
        (∀ i, code i < 2 ^ w ∧ ∀ t < w,
          let p := 256 * (i.val / 32) + i.val % 32 * w + t
          (code i).testBit t = bitOf (lane a) (p / 32) (p % 32)) ∧
        exec (.wq true d a b) s = .next (s.wordWrote [b] d (Vector.ofFn fun i : Fin 64 =>
          let scale := (s.arg [b] 0).toNat / 2 ^ (8 * (i.val / 32)) % 256
          let n := mxExpand s.me.xf (code i)
          if scale = 0xFF then 0x7FC00000 else if n = 0 then 0
          else BitVec.ofNat 32 (fpEncode .f32 .rne s.fz (.fin n ((scale : Int) - 127 - mxFrac s.me.xf)))))) ∧
      (s.WordIssues [] [b] → s.me.xf ≠ 0 →
        let block (k : Nat) := mxQuant s.me.xf ((List.range 32).map fun i =>
          fpDecode .f32 s.fz (s.hart.wregs[a.toNat].toList.getD (32 * k + i) 0).toNat)
        ∃ v : Fin 64 → W32,
          exec (.wq false d a b) s = .next ((State.wr
            (State.wordOver { s with hart := { s.hart with wregs := s.hart.wregs.set d.toNat (Vector.ofFn v) } }) b
            (BitVec.ofNat 64 ((block 1).1 * 256 + (block 0).1))).retire 1) ∧
          (∀ i : Fin 64, 16 ≤ i.val → v i = 0) ∧
          ∀ k < 2, ∀ o < 256, bitOf v (8 * k + o / 32) (o % 32) =
            (decide (o < 32 * w) && ((block k).2.getD (o / w) 0).testBit (o % w))))

/-- R214, R215, R226 to R229: mcfg loads a legal descriptor from the partition and traps on the others; mclr empties the matrix queue with its
interlocks and makes the B registers it would have consumed EMPTY; mprog reads the count of operations and the rows done; mwait passes once few
enough are left and waits otherwise; the three of mwait, mprog and the posts, their queues' directions and a post's configuration and widths
tested (R92), first report a halted operation, once. R218 to R220, R223, R224: mma and mmas trap without a configuration, with widths that it does
not take, on a tile that is misaligned, outside the partition, of a shape or a format that the operation does not fit; with every check passed,
room in the queue and the interlock table, no earlier copy command still at the tile's elements (R326), and B FULL, the operation is queued with
everything it samples, and under Z the tile's TAG is written and its reserved bytes are zeroed. No other register, row or byte changes, but for
the event that R409 sends where the descriptor or the tile's header lies in a scratchpad word in error. Which bad field is reported, and how a
halt is left, are the model's reading (log 32); that a D tile's check is of a write, and the address of one that leaves the partition, too (log
26, log 75). -/
def Obligations.MatrixSetupAndPosting : Prop :=
  (∀ (s : State) (a d : Reg) (dn : Bool),
    (s.Issues .eOnly 1 [a] [] →
      let va := (s.arg [a] 0).toNat
      let o := va - 0xFFFFFFFF00000000
      let raw : Vector Word 8 := Vector.ofFn fun i : Fin 8 => BitVec.ofNat 64 (s.hart.scratch.rd (o + 8 * i.val) 8)
      let f := mcfgOf raw
      let legal : Prop :=
        raw[0].toNat / 4 % 64 = 0 ∧ f.af < 5 ∧ (f.ac = true → f.af ≠ 0) ∧ f.bf < 5 ∧ raw[0].getLsbD 15 = false ∧
        raw[0].toNat / 2 ^ 20 % 2 ^ 12 = 0 ∧ f.c ≠ 0 ∧ (f.af ≠ 0 → f.c % 32 = 0) ∧ f.ow ≠ 0 ∧ f.h ≠ 0 ∧ f.w ≠ 0 ∧ f.oh ≠ 0 ∧ f.kh ≠ 0 ∧
        f.kw ≠ 0 ∧ f.sh ≠ 0 ∧ f.sw ≠ 0 ∧ f.dh ≠ 0 ∧ f.dw ≠ 0 ∧ raw[2].toNat / 2 ^ 48 % 2 ^ 16 = 0 ∧ raw[7] = 0
      (va % 64 ≠ 0 → exec (.mcfg a) s = s.trap (.addr 0x06 (s.arg [a] 0) .read)) ∧
      (va % 64 = 0 → (va < 0xFFFFFFFF00000000 ∨ s.hart.scratchSize < o + 64) →
        exec (.mcfg a) s = s.trap (.addr 0x08 (s.arg [a] 0) .read)) ∧
      (va % 64 = 0 → 0xFFFFFFFF00000000 ≤ va → o + 64 ≤ s.hart.scratchSize → s.interlocked va 64 false = false →
        (s.Sound (.scratch o) 64 → s.noteScratch o 64 = s) ∧
        (legal → exec (.mcfg a) s = .next ((State.noteScratch
          { s.popped [a] with hart := { (s.popped [a]).hart with mcfg := some raw } } o 64).retire 1)) ∧
        (¬ legal → ∃ b < 64, exec (.mcfg a) s = (s.noteScratch o 64).trap (.plain 0x01 (BitVec.ofNat 64 b))))) ∧
    (s.Fits .eOnly 1 → ∃ t : State, exec .mclr s = .next (t.retire 1) ∧ t = { s with hart := t.hart } ∧
      t.hart = { s.hart with mq := [], mprog := 0, mhalt := none, mtold := none, ilocks := t.hart.ilocks, pres := t.hart.pres } ∧
      (∀ e, e ∈ t.hart.ilocks ↔ e ∈ s.hart.ilocks ∧ ∃ id, e.owner = .cmd id) ∧
      (∀ r, t.hart.full r = true ↔ s.hart.full r = true ∧ ¬ ∃ o ∈ s.hart.mq, o.cons = true ∧ o.stage ≠ .consumed ∧ o.breg = r)) ∧
    (s.Fits .eOnly 1 → ∀ x, s.hart.mhalt = some x → s.hart.mtold = none →
      let told := State.trap
        { s with hart := { s.hart with mtold := some (match s.me.pfx with | some p => p.addr | none => s.me.pc) } }
        { TrapInfo.addr 0x0B x .read with mh := true }
      (pushOk s.isE d = true → exec (.mprog d) s = told) ∧ (popOk s.isE a = true → exec (.mwait dn a) s = told) ∧
      (popOk s.isE a = true → popOk s.isE d = true → ∀ raw, s.hart.mcfg = some raw → matWidthBad (mcfgOf raw) s.me dn = false →
        exec (.mma dn dn dn d a a) s = told ∧ exec (.mmas dn dn dn d a a) s = told)) ∧
    ((s.hart.mhalt = none ∨ s.hart.mtold ≠ none) →
      (s.Issues .eOnly 1 [] [d] →
        exec (.mprog d) s = .next (s.wrote 1 [] d (BitVec.ofNat 64 (s.hart.mq.length * 2 ^ 32 + s.hart.mprog)))) ∧
      (s.Issues .eOnly 1 [a] [] →
        let left := (s.hart.mq.filter fun o => dn || decide (o.stage ≠ .consumed)).length
        (left ≤ (s.arg [a] 0).toNat → exec (.mwait dn a) s = .next ((s.popped [a]).retire 1)) ∧
        ((s.arg [a] 0).toNat < left → exec (.mwait dn a) s = s.stall .engine)))) ∧
  (∀ (s : State) (m c f z : Bool) (d a b : Reg), s.Issues .eOnly 1 [a, d] [] → (s.hart.mhalt = none ∨ s.hart.mtold ≠ none) →
    let i : Instr := if m then .mmas c f z d a b else .mma c f z d a b
    let tile := s.arg [a, d] 1
    let sel := (s.arg [a, d] 0).toNat
    let o := tile.toNat - 0xFFFFFFFF00000000
    let head := BitVec.ofNat 64 (s.hart.scratch.rd o 8)
    let tag := head.toNat % 2 ^ 16
    let rows := head.toNat / 2 ^ 16 % 2 ^ 16
    let cols := head.toNat / 2 ^ 32 % 2 ^ 16
    let pitch := head.toNat / 2 ^ 48 % 2 ^ 16
    let mine := if f then 2 else 1
    let s0 := s.noteScratch o 8
    (s.Sound (.scratch o) 8 → s0 = s) ∧
    (s.hart.mcfg = none → exec i s = s.trap (.plain 0x01 s.insWord)) ∧
    (∀ raw, s.hart.mcfg = some raw →
      let g := mcfgOf raw
      let widths : Prop := (g.af ≠ 0 → s.me.wA = mxExp g.af ∧ s.me.sA = true) ∧ (g.bf ≠ 0 → s.me.wB = mxExp g.bf ∧ s.me.sB = true) ∧
        (f = false → g.af = 0 ∧ g.bf = 0)
      let within : Prop := 0xFFFFFFFF00000000 ≤ tile.toNat ∧ o + 16 ≤ s.hart.scratchSize
      let view : MatView := ⟨g, s.me.wA, s.me.wB, s.me.sA, s.me.sB, sel / 2 ^ 32 % 2 ^ 16, cols, sel % 2 ^ 32, rows⟩
      let shape : Prop := rows ≠ 0 ∧ cols ≠ 0 ∧ cols ≤ 16384 / 2 ^ s.hart.lph.toNat / 64 / g.ks ∧ (cols + 3) / 4 ≤ pitch
      let extent := o + 16 + (rows - 1) * pitch * 16 + cols * 4
      let chain := if g.chen then (s.core.chans.toList.getD g.ch Channel.idle).queue.map (·.id) else []
      (¬ widths → exec i s = s.trap (.plain 0x0E (s.me.vtype.zeroExtend 64))) ∧
      (widths →
        (tile.toNat % 16 ≠ 0 → exec i s = s.trap (.addr 0x06 tile .write)) ∧
        (tile.toNat % 16 = 0 →
          (¬ within → exec i s = s.trap (.addr 0x08 tile .write)) ∧
          (within → s.interlocked tile.toNat 16 z = false →
            (rows ≠ 0 → cols ≠ 0 → s.hart.scratchSize < extent → exec i s = s0.trap (.addr 0x08 tile .write)) ∧
            ((rows = 0 ∨ cols = 0 ∨ extent ≤ s.hart.scratchSize) →
              (¬ shape → exec i s = s0.trap (.plain 0x0E head)) ∧
              (shape →
                (z = false → tag ≠ mine → exec i s = s0.trap (.plain 0x0D tile)) ∧
                (z = true ∨ tag = mine →
                  (∀ t, view.check s.hart m = some t → exec i s = s0.trap t) ∧
                  (view.check s.hart m = none →
                    (32 ≤ s.hart.mq.length → exec i s = s.stall .engine) ∧
                    (s.hart.mq.length < 32 → s.tileWaits tile.toNat rows cols pitch chain = true → exec i s = s.stall .interlock) ∧
                    (s.hart.mq.length < 32 → s.tileWaits tile.toNat rows cols pitch chain = false → s.hart.full b = false →
                      exec i s = s.stall (.presence false b)) ∧
                    (s.hart.mq.length < 32 → s.tileWaits tile.toNat rows cols pitch chain = false → s.hart.full b = true →
                      s.hart.ilocks.length < 32 →
                      ∃ (t : State) (q : MatOp), exec i s = .next (t.retire 1) ∧
                        t = { (s.popped [a, d]).noteScratch o 8 with hart := t.hart, nextId := s.nextId + 1 } ∧
                        t.hart = { (s.popped [a, d]).hart with
                          scratch := t.hart.scratch, mq := s.hart.mq ++ [q], ilocks := t.hart.ilocks } ∧
                        q.masked = m ∧ q.fp32 = f ∧ q.zero = z ∧ q.cons = c ∧ q.tile = o ∧ q.m0 = sel % 2 ^ 32 ∧
                        q.kchunk = sel / 2 ^ 32 % 2 ^ 16 ∧ q.breg = b ∧ q.cfg = raw ∧ q.vtype = s.me.vtype ∧ q.sat = s.satMode ∧
                        q.rows = rows ∧ q.cols = cols ∧ q.pitch = pitch ∧ q.stage = .posted ∧ q.chain = chain ∧
                        (z = false → t.hart.scratch = s.hart.scratch) ∧
                        (z = true → t.hart.scratch.rd o 2 = mine ∧ t.hart.scratch.rd (o + 8) 8 = 0 ∧
                          ∀ x, ¬ (o ≤ x ∧ x < o + 2) → ¬ (o + 8 ≤ x ∧ x < o + 16) → t.hart.scratch.get x = s.hart.scratch.get x) ∧
                        (∀ e ∈ s.hart.ilocks, e ∈ t.hart.ilocks) ∧
                        (∀ e ∈ t.hart.ilocks, e ∈ s.hart.ilocks ∨ e.owner = .op s.nextId ∧ e.write = false)))))))))))

/-- R68, R220 to R222, R224, R225: a row step of the oldest operation, neither halted nor waiting, adds to each element of its row: for an INT32
tile the exact sum of the products of the unfolded row and the column, under the saturation that the operation sampled; for an FP32 tile (R69,
R217) the sum, rounded after each block in ascending order and once more onto the element, of the blocks' exact sums under the two operands'
scales, a skipped row or a block of padding giving +0 and a scale 0xFF NaN; 0 is the old value under Z. The step is counted; the last one consumes
B under C and frees the operation's interlocks. Bytes outside the row are kept. MATRIX_OPERATION_DONE removes the consumed operation. -/
def Obligations.MatrixRowResults : Prop :=
  ∀ (s : State),
    (∀ o rest, s.hart.mq = o :: rest → s.held = false → o.stage ≠ .consumed → s.hart.mhalt = none → s.hart.laneBusy = 0 → s.hart.tests = [] →
      s.matrixWaits o = false → s.hart.mprog < o.rows → s.hart.rowError o (o.m0 + s.hart.mprog) = none →
      let r := s.hart.mprog
      let v := o.view
      let g := mcfgOf o.cfg
      let at_ (j : Nat) : Nat := o.tile + 16 + r * o.pitch * 16 + j * 4
      let old (j : Nat) : Nat := if o.zero then 0 else s.hart.scratch.rd (at_ j) 4
      let cut (x : Int) : Int := if o.sat = 1 then max (-2 ^ 31) (min (2 ^ 31 - 1) x) else if o.sat = 2 then max 0 (min (2 ^ 32 - 1) x) else x
      let mapped : Prop := o.masked = false ∨ (s.hart.scratch.get (g.rbmap + (o.m0 + r) / 8)).toNat.testBit ((o.m0 + r) % 8) = true
      let x (k : Nat) : Int := valueOf v.sa v.wa (g.aPat s.hart.scratch v.wa (o.m0 + r) (o.kchunk * (64 * g.ks) + k))
      let y (j k : Nat) : Int := s.hart.value o.breg v.wb v.sb (j * (64 * g.ks) + k)
      let blank : Prop := ∀ k < 64 * g.ks, ∀ p < v.wa,
        (g.aPat s.hart.scratch v.wa (o.m0 + r) (o.kchunk * (64 * g.ks) + k)).testBit p = false
      ∃ t : State, exec .matrixRowStep s = .next t ∧ t = { s with hart := t.hart } ∧
        t.hart = { s.hart with
          scratch := t.hart.scratch, mprog := r + 1, laneBusy := t.hart.laneBusy, mq := t.hart.mq, pres := t.hart.pres
          ilocks := t.hart.ilocks } ∧
        t.hart.mq = { o with stage := if o.rows ≤ r + 1 then .consumed else .running } :: rest ∧ 0 < t.hart.laneBusy ∧
        (o.fp32 = false → mapped → ∀ j < o.cols, t.hart.scratch.rd (at_ j) 4 =
          (BitVec.ofInt 32 (cut ((BitVec.ofNat 32 (old j)).toInt + ((List.range (64 * g.ks)).map fun k => x k * y j k).sum))).toNat) ∧
        (o.fp32 = false → ¬ mapped → ∀ j < o.cols, t.hart.scratch.rd (at_ j) 4 = (BitVec.ofInt 32 (cut (BitVec.ofNat 32 (old j)).toInt)).toNat) ∧
        (o.fp32 = true → ∀ j < o.cols, ∃ (w : Nat → Fv) (sum : Nat → Nat),
          let plus (a : Nat) (b : Fv) : Nat := fpEncode .f32 .rne false (Fv.add .rne (fpDecode .f32 false a) b)
          sum 0 = 0 ∧ (∀ b, sum (b + 1) = plus (sum b) (w b)) ∧
          t.hart.scratch.rd (at_ j) 4 = plus (old j) (fpDecode .f32 false (sum (2 * g.ks))) % 2 ^ 32 ∧
          ∀ b < 2 * g.ks,
            let pixel (e : Nat) := g.pixel (o.m0 + r) (o.kchunk * (64 * g.ks) + 32 * b + e)
            let code (base stride row block : Nat) : Nat := (s.hart.scratch.get (scaleAt base stride row block)).toNat
            let cb := code g.bscl g.bsrs j (o.kchunk * (2 * g.ks) + b)
            let p : Int := ((List.range 32).map fun e => x (32 * b + e) * y j (32 * b + e)).sum
            (¬ mapped ∨ blank ∨ (∀ e < 32, pixel e = none) → w b = .zero false) ∧
            (mapped → ¬ blank → ∀ e < 32, ∀ py px c, pixel e = some (py, px, c) → (∀ i < e, pixel i = none) →
              let ca := code g.ascl g.asrs (py * g.w + px) (c / 32)
              (g.af ≠ 0 ∧ ca = 255 ∨ g.bf ≠ 0 ∧ cb = 255 → w b = .nan) ∧
              (¬ (g.af ≠ 0 ∧ ca = 255 ∨ g.bf ≠ 0 ∧ cb = 255) → w b = if p = 0 then .zero false else
                .fin p ((if g.af = 0 then 0 else (ca : Int) - 127) + (if g.bf = 0 then 0 else (cb : Int) - 127) - mxFrac g.af - mxFrac g.bf)))) ∧
        (∀ p, ¬ (at_ 0 ≤ p ∧ p < at_ o.cols) → t.hart.scratch.get p = s.hart.scratch.get p) ∧
        (r + 1 < o.rows → t.hart.pres = s.hart.pres ∧ t.hart.ilocks = s.hart.ilocks) ∧
        (o.rows ≤ r + 1 → (∀ e, e ∈ t.hart.ilocks ↔ e ∈ s.hart.ilocks ∧ e.owner ≠ .op o.id) ∧
          ∀ q, t.hart.full q = (s.hart.full q && !(o.cons && decide (q = o.breg))))) ∧
    (∀ o rest, s.hart.mq = o :: rest → o.stage = .consumed →
      exec .matrixDone s = .next { s with hart := { s.hart with mq := rest, mprog := 0 } }) ∧
    (s.hart.mq = [] → exec .matrixRowStep s = .next s ∧ exec .matrixDone s = .next s)

/-- R238, R239: vtow takes 64 lanes from S[B] on into a word register, as FP32 values or integers, 0 beyond LANES; wtov writes the 64 lanes of a
word register into the lanes from S[B] on that exist, rounded and saturated to D's width. That they leave VSTART is the model's reading (log
34). -/
def Obligations.TransposeResults : Prop :=
  ∀ (s : State) (ca : Bool) (f : Fmt) (d a b : Reg), (f = .f32 ∨ f = .i32) → s.hart.residue < 2 →
    let tests : List Nat := if s.hart.residue = 0 then [] else [16384]
    let out := if s.hart.residue = 0 then s.out else s.out ++ [.residueCured s.hart.id]
    let lanes := 16384 / 2 ^ s.hart.lph.toNat
    let base := (s.arg [b] 0).toNat
    let A : VSrc := ⟨a, s.me.wA, ca⟩
    let x (e : Nat) : Int := s.hart.value a s.me.wA s.me.sA e
    let lane (i : Fin 64) : W32 := s.hart.wregs[a.toNat][i]
    (s.LaneIssues ⟨[A], none, true, 0⟩ [b] [] → ∃ t : State, exec (.vtow ca f d a b) s = .next (t.retire 1) ∧ t.me = s.me ∧
      t = { s.popped [b] with hart := t.hart, core := { s.core with wordLast := s.hart.id.setWidth 3 }, out := out } ∧ t.hart.tests = tests ∧
      t.hart = { (s.popped [b]).hart with
        wregs := s.hart.wregs.set d.toNat (Vector.ofFn fun i : Fin 64 => if base + i.val < lanes then
          (if f = .f32 then BitVec.ofNat 32 (fpEncode .f32 .rne false (Fv.ofInt (x (base + i.val)))) else BitVec.ofInt 32 (x (base + i.val)))
          else 0)
        pres := t.hart.pres, laneBusy := t.hart.laneBusy, residue := 0, tests := t.hart.tests } ∧
      (∀ r, t.hart.full r = (s.hart.full r && !(ca && decide (r ∈ if 16 < s.me.wA then [a, a + 1] else [a]))))) ∧
    (s.LaneIssues ⟨[], some (d, s.me.wD), true, 0⟩ [b] [] → ∃ (t : State) (v : Fin 64 → Option Int),
      exec (.wtov f d a b) s = .next (t.retire 1) ∧
      t = { s.popped [b] with
        me := { s.me with vstat := t.me.vstat }, hart := t.hart, core := { s.core with wordLast := s.hart.id.setWidth 3 }, out := out } ∧
      t.hart.tests = tests ∧
      t.hart = { (s.popped [b]).hart with
        planes := t.hart.planes, pres := t.hart.pres, laneBusy := t.hart.laneBusy, residue := 0, tests := t.hart.tests } ∧
      (∀ i, f = .i32 → v i = some (lane i).toInt) ∧
      (∀ i, f = .f32 → v i = match fpDecode .f32 false (lane i).toNat with
        | .fin m e => some (roundInt .rne m e)
        | .inf _ => none
        | _ => some 0) ∧
      (∀ i : Fin 64, base + i.val < lanes → ∀ n, v i = some n → t.hart.elem d s.me.wD (base + i.val) = s.fits n) ∧
      (∀ i : Fin 64, base + i.val < lanes → v i = none → t.hart.elem d s.me.wD (base + i.val) =
        (match fpDecode .f32 false (lane i).toNat with
        | .inf true => if s.me.sD then 2 ^ (s.me.wD - 1) else 0
        | _ => if s.me.sD then 2 ^ (s.me.wD - 1) - 1 else 2 ^ s.me.wD - 1)) ∧
      (∀ e, ¬ (base ≤ e ∧ e < base + 64 ∧ e < lanes) → t.hart.elem d s.me.wD e = s.hart.elem d s.me.wD e) ∧
      (∀ r, t.hart.full r = (s.hart.full r || decide (r ∈ if 16 < s.me.wD then [d, d + 1] else [d]))) ∧
      (t.me.vstat.getLsbD 4 = true ↔ s.me.vstat.getLsbD 4 = true ∨
        ∃ i : Fin 64, base + i.val < lanes ∧ (v i = none ∨ ∃ n, v i = some n ∧ s.satValue n ≠ n)))

-- Engines, windows, rings, pools and links

/-- R47, R267 to R272: kins and kacc take the active lanes in ascending order: a lane whose key the table holds gives the entry its new value,
another key takes the next free entry, and with none left the lane fails in mask D; klook finds the values; kdrain writes the entries in
order to the partition and their number to D, or traps on an address that is not local, not aligned, or leaves the partition, the last at
its first doubleword outside (log 75); kclr empties the table. SATF is set exactly where klook clamps a value, and is otherwise kept. That kins,
kacc and klook leave VSTART 0 is the model's reading (log 34). -/
def Obligations.KeyTableResults : Prop :=
  ∀ (s : State) (op : KaccOp) (cb ca : Bool) (k d : BitVec 3) (a b e : Reg),
    let A : VSrc := ⟨a, s.me.wA, ca⟩
    let B : VSrc := ⟨b, s.me.wB, cb⟩
    let act := (List.range s.me.vl.toNat).filter fun e => decide (s.me.vstart.toNat ≤ e) && s.hart.mask k e
    let key (e : Nat) : W32 := BitVec.ofNat 32 (s.hart.elem a s.me.wA e)
    let x (e : Nat) : W32 := BitVec.ofInt 32 (s.hart.value b s.me.wB s.me.sB e)
    let with_ (t : KeyTab) : State := { s with core := { s.core with keytab := t } }
    let satf (t : State) (clamped : Prop) : Prop := t.me.vstat.getLsbD 4 = true ↔ s.me.vstat.getLsbD 4 = true ∨ clamped
    let found (v : W32) : Int := if s.me.sD then v.toInt else v.toNat
    let writes (i : Instr) (f : W32 → W32 → W32) : Prop := s.LaneIssues ⟨[A, B], none, true, 0⟩ [] [] →
      ∃ (t : State) (tab : KeyTab), exec i s = .next (t.retire 1) ∧ (with_ tab).LaneFrame t ⟨[A, B], none, true, 0⟩ d ∧ satf t False ∧
        (∀ e, t.hart.mask d e = if d ≠ 0 ∧ e ∈ act then (keyFind tab (key e)).isNone else s.hart.mask d e) ∧
        (∀ e ∈ act, keyFind tab (key e) = none → 4096 ≤ tab.length) ∧
        (tab.take s.core.keytab.length).map (·.1) = s.core.keytab.map (·.1) ∧
        (s.core.keytab.length ≤ 4096 → tab.length ≤ 4096) ∧
        (∀ w, keyFind tab w = none → keyFind s.core.keytab w = none) ∧
        (∀ w, keyFind tab w ≠ none → keyFind tab w = (act.filter fun e => decide (key e = w)).foldl
          (fun v e => some (match v with | none => x e | some o => f o (x e))) (keyFind s.core.keytab w))
    writes (.kins cb ca k d a b) (fun _ y => y) ∧
    writes (.kacc op cb ca k d a b) (fun o y => match op with
      | .add => o + y
      | .max => if o.slt y then y else o
      | .min => if y.slt o then y else o
      | .or => o ||| y) ∧
    (s.LaneIssues ⟨[A], some (e, s.me.wD), true, 0⟩ [] [] → ∃ t : State, exec (.klook ca k e a d) s = .next (t.retire 1) ∧
      s.LaneFrame t ⟨[A], some (e, s.me.wD), true, 0⟩ d ∧
      satf t (∃ l ∈ act, ∃ v, keyFind s.core.keytab (key l) = some v ∧ s.satValue (found v) ≠ found v) ∧
      (∀ l, t.hart.mask d l = if d ≠ 0 ∧ l ∈ act then (keyFind s.core.keytab (key l)).isSome else s.hart.mask d l) ∧
      (∀ l, t.hart.elem e s.me.wD l = if l ∈ act then
        (match keyFind s.core.keytab (key l) with
          | some v => s.fits (found v)
          | none => s.hart.elem e s.me.wD l) else s.hart.elem e s.me.wD l)) ∧
    (s.Issues .eOnly 1 [a] [e] →
      let va := (s.arg [a] 0).toNat
      let o := va - 0xFFFFFFFF00000000
      let n := 8 * s.core.keytab.length
      (va < 0xFFFFFFFF00000000 → exec (.kdrain e a) s = s.trap (.plain 0x02 (s.arg [a] 0))) ∧
      (0xFFFFFFFF00000000 ≤ va → va % 8 ≠ 0 → exec (.kdrain e a) s = s.trap (.addr 0x06 (s.arg [a] 0) .write)) ∧
      (0xFFFFFFFF00000000 ≤ va → va % 8 = 0 → s.core.keytab ≠ [] → s.hart.scratchSize < o + n →
        exec (.kdrain e a) s =
          s.trap (.addr 0x08 (BitVec.ofNat 64 (max va (0xFFFFFFFF00000000 + s.hart.scratchSize / 8 * 8))) .write)) ∧
      (0xFFFFFFFF00000000 ≤ va → va % 8 = 0 → (s.core.keytab = [] ∨ o + n ≤ s.hart.scratchSize) → s.interlocked va n true = false →
        ∃ t : State, exec (.kdrain e a) s = .next ((t.wr e (BitVec.ofNat 64 s.core.keytab.length)).retire 1) ∧
          t = { s.popped [a] with hart := { (s.popped [a]).hart with scratch := t.hart.scratch } } ∧
          (∀ i (h : i < s.core.keytab.length), t.hart.scratch.rd (o + 8 * i) 4 = s.core.keytab[i].1.toNat ∧
            t.hart.scratch.rd (o + 8 * i + 4) 4 = s.core.keytab[i].2.toNat) ∧
          ∀ p, ¬ (o ≤ p ∧ p < o + n) → t.hart.scratch.get p = s.hart.scratch.get p)) ∧
    (s.Fits .eOnly 1 → exec .kclr s = .next ((with_ []).retire 1))

/-- R273 to R276, R374, R379: twin delivers the named item of a window or timer that the VD has, twtake the address of the earliest record of
the current step that is not taken, or 0, and twack returns at most S[A] taken records; an item of a window above 4 or of a timer above 3 is
an illegal instruction; a window beyond the VD's, a timer above 15, and a take by a grid that no running step of the window launched, raise
"protection". The cutoff and tick time of a timer that has never fired are the model's choice (log 74). -/
def Obligations.WindowInstructionResults : Prop :=
  ∀ (s : State) (n : BitVec 6) (item : BitVec 3) (d a : Reg) (v : Vd), s.vd? = some v →
    let w := v.wins[n.toNat]
    let have_ := n.toNat < v.vdcfg.toNat / 2 ^ 16 % 2 ^ 11
    let runs (i : Fin 16) (k : Nat) : Prop := ∃ r, v.timers[i].running = some r ∧ r.k = k ∧ n ∈ r.wins
    let put (s : State) (f : List WSlot → List WSlot) : State :=
      s.mapVd v.id fun v => { v with wins := v.wins.set n.toNat { v.wins[n.toNat] with slots := f v.wins[n.toNat].slots } }
    (s.Issues .aOnly 1 [] [d] →
      let gives (p : BitVec 3) (x : Word) : Prop := exec (.twin false n p d) s = .next ((s.deliverLater d x).retire 1)
      (have_ → gives 1 (BitVec.ofNat 64 (w.cnt.toNat % 2 ^ 32)) ∧ gives 2 (BitVec.ofNat 64 (w.cnt.toNat / 2 ^ 32)) ∧
        gives 3 (BitVec.ofNat 64 w.slots.length) ∧ gives 4 w.base ∧
        ((∀ i k, ¬ runs i k) → gives 0 0) ∧
        (∀ i k, runs i k → (∀ j m, runs j m → j = i) →
          gives 0 (BitVec.ofNat 64 (w.slots.filter fun x => decide (x.st = .assigned (BitVec.ofNat 4 i.val, k))).length))) ∧
      (¬ have_ → item.toNat ≤ 4 → exec (.twin false n item d) s = s.trap (.plain 0x08 s.insWord)) ∧
      (5 ≤ item.toNat → exec (.twin false n item d) s = s.trap (.plain 0x01 s.insWord)) ∧
      (∀ h : n.toNat < 16,
        let t := v.timers[n.toNat]
        let tells (p : BitVec 3) (x : Word) : Prop := exec (.twin true n p d) s = .next ((s.deliverLater d x).retire 1)
        tells 0 t.k ∧ tells 2 t.ovr ∧
        (∀ c tick, t.fired = some (c, tick) → tells 1 (BitVec.ofInt 64 c) ∧ tells 3 (BitVec.ofNat 64 tick)) ∧
        (t.fired = none → tells 1 (BitVec.ofInt 64 ((t.phase.toNat : Int) - t.guardNs.toNat)) ∧ tells 3 (BitVec.ofNat 64 t.phase.toNat))) ∧
      (4 ≤ item.toNat → exec (.twin true n item d) s = s.trap (.plain 0x01 s.insWord)) ∧
      (16 ≤ n.toNat → item.toNat ≤ 3 → exec (.twin true n item d) s = s.trap (.plain 0x08 s.insWord)) ∧
      (have_ → (s.gridStep v n = none → exec (.twtake n d) s = s.trap (.plain 0x08 s.insWord)) ∧
        ∀ k, s.gridStep v n = some k →
          ((∀ x ∈ w.slots, x.st ≠ .assigned k) → exec (.twtake n d) s = .next ((s.deliverLater d 0).retire 1)) ∧
          ((∃ x ∈ w.slots, x.st = .assigned k) → s.orderWaits false true .die = none → ∃ r ∈ w.slots, r.st = .assigned k ∧
            (∀ x ∈ w.slots, x.st = .assigned k → r.t.toNat < x.t.toNat ∨ (r.t = x.t ∧ r.order ≤ x.order)) ∧
            ∃ t : State, exec (.twtake n d) s =
                .next (((t.acquire .die).deliverLater d (w.base + BitVec.ofNat 64 (r.slot * 64))).retire 1) ∧
              t = put s (fun l => l.map fun x => if x.slot = r.slot then { x with st := .taken k } else x))) ∧
      (¬ have_ → exec (.twtake n d) s = s.trap (.plain 0x08 s.insWord))) ∧
    (s.Issues .aOnly 1 [a] [d] →
      let taken := w.slots.filter fun x => match x.st with | .taken _ => true | _ => false
      (¬ have_ → exec (.twack n d a) s = s.trap (.plain 0x08 s.insWord)) ∧
      (have_ → s.copiesOutstanding = true → exec (.twack n d a) s = s.stall .channel) ∧
      (have_ → s.orderWaits true false .die = none → ∃ back : List Nat,
        exec (.twack n d a) s = .next (((put ((s.popped [a]).release .die) (fun l => l.filter fun x => !back.contains x.slot)).deliverLater d
          (BitVec.ofNat 64 (min (s.arg [a] 0).toNat taken.length))).retire 1) ∧
        back.length = min (s.arg [a] 0).toNat taken.length ∧ (∀ i ∈ back, ∃ x ∈ taken, x.slot = i) ∧
        (taken.length ≤ (s.arg [a] 0).toNat → ∀ x ∈ taken, x.slot ∈ back) ∧
        ((taken.map (·.slot)).Nodup → ∀ x ∈ taken, ∀ y ∈ taken, x.slot ∈ back → y.slot ∉ back →
          x.t.toNat < y.t.toNat ∨ (x.t = y.t ∧ x.order ≤ y.order))))

/-- R277 to R280, R381, R382: kvapp and the pool instructions act on a descriptor whose line is read after the release and written once, with an
acquire after. kvapp hands out the next unused entry, or, with none left, the oldest that may be recycled (bit 0 of the result set), and
answers code 2 for a malformed descriptor or page, 1 with no entry to hand out and 3 on a sink page; pgget takes entries from the top of the
stack into a buffer and answers what stays free, pgput gives one back. The checks of LIST and of the entries are the model's reading (log
39). -/
def Obligations.RingAndPoolResults : Prop :=
  ∀ (s : State) (run : Bool) (d a b : Reg), s.orderWaits true false .module = none →
    let ans (t : State) (w : Word) : Host.Outcome State Fault Refusal := .next (((t.acquire .module).deliverLater d w).retire 1)
    let code (n : Nat) : Word := BitVec.ofNat 64 (2 ^ 63 + n)
    (s.Issues .aOnly 1 [a] [d] → ∀ pa s2, (s.popped [a]).bankAddr (s.arg [a] 0).toNat 64 s.user = .ok (pa, s2) →
      (s2.release .module).poisoned pa 64 = false →
      let v := ((s2.release .module).readDesc8 pa).1
      let s4 := ((s2.release .module).readDesc8 pa).2
      let p := v[0].toNat % 2 ^ 16
      let sp := v[0].toNat / 2 ^ 16 % 2 ^ 16
      let u := v[0].toNat / 2 ^ 32 % 2 ^ 16
      let h := v[0].toNat / 2 ^ 48
      (ringBad v = true → exec (.kvapp d a) s = ans s4 (code 2)) ∧
      (ringBad v = false → u = p → sp = p → exec (.kvapp d a) s = ans s4 (code 1)) ∧
      (ringBad v = false → ¬ (u = p ∧ sp = p) →
        let e := v[3].toNat + 16 * (if u < p then u else h)
        ∀ p0 p1 s5, s4.bankWords s.user [e, e + 8] [] = .ok ([p0, p1], s5) → s5.poisoned p0 16 = false →
          let s6 := s5.beforeHome p0 16
          let page := BitVec.ofNat 64 (s6.mem.rd p0 8)
          (page.toNat % 65536 ≠ 0 → exec (.kvapp d a) s = ans s6 (code 2)) ∧
          (page.toNat % 65536 = 0 → u < p → ∃ n : Vector Word 8,
            exec (.kvapp d a) s = ans (s6.writeDesc8 pa n [(p0 + 8, v[1])]) page ∧
            n[0].toNat / 2 ^ 32 % 2 ^ 16 = u + 1 ∧ n[0].toNat % 2 ^ 32 = v[0].toNat % 2 ^ 32 ∧ n[0].toNat / 2 ^ 48 = h ∧
            n[1] = v[1] + BitVec.ofNat 64 (v[2].toNat % 2 ^ 32) ∧ ∀ i : Fin 8, 2 ≤ i.val → n[i] = v[i]) ∧
          (page.toNat % 65536 = 0 → u = p → s6.walkWaits page.toNat .read s.user = none → ∀ f pte s7,
            s6.translate page.toNat .read s.user true = .ok (f, pte, s7) →
            (pteSink pte = true → exec (.kvapp d a) s = ans s7 (code 3)) ∧
            (pteSink pte = false → ∃ n : Vector Word 8,
              exec (.kvapp d a) s = ans (s7.writeDesc8 pa n [(p0 + 8, v[1])]) (page ||| 1) ∧
              n[0].toNat / 2 ^ 48 = (if h + 1 = p then sp else h + 1) ∧ n[0].toNat % 2 ^ 48 = v[0].toNat % 2 ^ 48 ∧
              n[1] = v[1] + BitVec.ofNat 64 (v[2].toNat % 2 ^ 32) ∧ n[4] = BitVec.ofNat 64 (s6.mem.rd (p0 + 8) 8) ∧
              ∀ i : Fin 8, 2 ≤ i.val → i ≠ 4 → n[i] = v[i])))) ∧
    (s.Issues .aOnly 1 [a, b] [d] → ∀ pa s2, (s.popped [a, b]).bankAddr (s.arg [a, b] 0).toNat 64 s.user = .ok (pa, s2) →
      let req := (s.arg [a, b] 1).toNat
      let want := req % 16 + 1
      (∀ ls s3, s2.bufferLocs ((List.range want).map fun t => (req / 64 * 64 + 8 * t) % 2 ^ 64) [] = .ok (ls, s3) →
        (s3.release .module).poisoned pa 64 = false →
        let v := ((s3.release .module).readDesc8 pa).1
        let s5 := ((s3.release .module).readDesc8 pa).2
        let free := v[0].toNat % 2 ^ 32
        let low : Prop := free < want ∨ (run = false ∧ (free : Int) - want < (v[1].toNat % 2 ^ 32 : Nat))
        let legal := poolBad v = false ∧ req / 16 % 4 = 0
        (¬ legal → exec (.pgget run d a b) s = ans s5 (code 2)) ∧
        (legal → low → exec (.pgget run d a b) s = ans s5 (code 1)) ∧
        (legal → ¬ low → ∀ ps s6,
          s5.bankWords s.user ((List.range want).map fun t => (v[2].toNat + 8 * (free - 1 - t)) % 2 ^ 64) [] = .ok (ps, s6) →
          (∀ x ∈ ps, s6.poisoned x 8 = false) →
          let s7 := ps.foldl (fun st x => st.beforeHome x 8) s6
          ∃ n : Vector Word 8, exec (.pgget run d a b) s =
              ans ((ls.zip ps).foldl (fun st x => st.writeLoc x.1 8 (s7.mem.rd x.2 8)) (s7.writeDesc8 pa n []))
                (BitVec.ofNat 64 (free - want)) ∧
            n[0].toNat % 2 ^ 32 = free - want ∧ n[0].toNat / 2 ^ 32 = v[0].toNat / 2 ^ 32 ∧ ∀ i : Fin 8, i ≠ 0 → n[i] = v[i])) ∧
      ((s2.release .module).poisoned pa 64 = false →
        let v := ((s2.release .module).readDesc8 pa).1
        let s4 := ((s2.release .module).readDesc8 pa).2
        let free := v[0].toNat % 2 ^ 32
        let legal := poolBad v = false ∧ req % 2 ^ 16 = 0
        (¬ legal → exec (.pgput d a b) s = ans s4 (code 2)) ∧
        (legal → free = v[0].toNat / 2 ^ 32 → exec (.pgput d a b) s = ans s4 (code 4)) ∧
        (legal → free ≠ v[0].toNat / 2 ^ 32 → ∀ x s5, s4.bankWords s.user [(v[2].toNat + 8 * free) % 2 ^ 64] [] = .ok ([x], s5) →
          ∃ n : Vector Word 8,
            exec (.pgput d a b) s = ans (s5.writeDesc8 pa n [(x, s.arg [a, b] 1)]) (BitVec.ofNat 64 (free + 1)) ∧
            n[0].toNat % 2 ^ 32 = free + 1 ∧ n[0].toNat / 2 ^ 32 = v[0].toNat / 2 ^ 32 ∧ ∀ i : Fin 8, i ≠ 0 → n[i] = v[i]))) ∧
    (∀ (pa : Nat) (n : Vector Word 8) (x : Nat) (w : Word), (x + 8 ≤ pa ∨ pa + 64 ≤ x) → x / 128 ≠ pa / 128 → x % 8 = 0 → pa % 64 = 0 →
      let t := s.writeDesc8 pa n [(x, w)]
      (∀ i : Fin 8, t.mem.rd (pa + 8 * i.val) 8 = n[i].toNat) ∧ (s.LinesOnce → t.mem.rd x 8 = w.toNat))

/-- R281 to R284: send queues the bytes of its message at the endpoint, at most 8 not accepted at a time and none ahead of an earlier linked
copy; recv stores the oldest message that
came, in the partition or in memory, and gives its length; lnkwait passes once no message or linked copy of the hart is left there; an
endpoint that is not configured raises "protection", and a message of 0 or more than 65,536 bytes "illegal instruction". That the endpoint is
tested before the range is the model's choice (log 85), as is a send over a scratchpad word in error, which it reports (log 94). -/
def Obligations.LinkInstructionResults : Prop :=
  ∀ (s : State) (e : BitVec 8) (d a b : Reg) (v : Vd), s.vd? = some v →
    let ep := (v.eps.find? fun x => x.1 = e).map (·.2)
    let ends (t : State) (f : Endpoint → Endpoint) : State :=
      { t with vds := t.vds.map fun u => if u.id = v.id then { u with eps := u.eps.map fun x => if x.1 = e then (x.1, f x.2) else x } else u }
    (s.Issues .aOnly 1 [a, b] [] →
      let addr := (s.arg [a, b] 0).toNat
      let n := (s.arg [a, b] 1).toNat
      (n = 0 ∨ 65536 < n → exec (.send e a b) s = s.trap (.plain 0x01 s.insWord)) ∧
      (n ≠ 0 → n ≤ 65536 →
        ((∀ p, ep = some p → p.cfg = none) → exec (.send e a b) s = s.trap (.plain 0x08 s.insWord)) ∧
        (∀ p, ep = some p → p.cfg ≠ none → ∀ m s2, (s.popped [a, b]).messageRange addr n .read s.user = .ok (m, s2) →
          (8 ≤ p.out.length ∨ s.linkBefore e s.nextId = true → exec (.send e a b) s = s.stall .channel) ∧
          (p.out.length < 8 → s.linkBefore e s.nextId = false →
            let s3 := s2.rangesHome m [⟨addr, n, false⟩]
            s3.rangesPoison m [⟨addr, n, false⟩] = none →
            let s4 := s3.noteRanges [⟨addr, n, false⟩]
            (addr < 0xFFFFFFFF00000000 → addr + n ≤ 0xFFFFFFFF00000000 → s4 = s3) ∧
            (0xFFFFFFFF00000000 ≤ addr → s4 = s3.noteScratch (addr - 0xFFFFFFFF00000000) n) ∧
            ∃ x : Msg, exec (.send e a b) s = .next (((ends s4 fun p => { p with out := p.out ++ [x] }).noteSent s.key e).retire 1) ∧
              x.bytes.length = n ∧ (∀ i < n, x.bytes.getD i 0 = s3.longByte m false (addr + i)) ∧ x.from_ = s.key ∧ x.credit = none)))) ∧
    (s.Issues .aOnly 1 [a] [d] →
      let addr := (s.arg [a] 0).toNat
      ((∀ p, ep = some p → p.cfg = none) → exec (.recv e d a) s = s.trap (.plain 0x08 s.insWord)) ∧
      (∀ p, ep = some p → p.cfg ≠ none →
        (p.inn = [] → exec (.recv e d a) s = s.stall .sync) ∧
        (∀ bs rest, p.inn = bs :: rest → ∀ m s2, (s.popped [a]).messageRange addr bs.length .write s.user = .ok (m, s2) →
          ∃ t : State, exec (.recv e d a) s = .next (((ends t fun p => { p with inn := p.inn.drop 1 }).deliverLater d
              (BitVec.ofNat 64 bs.length)).retire 1) ∧
            let local_ (i : Nat) : Prop := 0xFFFFFFFF00000000 ≤ addr + i
            let stored (x : Nat) : Prop := ∃ i < bs.length, ∃ b, ¬ local_ i ∧ pageTo m (addr + i) = some (.mem b) ∧ x = b + (addr + i) % 65536
            t.me = s.me ∧ t.hart = { (s.popped [a]).hart with scratch := t.hart.scratch } ∧
            (∀ i < bs.length, local_ i → t.hart.scratch.get (addr + i - 0xFFFFFFFF00000000) = bs.getD i 0) ∧
            (∀ p, (∀ i < bs.length, local_ i → p ≠ addr + i - 0xFFFFFFFF00000000) → t.hart.scratch.get p = s.hart.scratch.get p) ∧
            (bs.length ≤ 65536 → ∀ i < bs.length, ¬ local_ i → ∀ b, pageTo m (addr + i) = some (.mem b) →
              t.mem.get (b + (addr + i) % 65536) = bs.getD i 0) ∧
            (s2.LinesOnce → s2.BytesKept t stored)))) ∧
    (s.Fits .aOnly 1 →
      ((∀ p, ep = some p → p.cfg = none) → exec (.lnkwait e) s = s.trap (.plain 0x08 s.insWord)) ∧
      (∀ p, ep = some p → p.cfg ≠ none →
        let left := (∃ x ∈ p.out, x.from_ = s.key ∧ x.hartIx = s.hartIx) ∨
          ∃ i : Fin 8, ∃ c ∈ s.core.chans[i].queue, c.hart = s.hart.id ∧ c.kind = .cpy (some e)
        (¬ left → exec (.lnkwait e) s = .next (s.retire 1)) ∧ (left → exec (.lnkwait e) s = s.stall .remote)))

/-- R46, R242, R243, R246 to R255: a copy command whose checks fail takes its trap; one whose checks pass waits while its channel holds 8
commands, while the interlock table has no room or one of its ranges conflicts, and is otherwise queued with its operands, its barrier's
phase and one interlock for every range it reads and writes. The checks of each command run in R246's order: the length and geometry, the
alignment, the scale base, then the ranges in the windows; a range wholly or partly in the lane-store window, or in the local window beyond
the partition, raises "protection" with its lowest failing address. The order of the ranges, the table of cpyg as RC times RB and the span
held for a list in memory are the model's reading (log 37), as are the access kinds of the traps (log 26). -/
def Obligations.CopyIssueResults : Prop :=
  ∀ (s : State) (o : CopyOps) (c : Reg) (lk x t z q qm rng iw sw : Bool) (rby : BitVec 16) (dq : BitVec 2) (xf nm : BitVec 3) (pw : BitVec 5)
    (kb : BitVec 11) (red : CopyRed) (fill : Byte) (srow : BitVec 4),
    let ch := s.core.chans[o.ch.toNat]
    let queued (i : Instr) (srcs : List Reg) (req : Except TrapInfo CopyReq) : Prop := s.Issues .aOnly 2 srcs [] →
      (∀ e, req = .error e → exec i s = s.trap e) ∧
      (∀ r, req = .ok r →
        let ranges := ((r.reads ++ r.writes).filter fun y => decide (y.2 ≠ 0)).length
        let clash := (∃ y ∈ r.reads, s.interlocked y.1 y.2 false = true) ∨ ∃ y ∈ r.writes, s.interlocked y.1 y.2 true = true
        (8 ≤ ch.queue.length → exec i s = s.stall .channel) ∧
        (ch.queue.length < 8 → (32 < s.hart.ilocks.length + ranges ∨ clash) → exec i s = s.stall .interlock) ∧
        (ch.queue.length < 8 → s.hart.ilocks.length + ranges ≤ 32 → ¬ clash → ∃ (u : State) (k : CopyCmd),
          exec i s = .next (u.retire 2) ∧
          u = { s.popped srcs with
            nextId := s.nextId + 1, core := { s.core with chans := u.core.chans }
            hart := { (s.popped srcs).hart with ilocks := u.hart.ilocks } } ∧
          u.core.chans = s.core.chans.set o.ch.toNat { ch with queue := ch.queue ++ [k] } ∧ k.id = s.nextId ∧ k.hart = s.hart.id ∧
          k.user = (s.me.mode == .u) ∧ k.kind = r.kind ∧ k.dst = r.dst ∧ k.src = r.src ∧ k.len = r.len ∧ k.tb = o.tb ∧
          k.phase = s.core.tbs[o.tb.toNat].phase ∧ k.started = false ∧ k.pos = 0 ∧ k.counted = r.counted ∧ k.more = r.more ∧
          k.credited = 0 ∧ k.got = r.got ∧ k.span = (r.writes.map (·.2)).headD 0 ∧ k.before = none ∧
          (∀ y, y ∈ u.hart.ilocks ↔ y ∈ s.hart.ilocks ∨ (y.owner = .cmd s.nextId ∧ y.len ≠ 0 ∧
            ((y.write = false ∧ (y.lo, y.len) ∈ r.reads) ∨ (y.write = true ∧ (y.lo, y.len) ∈ r.writes))))))
    let n (srcs : List Reg) (i : Nat) : Nat := (s.arg srcs i).toNat
    let four := [o.a, o.b, c, o.d]
    let tri := [o.a, o.b, o.d]
    queued (.cpy o lk) tri (s.cpyReq lk (n tri 0) (n tri 1) (n tri 2)) ∧
    queued (.cpys o rby c) four (s.cpysReq rby.toNat (n four 0) (n four 1) (n four 2) (n four 3)) ∧
    (dq ≠ 2 → queued (.cpyt o x t dq xf pw kb c) tri
      (s.cpytReq x t dq.toNat xf.toNat pw.toNat kb.toNat (n tri 0) (n tri 1) 0 (n tri 2))) ∧
    (dq = 2 → queued (.cpyt o x t dq xf pw kb c) four
      (s.cpytReq x t dq.toNat xf.toNat pw.toNat kb.toNat (n four 0) (n four 1) (n four 2) (n four 3))) ∧
    (q = false → queued (.cpyo o z q red xf kb c) tri (s.cpyoReq z q red xf.toNat kb.toNat (n tri 0) (n tri 1) 0 (n tri 2))) ∧
    (q = true → queued (.cpyo o z q red xf kb c) four
      (s.cpyoReq z q red xf.toNat kb.toNat (n four 0) (n four 1) (n four 2) (n four 3))) ∧
    (qm = false → queued (.cpyg o nm qm rng iw fill sw srow c) four
      (s.cpygReq (nm.toNat + 1) qm rng iw fill sw srow.toNat (n four 0) (n four 1) (n four 2) (n four 3) [s.arg four 1])) ∧
    (qm = true →
      let pops := nm.toNat + 1 + (if rng then 1 else 0)
      let srcs := o.a :: (List.replicate pops o.b ++ [c, o.d])
      queued (.cpyg o nm qm rng iw fill sw srow c) srcs
        (s.cpygReq (nm.toNat + 1) qm rng iw fill sw srow.toNat (n srcs 0) (n srcs 1) (n srcs (pops + 1)) (n srcs (pops + 2))
          ((List.range pops).map fun i => s.arg srcs (1 + i)))) ∧
    -- the checks, on the values of the operands
    ∀ a b c d : Nat,
      let bad (r : Nat × Nat) : Option Nat :=
        if 0xFFFFFFFE00000000 ≤ r.1 ∧ r.1 < 0xFFFFFFFE00080000 then some r.1
        else if r.1 < 0xFFFFFFFE00000000 ∧ 0xFFFFFFFE00000000 < r.1 + r.2 then some 0xFFFFFFFE00000000
        else if r.2 ≠ 0 ∧ 0xFFFFFFFF00000000 + s.hart.scratchSize < r.1 + r.2 then some (max r.1 (0xFFFFFFFF00000000 + s.hart.scratchSize))
        else none
      let illegal (p : Except TrapInfo CopyReq) : Prop := p = .error (.plain 0x01 s.insWord)
      let fails (p : Except TrapInfo CopyReq) (cause : BitVec 8) (va : Nat) (k : Acc) : Prop := p = .error (.addr cause (BitVec.ofNat 64 va) k)
      let windows (p : Except TrapInfo CopyReq) (reads writes : List (Nat × Nat)) (k : Acc) (r : CopyReq) : Prop :=
        (∀ va, reads.findSome? bad = some va → fails p 0x08 va .read) ∧
        (∀ va, reads.findSome? bad = none → writes.findSome? bad = some va → fails p 0x08 va k) ∧
        (reads.findSome? bad = none → writes.findSome? bad = none → p = .ok r)
      let cpy_ := s.cpyReq false a b d
      (2 ^ 39 ≤ b → illegal cpy_) ∧
      (b < 2 ^ 39 → windows cpy_ [(a, b)] [(d, b)] .write ⟨.cpy none, d, a, b, b, false, [], [(a, b)], [(d, b)]⟩) ∧
      (let link := s.cpyReq true a b d
       let e := BitVec.ofNat 8 d
       let shape := d < 256 ∧ b ≠ 0 ∧ b ≤ 65536
       (¬ shape → illegal link) ∧ (∀ va, shape → bad (a, b) = some va → fails link 0x08 va .read) ∧
       (shape → bad (a, b) = none → s.endpointOk e = false → link = .error (.plain 0x08 s.insWord)) ∧
       (shape → bad (a, b) = none → s.endpointOk e = true → link = .ok ⟨.cpy (some e), 0, a, b, b, false, [], [(a, b)], []⟩)) ∧
      (let p := s.cpysReq rby.toNat a b c d
       let ss := (BitVec.ofNat 32 c).toInt
       let ds := c / 2 ^ 32
       let rows := b / rby.toNat
       let shape := b < 2 ^ 39 ∧ rby ≠ 0 ∧ b % rby.toNat = 0 ∧ rby.toNat ≤ ds
       let last := (a : Int) + ((rows : Int) - 1) * ss
       let span := if rows = 0 then (a, 0) else ((min (a : Int) last).toNat, (max (a : Int) last + rby.toNat - min (a : Int) last).toNat)
       (¬ shape → illegal p) ∧
       (shape → windows p ((List.range rows).map fun k => ((BitVec.ofInt 64 ((a : Int) + k * ss)).toNat, rby.toNat))
         ((List.range rows).map fun k => (d + k * ds, rby.toNat)) .write
         ⟨.cpys rby.toNat ss ds, d, a, b, b, false, [], [span], [(d, if rows = 0 then 0 else (rows - 1) * ds + rby.toNat)]⟩)) ∧
      (let p := s.cpytReq x t dq.toNat xf.toNat pw.toNat kb.toNat a b c d
       let cont := if pw.toNat < 8 then 1 else if pw.toNat < 16 then 2 else 4
       let blk := if xf = 1 then 16 else if xf = 2 ∨ xf = 3 then 24 else 32
       let unit := if t = true ∨ dq = 0 then 1 else if dq = 1 then (if xf = 3 then 2 else 1) else 4
       let els := if dq = 0 then (if t then b / cont else b) else b / blk * 32
       let lane := 0xFFFFFFFE00000000 ≤ d ∧ d < 0xFFFFFFFE00080000
       let e := (d - 0xFFFFFFFE00000000) % 16384
       let form := b < 2 ^ 39 ∧ ¬ (t = true ∧ dq = 0 ∧ 16 ≤ pw.toNat ∧ lane ∧ (d - 0xFFFFFFFE00000000) / 16384 % 2 = 1) ∧
         (x = true → b % 256 = 0) ∧ (t = true → dq = 0 → b % cont = 0) ∧ (dq = 1 → b % blk = 0) ∧ (dq = 2 → b % (blk * kb.toNat) = 0)
       let srcOk := x = true → a % 256 = 0
       let dstOk := if t then lane → e % 64 = 0 else d % unit = 0
       let scaleOk := dq = 2 → c % 1024 = 0
       let scales := if dq = 2 then [(c, (b / (blk * kb.toNat) + 31) / 32 * (1024 * ((kb.toNat + 31) / 32)))] else []
       let r : CopyReq := ⟨.cpyt x t dq.toNat xf.toNat pw.toNat kb.toNat c, d, a, b, b, false, [], (a, b) :: scales, [(d, els * unit)]⟩
       (dq ≠ 0 → 1 ≤ xf ∧ xf ≤ 4) → dq ≠ 3 → (dq = 2 → 0 < kb ∧ t = false) →
       (¬ form → illegal p) ∧ (form → ¬ srcOk → fails p 0x06 a .read) ∧ (form → srcOk → ¬ dstOk → fails p 0x06 d .write) ∧
       (form → srcOk → dstOk → ¬ scaleOk → p = .error (.plain 0x0C (BitVec.ofNat 64 c))) ∧
       (form → srcOk → dstOk → scaleOk →
         (t = false → windows p r.reads r.writes .write r) ∧
         (t = true → (∀ va, bad (a, b) = some va → fails p 0x08 va .read) ∧
           (bad (a, b) = none → ¬ lane → fails p 0x08 d .write) ∧
           (bad (a, b) = none → lane → els ≠ 0 → s.lanes < e + els → fails p 0x08 (max d (d - e + s.lanes)) .write) ∧
           (bad (a, b) = none → lane → els = 0 ∨ e + els ≤ s.lanes → p = .ok r)))) ∧
      (let p := s.cpyoReq z q red xf.toNat kb.toNat a b c d
       let blk := if xf = 1 then 16 else if xf = 2 ∨ xf = 3 then 24 else 32
       let codes := if q then b / 128 * blk else b
       let sums := red ≠ .none
       let k : Acc := if red = .none then .write else .atomic
       let form := b < 2 ^ 39 ∧ (q = true → b % (128 * kb.toNat) = 0) ∧ (z = true → codes % 256 = 0) ∧ (sums → b % 4 = 0)
       let srcOk := (z = true → q = false → a % 256 = 0) ∧ (sums → a % 4 = 0)
       let dstOk := (z = true → d % 256 = 0) ∧ (sums → d % 4 = 0)
       let scaleOk := q = true → c % 1024 = 0
       -- the destination of a reduction begins in the local window or runs into it from memory
       let partition := 0xFFFFFFFF00000000 ≤ d ∨ (0xFFFFFFFE00080000 ≤ d ∧ 0xFFFFFFFF00000000 < d + b)
       let r : CopyReq := ⟨.cpyo z q red xf.toNat kb.toNat c, d, a, b, b, false, [], [(a, b)],
         (d, codes) :: if q then [(c, (b / (128 * kb.toNat) + 31) / 32 * (1024 * ((kb.toNat + 31) / 32)))] else []⟩
       (q = true → 1 ≤ xf ∧ xf ≤ 4 ∧ 0 < kb) →
       (¬ form → illegal p) ∧ (form → ¬ srcOk → fails p 0x06 a .read) ∧ (form → srcOk → ¬ dstOk → fails p 0x06 d k) ∧
       (form → srcOk → dstOk → ¬ scaleOk → p = .error (.plain 0x0C (BitVec.ofNat 64 c))) ∧
       (form → srcOk → dstOk → scaleOk →
         (∀ va, bad (a, b) = some va → fails p 0x08 va .read) ∧
         (sums → bad (a, b) = none → partition → fails p 0x08 (max d 0xFFFFFFFF00000000) .atomic) ∧
         (¬ sums ∨ ¬ partition → windows p r.reads r.writes k r))) ∧
      (∀ vs : List Word,
        let n := nm.toNat + 1
        let p := s.cpygReq n qm rng iw fill sw srow.toNat a b c d vs
        let rb := c % 65536
        let pitch := c / 65536 % 65536 * 16
        let rc := c / 2 ^ 32
        let eb := if iw then 8 else 4
        let got := if qm then vs.map (fun v => v.toNat % 2 ^ (8 * eb)) else []
        let rows := if rng = false then n else if qm then ((List.range n).map fun j => got.getD (j + 1) 0 - got.getD j 0).sum else (2 ^ 39 - 1) / rb
        let listed := rng && !qm
        let form := 0 < rb ∧ rb ≤ pitch ∧ (sw = true → rb % 256 = 0 ∧ rb ≤ 4096) ∧ rows * rb < 2 ^ 39
        let reads := (if qm then [] else [(b, (n + if rng then 1 else 0) * eb)]) ++ [(a, rc * rb)]
        (¬ form → illegal p) ∧ (form → qm = false → b % eb ≠ 0 → fails p 0x06 b .read) ∧
        (form → qm = true ∨ b % eb = 0 →
          windows p reads (if listed then [(d, 0)] else (List.range rows).map fun j => (d + j * pitch, rb)) .write
            ⟨.cpyg n (if qm then none else some b) rng iw fill sw srow.toNat rb pitch rc, d, a, 0, if listed then 0 else rows * rb,
              listed, got, reads, [(d, if rows = 0 then 0 else (rows - 1) * pitch + rb)]⟩))

/-- R61, R164, R165, R244, R247 to R260, R264 to R266: cpstat delivers an item of its channel, cpwait passes once the commands issued before
it have left the channel or the running one has passed S[A], and then acquires; a chunk writes the places of its command that lie in one
4 KiB range and whose turn it is, checks exactly the addresses that they need, moves CPWP past them and counts their bytes at the command's
barrier, whose phase ends where that meets its count; one that fails its check stops the channel with a fault for the A-stream, once no line
of its walks or ranges is pinned by another core. What is written: cpy's bytes; cpys's rows; cpyt's expanded, dequantised or transposed
elements, a transpose's slice by slice, with its rows set aside as they stood for the lane-array instructions that read them before it
ends (R179); cpyo's bytes, reductions, codes with their scales and padding, or ZB slots with their
marks; cpyg's table rows, swizzled or filled. A reduction's page of MT 10 permits no access (R252).
Chunk order and poison are the model's reading (log 20, log 37, log 38), as is CPWP at a fault of a swizzled gather (log 69). -/
def Obligations.CopyProgressResults : Prop :=
  ∀ (s : State) (i : BitVec 3) (d a : Reg) (sc : Scope) (drain : Bool),
    let ch := s.core.chans[i.toNat]
    (s.Issues .aOnly 2 [] [d] →
      let gives (item : BitVec 3) (w : Word) : Prop := exec (.cpstat i d item) s = .next ((s.deliverLater d w).retire 2)
      gives 0 (BitVec.ofNat 64 ((if ch.queue = [] then 0 else 1) + (if ch.flt then 2 else 0) + (if ch.oob = none then 0 else 4) +
        (if ch.rperr = none then 0 else 8) + (if ch.abt = none then 0 else 16))) ∧
      (∀ j k, ch.oob = some (j, k) → gives 1 (BitVec.ofNat 64 (j.toNat % 2 ^ 32 * 2 ^ 32 + k % 2 ^ 32))) ∧
      (∀ j, ch.rperr = some j → gives 2 (BitVec.ofNat 64 j)) ∧ gives 3 ch.fltAddr ∧
      (∀ c rest, ch.queue = c :: rest → gives 4 (BitVec.ofNat 64 (c.counted - c.credited))) ∧ (ch.queue = [] → gives 4 0) ∧
      gives 5 (BitVec.ofNat 64 ch.queue.length) ∧
      (∀ r, ch.abt = some r → gives 6 (BitVec.ofNat 64 ((if r.phase then 2 ^ 44 else 0) + r.tb.toNat * 2 ^ 40 + r.bytes.toNat))) ∧
      exec (.cpstat i d 7) s = s.trap (.plain 0x01 s.insWord)) ∧
    (s.Issues .aOnly 2 [a] [] →
      let before := s.me.cpMark.getD s.nextId
      let past := (∀ c ∈ ch.queue, before ≤ c.id) ∨ (drain = false ∧ ∃ c rest, ch.queue = c :: rest ∧ c.started = true ∧ ch.flt = false ∧
        c.dst ≤ (s.arg [a] 0).toNat ∧ (s.arg [a] 0).toNat < c.dst + c.span ∧ (s.arg [a] 0).toNat < ch.cpwp.toNat)
      (past → s.orderWaits false true sc = none → exec (.cpwait i a sc drain) s =
        .next ((State.acquire { s.popped [a] with me := { s.me with cpMark := none } } sc).retire 2)) ∧
      (¬ past → exec (.cpwait i a sc drain) s = State.stall { s with me := { s.me with cpMark := some before } } .sync)) ∧
    ((ch.queue = [] ∨ ch.flt = true ∨ s.held = true) → exec (.copyChunk i) s = .next s) ∧
    (∀ (u v : State) (va pa : Nat) (pte : Word) (user zb : Bool), u.translate va .atomic user true = .ok (pa, pte, v) → 2 ^ 51 ≤ pa →
      u.longPage va .atomic user zb = .error (.addr 0x08 (BitVec.ofNat 64 va) .atomic)) ∧
    ∀ c rest, ch.queue = c :: rest → ch.flt = false → s.held = false → c.hart = s.hart.id → c.started = true →
      let asked := (s.chanAsk i).2
      let s0 : State := { s with core := { s.core with chans := s.core.chans.set i.toNat { ch with pinWait := none } } }
      let place (m : List (Nat × PageTo)) (va : Nat) : Option (Bool × Nat) :=
        if 0xFFFFFFFF00000000 ≤ va then some (true, va - 0xFFFFFFFF00000000)
        else match pageTo m va with
          | some (.mem b) => some (false, b + va % 65536)
          | _ => none
      let lands (m : List (Nat × PageTo)) (t : State) (va : Nat) (x : Byte) : Prop :=
        (∀ p, place m va = some (true, p) → t.hart.scratch.get p = x) ∧ (∀ p, place m va = some (false, p) → t.mem.get p = x)
      -- outside these addresses no byte has changed
      let kept (m : List (Nat × PageTo)) (u t : State) (written : Nat → Prop) : Prop :=
        (∀ p, (∀ va, written va → place m va ≠ some (true, p)) → t.hart.scratch.get p = s.hart.scratch.get p) ∧
        (u.LinesOnce → u.BytesKept t fun p => ∃ va, written va ∧ place m va = some (false, p)) ∧ t.me.regs = s.me.regs ∧ t.me.pc = s.me.pc
      -- the command's barrier has counted these bytes (R164, R165)
      let counted (t : State) (bytes : Nat) : Prop :=
        let b := s.core.tbs[c.tb.toNat]
        let x := if b.phase = c.phase then { b with arrived := b.arrived + BitVec.ofNat 40 bytes } else b
        let tagged : Prop := ∃ j : Fin 8, ∃ q ∈ t.core.chans[j].queue, q.tb = c.tb ∧ q.phase = b.phase ∧ (q.more = true ∨ q.credited < q.counted)
        let met := x.posted = true ∧ x.arrived.toInt = x.expected ∧ ¬ tagged
        (met → t.core.tbs[c.tb.toNat] = ⟨!b.phase, false, 0, 0⟩) ∧ (¬ met → t.core.tbs[c.tb.toNat] = x) ∧
        ∀ j : Fin 16, j.val ≠ c.tb.toNat → t.core.tbs[j] = s.core.tbs[j]
      let stops (u : State) (first : Nat) (e : TrapInfo) : Prop := ∃ t : State, exec (.copyChunk i) s = .next t ∧ t.mem = u.mem ∧
        t.core.chans[i.toNat].flt = true ∧ t.core.chans[i.toNat].fltCause = e.cause ∧ t.core.chans[i.toNat].fltAddr = e.tval ∧
        t.core.chans[i.toNat].cpwp = BitVec.ofNat 64 first ∧ t.core.chans[i.toNat].queue = ch.queue ∧ t.core.tbs = s.core.tbs ∧
        (if s.isE then t.peer else t.me).faults = (if s.isE then s.peer else s.me).faults ++ [{ e with ef := true, ech := i }]
      let gone (t : State) : Prop := t.core.chans[i.toNat].queue = rest ∧ ∀ e ∈ t.hart.ilocks, e.owner ≠ .cmd c.id
      -- a chunk of a command that delivers `total` places, place q at address `at_ q`, from the addresses that `needs` and the scale bytes of
      -- `table`; `extra` are the scale bytes that it writes besides, and `effect` what it writes
      let chunk (at_ : Nat → Nat) (total : Nat) (counts : Nat → Nat) (needs table : Nat → Nat → Prop) (lanes : Bool)
          (extra : Nat → Nat → Prop) (effect : Nat → List (Nat × PageTo) → State → State → Prop) : Prop := c.pos < total →
        let p := c.plan
        let n := p.n
        let here (q : Nat) : Prop := c.pos ≤ q ∧ q < c.pos + n
        let all := p.srcs ++ p.scaleReads ++ p.scaleWrites ++ p.dsts
        let reads := p.srcs ++ p.scaleReads ++ if p.acc = .atomic then p.dsts else []
        let written (va : Nat) : Prop := (lanes = false ∧ ∃ q, here q ∧ va = at_ q) ∨ extra n va
        let within (rs : List Range) (x : Nat) : Prop := ∃ r ∈ rs, r.lo ≤ x ∧ x < r.lo + r.len
        (0 < n ∧ c.pos + n ≤ total ∧ (∀ q, here q → at_ q / 4096 = at_ c.pos / 4096) ∧
          (c.pos + n < total → at_ (c.pos + n) / 4096 ≠ at_ c.pos / 4096)) ∧
        (∀ x, within p.dsts x ↔ ∃ q, here q ∧ x = at_ q) ∧ (∀ x, within p.srcs x ↔ ∃ q, here q ∧ needs q x) ∧
        (∀ x, within p.scaleReads x ↔ ∃ q, here q ∧ table q x) ∧ (∀ x, within p.scaleWrites x ↔ extra n x) ∧
        (s0.planWalks asked p c.user = none →
          (∀ e, s0.checkPlan p c.user [] = .error e → stops s (at_ c.pos) e) ∧
          (∀ m s2, s0.checkPlan p c.user [] = .ok (m, s2) →
            (s2.rangesPinned asked m all = none →
              let s3 := s2.rangesHome m all
              s3.rangesBad m reads = none → (∀ va, written va → ∀ v, pageTo m va ≠ some (.control v)) →
              let last := c.pos + n = total
              let bytes := (if last then c.counted else counts (c.pos + n)) - c.credited
              ∃ t : State, exec (.copyChunk i) s = .next t ∧ t.core.chans[i.toNat].cpwp = BitVec.ofNat 64 (at_ (c.pos + n - 1) + 1) ∧
                (last → gone t) ∧ (¬ last → ∃ c', t.core.chans[i.toNat].queue = c' :: rest ∧ c'.pos = c.pos + n ∧ c'.kind = c.kind ∧
                  c'.credited = c.credited + bytes) ∧ counted t bytes ∧ kept m s2 t written ∧ effect n m s3 t)))
      let le (f : Nat → Byte) (k a : Nat) : Nat := ((List.range k).map fun j => (f (a + j)).toNat * 256 ^ j).sum
      let byteOf (x k : Nat) : Byte := BitVec.ofNat 8 (x / 256 ^ k)
      let width (xf : Nat) : Nat := if xf = 1 then 4 else if xf = 2 ∨ xf = 3 then 6 else 8
      let none_ (_ _ : Nat) : Prop := False
      (c.kind = .cpy none → c.granules = decide (c.src % 8 = 0 ∧ c.dst % 8 = 0) ∧
        chunk (fun q => c.dst + q) c.len id (fun q x => x = c.src + q) none_ false none_ fun n m s3 t =>
          ∀ q, c.pos ≤ q → q < c.pos + n → lands m t (c.dst + q) (s3.longByte m c.granules (c.src + q))) ∧
      (∀ rby ss ds, c.kind = .cpys rby ss ds → 0 < rby → rby ≤ ds →
        let from_ (q : Nat) : Nat := (BitVec.ofInt 64 ((c.src : Int) + (q / rby : Nat) * ss)).toNat + q % rby
        let to_ (q : Nat) : Nat := c.dst + q / rby * ds + q % rby
        chunk to_ c.len id (fun q x => x = from_ q) none_ false none_ fun n m s3 t =>
          ∀ q, c.pos ≤ q → q < c.pos + n → lands m t (to_ q) (s3.longByte m c.granules (from_ q))) ∧
      (∀ x tr dq xf pw kb sc, c.kind = .cpyt x tr dq xf pw kb sc → (dq ≠ 0 → 1 ≤ xf ∧ xf ≤ 4) → dq ≤ 2 → (dq = 2 → tr = false ∧ 0 < kb) →
        let cont := if pw < 8 then 1 else if pw < 16 then 2 else 4
        let w := width xf
        let unit := if tr = true ∨ dq = 0 then 1 else if dq = 1 then (if xf = 3 then 2 else 1) else 4
        let total := if dq = 0 then (if tr then c.len / cont else c.len) else c.len / (4 * w) * 32 * unit
        let needsAt (q o : Nat) : Prop := if dq = 0 then (if tr then o / cont = q else o = q)
          else q / unit * w / 8 ≤ o ∧ o * 8 < (q / unit + 1) * w
        let e0 := (c.dst - 0xFFFFFFFE00000000) % 16384
        let v : Reg := BitVec.ofNat 5 ((c.dst - 0xFFFFFFFE00000000) / 16384)
        let wide := if dq = 0 then pw + 1 else if xf = 1 then 5 else if xf = 2 then 7 else if xf = 3 then 10 else 8
        (tr = true → 0xFFFFFFFE00000000 ≤ c.dst ∧ c.dst < 0xFFFFFFFE00080000 ∧ e0 + total ≤ 16384 ∧ (16 < wide → v.toNat % 2 = 0)) →
        chunk (fun q => c.dst + q) total (fun q => if dq = 0 then (if tr then q * cont else q) else q / unit * w / 8)
          (fun q a => ∃ o, needsAt q o ∧ if x then c.src + o / 256 * 256 ≤ a ∧ a < c.src + o / 256 * 256 + 256 else a = c.src + o)
          (fun q a => dq = 2 ∧ a = scaleAt sc (1024 * ((kb + 31) / 32)) (q / 128 / kb) (q / 128 % kb)) tr none_ fun n m s3 t =>
          let rd := s3.longByte m c.granules
          let marked (a : Nat) : Prop := ∃ b, pageTo m a = some (.mem b) ∧ (b + a % 65536) / 256 ∈ s3.raw
          ∃ sb : Nat → Byte, (x = false → ∀ o, sb o = rd (c.src + o)) ∧
            (x = true → ∀ o,
              let slot := c.src + o / 256 * 256
              let map := le rd 4 slot
              let k := o % 256
              let at_ := 4 + 8 * ((List.range (k / 8)).filter map.testBit).length + k % 8
              (marked slot → sb o = rd (slot + k)) ∧ (¬ marked slot → map.testBit (k / 8) = false → sb o = 0) ∧
              (¬ marked slot → map.testBit (k / 8) = true → at_ < 256 → sb o = rd (slot + at_))) ∧
            (let code (e : Nat) : Nat := le sb 2 (e * w / 8) / 2 ^ (e * w % 8) % 2 ^ w
             let num (e : Nat) : Int := if dq = 0 then le sb cont (e * cont) else mxExpand xf (code e)
             (tr = false → ∀ q, c.pos ≤ q → q < c.pos + n → lands m t (c.dst + q) (
               if dq = 0 then sb q
               else if dq = 1 then BitVec.ofInt 8 (num (q / unit) / 256 ^ (q % unit))
               else
                 let scale := (rd (scaleAt sc (1024 * ((kb + 31) / 32)) (q / 128 / kb) (q / 128 % kb))).toNat
                 byteOf (if scale = 0xFF then 0x7FC00000 else if num (q / 4) = 0 then 0
                   else fpEncode .f32 .rne false (.fin (num (q / 4)) ((scale : Int) - 127 - mxFrac xf))) (q % 4))) ∧
             (tr = true →
               let elems := (List.range' c.pos n).map fun q => (e0 + q, (num q % (2 ^ wide : Nat)).toNat)
               (∀ y ∈ elems, t.hart.elem v wide y.1 = y.2) ∧
               (∀ e, e ∉ elems.map (·.1) → t.hart.elem v wide e = s.hart.elem v wide e) ∧ t.hart.pres = s.hart.pres ∧
               (∀ j (h : j < 512), ¬ (16 * v.toNat ≤ j ∧ j < 16 * v.toNat + wide) → t.hart.planes[j] = s.hart.planes[j]) ∧
               ∀ c', c.pos + n < total → t.core.chans[i.toNat].queue = c' :: rest →
                 (c.before ≠ none → c'.before = c.before) ∧
                 (c.before = none → ∃ y, c'.before = some y ∧ (y.rows.map (·.1)) = List.range' (16 * v.toNat) wide ∧
                   (∀ z ∈ y.rows, z.2 = s.hart.row z.1) ∧ ∀ e, y.lanes.testBit e = decide (e0 ≤ e ∧ e < e0 + total))))) ∧
      (∀ z q red xf kb sc, c.kind = .cpyo z q red xf kb sc → (q = true → 1 ≤ xf ∧ xf ≤ 4 ∧ 0 < kb ∧ red = .none) →
        (red ≠ .none → z = false ∧ c.dst % 4 = 0 ∧ c.pos % 4 = 0 ∧ c.len % 4 = 0) →
        let w := width xf
        let bb := 4 * w
        let total := if q then c.len / 128 * bb else c.len
        let rows := c.len / 128 / kb
        let stride := 1024 * ((kb + 31) / 32)
        (z = true → c.dst % 256 = 0 ∧ c.pos % 256 = 0 ∧ total % 256 = 0) →
        let ends (n k : Nat) : Prop := q = true ∧ c.pos < (k + 1) * bb ∧ (k + 1) * bb ≤ c.pos + n
        let pads (n x : Nat) : Prop := ∃ k r j, ends n k ∧ k % kb = kb - 1 ∧ (k / kb % 32 = 31 ∨ k / kb + 1 = rows) ∧ r / 32 = k / kb / 32 ∧
          j < (kb + 31) / 32 * 32 ∧ (rows ≤ r ∨ kb ≤ j) ∧ x = scaleAt sc stride r j
        let scales (n x : Nat) : Prop := (∃ k, ends n k ∧ x = scaleAt sc stride (k / kb) (k % kb)) ∨ pads n x
        chunk (fun k => c.dst + k) total (fun k => if q then k / bb * 128 else k)
          (fun k a => if q then c.src + k / bb * 128 ≤ a ∧ a < c.src + k / bb * 128 + 128 else a = c.src + k) none_ false scales fun n m s3 t =>
          let rd := s3.longByte m c.granules
          let here (k : Nat) : Prop := c.pos ≤ k ∧ k < c.pos + n
          let quant (k : Nat) := mxQuant xf ((List.range 32).map fun e => fpDecode .f32 false (le rd 4 (c.src + k * 128 + e * 4)))
          let clear (va : Nat) : Prop := ∀ y, scales n y → y ≠ va → place m y ≠ place m va
          ∃ out : Nat → Byte,
            (q = false → red = .none → ∀ k, here k → out k = rd (c.src + k)) ∧
            (q = true → ∀ k, here k → ∀ j < 8, (out k).getLsbD j = ((quant (k / bb)).2.getD ((k % bb * 8 + j) / w) 0).testBit ((k % bb * 8 + j) % w)) ∧
            (red ≠ .none → ∀ k, here k →
              let x := le rd 4 (c.dst + (k - k % 4))
              let y := le rd 4 (c.src + (k - k % 4))
              let int (x : Nat) : Int := (BitVec.ofNat 32 x).toInt
              let fp (op : Fv → Fv → Fv) : Nat := fpEncode .f32 .rne false (op (fpDecode .f32 false x) (fpDecode .f32 false y))
              out k = byteOf (match red with
                | .none => y
                | .addi => x + y
                | .maxi => if int x < int y then y else x
                | .mini => if int y < int x then y else x
                | .addf => fp (Fv.add .rne)
                | .maxf => fp (Fv.minMax true)
                | .minf => fp (Fv.minMax false)) (k % 4)) ∧
            (z = false → ∀ k, here k → ¬ scales n (c.dst + k) → clear (c.dst + k) → lands m t (c.dst + k) (out k)) ∧
            (z = true → ∀ b, here b → b % 256 = 0 →
              let full (j : Nat) : Bool := (List.range 8).any fun e => out (b + 8 * j + e) ≠ 0
              let rank (j : Nat) : Nat := ((List.range j).filter full).length
              let puts (k : Nat) (x : Byte) : Prop := ¬ scales n (c.dst + b + k) → clear (c.dst + b + k) → lands m t (c.dst + b + k) x
              let raw := ∀ j < 32, full j = true
              (raw → ∀ k < 256, puts k (out (b + k))) ∧
              (¬ raw → (∀ k < 4, ∃ x : Byte, puts k x ∧ ∀ e < 8, x.getLsbD e = full (8 * k + e)) ∧
                (∀ j < 32, full j = true → ∀ e < 8, puts (4 + 8 * rank j + e) (out (b + 8 * j + e))) ∧
                (∀ k < 256, 4 + 8 * rank 32 ≤ k → puts k 0)) ∧
              (∀ p, pageTo m (c.dst + b) = some (.mem p) → ((p + (c.dst + b) % 65536) / 256 ∈ t.raw ↔ raw))) ∧
            (∀ k, ends n k → clear (scaleAt sc stride (k / kb) (k % kb)) →
              lands m t (scaleAt sc stride (k / kb) (k % kb)) (BitVec.ofNat 8 (quant k).1)) ∧
            (∀ x, pads n x → clear x → lands m t x 0x7F)) ∧
      (∀ n list rng iw fill sw srow rb pitch rc, c.kind = .cpyg n list rng iw fill sw srow rb pitch rc → n ≤ 8 → 0 < rb → rb ≤ pitch → c.pos < rb →
        let g : Gather := ⟨n, list, rng, iw, fill, sw, srow, rb, pitch, rc⟩
        let scan : GScan := ⟨s0, [], c, [], ch.oob, ch.rperr, none⟩
        let eb := if iw then 8 else 4
        -- an entry of a list in memory that has not been read
        (∀ b, list = some b →
          let r : Range := ⟨b + c.got.length * eb, eb, false⟩
          s0.rangesWalkWait asked [r] .read c.user = none → ∀ m s2, s0.checkRanges [r] .read c.user [] = .ok (m, s2) →
          s2.rangesPinned asked m [r] = none → (s2.rangesHome m [r]).rangesBad m [r] = none →
          (scan.entry asked g c.got.length).c.got = c.got ++ [le ((s2.rangesHome m [r]).longByte m (decide (iw = true ∧ b % 8 = 0))) eb r.lo]) ∧
        -- the rows to come of a command whose entries were popped
        (list = none → n + (if rng then 1 else 0) ≤ c.got.length → c.gj < n →
          let p (j : Nat) : Nat := c.got.getD j 0
          let ahead : List Nat := if rng then ((List.range' c.gj (n - c.gj)).flatMap fun j => List.range' (p j) (p (j + 1) - p j)).drop c.gx
            else (c.got.take n).drop c.gj
          ahead ≠ [] → (rng = false → c.gx = 0) → (rng = true → c.gx < p (c.gj + 1) - p c.gj ∨ (c.gx = 0 ∧ c.pos = 0)) →
          let at_ (k o : Nat) : Nat := c.dst + (c.gt + k) * pitch + o
          let top := at_ 0 c.pos / 4096 * 4096 + 4096
          let here (k o : Nat) : Prop := k < ahead.length ∧ o < rb ∧ (k = 0 → c.pos ≤ o) ∧ at_ k o < top
          let x := GScan.run asked g top 8300 scan
          let srcs := x.pieces.flatMap fun y => match y.src with | some a => g.ranges y a | none => []
          let dsts := x.pieces.map fun y => (⟨y.dst, y.len, false⟩ : Range)
          let plan : Plan := ⟨0, srcs, [], [], dsts, .write⟩
          let chunkOf (k o : Nat) : Nat := if sw then (o / 16 ^^^ ((srow + c.gt + k) % 16)) * 16 + o % 16 else o
          (∀ a, (∃ r ∈ dsts, r.lo ≤ a ∧ a < r.lo + r.len) ↔ ∃ k o, here k o ∧ a = at_ k o) ∧
          (∀ a, (∃ r ∈ srcs, r.lo ≤ a ∧ a < r.lo + r.len) ↔ ∃ k o, here k o ∧ ahead.getD k 0 < rc ∧ a = c.src + ahead.getD k 0 * rb + chunkOf k o) ∧
          (x.st.planWalks asked plan c.user = none →
            (∀ e, x.st.checkPlan plan c.user x.m = .error e → stops s (if sw then ch.cpwp.toNat else at_ 0 c.pos) e) ∧ ∀ m s2, x.st.checkPlan plan c.user x.m = .ok (m, s2) →
            s2.rangesPinned asked m (srcs ++ dsts) = none →
            let s3 := s2.rangesHome m (srcs ++ dsts)
            s3.rangesBad m srcs = none → (∀ k o, here k o → ∀ v, pageTo m (at_ k o) ≠ some (.control v)) →
            ∃ t : State, exec (.copyChunk i) s = .next t ∧
              (∀ k o, here k o → lands m t (at_ k o) (if rc ≤ ahead.getD k 0 then fill
                else s3.longByte m c.granules (c.src + ahead.getD k 0 * rb + chunkOf k o))) ∧
              kept m s2 t (fun a => ∃ k o, here k o ∧ a = at_ k o) ∧
              (∀ y, ch.oob = some y → t.core.chans[i.toNat].oob = some y) ∧
              (ch.oob = none → (∀ k o, here k o → ahead.getD k 0 < rc) → t.core.chans[i.toNat].oob = none) ∧
              (ch.oob = none → ∀ k o, here k o → rc ≤ ahead.getD k 0 → (∀ l < k, ahead.getD l 0 < rc) →
                t.core.chans[i.toNat].oob = some (BitVec.ofNat 64 (ahead.getD k 0), c.gt + k)) ∧
              ∃ k o, here k o ∧ (∀ l u, here l u → l < k ∨ (l = k ∧ u ≤ o)) ∧
                (let past := (c.gt + k) * rb + o + 1
                 let last := o + 1 = rb ∧ k + 1 = ahead.length
                 (sw = false → t.core.chans[i.toNat].cpwp = BitVec.ofNat 64 (at_ k o + 1)) ∧
                 (sw = true → o + 1 = rb → t.core.chans[i.toNat].cpwp = BitVec.ofNat 64 (at_ k rb)) ∧
                 (sw = true → o + 1 < rb → 0 < k → t.core.chans[i.toNat].cpwp = BitVec.ofNat 64 (at_ (k - 1) rb)) ∧
                 counted t (past - c.credited) ∧ (last → gone t) ∧
                 (¬ last → ∃ c', t.core.chans[i.toNat].queue = c' :: rest ∧ c'.credited = c.credited + (past - c.credited) ∧ c'.kind = c.kind ∧
                   c'.gt * rb + c'.pos = past)))))

-- Events

/-- R77, R78, R88, R92, R97, R115, R128, R134, R178, R200, R333, R342, R359, R362, R363, R425: the events of a stream and its engines. A fetched
line comes into the buffer word for word, or its parity, an error or its header traps, an orphan prefix in it before its header, the write-back
that the read brought standing in every case; a control page reads 0; the oldest late result reaches its register or the oldest reserved place;
the oldest vector load makes its register FULL, the oldest vector store completes with its acquire, once no dirty line's home answers with a
retry, keeping its place there; the lanes become free; a walk fills the TLB and sets A and D; a pending fault, once a sent launch has its answer
and with a waiting wfi completed, a watchdog with no fault pending and no row step waiting on a chained channel, and a reserved opcode trap; wfi
times out unless its team is held. An event with nothing to act on changes nothing. That a walk of an access that is not permitted changes nothing
is the model's reading (log 25), as are the counted fetch (log 56), the wfi of a held team (log 88), the fetch from a control page (log 97) and
the watchdog of a stream whose peer exited inside its handler (log 101). -/
def Obligations.StreamEventResults : Prop :=
  ∀ (s : State) (va : Word) (acc : Acc) (w : W32),
    (((s.me.line? s.me.pc).isSome = true ∨ s.held = true ∨ s.me.stopped = true ∨ s.me.faults ≠ []) → exec .fetchLine s = .next s) ∧
    (s.me.line? s.me.pc = none → s.held = false → s.me.stopped = false → s.me.faults = [] →
      (∀ t, s.readRaw s.me.pc = .trap t → exec .fetchLine s = s.trap t) ∧
      (∀ q, s.readRaw s.me.pc = .ok (.parity, q) → exec .fetchLine s = q.trap (.plain 0x05 (s.me.pc &&& ~~~(0x3F : Word)))) ∧
      (∀ pa q, s.readRaw s.me.pc = .ok (.poisoned pa, q) →
        exec .fetchLine s = (q.reportPoison pa).trap (.addr 0x0B (s.me.pc &&& ~~~(0x3F : Word)) .fetch)) ∧
      (∀ l q, s.readRaw s.me.pc = .ok (.line l, q) →
        let h := l.words.getD 0 0
        let good := h.toNat / 2 ^ 15 % 2 = 0 ∧ h.toNat / 2 ^ 16 % 256 = 1
        let slot := s.me.pc.toNat / 4 % 16
        let word := l.words.getD slot 0
        let orphan := h.getLsbD slot = true ∨ (l.words.getD (slot + 1) 0).toNat % 256 ∈ [0x02, 0x06, 0x0A, 0x0E, 0x12, 0x42, 0x4A, 0xFE, 0x33]
        let bad := q.trap (.plain 0x01 (h.zeroExtend 64))
        (good → exec .fetchLine s = .next { q with me := { q.me with fetchBuf := q.me.fetchBuf ++ [l] } }) ∧
        (¬ good → slot = 0 ∨ word.toNat % 256 ≠ 0xFE → exec .fetchLine s = bad) ∧
        (¬ good → 0 < slot → slot < 15 → word.toNat % 256 = 0xFE →
          exec .fetchLine s = if orphan then q.trap (.plain 0x04 (word.zeroExtend 64)) else bad) ∧
        l.base = s.me.pc &&& ~~~(0x3F : Word) ∧ ∃ pa pte s1, s.translate l.base.toNat .fetch s.user false = .ok (pa, pte, s1) ∧
          ((s1.controlOf pa pte).isSome = true → q = s1 ∧ ∀ i < 16, l.words.getD i 0 = 0) ∧
          (s1.controlOf pa pte = none →
            q = (s1.counted pa 64).beforeHome pa 64 ∧ ∀ i < 16, l.words.getD i 0 = BitVec.ofNat 32 (q.mem.rd (pa + 4 * i) 4)))) ∧
    (s.me.pend = [] → exec .asyncDelivery s = .next s) ∧
    (∀ p ps, s.me.pend = p :: ps →
      (isQ p.dst = false → ∃ t : State, exec .asyncDelivery s = .next t ∧ t = { s with me := { s.me with pend := ps, regs := t.me.regs } } ∧
        ∀ r : Reg, r ≠ 0 → t.me.reg r = if r = p.dst then p.val else s.me.reg r) ∧
      (∀ pre post, isQ p.dst = true → s.hart.q (qIdx p.dst) = pre ++ .reserved :: post → .reserved ∉ pre → ∃ t : State,
        exec .asyncDelivery s = .next t ∧ t.me = { s.me with pend := ps } ∧ t.hart.q (qIdx p.dst) = pre ++ .val p.val :: post ∧
        ∀ i, i ≠ qIdx p.dst → t.hart.q i = s.hart.q i)) ∧
    (s.hart.vloads = [] → exec .vloadCompletion s = .next s) ∧
    (∀ l ls, s.hart.vloads = l :: ls → ∃ t : State, exec .vloadCompletion s = .next t ∧ t = { s with hart := t.hart } ∧
      t.hart = { s.hart with vloads := ls, pres := t.hart.pres } ∧
      ∀ r, t.hart.full r = (s.hart.full r || decide (r = l.reg) || (l.pair && decide (r = l.reg + 1)))) ∧
    (s.me.vmem = [] → exec .vectorMemoryCompletion s = .next s) ∧
    (∀ m ms, s.me.vmem = m :: ms →
      let t : State := { s with me := { s.me with vmem := ms } }
      (m.acq = none → exec .vectorMemoryCompletion s = .next t) ∧
      let since := (m.asked.map (·.2)).getD s.stamp
      (∀ c, m.acq = some c → (wideScope c = true → t.dirtyWaitsAt since = none) → exec .vectorMemoryCompletion s = .next (t.acquire c)) ∧
      (∀ c l, m.acq = some c → wideScope c = true → t.dirtyWaitsAt since = some l → exec .vectorMemoryCompletion s = .next
        { s.markRetried l with
          me := { s.me with vmem := { m with asked := some (addLine ((m.asked.map (·.1)).getD []) l, since) } :: ms }
          stamp := s.stamp + 1 })) ∧
    exec .laneCompletion s = .next { s with hart := { s.hart with laneBusy := 0 } } ∧
    (va.toNat < 2 ^ 56 → (∀ a ∈ s.walkLines s.hart.vd.toNat va.toNat, s.mustWait a 8 = none) →
      ∀ l, s.walkVd s.hart.vd.toNat va.toNat = .ok l →
      (permits l.pte acc s.user = false → exec (.pageWalk va acc) s = .next s) ∧
      (permits l.pte acc s.user = true → ∃ t : State, exec (.pageWalk va acc) s = .next t ∧ t.me = s.me ∧ t.hart = s.hart ∧
        (∃ e ∈ t.core.tlb, e.vd = s.hart.vd.toNat ∧ e.lvl = l.lvl ∧ e.pte = l.pte ||| 0x40 ||| (if writes acc then 0x80 else 0)) ∧
        ∀ x, ¬ (l.addr ≤ x ∧ x < l.addr + 8) → t.mem.get x = s.mem.get x)) ∧
    (∀ t ts, s.me.faults = t :: ts → s.me.pfx = none → s.me.stopped = false → s.held = false → s.me.launching = false → ∃ u : State,
      let s1 := match s.me.wait with
        | some (.wfi a) => State.retire { s with me := { s.me with pc := a } } 1
        | _ => s
      exec .trapEntry s = .next (u.takeTrap t) ∧ u = { s1 with
        me := { s1.me with faults := ts, exiting := false }, clus := { s.clus with comm := { s.clus.comm with semq := u.clus.comm.semq } } } ∧
      ∀ x, x ∈ u.clus.comm.semq ↔ x ∈ s.clus.comm.semq ∧ x.2 ≠ s.streamId) ∧
    ((s.me.faults = [] ∨ s.me.pfx ≠ none ∨ s.me.stopped = true ∨ s.held = true ∨ s.me.launching = true) → exec .trapEntry s = .next s) ∧
    (s.me.stopped = false → s.me.exiting = false → s.peer.inHandler = false ∨ s.peer.stopped = true → s.held = false → s.me.faults = [] →
      (s.isE = true → s.rowHeld = false) → ∀ wr r,
      (s.me.wait = some (.queue wr r) →
        exec .queueWatchdog s = .next (s.takeTrap (.plain 0x12 (BitVec.ofNat 64 (r.toNat + if wr then 64 else 0))))) ∧
      (s.me.wait = some (.presence wr r) →
        exec .queueWatchdog s = .next (s.takeTrap (.plain 0x12 (BitVec.ofNat 64 (r.toNat + 32 + if wr then 64 else 0)))))) ∧
    ((s.peer.inHandler = true ∧ s.peer.stopped = false ∨ s.held = true ∨ s.me.faults ≠ [] ∨ (s.isE = true ∧ s.rowHeld = true)) →
      exec .queueWatchdog s = .next s) ∧
    (s.held = false → ∀ a, s.me.wait = some (.wfi a) →
      exec .wfiTimeout s = .next (State.retire { s with me := { s.me with pc := a } } 1)) ∧
    ((s.held = true ∨ ∀ a, s.me.wait ≠ some (.wfi a)) → exec .wfiTimeout s = .next s) ∧
    exec (.reservedOpcode w) s = .next (s.takeTrap (.plain 0x01 (w.zeroExtend 64)))

/-- R139, R296, R316, R333: the pin of a line whose home has answered with a retry ends in whichever core holds it, its dirty bytes at the
home; a pin that no request waits for stays. A line that leaves its cache has its dirty bytes at the home; a pinned line, and a dirty one whose
home answers with a retry, do not leave. A stream that exits stops once all it issued is complete, and with the hart's second stream the
hart's queues, presence bits and validate set are discarded, its registers kept; the last stream of a team ends it once its cores' dirty
lines can be written back, and its grid counts it. That the registers, the partition, the count of the validate set and the presence bits of
an ended hart can still be told is the model's reading (log 87). -/
def Obligations.CacheAndStopEvents : Prop :=
  ∀ (s : State) (line : Nat),
    (∃ t : State, exec (.pinExpiry line) s = .next t ∧ t.me = s.me ∧ t.hart = s.hart ∧
      ∀ l ∈ t.core.dcache ++ t.cores.flatMap (fun c => c.2.dcache), l.line = line → l.pin = none ∨ l.retried = false) ∧
    (s.LinesOnce → (∀ c ∈ s.cores, ∀ l ∈ c.2.dcache, l.line ≠ line) → ∃ t : State, exec (.pinExpiry line) s = .next t ∧
      (∀ x, t.cacheByte x = s.cacheByte x) ∧
      (∀ x v l, s.DirtyAt x v → lineOf x = line → s.cached line = some l → l.pin ≠ none → l.retried = true → t.mem.get x = v) ∧
      (∀ l, s.cached line = some l → l.pin = none ∨ l.retried = false → t.mem = s.mem ∧ t.core.dcache = s.core.dcache) ∧
      s.BytesKept t (fun _ => False)) ∧
    (∀ c ∈ s.cores, ∀ l ∈ c.2.dcache, l.line = line → l.pin ≠ none → l.retried = true → (∀ x ∈ s.core.dcache, x.line ≠ line) →
      (∀ d ∈ s.cores, ∀ x ∈ d.2.dcache, x.line = line → d = c ∧ x = l) → ∃ t : State, exec (.pinExpiry line) s = .next t ∧
        ∀ x, lineOf x = line → l.dirty.getD (x % 128) false = true → t.mem.get x = l.data.getD (x % 128) 0) ∧
    (s.LinesOnce → ∃ t : State, exec (.cacheEviction line) s = .next t ∧ t.me = s.me ∧ t.hart = s.hart ∧
      s.BytesKept t (fun _ => False) ∧
      (∀ l, s.cached line = some l → (l.pin ≠ none ∨ (l.isDirty = true ∧ s.mustWait (line * 128) 1 ≠ none)) →
        t.core.dcache = s.core.dcache ∧ t.mem = s.mem) ∧
      (∀ l, s.cached line = some l → l.pin = none → (l.isDirty = true → s.mustWait (line * 128) 1 = none) →
        t.cached line = none ∧ ∀ x v, lineOf x = line → s.DirtyAt x v → t.mem.get x = v) ∧
      (∀ l, l ∈ t.core.dcache → l ∈ s.core.dcache) ∧ ∀ l ∈ s.core.dcache, l.line ≠ line → l ∈ t.core.dcache) ∧
    ((s.me.exiting = false ∨ s.me.stopped = true ∨ s.quiet = false ∨ s.me.faults ≠ []) → exec .streamStop s = .next s) ∧
    (s.me.exiting = true → s.me.stopped = false → s.quiet = true → s.me.faults = [] → s.clus.comm.arrived = [] ∨ s.hart.cf = false →
      let mine : Strm := { s.me with stopped := true, exiting := false, wait := none }
      let rest : Hart := { s.hart with
        queues := Vector.replicate 8 [], pres := Vector.replicate 32 false, vset := [], endCount := s.hart.vset.length, endPres := s.hart.pres,
        vovf := false }
      (s.hart.live = true → s.peer.stopped = false → exec .streamStop s = .next { s with me := mine }) ∧
      (s.peer.stopped = true → (∃ c ∈ s.parked, c.key = s.key ∧ c.hart.live = true ∧ c.a.stopped = false) →
        exec .streamStop s = .next { s with me := mine, hart := rest }) ∧
      (s.peer.stopped = true → (∀ c ∈ s.parked, c.key = s.key → c.hart.live = false) →
        (∀ l, s.flushWaits (s.coresOf s.key) = some l → exec .streamStop s = .next (s.asks l)) ∧
        (s.flushWaits (s.coresOf s.key) = none → ∃ t : State, exec .streamStop s = .next t ∧
          (∀ x ∈ t.teams, x.key ≠ s.key) ∧ t.me = mine ∧ t.peer = s.peer ∧ t.hart = { rest with live := false } ∧ t.vds = s.vds ∧
          t.grids = if s.teams.any (fun x => x.key = s.key) then
            s.grids.map fun g => if g.vd = s.key.vd ∧ g.gid = s.key.gid then { g with ended := g.ended + 1 } else g else s.grids)))

/-- R50, R297 to R305, R347, R405, R408: the first of the waiting teams that fits is placed, those before it in the order of the offers that fit
nowhere not holding it up; no team below priority 7 fits a die whose charges would pass its grant, lowered by half an eighth for each hot stack and
by a quarter when the die is hot; and one that waits alone starts with its harts in their
starting state, or is to be restored where it was swapped out; a grid that waits without a resident team ages; quanta that expire only ask
listed teams to stop, their channels' waiting requests withdrawn; an energy window charges a team alone on its cluster the greater of its
charge and the energy used, and a power grant gives each die its share. Milliwatts are rounded down (log 17, log 54). -/
def Obligations.SchedulerResults : Prop :=
  ∀ (s : State) (ts : List TeamKey) (vd gid avail : Nat) (die : BitVec 2),
    (s.waiting = [] → exec .placementOffer s = .next { s with stamp := s.stamp + 1 }) ∧
    (∀ pre w rest p v, s.offers = pre ++ w :: rest → (∀ x ∈ pre, x.saving = true ∨ s.choosePlace s.occupying x.grid = none) →
      s.choosePlace s.occupying w.grid = some p → w.swapped = false → s.findVd w.grid.vd = some v →
      v.id = w.grid.vd → ∃ (t : State) (m : Team), exec .placementOffer s = .next t ∧ m ∈ t.teams ∧
        m.key = ⟨w.grid.vd, w.grid.gid, w.key.tid⟩ ∧ (m.st = .resident ∨ m.st = .stopping) ∧ m.clus = p.1 ∧ m.core = p.2 ∧
        m.placedAt = s.stamp) ∧
    (∀ w p v, s.offers = [w] → s.choosePlace s.occupying w.grid = some p → w.swapped = true → w.saving = false → s.findVd w.grid.vd = some v →
      ∃ t : State, exec .placementOffer s = .next t ∧ t.grids = s.grids ∧ t.mem = s.mem ∧ t.teams = s.teams.map fun y =>
        if y.key = w.key then (match y.st with
          | .saved x => { y with st := .restoring x, clus := p.1, core := p.2, charge := s.chargeOf w.grid.desc }
          | _ => y) else y) ∧
    (∀ w p v, s.offers = [w] → s.choosePlace s.occupying w.grid = some p → w.swapped = false → s.findVd w.grid.vd = some v →
      v.id = w.grid.vd → (s.grids.filter fun g => decide (g.vd = w.grid.vd ∧ g.gid = w.grid.gid)) = [w.grid] → let d := w.grid.desc
      ∃ (t : State) (m : Team), exec .placementOffer s = .next t ∧ t.teams = s.teams ++ [m] ∧
        m.key = ⟨w.grid.vd, w.grid.gid, w.grid.nextTeam⟩ ∧ m.st = .resident ∧ m.clus = p.1 ∧ m.core = p.2 ∧
        m.cores = (d[2].toNat % 2 ^ 7 + 2 ^ (d[2].toNat / 2 ^ 8 % 4) - 1) / 2 ^ (d[2].toNat / 2 ^ 8 % 4) ∧
        (∀ j < d[2].toNat % 2 ^ 7, ∃ c ∈ t.allCtxs, c.a.pc = d[0] + 4 ∧ c.e.pc = d[0] + 68 ∧ c.a.mode = .u ∧ c.e.mode = .u ∧
          (∀ r : Reg, isQ r = false → c.a.reg r = (if r = 1 then w.grid.descVa else 0) ∧ c.e.reg r = c.a.reg r) ∧
          c.a.vl.toNat = 16384 / 2 ^ (d[2].toNat / 2 ^ 8 % 4) ∧ c.hart.queues = Vector.replicate 8 [] ∧ c.hart.scratch = [] ∧
          (w.grid.nextTeam < 2 ^ 32 → w.grid.gid < 2 ^ 32 → v.id < 2 ^ 10 → c.key = m.key) ∧
          c.hart.id.toNat = (p.1 * 64 + (p.2 + j / 2 ^ (d[2].toNat / 2 ^ 8 % 4)) * 8 + j % 2 ^ (d[2].toNat / 2 ^ 8 % 4)) % 2 ^ 14) ∧
        t.grids = s.grids.map fun g => if g.vd = w.grid.vd ∧ g.gid = w.grid.gid then
          { g with nextTeam := g.nextTeam + 1, st := .running, aged := 0 } else g) ∧
    (let waits := ∃ w ∈ s.waiting, w.grid.vd = vd ∧ w.grid.gid = gid
     let runs := ∃ t ∈ s.teams, t.key.vd = vd ∧ t.key.gid = gid ∧ (t.st = .resident ∨ t.st = .stopping)
     (waits → ¬ runs → exec (.aging vd gid) s =
       .next { s with grids := s.grids.map fun g => if g.vd = vd ∧ g.gid = gid then { g with aged := g.aged + 1 } else g }) ∧
     (¬ waits ∨ runs → exec (.aging vd gid) s = .next s)) ∧
    (∃ t : State, exec (.quantumExpiry ts) s = .next t ∧
      t = { s with teams := t.teams, stamp := s.stamp + 1, core := t.core, cores := t.cores, clus := t.clus, cluss := t.cluss } ∧
      (∀ c, t.coreOf c = s.coreOf c ∨ t.coreOf c = (s.coreOf c).withdrawn) ∧
      (∀ c, t.clusOf c = s.clusOf c ∨ t.clusOf c = { s.clusOf c with retention := false, gated := false }) ∧
      (∀ x ∈ s.teams, x.key ∉ ts → x ∈ t.teams) ∧
      (∀ x ∈ s.teams, (∀ y ∈ s.teams, y.key = x.key → y = x) →
        (x.faulted = true ∨ (x.st ≠ .resident ∧ s.stays x = false)) → x ∈ t.teams) ∧
      ∀ x ∈ t.teams, ∃ y ∈ s.teams, x = { y with st := x.st, since := x.since, out := x.out } ∧
        (x = y ∨ ((y.st = .resident ∨ y.st = .stopping) ∧ x.st = .stopping ∧ x.out = true ∧ y.key ∈ ts))) ∧
    (∃ t : State, exec (.energyWindow die) s = .next t ∧ t.grids = s.grids ∧ t.mem = s.mem ∧
      (∀ cl, t.clusOf cl = if 64 * die.toNat ≤ cl ∧ cl < 64 * die.toNat + 64 then
        { s.clusOf cl with energyMark := (s.clusOf cl).energy } else s.clusOf cl) ∧
      (∀ x ∈ s.teams, ¬ (64 * die.toNat ≤ x.clus ∧ x.clus < 64 * die.toNat + 64) → x ∈ t.teams) ∧
      (∀ x ∈ s.teams, 64 * die.toNat ≤ x.clus → x.clus < 64 * die.toNat + 64 → x.cores ≠ 0 →
        (s.teams.filter fun y => decide (y.clus = x.clus) && (y.st == .resident || y.st == .stopping)) = [x] →
        { x with charge := max x.charge (((s.clusOf x.clus).energy - (s.clusOf x.clus).energyMark) / 1000000) } ∈ t.teams)) ∧
    (∀ (g : Grid) (teams : List Team) (cl : Nat) (h : cl / 64 < 4), g.prio ≠ 7 →
      let cut := s.dies[cl / 64].grant * (16 - ((List.finRange 8).filter fun i => s.hbm[i].hot).length) / 16
      (if s.dies[cl / 64].hot then cut * 3 / 4 else cut) < ((teams.filter fun t => decide (t.clus / 64 = cl / 64)).map (·.charge)).sum +
          s.ecFig.toList.getD (g.desc[2].toNat / 2 ^ 28 % 4) 0 * dCores g.desc →
        s.fitsIn teams g cl = none) ∧
    (∃ t : State, exec (.powerGrant avail) s = .next t ∧ t.mem = s.mem ∧ t.teams = s.teams ∧ t.grids = s.grids ∧
      (∀ cl, (t.clusOf cl).freq ≤ (s.clusOf cl).freq) ∧
      ∀ i : Fin 4, t.dies[i].grant = (s.parts.map fun p =>
        let held := p.clusters ++ p.leaving
        if held.length = 0 then 0 else
          min avail 2000000 * p.powerShare * (held.filter fun x => decide (x / 64 = i.val)).length / (256 * held.length)).sum)

/-- R159, R311, R357, R383, R385 to R388, R396: a partition gets the clusters asked for that no other holds, unless the shares of a resource would
sum above 256, and teams on clusters that it loses are asked to stop, or to be restored elsewhere; a VD is created, within its partition's
quota, with its parameters and empty windows and timers, and destroyed with its teams and grids, the frames of its
root table and control page among those given back; a moved versioned page sets VOVF where a
validate set records a line of its old frame. That a resize creates a partition and that a created VD is not destroyed are the model's
readings (log 44, log 82). -/
def Obligations.PartitionAndVdResults : Prop :=
  ∀ (s : State) (part vd pw old new bytes : Nat) (cls shares : List Nat) (p : VdParams),
    (let rest := s.parts.filter fun x => decide (x.id ≠ part)
     let fits : Prop := (rest.map (·.powerShare)).sum + pw ≤ 256 ∧
       ∀ i < 10, (rest.map fun x => x.shares.getD i 0).sum + shares.getD i 0 ≤ 256
     ((32 ≤ part ∨ ¬ fits) → exec (.partitionResize part cls pw shares) s = .next s) ∧
     (part < 32 → fits → ∃ (t : State) (q : Part), exec (.partitionResize part cls pw shares) s = .next t ∧ q ∈ t.parts ∧ q.id = part ∧
      q.powerShare = pw ∧ q.shares = shares ∧
      (∀ c, c ∈ q.clusters ↔ c ∈ cls ∧ c < 256 ∧ ∀ x ∈ rest, c ∉ x.clusters ∧ c ∉ x.leaving) ∧
      (∀ x ∈ t.parts, x = q ∨ ∃ y ∈ rest, x = { y with leaving := x.leaving }) ∧
      (∀ y ∈ rest, ∃ x ∈ t.parts, x = { y with leaving := x.leaving }) ∧ t.grids = s.grids ∧ t.mem = s.mem ∧
      (∀ x ∈ t.teams, ∃ y ∈ s.teams, x = { y with st := x.st, since := x.since, charge := x.charge, out := x.out }) ∧
      (∀ y ∈ s.parts, y.id = part → (∀ z ∈ s.parts, z.id = part → z = y) → ∀ x ∈ t.teams, x.clus ∈ y.clusters → x.clus ∉ q.clusters →
        x.st ≠ .resident ∧ ∀ z, x.st ≠ .restoring z))) ∧
    (let held (part : Nat) : Nat := (s.vds.filter fun v => decide (v.st ≠ .destroyed ∧ v.vdcfg.toNat / 2 ^ 8 % 32 = part)).length
     ((1024 ≤ vd ∨ (∃ v ∈ s.vds, v.id = vd ∧ v.st ≠ .destroyed) ∨
       ∃ q, s.findPart (p.part % 32) = some q ∧ q.quota.vds ≤ held (p.part % 32)) → exec (.vdCreation vd p) s = .next s) ∧
     (vd < 1024 → (∀ v ∈ s.vds, v.id = vd → v.st = .destroyed) →
      (∀ q, s.findPart (p.part % 32) = some q → held (p.part % 32) < q.quota.vds) → ∃ (t : State) (v : Vd), exec (.vdCreation vd p) s = .next t ∧
      t = { s with vds := t.vds } ∧ t.findVd vd = some v ∧ (∀ u ∈ s.vds, u.id ≠ vd → u ∈ t.vds) ∧ v.st = .created ∧ v.root = p.root ∧
      v.control = p.control / 65536 * 65536 ∧ v.vdcfg.toNat % 4 = p.wc.toNat ∧ v.vdcfg.toNat / 2 ^ 8 % 32 = p.part % 32 ∧
      v.vdcfg.toNat / 2 ^ 16 % 2 ^ 11 = min p.nmw 64 ∧ v.vdcfg.toNat / 2 ^ 48 = p.idleMs % 65536 ∧
      v.trapent = p.trapent &&& ~~~(0x3F : Word) ∧ v.evbase = p.evbase &&& 0xFFFFFFFFFFFFF00F ∧ v.evhead = 0 ∧ v.evlost = 0 ∧ v.eps = [] ∧
      v.inlet = [] ∧ v.col = false ∧ v.wpend = false ∧
      (∀ i : Fin 64, v.wins[i].base = 0 ∧ v.wins[i].ctl = 0 ∧ v.wins[i].hold = 0 ∧ v.wins[i].cnt = 0 ∧ v.wins[i].slots = []) ∧
      (∀ i : Fin 16, v.timers[i].period = 0 ∧ v.timers[i].ctl = 0 ∧ v.timers[i].ovr = 0 ∧ v.timers[i].k = 0 ∧
        v.timers[i].held = none ∧ v.timers[i].running = none ∧ v.timers[i].pending = none))) ∧
    ((s.findVd vd = none ∨ ∃ v, s.findVd vd = some v ∧ (v.st = .created ∨ v.st = .destroyed)) → exec (.vdDestruction vd) s = .next s) ∧
    (∀ v, s.findVd vd = some v → v.st ≠ .created → v.st ≠ .destroyed → ∃ t : State, exec (.vdDestruction vd) s = .next t ∧ (∀ g, g ∈ t.grids ↔ g ∈ s.grids ∧ g.vd ≠ vd) ∧
      (∀ x, x ∈ t.teams ↔ x ∈ s.teams ∧ x.key.vd ≠ vd) ∧ (∀ v ∈ s.vds, v.id ≠ vd → v ∈ t.vds) ∧
      (∀ v ∈ t.vds, v.id = vd → v.st = .destroyed ∧ v.eps = [] ∧ v.inlet = [] ∧ v.col = false ∧ v.evbase = 0 ∧ v.trapent = 0 ∧ v.ringhdr = 0 ∧
        (∀ i : Fin 64, v.wins[i].ctl = 0 ∧ v.wins[i].slots = []) ∧ ∀ i : Fin 16, v.timers[i].ctl = 0) ∧
      ∀ f, f = v.root / 65536 * 65536 ∨ f = v.control → Report.released vd (some f) ∈ t.out) ∧
    (let hit (h : Hart) : Prop := h.vd.toNat = vd ∧ ∃ e ∈ h.vset, old / 128 ≤ e.1 ∧ e.1 < (old + bytes) / 128
     ∃ t : State, exec (.versionedPageMove vd old new bytes) s = .next t ∧ t.mem = s.mem ∧ t.me = s.me ∧
      t.hart = { s.hart with vovf := t.hart.vovf } ∧ (t.hart.vovf = true ↔ s.hart.vovf = true ∨ hit s.hart) ∧
      t.parked.length = s.parked.length ∧ ∀ i (h : i < s.parked.length) (k : i < t.parked.length),
        t.parked[i] = { s.parked[i] with hart := { s.parked[i].hart with vovf := t.parked[i].hart.vovf } } ∧
        (t.parked[i].hart.vovf = true ↔ s.parked[i].hart.vovf = true ∨ hit s.parked[i].hart))

/-- R333, R347 to R356: Cloche saves a stopped team into its area, whose first word becomes valid with the team's next generation, and takes its
harts from the cores; a save that fails reports it and leaves the team resident, stopped there while its VD collapses or wakes under WC0
(log 98). It restores a team whose area still holds what it wrote and
clears that word, and refuses an area whose header is not that of the team. Either waits while a home answers its accesses with a retry. A
stop walk visits one grid at a time, none before a grid that feeds it unless they feed each other, and reports when all are visited; another
module's stop request visits one grid and is acknowledged when that is stopped. Repeated events and the refusal of an altered area are the
model's reading (log 42, log 43). -/
def Obligations.ClocheResults : Prop :=
  ∀ (s : State) (k : TeamKey) (area : Word) (limit vd g : Nat),
    ((s.findTeam k = none ∨ ∃ t, s.findTeam k = some t ∧ (t.st ≠ .stopping ∨ s.stays t = true)) →
      exec (.clocheSave k area limit) s = .next s) ∧
    (∀ t, s.findTeam k = some t → t.st = .stopping → s.stays t = false → s.hubHas (.act (.clocheSave k area limit)) = false →
      (∀ l, s.flushWaits t.coreIds = some l →
        exec (.clocheSave k area limit) s = .next (s.hubKeep (.act (.clocheSave k area limit)) l s.stamp)) ∧
      (s.flushWaits t.coreIds = none →
        let s1 := s.flushCores t.coreIds
        let x := s1.imageOf t
        let blocks := List.range (x.size / 4096)
        s1.areaWaits k.vd area.toNat blocks .write s.stamp = none → (∀ c ∈ x.ctxs, c.hart.unreadable = false) →
        let s0 : State := { s1.clearValid k.vd area.toNat with nextId := s1.nextId + 1 }
        (∀ e s2, s0.saveBlocks area.toNat limit s1.nextId k.vd none blocks = .error (e, s2) → ∃ u : State,
          exec (.clocheSave k area limit) s = .next u ∧ u.out = s2.out ++ [.saveFault k e.cause (BitVec.ofNat 64 e.addr) e.bytes] ∧
          u.mem = s2.mem ∧
          ∀ y ∈ u.teams, y.key = k → y.st = (if s2.keeps k.vd then .stopping else .resident) ∧ y.faulted = true ∧ y.out = false) ∧
        (∀ s2 pa s3, s0.saveBlocks area.toNat limit s1.nextId k.vd none blocks = .ok s2 →
          s2.areaPage k.vd area.toNat .write = .ok (pa, s3) → ∃ u : State, exec (.clocheSave k area limit) s = .next u ∧
          (∀ y ∈ u.teams, y.key = k → y.st = .saved x ∧ y.area = area ∧ y.limit = limit ∧ y.faulted = false) ∧
          (∃ y ∈ u.teams, y.key = k ∧ y.st = .saved x ∧ y.area = area ∧ y.gen = t.gen + 1) ∧ (∀ c ∈ u.allCtxs, c.key ≠ k) ∧
          u.mem.rd pa 8 = (t.gen + 1) % 2 ^ 32 * 2 ^ 32 + 0xC10C * 2 ^ 16 + 1 ∧ u.mem.rd (pa + 8) 8 = x.size % 2 ^ 64))) ∧
    ((∀ t, s.findTeam k = some t → ∀ x, t.st ≠ .restoring x) → exec (.clocheRestore k) s = .next s) ∧
    (∀ t x, s.findTeam k = some t → t.st = .restoring x → s.hubHas (.act (.clocheRestore k)) = false →
      let blocks := List.range (x.size / 4096)
      let area := t.area.toNat
      (∀ l, s.areaWaits k.vd area blocks .read s.stamp = some l →
        exec (.clocheRestore k) s = .next (s.hubKeep (.act (.clocheRestore k)) l s.stamp)) ∧
      (s.areaWaits k.vd area blocks .read s.stamp = none → ∀ pa s1, s.areaPage k.vd area .read = .ok (pa, s1) → s1.poisoned pa 64 = false →
        let same := (List.range 5).map (fun i => s1.mem.rd (pa + 8 * i) 8) =
          (t.gen % 2 ^ 32 * 2 ^ 32 + 0xC10C * 2 ^ 16 + 1) :: (headerWords t x).take 4
        (¬ same → exec (.clocheRestore k) s = .next { s1 with
          teams := s1.teams.map fun y => if y.key = k then { y with st := .saved x, charge := 0 } else y
          out := s1.out ++ [.restoreFault k 0 t.area] }) ∧
        (same → ∀ ps s2, State.readArea k.vd area blocks [] s1 = .ok (ps, s2) → s2.intact t.seed ps = true → ∃ u : State,
          exec (.clocheRestore k) s = .next u ∧ (∀ y ∈ u.teams, y.key = k → y.st = .resident) ∧
          (∀ pte s3, (s2.unsave t x).hubWalk k.vd area .write = some (pa, pte, s3) → pteMt pte ≤ 1 → canonical area = true →
            inLocal area = false → inLane area = false → u.mem.rd pa 8 = 0) ∧
          ((x.ctxs.map (·.hart.id)).Nodup → x.ctxs.length ≤ 64 → ∀ c ∈ x.ctxs, c.hart.live = true →
            ∃ c' ∈ u.allCtxs, c'.a = c.a ∧ c'.e = c.e ∧ c'.hart = { (c.hart.reserveFor c.a).reserveFor c.e with id := c'.hart.id } ∧
              (c.a.launching = false → c.e.launching = false → c'.hart = { c.hart with id := c'.hart.id }))))) ∧
    (let inG (d : Desc) : Prop := if g = 0 then d[8].toNat / 2 ^ 32 % 2 ^ 16 ≠ 0 else d[8].toNat / 2 ^ 32 % 2 ^ 16 = g
     let mine (x : Grid) : Prop := x.vd = vd ∧ inG x.desc
     let gone (x : Grid) : Prop := x.stopped ≠ none
     let busy (x : Grid) : Prop := s.gridResident x = true ∨ s.gridSending x = true
     let at_ (x : Grid) (f : Grid → Grid) : List Grid := s.grids.map fun y => if y.vd = x.vd ∧ y.gid = x.gid then f y else y
     let held (y : Grid) : Grid := { y with held := true }
     let teams (t : State) : Prop := ∀ y ∈ t.teams, ∃ z ∈ s.teams, y = { z with st := y.st, since := y.since } ∧
       (y = z ∨ (z.st = .resident ∧ y.st = .stopping))
     let visits (r : Host.Outcome State Fault Refusal) (x : Grid) (acks : List Report) : Prop :=
       (busy x → ∃ t : State, r = .next t ∧ t.grids = at_ x held ∧ t.out = s.out ∧ t.mem = s.mem ∧ teams t ∧
         (∀ y ∈ t.teams, y.key.vd = x.vd → y.key.gid = x.gid → y.st ≠ .resident) ∧
         ∀ y ∈ s.teams, ¬ (y.key.vd = x.vd ∧ y.key.gid = x.gid) → y ∈ t.teams) ∧
       (¬ busy x → r = .next { s with
         grids := at_ x fun y => { y with held := true, stopped := some s.stamp }, stamp := s.stamp + 1, out := s.out ++ acks })
     (s.findVd vd = none → exec (.stopWalk vd g) s = .next s) ∧
     (∀ v, s.findVd vd = some v → (s.grids.map fun x => (x.vd, x.gid)).Nodup →
       ((∀ x ∈ s.grids, mine x → gone x) → (∀ r ∈ v.remotes, inG r.desc → r.stopped ≠ none) →
         exec (.stopWalk vd g) s = .next { s with out := s.out ++ [.stopWalkDone vd g] }) ∧
       (∃ t : State, exec (.stopWalk vd g) s = .next t ∧ t.mem = s.mem ∧ teams t ∧
         (t.grids = s.grids ∨ ∃ x ∈ s.grids, mine x ∧ ¬ gone x ∧
           (∀ p ∈ s.grids, mine p → ¬ gone p → v.feeds p.node x.node = true →
             p.node ∈ v.fed (s.nodes v g) (s.nodes v g).length [x.node]) ∧
           (t.grids = at_ x held ∨ (¬ busy x ∧ t.grids = at_ x fun y => { y with held := true, stopped := some s.stamp })))) ∧
       ((∀ p ∈ s.nodes v g, ∀ c ∈ s.nodes v g, v.feeds p c = false) → (∀ r ∈ v.remotes, ¬ inG r.desc) →
         ∀ x ∈ s.grids, mine x → ¬ gone x → (∀ y ∈ s.grids, mine y → ¬ gone y → x.gid ≤ y.gid) →
           visits (exec (.stopWalk vd g) s) x [])) ∧
     (s.findGrid vd g = none → exec (.remoteStopRequest vd g) s = .next { s with out := s.out ++ [.stopAck vd g] }) ∧
     (∀ x, s.findGrid vd g = some x →
       (gone x → exec (.remoteStopRequest vd g) s = .next { s with out := s.out ++ [.stopAck vd g] }) ∧
       (¬ gone x → visits (exec (.remoteStopRequest vd g) s) x [.stopAck vd g])))

/-- R371 to R378, R395: a tick that finds a step held or running becomes the pending step, and OVR counts the one it replaces; otherwise it
fires, which writes K, assigns every record at or below the cutoff and submits the descriptor, or is held until its HOLD windows have their
records; an expired hold fires, and after a firing that its submission's refusal ends the pending step becomes the current one. A record is
late at or below the last cutoff, unless a held step is still to assign it. An accepted record goes to the lowest free slot after the last
one used, behind those that wait for a pinned
line, or is held by the hub while the VD is collapsed or earlier ones are held. Lateness and the slot last used are the model's reading (log
47). -/
def Obligations.TimerAndWindowResults : Prop :=
  ∀ (s : State) (vd k : Nat) (i : BitVec 4) (n : BitVec 6) (r : Rec) (v : Vd), s.findVd vd = some v →
    let tm := v.timers[i.toNat]
    let on := v.st ≠ .destroyed ∧ tm.ctl.getLsbD 63 = true
    let set_ (s : State) (f : Timer → Timer) : State := s.mapVd vd fun v => { v with timers := v.timers.set i.toNat (f v.timers[i.toNat]) }
    let tick := tm.phase.toNat + tm.next * tm.period.toNat
    let s1 := set_ (State.wake { s with time := max s.time tick } vd) fun t => { t with next := tm.next + 1 }
    (¬ on → exec (.tick vd i) s = .next s) ∧
    (on → (tm.held ≠ none ∨ tm.running ≠ none) → exec (.tick vd i) s = .next (set_ s1 fun t => { t with
      pending := some ⟨tm.next, none, []⟩, ovr := if t.pending = none then t.ovr else (t.ovr + 1) &&& 0xFFFFFFFF })) ∧
    (on → tm.held = none → tm.running = none → ∀ u, s1.findVd vd = some u →
      (u.mayFire s1.time (u.timer i) tm.next = true → exec (.tick vd i) s = .next (s1.fire vd i tm.next)) ∧
      (u.mayFire s1.time (u.timer i) tm.next = false →
        exec (.tick vd i) s = .next (set_ s1 fun t => { t with held := some ⟨tm.next, none, []⟩ }))) ∧
    (∀ c, c = tm.phase.toNat + k * tm.period.toNat → ∃ (u : State) (w : Vd), s.fire vd i k = u.submitStep vd i s.stamp ∧
      u = { s with vds := u.vds } ∧ u.findVd vd = some w ∧ w.timers[i.toNat].k = BitVec.ofNat 64 k ∧ w.timers[i.toNat].held = none ∧
      w.timers[i.toNat].running = some ⟨k, none, ttWins tm.ctl⟩ ∧ w.timers[i.toNat].pending = tm.pending ∧
      w.timers[i.toNat].fired = some ((c : Int) - tm.guardNs.toNat, c) ∧
      (∀ j : BitVec 6, j ∉ ttWins tm.ctl → w.wins[j.toNat] = v.wins[j.toNat]) ∧
      (∀ j ∈ ttWins tm.ctl, w.wins[j.toNat].slots = v.wins[j.toNat].slots.map fun x =>
        if x.st = .untaken ∧ (x.t.toNat : Int) ≤ c - tm.guardNs.toNat then { x with st := .assigned (i, k) } else x)) ∧
    (∀ h, tm.held = some h →
      (v.mayFire s.time tm h.k = true → exec (.stepFire vd i) s = .next ((s.fire vd i h.k).firePending vd i)) ∧
      (v.mayFire s.time tm h.k = false → exec (.stepFire vd i) s = .next s) ∧
      ∃ e, tm.phase.toNat + h.k * tm.period.toNat ≤ e ∧ exec (.holdExpiry vd i) s =
        .next ((State.fire { s with time := max s.time e } vd i h.k).firePending vd i)) ∧
    (tm.held = none → exec (.holdExpiry vd i) s = .next s) ∧
    (tm.held = none → tm.running = none → tm.pending = none → exec (.stepFire vd i) s = .next s) ∧
    (tm.held = none → tm.running = none → ∀ p, tm.pending = some p → v.mayFire s.time tm p.k = true →
      exec (.stepFire vd i) s = .next (State.fire (set_ s fun t => { t with pending := none }) vd i p.k)) ∧
    (tm.held = none → tm.running = none → ∀ p, tm.pending = some p → v.mayFire s.time tm p.k = false →
      exec (.stepFire vd i) s = .next (set_ s fun t => { t with pending := none, held := some ⟨p.k, none, []⟩ })) ∧
    (tm.held = none → ∀ r, tm.running = some r → r.gid = none → (∀ x ∈ v.inlet, x.timer ≠ some (i, r.k)) →
      exec (.stepFire vd i) s = .next ((s.submitStep vd i s.stamp).firePending vd i)) ∧
    (let w := v.wins[n.toNat]
     let late : Bool := match w.cut with
       | some c => decide ((r.t.toNat : Int) ≤ c) && !((List.finRange 16).any fun j => (ttWins v.timers[j].ctl).contains n &&
           v.timers[j].held.any fun h => decide ((r.t.toNat : Int) ≤
             ((v.timers[j].phase.toNat + h.k * v.timers[j].period.toNat : Nat) : Int) - v.timers[j].guardNs.toNat))
       | none => false
     let put (s : State) (f : Window → Window) : State := s.mapVd vd fun v => { v with wins := v.wins.set n.toNat (f v.wins[n.toNat]) }
     let takes := v.st ≠ .destroyed ∧ n.toNat < v.vdcfg.toNat / 2 ^ 16 % 2 ^ 11 ∧ w.ctl.getLsbD 63 = true
     (¬ takes → exec (.recordAcceptance vd n r) s = .next s) ∧
     (takes → late = true → w.ctl.toNat % 4 = 2 → exec (.recordAcceptance vd n r) s = .next (put s fun w => w.addDrop 1)) ∧
     let kept (u : Vd) : Prop := ∀ j : BitVec 6, j ≠ n → u.wins[j.toNat] = v.wins[j.toNat]
     let cnt := if late then setFld w.cnt 0 32 (w.cnt.toNat % 2 ^ 32 + 1) else w.cnt
     (takes → (late = false ∨ w.ctl.toNat % 4 ≠ 2) → ∀ l, s.heldRecord vd n s.stamp = some l →
       exec (.recordAcceptance vd n r) s = .next (s.hubKeep (.act (.recordAcceptance vd n r)) l s.stamp)) ∧
     (takes → (late = false ∨ w.ctl.toNat % 4 ≠ 2) → (w.held ≠ [] ∨ (v.st = .mitten ∧ 2 ≤ v.vdcfg.toNat % 4)) →
       s.heldRecord vd n s.stamp = none → (∀ j : Fin 16, v.timers[j].held = none) → w.held.length < 64 →
         ∃ (t : State) (u : Vd), exec (.recordAcceptance vd n r) s = .next t ∧ t.mem = s.mem ∧ t.findVd vd = some u ∧
           u.wins[n.toNat].held = w.held ++ [⟨r, BitVec.ofNat 64 s.now.time, late, none, w.accepted⟩] ∧ u.wins[n.toNat].slots = w.slots ∧
           u.wins[n.toNat].accepted = w.accepted + 1 ∧ u.wins[n.toNat].cnt = cnt ∧ kept u) ∧
     (takes → (late = false ∨ w.ctl.toNat % 4 ≠ 2) → w.held = [] → ¬ (v.st = .mitten ∧ 2 ≤ v.vdcfg.toNat % 4) →
       s.heldRecord vd n s.stamp = none → s.recordWaits v n s.stamp = none →
       (∀ j : Fin 16, v.timers[j].held = none) → w.slots.length < 2 ^ (w.ctl.toNat / 2 ^ 16 % 32) → ∃ slot far,
         slot = (w.lastSlot + 1 + far) % 2 ^ (w.ctl.toNat / 2 ^ 16 % 32) ∧ far < 2 ^ (w.ctl.toNat / 2 ^ 16 % 32) ∧
         (∀ x ∈ w.slots, x.slot ≠ slot) ∧ (∀ j < far, ∃ x ∈ w.slots, x.slot = (w.lastSlot + 1 + j) % 2 ^ (w.ctl.toNat / 2 ^ 16 % 32)) ∧
         ∀ pa pte s2, s.now.hubWalk vd (w.base + BitVec.ofNat 64 (64 * slot)).toNat .write = some (pa, pte, s2) → pteMt pte ≤ 1 →
           ∃ (t : State) (u : Vd), exec (.recordAcceptance vd n r) s = .next t ∧
             t.mem = s2.mem.puts pa (recBytes r (BitVec.ofNat 64 s.now.time) late) ∧
             t.findVd vd = some u ∧ u.wins[n.toNat].slots = w.slots ++ [⟨slot, r.t, w.accepted, .untaken, late⟩] ∧
             u.wins[n.toNat].lastSlot = slot ∧
             u.wins[n.toNat].cnt = cnt ∧ kept u))

/-- R388 to R394: a wake write makes a created VD active, a mitten one waking (after the collapse in progress), and lets an idle one not be idle
again before the condition begins anew; WAKE_COMPLETE makes a waking VD active once no team that its collapse saved is still to be restored and
every moved frame is back, and the teams that it stopped go on; an idle VD collapses: its first resident team is asked to stop, unless a save
fault waits for the partition supervisor, and with none it is mitten, at once where no frame is to be moved. Under WC0 the stop writes the core's
data cache back, once every line's home takes it. One unit for each event, and how an idle VD is roused, are the model's reading (log 45, log 46);
that waking ends only with every moved frame back, and a collapse only with no frame to move, is too (log 89), as is a team that the scheduler
swaps out of a VD under WC0 (log 98). -/
def Obligations.WakeResults : Prop :=
  ∀ (s : State) (vd : Nat) (v : Vd), s.findVd vd = some v → (∀ u ∈ s.vds, u.id = vd → u = v) →
    let with_ (u : Vd) : List Vd := s.vds.map fun x => if x.id = vd then u else x
    let saved := s.savedUnits vd
    let wakes (i : Instr) : Prop :=
      (v.st = .created → exec i s = .next { s with vds := with_ { v with st := .active } }) ∧
      (s.vdState v = .idle → exec i s = .next { s with vds := with_ { v with roused := true } }) ∧
      (v.st = .mitten → v.col = false → exec i s =
        .next { s with vds := with_ { v with st := .waking, wakeAt := s.time, remain := saved }, moduleCollapsed := false }) ∧
      (v.st = .mitten → v.col = true → exec i s = .next { s with
        vds := with_ { v with wpend := true, wakeAt := if v.wpend then v.wakeAt else s.time }, moduleCollapsed := false }) ∧
      ((v.st = .waking ∨ v.st = .destroyed ∨ (v.st = .active ∧ s.vdState v = .active)) → exec i s = .next s)
    wakes (.wakeWrite vd) ∧ wakes (.hatbandWake vd) ∧
    ((v.st ≠ .waking ∨ v.moved ≠ [] ∨ ∃ t ∈ s.teams, t.key.vd = vd ∧ t.out = false ∧ ∃ x, t.st = .saved x ∨ t.st = .restoring x) →
      exec (.wakeComplete vd) s = .next s) ∧
    (v.st = .waking → v.moved = [] → (∀ t ∈ s.teams, t.key.vd = vd → t.out = false → ∀ x, t.st ≠ .saved x ∧ t.st ≠ .restoring x) →
      ∃ (t : State) (u : Vd), exec (.wakeComplete vd) s = .next t ∧ t.findVd vd = some u ∧ u.st = .active ∧
        t.teams = s.teams.map fun x => if x.key.vd = vd ∧ x.st = .stopping ∧ x.out = false then { x with st := .resident } else x) ∧
    (s.vdState v ≠ .idle → ¬ (v.st = .mitten ∧ v.col = true) → exec (.collapse vd) s = .next s) ∧
    (s.vdState v = .idle →
      let begun : Vd := { v with st := .mitten, col := true, wpend := false, roused := false }
      let stays := 2 ≤ v.vdcfg.toNat % 4 ∧ s.hbmFrames v ≠ []
      ((∀ t ∈ s.teams, t.key.vd ≠ vd) → stays → exec (.collapse vd) s = .next { s with vds := with_ begun }) ∧
      ((∀ t ∈ s.teams, t.key.vd ≠ vd) → ¬ stays → ∃ t : State, exec (.collapse vd) s = .next t ∧ t.teams = s.teams ∧
        t.vds = with_ { begun with col := false } ∧ (v.vdcfg.toNat % 4 ≠ 3 → t.mem = s.mem)) ∧
      ((∃ y ∈ s.teams, y.key.vd = vd ∧ y.faulted = true) → (∀ y ∈ s.teams, y.key.vd = vd → y.st = .resident) →
        exec (.collapse vd) s = .next { s with vds := with_ begun }) ∧
      (∀ x pre post, s.teams = pre ++ x :: post → (∀ y ∈ pre, y.key.vd ≠ vd) → x.key.vd = vd →
        (∀ y ∈ s.teams, y.key.vd = vd → y.st = .resident ∧ y.faulted = false) →
        (v.vdcfg.toNat % 4 ≠ 0 ∨ s.flushWaits x.coreIds = none → ∃ t : State, exec (.collapse vd) s = .next t ∧ t.vds = with_ begun ∧
          (t.teams = s.teams.map fun y => if y.key = x.key then { y with st := .stopping, since := s.stamp } else y) ∧
          (v.vdcfg.toNat % 4 = 0 → s.coreId ∈ x.coreIds → t.core.dcache = []) ∧ (v.vdcfg.toNat % 4 ≠ 0 → t.mem = s.mem)) ∧
        (v.vdcfg.toNat % 4 = 0 → ∀ l, s.flushWaits x.coreIds = some l → ∃ t : State, exec (.collapse vd) s = .next t ∧ t.vds = with_ begun ∧
          t.teams = s.teams ∧ t.mem = s.mem)))

/-- R154, R282, R293, R333, R383, R384, R399 to R402: a host write stores its enabled bytes at the home as one write, which raises a versioned
line's version once and, in device memory, is completed when it is performed; a host read gives bytes with their poison; the hub keeps either
while the line is pinned. Another module's launch is answered, or held behind the submissions that the inlet holds; a message that arrives, or
that an endpoint's peer accepts, joins the messages to be received; an endpoint goes down with event 0x0009 and up with 0x000A, whose record
goes to the VD's event ring, is counted as lost, or is held by the hub; it is configured within its partition's quota; an answer completes the
launch that waits for it. The hub's order and what a remote launch leaves are the model's reading (log 40, log 48), and so are host accesses
to the host's own lines (log 95). -/
def Obligations.HostAndLinkResults : Prop :=
  ∀ (s : State) (pa len vd : Nat) (data : List (Option Byte)) (bytes : List Byte) (desc : List Word) (e : BitVec 8) (c : EpConfig) (ans : Word),
    (let fits := s.hostReaches pa data.length = true ∧ pa / 64 = (pa + data.length - 1) / 64
     (fits → s.hubWaits pa data.length s.stamp = none → ∃ t : State, exec (.hostMemoryWrite pa data) s = .next t ∧
       (∀ i < data.length, t.mem.get (pa + i) = (data.getD i none).getD (s.mem.get (pa + i))) ∧
       (∀ x, ¬ (pa ≤ x ∧ x < pa + data.length) → t.mem.get x = s.mem.get x) ∧
       ((s.sideSlot (pa / 128 * 128)).isSome = true → t.version (pa / 128) = s.version (pa / 128) + 1) ∧
       t.out = (if inDevice pa then s.out ++ [.hostWritten pa data.length] else s.out) ∧ t.core = s.core ∧ t.me = s.me ∧ t.hart = s.hart) ∧
     (fits → ∀ l, s.hubWaits pa data.length s.stamp = some l →
       exec (.hostMemoryWrite pa data) s = .next (s.hubKeep (.act (.hostMemoryWrite pa data)) l s.stamp)) ∧
     (¬ fits → exec (.hostMemoryWrite pa data) s = .next s)) ∧
    (s.hostReaches pa len = true → ∀ l, s.hubWaits pa len s.stamp = some l →
      exec (.hostMemoryRead pa len) s = .next (s.hubKeep (.act (.hostMemoryRead pa len)) l s.stamp)) ∧
    (s.hostReaches pa len = true → s.hubWaits pa len s.stamp = none → ∃ bs, exec (.hostMemoryRead pa len) s =
        .next { s with out := s.out ++ [.hostRead pa bs (s.poisoned pa len)] } ∧
      bs.length = len ∧ ∀ i < len, bs.getD i 0 = s.mem.get (pa + i)) ∧
    (s.hostReaches pa len = false → exec (.hostMemoryRead pa len) s = .next s) ∧
    ((∀ v, s.findVd vd = some v → v.st = .destroyed) → exec (.remoteLaunch vd desc) s = .next s) ∧
    (∀ v, s.findVd vd = some v → (∀ u ∈ s.vds, u.id = vd → u = v) → v.st = .active → s.vdState v = .active →
      let d : Desc := arrived (descOf desc) vd
      (256 ≤ v.inlet.length → exec (.remoteLaunch vd desc) s = .next { s with out := s.out ++ [.remoteAnswer 0x8000000000000001] }) ∧
      (v.inlet.length < 256 → ∀ l, s.counterWaits vd d s.stamp = some l →
        exec (.remoteLaunch vd desc) s = .next (s.hubKeep (.act (.remoteLaunch vd desc)) l s.stamp)) ∧
      (v.inlet.length < 256 → s.counterWaits vd d s.stamp = none → ∀ k, s.refusalOf v d = some k →
        exec (.remoteLaunch vd desc) s = .next { s with out := s.out ++ [.remoteAnswer (0x8000000000000000 ||| BitVec.ofNat 64 k)] }) ∧
      (v.inlet = [] → s.counterWaits vd d s.stamp = none → s.refusalOf v d = none → ∃ (t : State) (g : Grid),
        exec (.remoteLaunch vd desc) s = .next t ∧ t.grids = s.grids ++ [g] ∧ g.vd = vd ∧ g.desc = d ∧ g.held = false ∧ g.nextTeam = 0 ∧
        t.out = s.out ++ [.remoteAnswer (BitVec.ofNat 64 g.gid)] ∧ (d[3] = 0 → t.mem = s.mem)) ∧
      (v.inlet ≠ [] → v.inlet.length < 256 → s.counterWaits vd d s.stamp = none → s.refusalOf v d = none → ∃ (t : State) (u : Vd) (x : Submission),
        exec (.remoteLaunch vd desc) s = .next t ∧ t.grids = s.grids ∧ t.out = s.out ∧ t.mem = s.mem ∧ t.findVd vd = some u ∧
        u.inlet = v.inlet ++ [x] ∧ x.desc = d ∧ x.remote = true)) ∧
    (s.awaiting = [] → (∀ d a, s.me.wait ≠ some (.answer d a)) → (∀ v ∈ s.vds, ∀ r ∈ v.remotes, r.gid ≠ 0) →
      exec (.remoteLaunchAnswer ans) s = .next s) ∧
    (∀ d at_, s.me.wait = some (.answer d at_) →
      let w := if ans.getLsbD 63 then ans else ans ||| 0x4000000000000000
      ∃ t : State, exec (.remoteLaunchAnswer ans) s = .next t ∧ t = { s with me := t.me, hart := t.hart, vds := t.vds } ∧
        (isQ d = false → t.hart = s.hart ∧ t.me = Strm.advance { s.me.setReg d w with pc := at_ } 1) ∧
        (isQ d = true → t.me = Strm.advance { s.me with pc := at_ } 1 ∧ (∀ i, i ≠ qIdx d → t.hart.q i = s.hart.q i) ∧
          (∀ pre, s.hart.q (qIdx d) = pre ++ [.reserved] → t.hart.q (qIdx d) = pre ++ [.val w]) ∧
          (s.hart.q (qIdx d) = [] → t.hart.q (qIdx d) = [.val w]))) ∧
    (∀ v p, s.findVd vd = some v → v.ep e = some p → v.st ≠ .destroyed →
      let ends (t : State) (f : Endpoint → Endpoint) : State :=
        { t with vds := t.vds.map fun u => if u.id = vd then { u with eps := u.eps.map fun x => if x.1 = e then (x.1, f x.2) else x } else u }
      (p.cfg ≠ none → 0 < bytes.length → bytes.length ≤ 65536 → exec (.messageAcceptance vd e (some bytes)) s =
        .next (ends s fun p => { p with inn := p.inn ++ [bytes] })) ∧
      (p.out = [] ∨ p.down = true ∨ p.cfg = none → exec (.messageAcceptance vd e none) s = .next s) ∧
      (∀ k m ms, p.cfg = some k → p.out = m :: ms → p.down = false → k.onModule = false → m.credit = none →
        exec (.messageAcceptance vd e none) s =
          .next { (ends s fun _ => { p with out := ms }) with out := s.out ++ [.message s.etherType vd e m.bytes] }) ∧
      (∀ k m ms v2 q, p.cfg = some k → p.out = m :: ms → p.down = false → k.onModule = true → m.credit = none →
        let e2 : BitVec 8 := BitVec.ofNat 8 k.remoteEp
        s.findVd k.remoteVd = some v2 → v2.st ≠ .destroyed → v2.ep e2 = some q → q.cfg ≠ none → ¬ (k.remoteVd = vd ∧ e2 = e) →
        ∃ (t : State) (u u2 : Vd), exec (.messageAcceptance vd e none) s = .next t ∧ t.findVd vd = some u ∧ t.findVd k.remoteVd = some u2 ∧
          u.ep e = some { p with out := ms } ∧ u2.ep e2 = some { q with inn := q.inn ++ [m.bytes] } ∧ t.mem = s.mem ∧ t.out = s.out) ∧
      (let told (i : Instr) (down : Bool) (code : Nat) (a1 : Word) : Prop :=
         let b := (ends s fun p => { p with down := down }).now
         let marked (t : State) (u : Vd) : Prop := exec i s = .next t ∧ t.findVd vd = some u ∧ u.ep e = some { p with down := down }
         let ring := v.evbase.toNat % 16
         let takes := 4 ≤ ring ∧ ring ≤ 12 ∧ v.evCount - v.evhead.toNat < 2 ^ ring
         let va := v.evbase.toNat / 4096 * 4096 + v.evCount % 2 ^ ring * 32
         (∀ r, s.heldEvent vd s.stamp = some r → ∃ t u, marked t u ∧ t.mem = s.mem ∧
           ∃ x ∈ t.hubq, x.op = .event vd code b.time (e.zeroExtend 64) a1) ∧
         (s.heldEvent vd s.stamp = none → ¬ takes → ∃ t u, marked t u ∧ t.mem = s.mem ∧ u.evlost = v.evlost + 1 ∧ u.evCount = v.evCount) ∧
         (∀ l, s.heldEvent vd s.stamp = none → takes → b.hubAccessWaits vd va 32 .write s.stamp = some l → ∃ t u, marked t u ∧ t.mem = s.mem ∧
           ∃ x ∈ t.hubq, x.op = .event vd code b.time (e.zeroExtend 64) a1 ∧ x.lines = [l]) ∧
         (∀ pa pte b1, s.heldEvent vd s.stamp = none → takes → b.hubAccessWaits vd va 32 .write s.stamp = none →
           b.hubWalk vd va .write = some (pa, pte, b1) → pteMt pte ≤ 1 → b1.poisoned pa 32 = false →
           ∃ t u, marked t u ∧ u.evCount = v.evCount + 1 ∧ u.evlost = v.evlost ∧
             t.mem = b1.mem.puts pa (leBytes 8 code ++ leBytes 8 b.time ++ leBytes 8 e.toNat ++ leBytes 8 a1.toNat))
       (p.cfg ≠ none → p.down = false → told (.linkEndpointDown vd e) true 0x0009 0) ∧
       (p.down = true → told (.linkEndpointUp vd e) false 0x000A (BitVec.ofNat 64 p.out.length))) ∧
      ((p.cfg = none ∨ p.down = true) → exec (.linkEndpointDown vd e) s = .next s) ∧
      (p.down = false → exec (.linkEndpointUp vd e) s = .next s) ∧
      (c.node < 400000 → exec (.linkEndpointConfiguration vd e c) s = .next (ends s fun p => { p with cfg := some c }))) ∧
    (∀ v, s.findVd vd = some v →
      ((400000 ≤ c.node ∨ v.st = .destroyed) → exec (.linkEndpointConfiguration vd e c) s = .next s) ∧
      (let used := ((s.vds.filter fun u => decide (u.vdcfg.toNat / 2 ^ 8 % 32 = v.vdcfg.toNat / 2 ^ 8 % 32)).map (·.eps.length)).sum
       let quota := s.findPart (v.vdcfg.toNat / 2 ^ 8 % 32)
       c.node < 400000 → v.st ≠ .destroyed → v.ep e = none →
       ((∃ q, quota = some q ∧ q.quota.endpoints ≤ used) → exec (.linkEndpointConfiguration vd e c) s = .next s) ∧
       ((∀ q, quota = some q → used < q.quota.endpoints) → exec (.linkEndpointConfiguration vd e c) s =
        .next { s with vds := s.vds.map fun u => if u.id = vd then { u with eps := u.eps ++ [(e, ⟨some c, [], [], false⟩)] } else u })))

/-- R366, R367, R384: a PTP message slews TIME by at most 200 ppm of the time elapsed; TIME steps forward only; losing and regaining the lock is
one event for every VD that is not destroyed, written, counted as lost, or held by the hub for a pinned line. The rounding is the model's (log
52). -/
def Obligations.TimeResults : Prop :=
  ∀ (s : State) (offset : Int) (elapsed ns : Nat),
    (∃ t : State, exec (.ptpMessage offset elapsed) s = .next t ∧ t = { s with time := t.time } ∧
      ((t.time : Int) - s.time - elapsed).natAbs * 1000000 ≤ 200 * elapsed ∧
      (offset.natAbs * 1000000 ≤ 200 * elapsed → (t.time : Int) = s.time + elapsed + offset)) ∧
    (s.vds = [] → exec (.timeStep ns) s = .next { s with time := s.time + ns }) ∧
    (∃ t : State, exec (.timeStep ns) s = .next t ∧ s.time + ns ≤ t.time) ∧
    (s.timeLocked = false → exec .timeHoldover s = .next s) ∧ (s.timeLocked = true → exec (.timeLocked offset) s = .next s) ∧
    (let told (t : State) : Prop := ∀ v ∈ s.vds, (∀ u ∈ s.vds, u.id = v.id → u = v) → ∃ u, t.findVd v.id = some u ∧
       (v.st = .destroyed → u = v) ∧ (v.st ≠ .destroyed → u = { v with evCount := v.evCount + 1 } ∨ u = { v with evlost := v.evlost + 1 } ∨
         (u = v ∧ ∃ r ∈ t.hubq, ∃ c m a b, r.op = .event v.id c m a b))
     (s.timeLocked = true → s.vds.Nodup → ∃ t : State, exec .timeHoldover s = .next t ∧ t.timeLocked = false ∧ told t) ∧
     (s.timeLocked = false → s.vds.Nodup → ∃ t : State, exec (.timeLocked offset) s = .next t ∧ t.timeLocked = true ∧ told t))

/-- R385, R403 to R408, R411: the thresholds of heat mark stacks and dies, and 115 °C turns the module off; a rail keeps one vote a partition,
rises by one step towards the highest and falls only after its dwell, its clusters' frequencies first; leakage is counted for clusters that
are not gated, and for none while the module is collapsed; a lane test ends with the lane's data kept, and a lane that fails is replaced while
its slice has a spare. The dwell and what a lane test clears are the model's reading (log 50, log 51). -/
def Obligations.PowerResults : Prop :=
  ∀ (s : State) (n : BitVec 3) (die rail lvl : BitVec 2) (part x lane : Nat) (on ok : Bool),
    let d : Fin 4 := ⟨die.toNat, die.isLt⟩
    let r : Fin 4 := ⟨rail.toNat, rail.isLt⟩
    let R := s.dies[d].rails[r]
    let top := R.votes.foldl (fun m y => max m y.2) 0
    let rails (t : State) (q : Rail) : Prop := t = { s with dies := s.dies.set d { s.dies[d] with rails := s.dies[d].rails.set r q } }
    (∀ k : Sensor, (exec (.thermalThreshold k 115 false) s = .next s) ∧ ∃ t : State, exec (.thermalThreshold k 115 true) s = .next t ∧
      t.powered = false ∧ t.out = s.out ++ [.powerOff k] ∧ t.mem = [] ∧ t.vds = [] ∧ t.teams = []) ∧
    (∃ t : State, exec (.thermalThreshold (.stack n) 95 on) s = .next t ∧ t = { s with hbm := t.hbm } ∧
      ∀ i : Fin 8, t.hbm[i] = if i.val = n.toNat then { s.hbm[i] with hot := on } else s.hbm[i]) ∧
    (∃ t : State, exec (.thermalThreshold (.stack n) 85 on) s = .next t ∧
      ∀ i : Fin 8, t.hbm[i] = if i.val = n.toNat then { s.hbm[i] with derated := on } else s.hbm[i]) ∧
    (exec (.thermalThreshold (.die die) 105 on) s = .next { s with dies := s.dies.set d { s.dies[d] with hot := on } }) ∧
    (exec (.currentLimit die lvl) s = .next { s with dies := s.dies.set d { s.dies[d] with cl := lvl } }) ∧
    ((∃ p, s.findPart part = some p ∧ ∃ c ∈ p.held, 64 * die.toNat + 16 * rail.toNat ≤ c ∧ c < 64 * die.toNat + 16 * rail.toNat + 16) →
      ∃ (t : State) (q : Rail), exec (.railVote die rail part (some x)) s = .next t ∧ rails t q ∧ q.volt = R.volt ∧
        (part, min x 48) ∈ q.votes ∧ (∀ y ∈ q.votes, y.1 = part → y.2 = min x 48) ∧ ∀ y, y.1 ≠ part → (y ∈ q.votes ↔ y ∈ R.votes)) ∧
    (∃ (t : State) (q : Rail), exec (.railVote die rail part none) s = .next t ∧ rails t q ∧ q.volt = R.volt ∧
      ∀ y, y ∈ q.votes ↔ y ∈ R.votes ∧ y.1 ≠ part) ∧
    (R.dwell = false → exec (.railDwell die rail) s = .next s) ∧
    (R.dwell = true → ∃ t : State, exec (.railDwell die rail) s = .next t ∧ rails t { R with dwell := false, falling := true }) ∧
    (R.volt < top → ∃ t : State, exec (.railStep die rail) s = .next t ∧ t.dies[d].rails[r].volt = R.volt + 1 ∧
      t.dies[d].rails[r].votes = R.votes ∧ ∀ c, (s.clusOf c).freq ≤ (t.clusOf c).freq) ∧
    (top < R.volt → R.falling = false → exec (.railStep die rail) s = .next s) ∧
    (top < R.volt → R.falling = true → ∃ t : State, exec (.railStep die rail) s = .next t ∧
      ((∀ c, 64 * die.toNat + 16 * rail.toNat ≤ c → c < 64 * die.toNat + 16 * rail.toNat + 16 → (s.clusOf c).freq ≤ fmax top) →
        t.dies[d].rails[r].volt = R.volt - 1) ∧
      (∀ c, 64 * die.toNat + 16 * rail.toNat ≤ c → c < 64 * die.toNat + 16 * rail.toNat + 16 → fmax top < (s.clusOf c).freq →
        t.dies[d].rails[r].volt = R.volt ∧ (t.clusOf c).freq = fmax top)) ∧
    (∃ t : State, exec .leakageAccounting s = .next t ∧ t.mem = s.mem ∧ (∀ c, s.clusOf c = t.clusOf c ∨
        (c < 256 ∧ t.clusOf c = { s.clusOf c with energy := (t.clusOf c).energy } ∧ (s.clusOf c).energy ≤ (t.clusOf c).energy)) ∧
      (s.moduleCollapsed = true → ∀ c, t.clusOf c = s.clusOf c) ∧ ∀ c, (s.clusOf c).gated = true → t.clusOf c = s.clusOf c) ∧
    (let core := s.hart.id.toNat / 8
     let key := core * 16384 + lane
     let used := (s.spares.filter fun x => decide (x.1 / 64 = key / 64)).length
     let own := lane % s.lanes
     let word : State := { s with hart := { s.hart with tests := s.hart.tests.filter fun x => decide (x < 16384) } }
     let done : State := { s with hart := if lane / s.lanes = s.hart.id.toNat % 8 then { s.hart with
       laneBad := s.hart.laneBad.filter fun x => decide (x % 16384 ≠ own), tests := s.hart.tests.filter fun x => decide (x ≠ own) } else s.hart }
     (16384 ≤ lane → exec (.laneTest lane ok) s = .next { word with out := if ok then s.out else s.out ++ [.coreFault core] }) ∧
     (lane < 16384 → ok = true → exec (.laneTest lane ok) s = .next done) ∧
     (lane < 16384 → ok = false → 2 ≤ used → exec (.laneTest lane ok) s = .next { done with out := s.out ++ [.coreFault core] }) ∧
     (lane < 16384 → ok = false → used < 2 → exec (.laneTest lane ok) s =
       .next { done with spares := s.spares ++ [(key, used)], out := s.out ++ [.laneFault s.hart.id lane] }))

/-- R411 to R416: a cold reset loses all state but images, fuses, the spare-lane maps and what was reported, its bring-up still to end, and stays
in recovery unless the four images are there and every image verifies; a CXL hot reset and the function-level resets destroy VDs and keep the
rest. An SPDM request out of turn is answered with an error, one in turn
with its response; firmware that verifies is staged; a recovery image that verifies boots again. Response codes and the order of SPDM
requests are presumed from DSP0274 (log 18); what a reset keeps beside the manual's list is the model's reading (log 49). -/
def Obligations.ResetAndTrustResults : Prop :=
  ∀ (s : State) (vd m : Nat) (slot : BitVec 3) (idx : BitVec 8) (bs : List Byte) (img : Image),
    let boots (l : List Image) : Prop := (∀ k < 4, ∃ x ∈ l, x.slot.toNat = k) ∧
      ∀ x ∈ l, x.sigOk = true ∧ s.trust.fused.getD x.slot.toNat 0 ≤ x.secVersion
    (∃ t : State, exec .coldReset s = .next t ∧ t = { State.reset with
        agenda := s.agenda, tick := s.tick, out := s.out, spares := s.spares, booted := false, trust := t.trust } ∧
      t.trust.fused = s.trust.fused ∧ t.trust.spdm = .start ∧ t.trust.session = none ∧ t.trust.staged = [] ∧
      (s.trust.staged = [] → t.trust.images = s.trust.images ∧
        (t.trust.recovery = false ↔ boots s.trust.images))) ∧
    ((s.vds.map (·.id)).Nodup → ∀ i ∈ [Instr.cxlHotReset, .functionLevelResetPf], ∃ t : State, exec i s = .next t ∧
      (∀ v ∈ t.vds, v.st = .destroyed) ∧ t.vds.length = s.vds.length ∧
      (∀ x ∈ t.teams, ∀ v ∈ s.vds, v.st ≠ .destroyed → x.key.vd ≠ v.id) ∧ t.parts = s.parts ∧ t.time = s.time ∧
      t.trust = s.trust ∧ t.powered = s.powered) ∧
    ((∀ v, s.findVd vd = some v → v.st ≠ .created) → exec (.functionLevelResetVf vd) s = exec (.vdDestruction vd) s) ∧
    ((s.vds.map (·.id)).Nodup → ∃ t : State, exec (.functionLevelResetVf vd) s = .next t ∧
      (∀ v ∈ t.vds, v.id = vd → v.st = .destroyed) ∧ (∀ v ∈ s.vds, v.id ≠ vd → v ∈ t.vds) ∧ t.time = s.time ∧ t.parts = s.parts) ∧
    (let tells (t : State) (code : Nat) : Prop := ∃ l, t.out = s.out ++ [.response code (BitVec.ofNat 8 code :: l)]
     let err (i : Instr) : Prop := exec i s = .next { s with out := s.out ++ [.response 0x7F [0x7F, 4]] }
     let only (t : State) : Prop := t = { s with out := t.out, trust := t.trust } ∧ t.trust.images = s.trust.images ∧ t.trust.fused = s.trust.fused
     let answers (i : Instr) (need : SpdmPhase) (code : Nat) (next : SpdmPhase) : Prop :=
       (s.trust.spdm = need → ∃ t : State, exec i s = .next t ∧ only t ∧ tells t code ∧ t.trust.spdm = next) ∧ (s.trust.spdm ≠ need → err i)
     (∃ t : State, exec .getVersion s = .next t ∧ only t ∧ tells t 0x04 ∧ t.trust.spdm = .version ∧ t.trust.session = none) ∧
     answers .getCapabilities .version 0x61 .capabilities ∧ answers .negotiateAlgorithms .capabilities 0x63 .negotiated ∧
     answers .getDigests .negotiated 0x01 .negotiated ∧ answers (.getCertificate slot) .negotiated 0x02 .negotiated ∧
     answers (.challenge bs) .negotiated 0x03 .negotiated ∧ answers (.keyExchange m) .negotiated 0x64 .negotiated ∧
     (idx.toNat ≤ 6 ∨ idx = 255 → answers (.getMeasurements idx) .negotiated 0x60 .negotiated) ∧
     (6 < idx.toNat → idx ≠ 255 → exec (.getMeasurements idx) s = .next { s with out := s.out ++ [.response 0x7F [0x7F, 1]] }) ∧
     (s.trust.session = some m → s.trust.finished = false → ∃ t : State, exec (.finish m) s = .next t ∧ only t ∧ tells t 0x65 ∧
       t.trust.finished = true) ∧
     ((s.trust.session ≠ some m ∨ s.trust.finished = true) → err (.finish m)) ∧
     (∃ l, exec (.mctpControl bs) s = .next { s with out := s.out ++ [.response 0x100 l] }) ∧
     (∃ l, exec (.pldmMonitoring bs) s = .next { s with tick := s.tick + 1, out := s.out ++ [.response 0x102 l] })) ∧
    (let good := img.sigOk = true ∧ s.trust.fused.getD img.slot.toNat 0 ≤ img.secVersion
     (good → ∃ t : State, exec (.pldmFirmwareUpdate img) s = .next t ∧ img ∈ t.trust.staged ∧ t.trust.images = s.trust.images ∧ t.mem = s.mem) ∧
     (¬ good → ∃ t : State, exec (.pldmFirmwareUpdate img) s = .next t ∧ t.trust = s.trust ∧ t.mem = s.mem) ∧
     (¬ good ∨ s.trust.recovery = false → exec (.recoveryImage img) s = .next s) ∧
     (good → s.trust.recovery = true → s.trust.staged = [] → ∃ t : State, exec (.recoveryImage img) s = .next t ∧
       t = { s with trust := t.trust } ∧ img ∈ t.trust.images ∧
       (t.trust.recovery = false ↔ boots t.trust.images)))

/-- R6, R229, R256, R261, R264, R265, R320, R322, R371, R373, R380, R383: writes of registers with rules of their own. A window or timer register
that may not change while it is enabled keeps its value and sets ERR; a residency range that is not legal, or beyond its partition's quota, is
not enabled; a 1 clears one CPSTAT
bit with its record; MPROG is written only while an operation is halted, in mode S. -/
def Obligations.RegisterWriteResults : Prop :=
  ∀ (s : State) (vd : Nat) (n : BitVec 6) (i n4 : BitVec 4) (die : BitVec 2) (ch : BitVec 3) (x : Word) (b : Bool),
    (∀ v, s.findVd vd = some v → (∀ u ∈ s.vds, u.id = vd → u = v) → v.st ≠ .destroyed → n.toNat < v.vdcfg.toNat / 2 ^ 16 % 2 ^ 11 →
      let w := v.wins[n.toNat]
      let tm := v.timers[i.toNat]
      let win (u : Window) : Host.Outcome State Fault Refusal :=
        .next { s with vds := s.vds.map fun y => if y.id = vd then { v with wins := v.wins.set n.toNat u } else y }
      let tim (u : Timer) : Host.Outcome State Fault Refusal :=
        .next { s with vds := s.vds.map fun y => if y.id = vd then { v with timers := v.timers.set i.toNat u } else y }
      let held := (∃ y ∈ w.slots, y.st ≠ .free ∧ y.st ≠ .untaken) ∨ ∃ y ∈ w.held, y.step ≠ none
      let base := x &&& ~~~(0x3F : Word)
      (base ≠ w.base → (w.ctl.getLsbD 63 = true ∨ held) → exec (.mwbaseWrite vd n x) s = win { w with ctl := w.ctl ||| 0x2000000000000000 }) ∧
      (base = w.base → exec (.mwbaseWrite vd n x) s = win w) ∧
      (base ≠ w.base → w.ctl.getLsbD 63 = false → ¬ held → ∃ u, exec (.mwbaseWrite vd n x) s = win u ∧ u.base = base ∧ u.slots = [] ∧ u.held = [] ∧
        u.cnt.toNat / 2 ^ 32 = (w.cnt.toNat / 2 ^ 32 + (w.slots.length + w.held.length)) % 2 ^ 32 ∧ u.cnt.toNat % 2 ^ 32 = w.cnt.toNat % 2 ^ 32) ∧
      (w.ctl.getLsbD 63 = true → x.getLsbD 63 = true → (x ^^^ w.ctl) &&& 0x0000FFFF001F0003 ≠ 0 →
        exec (.mwctlWrite vd n x) s = win { w with ctl := w.ctl ||| 0x2000000000000000 }) ∧
      (w.ctl.getLsbD 63 = false → x.getLsbD 63 = true → 4 ≤ x.toNat / 2 ^ 16 % 32 → x.toNat / 2 ^ 16 % 32 ≤ 16 → x.toNat % 4 ≠ 3 →
        x.toNat / 2 ^ 16 % 32 = w.ctl.toNat / 2 ^ 16 % 32 →
        exec (.mwctlWrite vd n x) s = win { w with ctl := (x &&& 0x8000FFFF001F0003) ||| (w.ctl &&& 0x6000000000000000 &&& ~~~x) }) ∧
      (tm.ctl.getLsbD 63 = true → x.getLsbD 63 = true → (x ^^^ tm.ctl) &&& 0xBFBFBFBF ≠ 0 →
        exec (.ttctlWrite vd i x) s = tim { tm with ctl := tm.ctl ||| 0x4000000000000000 }) ∧
      (x.getLsbD 63 = false → exec (.ttctlWrite vd i x) s = tim { tm with
        ctl := (x &&& 0x80F00000BFBFBFBF) ||| (tm.ctl &&& 0x4000000000000000 &&& ~~~x), pending := none, held := none }) ∧
      (exec (.registerWrite (.control vd 0x20) x) s =
        .next { s with vds := s.vds.map fun y => if y.id = vd then { v with evhead := x } else y })) ∧
    (let D : Fin 4 := ⟨die.toNat, die.isLt⟩
     let k : Fin 16 := ⟨n4.toNat, n4.isLt⟩
     let r := s.dies[D].rr[k]
     let put (q : RRange) : Host.Outcome State Fault Refusal :=
       .next { s with dies := s.dies.set D { s.dies[D] with rr := s.dies[D].rr.set k q } }
     let ways := ((List.finRange 16).map fun j => if j ≠ k ∧ s.dies[D].rr[j].ctl.getLsbD 31 = true then s.dies[D].rr[j].ctl.toNat % 16 else 0).sum
     let part := x.toNat / 2 ^ 16 % 32
     let legal := x.toNat / 2 ^ 8 % 16 ≤ 8 ∧ r.base.toNat / 65536 ≤ r.limit.toNat / 65536 ∧ x.toNat % 16 ≠ 0 ∧ ways + x.toNat % 16 ≤ 12 ∧
       ∀ p, s.findPart part = some p → s.waysOf part die n4.toNat + x.toNat % 16 ≤ p.quota.ways
     (x.getLsbD 31 = false ∨ legal → exec (.rrctlWrite die n4 x) s =
       put { r with ctl := (x &&& 0x801F0F0F) ||| (r.ctl &&& 0x40000000 &&& ~~~x) }) ∧
     (x.getLsbD 31 = true → ¬ legal → exec (.rrctlWrite die n4 x) s = put { r with ctl := r.ctl ||| 0x40000000 }) ∧
     exec (.registerWrite (.residency die n4 false) x) s = put { r with base := x &&& 0x000FFFFFFFFF0000 } ∧
     exec (.registerWrite (.residency die n4 true) x) s = put { r with limit := x &&& 0x000FFFFFFFFF0000 }) ∧
    (let c := s.core.chans[ch.toNat]
     let put (q : Channel) : Host.Outcome State Fault Refusal := .next { s with core := { s.core with chans := s.core.chans.set ch.toNat q } }
     exec (.cpstatFltRestart ch) s = put { c with flt := false } ∧ exec (.cpstatAbtClear ch) s = put { c with abt := none } ∧
     exec (.cpstatOobClear ch) s = put { c with oob := none } ∧ exec (.cpstatRperrClear ch) s = put { c with rperr := none }) ∧
    (s.me.mode = .u → exec (.mprogWrite x) s = .next s) ∧
    (s.me.mode = .s → s.hart.mq ≠ [] → s.hart.mhalt ≠ none →
      exec (.mprogWrite x) s = .next { s with hart := { s.hart with mprog := x.toNat % 2 ^ 32 } }) ∧
    (s.me.mode = .s → (s.hart.mq = [] ∨ s.hart.mhalt = none) → exec (.mprogWrite x) s = .next s) ∧
    (s.me.mode = .s → exec (.registerWrite (.system 0x023) x) s = .next { s with me := { s.me with tvec := x &&& ~~~(0x3F : Word) } }) ∧
    (s.me.mode = .u → exec (.registerWrite (.system 0x023) x) s = .next s) ∧
    (let t : Fin 2 := if b then 1 else 0
     let put (q : VerRange) : Host.Outcome State Fault Refusal := .next { s with verRegs := s.verRegs.set t q }
     exec (.registerWrite (.verLo b) x) s = put { s.verRegs[t] with lo := x.toNat } ∧
     exec (.registerWrite (.verHi b) x) s = put { s.verRegs[t] with hi := x.toNat } ∧
     exec (.registerWrite (.verBase b) x) s = put { s.verRegs[t] with base := x.toNat }) ∧
    exec (.registerWrite .railDwell x) s = .next { s with railDwellUs := x.toNat }

-- Decoding, steps, reset and memory

/-- R80 to R85, R93 to R97: every instruction that has an encoding is what its words decode to, with every operand at every value the encoding
admits; and words that decode to an instruction are the encoding of it, so no two instructions share a word. -/
def Obligations.EncodingRoundTrip : Prop :=
  (∀ i : Instr, i.isEvent = false → i.wf = true → ∃ w es, encode i = w :: es ∧ es.length = (if w.toNat % 4 = 3 then 1 else 0) ∧
    ∀ e : W32, decode w (es.headD e) = .ok i) ∧
  (∀ (w e : W32) (i : Instr), decode w e = .ok i →
    i.isEvent = false ∧ i.wf = true ∧ encode i = if w.toNat % 4 = 3 then [w, e] else [w])

/-- Words written out from the encodings of R93 to R96 and from the worked programs decode to the instructions they stand for. -/
def Obligations.DecodedWords : Prop :=
  decodeTableWord 32 0xFFFC8401 = some (.addi 4 4 (-1)) ∧ decodeTableWord 32 0x00086300 = some (.add false 3 3 2) ∧
  decodeTableWord 32 0xFF80910E = some (.bcc .ne 4 0 (-2)) ∧ decodeTableWord 32 0x0000005E = some .nop ∧
  decodeTableWord 64 0x000000102580C52B = some (.ldo false .w .acq .die 5 6 16) ∧
  decodeTableWord 32 0x000C4688 = some (.vmul false false 0 6 2 3) ∧ decodeTableWord 32 0x00A00586 = some (.mma false false true 5 0 8) ∧
  decodeTableWord 32 0x060043A5 = some (.wcvt .i32 .f32 3 2) ∧ decodeTableWord 32 0x001483C2 = some (.kins false false 0 3 4 5)

/-- R79, R81, R92, R134, R309, R341, R342, R412, R414: a step in which a stream goes on, because the agenda says so, because a prefixed pair is in
progress or because the selection of R309 names it, is the instruction at its program counter, with what every step adds: the energy and the cycle
of the slot, the timers that TIME has reached, the scheduler's part and the waits in wfi. Without its line the stream fetches; a word that is no
instruction traps; a pending channel fault and the end of a wfi come first, and a wake event that the step brought completes a wfi. An event at
the head of the agenda is carried out if there is anybody to serve it: with the module on and brought up always, and otherwise what Hatband and
the root of trust serve. What each step adds is the model's design (log 2, log 6, log 7, log 8, log 17, log 88). -/
def Obligations.StepRunsDecoded : Prop :=
  ∀ (s : State),
    let adds (r : Host.Outcome State Fault Refusal) (f : State → State) : Host.Outcome State Fault Refusal :=
      match r with
      | .next t => .next (f t)
      | .fault x => .fault x
      | .refused x => .refused x
    let runs (from_ u : State) (ready : Option (List (BitVec 14))) (r : Host.Outcome State Fault Refusal) : Prop :=
      let with_ (g : Go) (t : State) : State := from_.conclude (u.went g ready t)
      (u.me.faults ≠ [] → u.me.pfx = none → u.me.launching = false → r = adds (exec .trapEntry u) (with_ (.ins .trapEntry))) ∧
      ((u.me.faults = [] ∨ u.me.pfx ≠ none) →
        ((∃ a, u.me.wait = some (.wfi a)) → r = adds (exec .wfiTimeout u) (with_ (.ins .wfiTimeout))) ∧
        ((∀ a, u.me.wait ≠ some (.wfi a)) →
          (∀ l i, u.me.line? u.me.pc = some l →
            let w := l.words.getD (u.me.pc.toNat / 4 % 16) 0
            let e := l.words.getD (u.me.pc.toNat / 4 % 16 + 1) 0
            let first := w.zeroExtend 64
            u.me.pc.toNat / 4 % 16 ≠ 0 → ¬ (w.toNat % 4 = 3 ∧ u.me.pc.toNat / 4 % 16 = 15) →
            (decode w e = .ok i → r = adds (exec i u) (with_ (.ins i))) ∧
            (decode w e = .error .firstWord → w.toNat % 256 ≠ 0xFE → r = adds (u.trap (.plain 0x01 first)) (with_ (.bad first))) ∧
            (decode w e = .error .extWord → w.toNat % 256 ≠ 0xFE → r = adds (u.trap (.plain 0x01 (e ++ w))) (with_ (.bad (e ++ w)))) ∧
            (decode w e = .error .reservedOp → r = adds (u.trap (.plain 0x01 first)) (with_ (.reserved w)))) ∧
          (u.me.line? u.me.pc = none → r = adds (exec .fetchLine u) (with_ (.ins .fetchLine)))))
    (s.me.pfx ≠ none → runs s s none (step s)) ∧
    (∀ rest, s.me.pfx = none → s.agenda = .issue :: rest → s.me.stopped = false → s.held = false → s.me.launching = false →
      (s.me.exiting = false ∨ s.me.faults ≠ []) →
        let u : State := { s with agenda := rest }
        runs u u (some u.readyHere) (step s)) ∧
    (s.me.pfx = none → s.agenda = [] → s.powered = true → s.trust.recovery = false → s.booted = true → s.offerDue = false → s.turn < 64 →
      ∀ p, s.pick = some p → runs s (s.focusOn p.r.hart p.r.e) p.ready (step s)) ∧
    (∀ i rest, s.me.pfx = none → s.agenda = .event i :: rest → i.isEvent = true →
      let u : State := { s with agenda := rest }
      (((s.powered = true ∧ s.trust.recovery = false ∧ s.booted = true) ∨ hatbandServes i = true) →
        step s = adds (exec i u) fun t => u.conclude { t.addEnergy (energyEntries (some i) u t) with turn := 0 }) ∧
      ((s.powered = false ∨ s.trust.recovery = true) → hatbandServes i = false → step s = .next u)) ∧
    (∀ (u t : State) (g : Go) (ready : Option (List (BitVec 14))), let x := u.went g ready t
      x.mem = t.mem ∧ x.hart = t.hart ∧ x.me.regs = t.me.regs ∧ ((∀ a, t.me.wait ≠ some (.wfi a)) → x.me.pc = t.me.pc) ∧
      x.me.mode = t.me.mode ∧ x.turn = t.turn + 1 ∧ x.slot = u.hart.id.toNat / 8 * 2 + if u.isE then 1 else 0) ∧
    ∀ t : State, let x := t.timers.settle
      let c := s.conclude t
      c.mem = x.mem ∧ c.hart = x.hart ∧ c.me.regs = x.me.regs ∧ ((∀ a, x.me.wait ≠ some (.wfi a)) → c.me.pc = x.me.pc) ∧
        ∀ a, x.me.wait = some (.wfi a) → s.wakes x x.hart.id x.isE x.me = true → c.me = Strm.advance { x.me with pc := a } 1

/-- R50, R302, R318, R404, R412, R416: after a cold reset, its bring-up complete, there is no partition, no virtual device, no team and no grid,
TIME is in holdover and no line is poisoned; the values that the manual gives its registers for reset hold; and a hart starts as R50 says. That
memory reads as zero bytes is the model's choice (log 3). The values that the manual does not give are the model's (log 1). -/
def Obligations.ResetState : Prop :=
  State.reset.parts = [] ∧ State.reset.vds = [] ∧ State.reset.teams = [] ∧ State.reset.grids = [] ∧ State.reset.timeLocked = false ∧
  State.reset.poison = [] ∧ State.reset.slotBad = [] ∧ State.reset.powered = true ∧ State.reset.booted = true ∧ State.reset.hart.live = false ∧ State.reset.trust.recovery = false ∧ State.reset.railDwellUs = 500 ∧
  State.reset.ecFig = #v[200, 350, 500, 650] ∧ State.reset.mem.wf ∧ (∀ a, State.reset.mem.get a = 0) ∧
  State.reset.me.stopped = true ∧ State.reset.peer.stopped = true ∧ State.reset.agenda = [] ∧
  (∀ d : Fin 4, (∀ n : Fin 16, (State.reset.dies[d].rr[n]).ctl = 0) ∧ ∀ r : Fin 4, (State.reset.dies[d].rails[r]).votes = []) ∧
  (∀ (pc desc tvec : Word) (lanes : Nat), let t := Strm.start pc desc lanes tvec
    t.pc = pc ∧ t.mode = .u ∧ (∀ r : Reg, isQ r = false → t.reg r = if r = 1 then desc else 0) ∧ t.vl = BitVec.ofNat 15 lanes ∧ t.vtype = 0 ∧
    t.vstart = 0 ∧ t.vstat = 0 ∧ t.hvl = 0 ∧ t.hvtype = 0 ∧ t.hvstart = 0 ∧ t.tvec = tvec ∧ t.tcause = 0 ∧ t.tpc = 0 ∧ t.tval = 0 ∧ t.tstat = 0) ∧
  (∀ (id : BitVec 14) (team grid : W32) (vd : BitVec 10) (lph : BitVec 2) (sph : BitVec 7) (cf : Bool),
    let h := Hart.start id team grid vd lph sph cf
    (∀ i, h.q i = []) ∧ (∀ r, h.full r = false) ∧ (∀ k : Fin 8, h.masks[k] = 0) ∧ h.kf = 0 ∧ (∀ i : Fin 512, h.planes[i] = 0) ∧
    (∀ i : Fin 32, h.wregs[i] = Vector.replicate 64 0) ∧ (∀ a, h.scratch.get a = 0) ∧ h.vset = [] ∧ h.vovf = false ∧ h.mq = [] ∧ h.mprog = 0) ∧
  (∀ i : Fin 16, (Core.start.tbs[i]).phase = false ∧ (Core.start.tbs[i]).posted = false ∧ (Core.start.tbs[i]).arrived = 0) ∧
  ∀ i : Fin 8, (Core.start.chans[i]).queue = [] ∧ (Core.start.chans[i]).cpwp = 0

/-- Memory is kept in its one canonical form by every step from every state: addresses rising, no byte listed that reads as an unlisted one does
(log 3). -/
def Obligations.MemoryFormKept : Prop :=
 ∀ s t : State, s.mem.wf → step s = .next t → t.mem.wf
end

