-- ==== Sys2Proof/Laws/Memory.lean ====
section
/-! SUPPORT. Reading after writing, the canonical form, and what the operations of the core data cache do to the bytes. -/
namespace Sys2Proof.Machine

-- One byte

theorem Memory.get_filter (m : Memory) (x y : Nat) : Memory.get (m.filter (fun c => c.1 ≠ x)) y = if y = x then 0 else m.get y := by
  induction m with
  | nil => simp [Memory.get]
  | cons c m ih =>
    obtain ⟨a, b⟩ := c
    by_cases hx : a = x
    · subst hx
      simp only [List.filter_cons, ne_eq, not_true_eq_false, decide_false, Bool.false_eq_true, if_false, Memory.get]
      rw [ih]; split <;> simp_all
    · simp only [List.filter_cons, ne_eq, hx, not_false_eq_true, decide_true, if_true, Memory.get]
      rw [ih]; split <;> simp_all

theorem Memory.get_put (m : Memory) (x y : Nat) (v : Byte) : (m.put x v).get y = if y = x then v else m.get y := by
  induction m with
  | nil => simp [Memory.put, Memory.get]
  | cons c m ih =>
    obtain ⟨a, b⟩ := c
    simp only [Memory.put]
    split
    · simp only [Memory.get]
    · split
      · rename_i h1 h2; subst h2; simp only [Memory.get]; split <;> rfl
      · rename_i h1 h2; simp only [Memory.get, ih]
        by_cases hy : y = x
        · subst hy; simp [h2]
        · simp [hy]

/-- A byte written is the byte read; every other byte is kept. -/
theorem Memory.get_set (m : Memory) (x y : Nat) (v : Byte) : (m.set x v).get y = if y = x then v else m.get y := by
  unfold Memory.set
  split
  · rename_i h; subst h; exact Memory.get_filter m x y
  · exact Memory.get_put m x y v

theorem Memory.put_mem {m : Memory} {x : Nat} {v : Byte} {c : Host.Cell} (h : c ∈ m.put x v) : c = (x, v) ∨ c ∈ m := by
  induction m with
  | nil => simpa [Memory.put] using h
  | cons d m ih =>
    obtain ⟨a, b⟩ := d
    simp only [Memory.put] at h
    split at h
    · rcases List.mem_cons.mp h with h | h
      · exact .inl h
      · exact .inr h
    · split at h
      · rcases List.mem_cons.mp h with h | h
        · exact .inl h
        · exact .inr (List.mem_cons_of_mem _ h)
      · rcases List.mem_cons.mp h with h | h
        · exact .inr (h ▸ List.mem_cons_self ..)
        · rcases ih h with h | h
          · exact .inl h
          · exact .inr (List.mem_cons_of_mem _ h)

/-- A write keeps the canonical form. -/
theorem Memory.wf_set {m : Memory} (h : m.wf) (x : Nat) (v : Byte) : (m.set x v).wf := by
  unfold Memory.set
  split
  · exact ⟨h.1.filter _, fun c hc => h.2 c (List.mem_filter.mp hc).1⟩
  · rename_i hv
    induction m with
    | nil => exact ⟨List.pairwise_singleton _ _, fun c hc => by simp [Memory.put] at hc; subst hc; exact hv⟩
    | cons d m ih =>
      obtain ⟨a, b⟩ := d
      have hm : Memory.wf m := ⟨(List.pairwise_cons.mp h.1).2, fun c hc => h.2 c (List.mem_cons_of_mem _ hc)⟩
      have hd := (List.pairwise_cons.mp h.1).1
      simp only [Memory.put]
      split
      · rename_i hx
        refine ⟨List.pairwise_cons.mpr ⟨fun c hc => ?_, h.1⟩, fun c hc => ?_⟩
        · rcases List.mem_cons.mp hc with rfl | hc
          · exact hx
          · exact Nat.lt_trans hx (hd c hc)
        · rcases List.mem_cons.mp hc with rfl | hc
          · exact hv
          · exact h.2 c hc
      · split
        · rename_i hx; subst hx
          refine ⟨List.pairwise_cons.mpr ⟨hd, hm.1⟩, fun c hc => ?_⟩
          rcases List.mem_cons.mp hc with rfl | hc
          · exact hv
          · exact hm.2 c hc
        · rename_i h1 h2
          have := ih hm
          refine ⟨List.pairwise_cons.mpr ⟨fun c hc => ?_, this.1⟩, fun c hc => ?_⟩
          · rcases Memory.put_mem hc with rfl | hc
            · simp only; omega
            · exact hd c hc
          · rcases List.mem_cons.mp hc with rfl | hc
            · exact h.2 _ (List.mem_cons_self ..)
            · exact this.2 c hc

-- Several bytes

theorem Memory.get_puts (m : Memory) (a x : Nat) (bs : List Byte) :
    (m.puts a bs).get x = if a ≤ x ∧ x < a + bs.length then bs.getD (x - a) 0 else m.get x := by
  induction bs generalizing m a with
  | nil =>
    have h : ¬ (a ≤ x ∧ x < a + 0) := by omega
    simp only [Memory.puts, List.length_nil, if_neg h]
  | cons b bs ih =>
    simp only [Memory.puts, ih, Memory.get_set, List.length_cons]
    by_cases h : x = a
    · subst h
      have h1 : ¬ (x + 1 ≤ x ∧ x < x + 1 + bs.length) := by omega
      have h2 : x ≤ x ∧ x < x + (bs.length + 1) := by omega
      rw [if_neg h1, if_pos h2, if_pos rfl, Nat.sub_self]; rfl
    · by_cases h1 : a + 1 ≤ x ∧ x < a + 1 + bs.length
      · have h2 : a ≤ x ∧ x < a + (bs.length + 1) := by omega
        obtain ⟨k, rfl⟩ : ∃ k, x = a + 1 + k := ⟨x - (a + 1), by omega⟩
        rw [if_pos h1, if_pos h2, show a + 1 + k - (a + 1) = k by omega, show a + 1 + k - a = k + 1 by omega]
        rfl
      · have h2 : ¬ (a ≤ x ∧ x < a + (bs.length + 1)) := by omega
        rw [if_neg h1, if_neg h2, if_neg h]

theorem Memory.wf_puts {m : Memory} (h : m.wf) (a : Nat) (bs : List Byte) : (m.puts a bs).wf := by
  induction bs generalizing m a with
  | nil => exact h
  | cons b bs ih => exact ih (Memory.wf_set h a b) (a + 1)

theorem Memory.wf_wr {m : Memory} (h : m.wf) (a n v : Nat) : (m.wr a n v).wf := Memory.wf_puts h a _

@[simp] theorem Memory.bytes_length (m : Memory) (a n : Nat) : (m.bytes a n).length = n := by
  induction n generalizing a with
  | zero => rfl
  | succ n ih => simp [Memory.bytes, ih]

theorem Memory.bytes_getD (m : Memory) (a n i : Nat) (h : i < n) : (m.bytes a n).getD i 0 = m.get (a + i) := by
  induction n generalizing a i with
  | zero => omega
  | succ n ih =>
    cases i with
    | zero => rfl
    | succ i => simp only [Memory.bytes, List.getD_cons_succ]; rw [ih (a + 1) i (by omega)]; congr 1; omega

@[simp] theorem leBytes_length (n v : Nat) : (leBytes n v).length = n := by
  induction n generalizing v with
  | zero => rfl
  | succ n ih => simp [leBytes, ih]

theorem leBytes_getD (n v i : Nat) (h : i < n) : (leBytes n v).getD i 0 = BitVec.ofNat 8 (v / 256 ^ i) := by
  induction n generalizing v i with
  | zero => omega
  | succ n ih =>
    cases i with
    | zero => simp [leBytes]
    | succ i =>
      simp only [leBytes, List.getD_cons_succ]
      rw [ih (v / 256) i (by omega), Nat.div_div_eq_div_mul, Nat.pow_succ']

theorem ofLe_lt (bs : List Byte) : ofLe bs < 256 ^ bs.length := by
  induction bs with
  | nil => simp [ofLe]
  | cons b bs ih =>
    simp only [ofLe, List.length_cons, Nat.pow_succ']
    have := b.isLt
    omega

theorem ofLe_byte (bs : List Byte) (i : Nat) : BitVec.ofNat 8 (ofLe bs / 256 ^ i) = bs.getD i 0 := by
  induction bs generalizing i with
  | nil => simp [ofLe]
  | cons b bs ih =>
    cases i with
    | zero => simp only [ofLe, Nat.pow_zero, Nat.div_one, List.getD_cons_zero]; apply BitVec.eq_of_toNat_eq; simp; omega
    | succ i =>
      simp only [ofLe, Nat.pow_succ', List.getD_cons_succ]
      rw [← Nat.div_div_eq_div_mul, show (b.toNat + 256 * ofLe bs) / 256 = ofLe bs by have := b.isLt; omega]
      exact ih i

-- Keyed lists

theorem kget_kset {α : Type} [DecidableEq α] (dflt : α) (m : List (Nat × α)) (x y : Nat) (v : α) :
    kget dflt (kset dflt m x v) y = if y = x then v else kget dflt m y := by
  unfold kset
  split
  · rename_i h; subst h
    induction m with
    | nil => simp [kget]
    | cons c m ih =>
      obtain ⟨a, b⟩ := c
      by_cases hx : a = x
      · subst hx
        simp only [List.filter_cons, ne_eq, not_true_eq_false, decide_false, Bool.false_eq_true, if_false, kget]
        rw [ih]; split <;> simp_all
      · simp only [List.filter_cons, ne_eq, hx, not_false_eq_true, decide_true, if_true, kget]
        rw [ih]; split <;> simp_all
  · induction m with
    | nil => simp [kput, kget]
    | cons c m ih =>
      obtain ⟨a, b⟩ := c
      simp only [kput]
      split
      · simp only [kget]
      · split
        · rename_i h1 h2; subst h2; simp only [kget]; split <;> rfl
        · rename_i h1 h2; simp only [kget, ih]
          by_cases hy : y = x
          · subst hy; simp [h2]
          · simp [hy]

-- Write-back

theorem maskBytes_getD (ds : List Bool) (ns os : List Byte) (i : Nat) (h : i < os.length) :
    (maskBytes ds ns os).getD i 0 = if ds.getD i false then ns.getD i 0 else os.getD i 0 := by
  induction os generalizing ds ns i with
  | nil => simp at h
  | cons o os ih =>
    cases ds with
    | nil => simp [maskBytes]
    | cons d ds =>
      cases i with
      | zero => cases ns <;> cases d <;> simp [maskBytes]
      | succ i =>
        simp only [maskBytes, List.getD_cons_succ]
        rw [ih ds ns.tail i (by simpa using h)]
        cases ns <;> simp

@[simp] theorem maskBytes_length (ds : List Bool) (ns os : List Byte) : (maskBytes ds ns os).length = os.length := by
  induction os generalizing ds ns with
  | nil => cases ds <;> rfl
  | cons o os ih => cases ds <;> simp [maskBytes, ih]

@[simp] theorem State.raise_mem (s : State) (l : Nat) : (s.raise l).mem = s.mem := by unfold State.raise; split <;> rfl
@[simp] theorem State.raise_core (s : State) (l : Nat) : (s.raise l).core = s.core := by unfold State.raise; split <;> rfl
@[simp] theorem State.raise_me (s : State) (l : Nat) : (s.raise l).me = s.me := by unfold State.raise; split <;> rfl
@[simp] theorem State.raise_hart (s : State) (l : Nat) : (s.raise l).hart = s.hart := by unfold State.raise; split <;> rfl

/-- Writing a line back puts its dirty bytes, and no other, at the home (R316). -/
theorem State.writeBack_get (s : State) (l : CLine) (x : Nat) :
    (s.writeBack l).mem.get x = if l.line = lineOf x ∧ l.dirty.getD (x % 128) false = true then l.data.getD (x % 128) 0 else s.mem.get x := by
  unfold State.writeBack
  split
  · simp only [State.raise_mem, Memory.get_puts, maskBytes_length, Memory.bytes_length]
    by_cases h : l.line = lineOf x
    · have hx : l.line * 128 ≤ x ∧ x < l.line * 128 + 128 := by rw [h, lineOf]; omega
      have hd : x - l.line * 128 = x % 128 := by rw [h, lineOf]; omega
      rw [if_pos hx, hd, maskBytes_getD _ _ _ _ (by simp; omega), Memory.bytes_getD _ _ _ _ (by omega)]
      have : l.line * 128 + x % 128 = x := by rw [h, lineOf]; omega
      simp [h, this]
      rw [← h, this]
    · have hx : ¬ (l.line * 128 ≤ x ∧ x < l.line * 128 + 128) := fun hh => h (by rw [lineOf]; omega)
      simp [h, hx]
  · rename_i hd
    have : l.dirty.getD (x % 128) false = false := by
      simp only [CLine.isDirty, Bool.not_eq_true, List.any_eq_false, id] at hd
      rw [List.getD_eq_getElem?_getD]
      cases hg : l.dirty[x % 128]? with
      | none => rfl
      | some b => exact hd b (List.mem_of_getElem? hg)
    rw [this]; simp

@[simp] theorem State.writeBack_core (s : State) (l : CLine) : (s.writeBack l).core = s.core := by
  unfold State.writeBack; split <;> simp
@[simp] theorem State.writeBack_me (s : State) (l : CLine) : (s.writeBack l).me = s.me := by
  unfold State.writeBack; split <;> simp
@[simp] theorem State.writeBack_hart (s : State) (l : CLine) : (s.writeBack l).hart = s.hart := by
  unfold State.writeBack; split <;> simp

theorem State.writeBack_wf {s : State} (h : s.mem.wf) (l : CLine) : (s.writeBack l).mem.wf := by
  unfold State.writeBack; split
  · simpa using Memory.wf_puts h _ _
  · exact h

/-- A property of the state that each step of a fold keeps. -/
theorem foldl_keeps {α β : Type} (P : β → Prop) (f : β → α → β) (hf : ∀ b a, P b → P (f b a)) (l : List α) (b : β) (h : P b) :
    P (l.foldl f b) := by
  induction l generalizing b with
  | nil => exact h
  | cons a l ih => exact ih _ (hf b a h)

/-- A part of the state that no step of a fold changes. -/
theorem foldl_same {α β γ : Type} (p : β → γ) (f : β → α → β) (hf : ∀ b a, p (f b a) = p b) (l : List α) (b : β) :
    p (l.foldl f b) = p b := by
  induction l generalizing b with
  | nil => rfl
  | cons a l ih => exact (ih _).trans (hf b a)

/-- A write at the home puts its bytes and no other (R319). -/
theorem State.homePut_mem (s : State) (pa : Nat) (bs : List Byte) : (s.homePut pa bs).mem = s.mem.puts pa bs := by
  unfold State.homePut
  exact foldl_same State.mem _ (fun b a => by simp) _ _

theorem State.homePut_core (s : State) (pa : Nat) (bs : List Byte) : (s.homePut pa bs).core = s.core := by
  unfold State.homePut
  exact foldl_same State.core _ (fun b a => by simp) _ _

theorem State.homePut_me (s : State) (pa : Nat) (bs : List Byte) : (s.homePut pa bs).me = s.me := by
  unfold State.homePut
  exact foldl_same State.me _ (fun b a => by simp) _ _

theorem State.homePut_hart (s : State) (pa : Nat) (bs : List Byte) : (s.homePut pa bs).hart = s.hart := by
  unfold State.homePut
  exact foldl_same State.hart _ (fun b a => by simp) _ _

theorem State.homePut_wf {s : State} (h : s.mem.wf) (pa : Nat) (bs : List Byte) : (s.homePut pa bs).mem.wf := by
  rw [State.homePut_mem]; exact Memory.wf_puts h pa bs

-- Cleaning lines

/-- A fold of write-backs: a byte is kept, or is a dirty byte of one of the lines. -/
theorem writeBacks_get (ls : List CLine) (s : State) (x : Nat) :
    ((ls.foldl State.writeBack s).mem.get x = s.mem.get x ∧ ∀ l ∈ ls, ¬ (l.line = lineOf x ∧ l.dirty.getD (x % 128) false = true)) ∨
    ∃ l ∈ ls, l.line = lineOf x ∧ l.dirty.getD (x % 128) false = true ∧ (ls.foldl State.writeBack s).mem.get x = l.data.getD (x % 128) 0 := by
  induction ls generalizing s with
  | nil => exact .inl ⟨rfl, fun _ h => absurd h (List.not_mem_nil)⟩
  | cons l ls ih =>
    rcases ih (s.writeBack l) with ⟨h1, h2⟩ | ⟨l', h1, h2⟩
    · by_cases hl : l.line = lineOf x ∧ l.dirty.getD (x % 128) false = true
      · exact .inr ⟨l, List.mem_cons_self .., hl.1, hl.2, h1.trans (by rw [State.writeBack_get, if_pos hl])⟩
      · refine .inl ⟨h1.trans (by rw [State.writeBack_get, if_neg hl]), fun l' h' => ?_⟩
        rcases List.mem_cons.mp h' with rfl | h'
        · exact hl
        · exact h2 l' h'
    · exact .inr ⟨l', List.mem_cons_of_mem _ h1, h2⟩

@[simp] theorem writeBacks_core (ls : List CLine) (s : State) : (ls.foldl State.writeBack s).core = s.core :=
  foldl_same State.core _ (fun b a => by simp) _ _
@[simp] theorem writeBacks_me (ls : List CLine) (s : State) : (ls.foldl State.writeBack s).me = s.me :=
  foldl_same State.me _ (fun b a => by simp) _ _
@[simp] theorem writeBacks_hart (ls : List CLine) (s : State) : (ls.foldl State.writeBack s).hart = s.hart :=
  foldl_same State.hart _ (fun b a => by simp) _ _

@[simp] theorem State.cleanLines_dcache (s : State) (p : CLine → Bool) :
    (s.cleanLines p).core.dcache = upd p CLine.clean s.core.dcache := by simp [State.cleanLines, State.setCache]
@[simp] theorem State.cleanLines_me (s : State) (p : CLine → Bool) : (s.cleanLines p).me = s.me := by
  simp [State.cleanLines, State.setCache]
@[simp] theorem State.cleanLines_hart (s : State) (p : CLine → Bool) : (s.cleanLines p).hart = s.hart := by
  simp [State.cleanLines, State.setCache]

/-- What writing lines back does to a byte of memory. -/
theorem State.cleanLines_get (s : State) (p : CLine → Bool) (x : Nat) :
    ((s.cleanLines p).mem.get x = s.mem.get x ∧
      ∀ l ∈ s.core.dcache, p l = true → ¬ (l.line = lineOf x ∧ l.dirty.getD (x % 128) false = true)) ∨
    ∃ l ∈ s.core.dcache, p l = true ∧ l.line = lineOf x ∧ l.dirty.getD (x % 128) false = true ∧
      (s.cleanLines p).mem.get x = l.data.getD (x % 128) 0 := by
  rcases writeBacks_get (s.core.dcache.filter p) s x with ⟨h1, h2⟩ | ⟨l, h1, h2⟩
  · exact .inl ⟨h1, fun l hl hp => h2 l (List.mem_filter.mpr ⟨hl, hp⟩)⟩
  · exact .inr ⟨l, (List.mem_filter.mp h1).1, (List.mem_filter.mp h1).2, h2⟩

theorem CLine.clean_dirty (l : CLine) (i : Nat) : l.clean.dirty.getD i false = false := by
  simp only [CLine.clean, List.getD_eq_getElem?_getD, List.getElem?_map]
  cases l.dirty[i]? <;> rfl

/-- Writing lines back changes no byte but to the cache's own, and makes no byte dirty. -/
theorem State.cleanLines_kept (s : State) (p : CLine → Bool) (w : Nat → Prop) : s.BytesKept (s.cleanLines p) w := by
  refine ⟨fun x _ => ?_, fun x _ v hv => ?_⟩
  · rcases s.cleanLines_get p x with ⟨h, _⟩ | ⟨l, hl, _, h1, h2, h3⟩
    · exact .inl h
    · exact .inr ⟨l, hl, h1, h2, h3.symm⟩
  · obtain ⟨l, hl, h1, h2, h3⟩ := hv
    rw [State.cleanLines_dcache] at hl
    obtain ⟨l0, hl0, rfl⟩ := List.mem_map.mp hl
    split at h1
    · rename_i hp
      simp only [hp, if_true, CLine.clean_dirty] at h2
      exact absurd h2 (by decide)
    · rename_i hp
      simp only [hp, if_false] at h2 h3
      exact ⟨l0, hl0, h1, h2, h3⟩

theorem State.BytesKept.trans {s t u : State} {w : Nat → Prop} (h : s.BytesKept t w) (k : t.BytesKept u w) : s.BytesKept u w := by
  refine ⟨fun x hx => ?_, fun x hx v hv => h.2 x hx v (k.2 x hx v hv)⟩
  rcases k.1 x hx with e | e
  · rcases h.1 x hx with e' | e'
    · exact .inl (e.trans e')
    · exact .inr (e ▸ e')
  · exact .inr (h.2 x hx _ e)

theorem State.BytesKept.refl (s : State) (w : Nat → Prop) : s.BytesKept s w := ⟨fun _ _ => .inl rfl, fun _ _ _ h => h⟩

theorem State.cleanLines_wf {s : State} (h : s.mem.wf) (p : CLine → Bool) : (s.cleanLines p).mem.wf :=
  foldl_keeps (fun s : State => s.mem.wf) _ (fun _ a hb => State.writeBack_wf hb a) _ _ h

theorem map_line_upd (p : CLine → Bool) (f : CLine → CLine) (hf : ∀ l, (f l).line = l.line) (ls : List CLine) :
    (upd p f ls).map (·.line) = ls.map (·.line) := by
  simp only [upd, List.map_map]
  refine List.map_congr_left fun l _ => ?_
  simp only [Function.comp]; split
  · exact hf l
  · rfl

end Sys2Proof.Machine
end

