-- ==== Sys2Proof/Laws/State.lean ====
section
/-! SUPPORT. What each named update of State changes, field by field. -/
namespace Sys2Proof.Machine

-- mapVd

@[simp] theorem State.mapVd_agenda (s : State) (id : Nat) (f : Vd → Vd) : (s.mapVd id f).agenda = s.agenda := rfl
@[simp] theorem State.mapVd_tick (s : State) (id : Nat) (f : Vd → Vd) : (s.mapVd id f).tick = s.tick := rfl
@[simp] theorem State.mapVd_isE (s : State) (id : Nat) (f : Vd → Vd) : (s.mapVd id f).isE = s.isE := rfl
@[simp] theorem State.mapVd_me (s : State) (id : Nat) (f : Vd → Vd) : (s.mapVd id f).me = s.me := rfl
@[simp] theorem State.mapVd_peer (s : State) (id : Nat) (f : Vd → Vd) : (s.mapVd id f).peer = s.peer := rfl
@[simp] theorem State.mapVd_hart (s : State) (id : Nat) (f : Vd → Vd) : (s.mapVd id f).hart = s.hart := rfl
@[simp] theorem State.mapVd_core (s : State) (id : Nat) (f : Vd → Vd) : (s.mapVd id f).core = s.core := rfl
@[simp] theorem State.mapVd_clus (s : State) (id : Nat) (f : Vd → Vd) : (s.mapVd id f).clus = s.clus := rfl
@[simp] theorem State.mapVd_parked (s : State) (id : Nat) (f : Vd → Vd) : (s.mapVd id f).parked = s.parked := rfl
@[simp] theorem State.mapVd_cores (s : State) (id : Nat) (f : Vd → Vd) : (s.mapVd id f).cores = s.cores := rfl
@[simp] theorem State.mapVd_cluss (s : State) (id : Nat) (f : Vd → Vd) : (s.mapVd id f).cluss = s.cluss := rfl
@[simp] theorem State.mapVd_dies (s : State) (id : Nat) (f : Vd → Vd) : (s.mapVd id f).dies = s.dies := rfl
@[simp] theorem State.mapVd_mem (s : State) (id : Nat) (f : Vd → Vd) : (s.mapVd id f).mem = s.mem := rfl
@[simp] theorem State.mapVd_vers (s : State) (id : Nat) (f : Vd → Vd) : (s.mapVd id f).vers = s.vers := rfl
@[simp] theorem State.mapVd_slotBad (s : State) (id : Nat) (f : Vd → Vd) : (s.mapVd id f).slotBad = s.slotBad := rfl
@[simp] theorem State.mapVd_poison (s : State) (id : Nat) (f : Vd → Vd) : (s.mapVd id f).poison = s.poison := rfl
@[simp] theorem State.mapVd_raw (s : State) (id : Nat) (f : Vd → Vd) : (s.mapVd id f).raw = s.raw := rfl
@[simp] theorem State.mapVd_verRegs (s : State) (id : Nat) (f : Vd → Vd) : (s.mapVd id f).verRegs = s.verRegs := rfl
@[simp] theorem State.mapVd_dirtyLog (s : State) (id : Nat) (f : Vd → Vd) : (s.mapVd id f).dirtyLog = s.dirtyLog := rfl
@[simp] theorem State.mapVd_hubq (s : State) (id : Nat) (f : Vd → Vd) : (s.mapVd id f).hubq = s.hubq := rfl
@[simp] theorem State.mapVd_vds (s : State) (id : Nat) (f : Vd → Vd) : (s.mapVd id f).vds = upd (fun v => v.id = id) f s.vds := rfl
@[simp] theorem State.mapVd_grids (s : State) (id : Nat) (f : Vd → Vd) : (s.mapVd id f).grids = s.grids := rfl
@[simp] theorem State.mapVd_teams (s : State) (id : Nat) (f : Vd → Vd) : (s.mapVd id f).teams = s.teams := rfl
@[simp] theorem State.mapVd_parts (s : State) (id : Nat) (f : Vd → Vd) : (s.mapVd id f).parts = s.parts := rfl
@[simp] theorem State.mapVd_removed (s : State) (id : Nat) (f : Vd → Vd) : (s.mapVd id f).removed = s.removed := rfl
@[simp] theorem State.mapVd_decoders (s : State) (id : Nat) (f : Vd → Vd) : (s.mapVd id f).decoders = s.decoders := rfl
@[simp] theorem State.mapVd_stamp (s : State) (id : Nat) (f : Vd → Vd) : (s.mapVd id f).stamp = s.stamp := rfl
@[simp] theorem State.mapVd_ecFig (s : State) (id : Nat) (f : Vd → Vd) : (s.mapVd id f).ecFig = s.ecFig := rfl
@[simp] theorem State.mapVd_time (s : State) (id : Nat) (f : Vd → Vd) : (s.mapVd id f).time = s.time := rfl
@[simp] theorem State.mapVd_timeLocked (s : State) (id : Nat) (f : Vd → Vd) : (s.mapVd id f).timeLocked = s.timeLocked := rfl
@[simp] theorem State.mapVd_moduleCollapsed (s : State) (id : Nat) (f : Vd → Vd) : (s.mapVd id f).moduleCollapsed = s.moduleCollapsed := rfl
@[simp] theorem State.mapVd_powered (s : State) (id : Nat) (f : Vd → Vd) : (s.mapVd id f).powered = s.powered := rfl
@[simp] theorem State.mapVd_booted (s : State) (id : Nat) (f : Vd → Vd) : (s.mapVd id f).booted = s.booted := rfl
@[simp] theorem State.mapVd_railDwellUs (s : State) (id : Nat) (f : Vd → Vd) : (s.mapVd id f).railDwellUs = s.railDwellUs := rfl
@[simp] theorem State.mapVd_hbm (s : State) (id : Nat) (f : Vd → Vd) : (s.mapVd id f).hbm = s.hbm := rfl
@[simp] theorem State.mapVd_spares (s : State) (id : Nat) (f : Vd → Vd) : (s.mapVd id f).spares = s.spares := rfl
@[simp] theorem State.mapVd_etherType (s : State) (id : Nat) (f : Vd → Vd) : (s.mapVd id f).etherType = s.etherType := rfl
@[simp] theorem State.mapVd_trust (s : State) (id : Nat) (f : Vd → Vd) : (s.mapVd id f).trust = s.trust := rfl
@[simp] theorem State.mapVd_out (s : State) (id : Nat) (f : Vd → Vd) : (s.mapVd id f).out = s.out := rfl
@[simp] theorem State.mapVd_nextId (s : State) (id : Nat) (f : Vd → Vd) : (s.mapVd id f).nextId = s.nextId := rfl
@[simp] theorem State.mapVd_turn (s : State) (id : Nat) (f : Vd → Vd) : (s.mapVd id f).turn = s.turn := rfl
@[simp] theorem State.mapVd_slot (s : State) (id : Nat) (f : Vd → Vd) : (s.mapVd id f).slot = s.slot := rfl

-- mapEp

@[simp] theorem State.mapEp_agenda (s : State) (vd : Nat) (e : BitVec 8) (f : Endpoint → Endpoint) : (s.mapEp vd e f).agenda = s.agenda := rfl
@[simp] theorem State.mapEp_tick (s : State) (vd : Nat) (e : BitVec 8) (f : Endpoint → Endpoint) : (s.mapEp vd e f).tick = s.tick := rfl
@[simp] theorem State.mapEp_isE (s : State) (vd : Nat) (e : BitVec 8) (f : Endpoint → Endpoint) : (s.mapEp vd e f).isE = s.isE := rfl
@[simp] theorem State.mapEp_me (s : State) (vd : Nat) (e : BitVec 8) (f : Endpoint → Endpoint) : (s.mapEp vd e f).me = s.me := rfl
@[simp] theorem State.mapEp_peer (s : State) (vd : Nat) (e : BitVec 8) (f : Endpoint → Endpoint) : (s.mapEp vd e f).peer = s.peer := rfl
@[simp] theorem State.mapEp_hart (s : State) (vd : Nat) (e : BitVec 8) (f : Endpoint → Endpoint) : (s.mapEp vd e f).hart = s.hart := rfl
@[simp] theorem State.mapEp_core (s : State) (vd : Nat) (e : BitVec 8) (f : Endpoint → Endpoint) : (s.mapEp vd e f).core = s.core := rfl
@[simp] theorem State.mapEp_clus (s : State) (vd : Nat) (e : BitVec 8) (f : Endpoint → Endpoint) : (s.mapEp vd e f).clus = s.clus := rfl
@[simp] theorem State.mapEp_parked (s : State) (vd : Nat) (e : BitVec 8) (f : Endpoint → Endpoint) : (s.mapEp vd e f).parked = s.parked := rfl
@[simp] theorem State.mapEp_cores (s : State) (vd : Nat) (e : BitVec 8) (f : Endpoint → Endpoint) : (s.mapEp vd e f).cores = s.cores := rfl
@[simp] theorem State.mapEp_cluss (s : State) (vd : Nat) (e : BitVec 8) (f : Endpoint → Endpoint) : (s.mapEp vd e f).cluss = s.cluss := rfl
@[simp] theorem State.mapEp_dies (s : State) (vd : Nat) (e : BitVec 8) (f : Endpoint → Endpoint) : (s.mapEp vd e f).dies = s.dies := rfl
@[simp] theorem State.mapEp_mem (s : State) (vd : Nat) (e : BitVec 8) (f : Endpoint → Endpoint) : (s.mapEp vd e f).mem = s.mem := rfl
@[simp] theorem State.mapEp_vers (s : State) (vd : Nat) (e : BitVec 8) (f : Endpoint → Endpoint) : (s.mapEp vd e f).vers = s.vers := rfl
@[simp] theorem State.mapEp_slotBad (s : State) (vd : Nat) (e : BitVec 8) (f : Endpoint → Endpoint) : (s.mapEp vd e f).slotBad = s.slotBad := rfl
@[simp] theorem State.mapEp_poison (s : State) (vd : Nat) (e : BitVec 8) (f : Endpoint → Endpoint) : (s.mapEp vd e f).poison = s.poison := rfl
@[simp] theorem State.mapEp_raw (s : State) (vd : Nat) (e : BitVec 8) (f : Endpoint → Endpoint) : (s.mapEp vd e f).raw = s.raw := rfl
@[simp] theorem State.mapEp_verRegs (s : State) (vd : Nat) (e : BitVec 8) (f : Endpoint → Endpoint) : (s.mapEp vd e f).verRegs = s.verRegs := rfl
@[simp] theorem State.mapEp_dirtyLog (s : State) (vd : Nat) (e : BitVec 8) (f : Endpoint → Endpoint) : (s.mapEp vd e f).dirtyLog = s.dirtyLog := rfl
@[simp] theorem State.mapEp_hubq (s : State) (vd : Nat) (e : BitVec 8) (f : Endpoint → Endpoint) : (s.mapEp vd e f).hubq = s.hubq := rfl
@[simp] theorem State.mapEp_vds (s : State) (vd : Nat) (e : BitVec 8) (f : Endpoint → Endpoint) :
    (s.mapEp vd e f).vds = upd (fun v => v.id = vd) (·.mapEp e f) s.vds := rfl
@[simp] theorem State.mapEp_grids (s : State) (vd : Nat) (e : BitVec 8) (f : Endpoint → Endpoint) : (s.mapEp vd e f).grids = s.grids := rfl
@[simp] theorem State.mapEp_teams (s : State) (vd : Nat) (e : BitVec 8) (f : Endpoint → Endpoint) : (s.mapEp vd e f).teams = s.teams := rfl
@[simp] theorem State.mapEp_parts (s : State) (vd : Nat) (e : BitVec 8) (f : Endpoint → Endpoint) : (s.mapEp vd e f).parts = s.parts := rfl
@[simp] theorem State.mapEp_removed (s : State) (vd : Nat) (e : BitVec 8) (f : Endpoint → Endpoint) : (s.mapEp vd e f).removed = s.removed := rfl
@[simp] theorem State.mapEp_decoders (s : State) (vd : Nat) (e : BitVec 8) (f : Endpoint → Endpoint) : (s.mapEp vd e f).decoders = s.decoders := rfl
@[simp] theorem State.mapEp_stamp (s : State) (vd : Nat) (e : BitVec 8) (f : Endpoint → Endpoint) : (s.mapEp vd e f).stamp = s.stamp := rfl
@[simp] theorem State.mapEp_ecFig (s : State) (vd : Nat) (e : BitVec 8) (f : Endpoint → Endpoint) : (s.mapEp vd e f).ecFig = s.ecFig := rfl
@[simp] theorem State.mapEp_time (s : State) (vd : Nat) (e : BitVec 8) (f : Endpoint → Endpoint) : (s.mapEp vd e f).time = s.time := rfl
@[simp] theorem State.mapEp_timeLocked (s : State) (vd : Nat) (e : BitVec 8) (f : Endpoint → Endpoint) : (s.mapEp vd e f).timeLocked = s.timeLocked := rfl
@[simp] theorem State.mapEp_moduleCollapsed (s : State) (vd : Nat) (e : BitVec 8) (f : Endpoint → Endpoint) : (s.mapEp vd e f).moduleCollapsed = s.moduleCollapsed := rfl
@[simp] theorem State.mapEp_powered (s : State) (vd : Nat) (e : BitVec 8) (f : Endpoint → Endpoint) : (s.mapEp vd e f).powered = s.powered := rfl
@[simp] theorem State.mapEp_booted (s : State) (vd : Nat) (e : BitVec 8) (f : Endpoint → Endpoint) : (s.mapEp vd e f).booted = s.booted := rfl
@[simp] theorem State.mapEp_railDwellUs (s : State) (vd : Nat) (e : BitVec 8) (f : Endpoint → Endpoint) : (s.mapEp vd e f).railDwellUs = s.railDwellUs := rfl
@[simp] theorem State.mapEp_hbm (s : State) (vd : Nat) (e : BitVec 8) (f : Endpoint → Endpoint) : (s.mapEp vd e f).hbm = s.hbm := rfl
@[simp] theorem State.mapEp_spares (s : State) (vd : Nat) (e : BitVec 8) (f : Endpoint → Endpoint) : (s.mapEp vd e f).spares = s.spares := rfl
@[simp] theorem State.mapEp_etherType (s : State) (vd : Nat) (e : BitVec 8) (f : Endpoint → Endpoint) : (s.mapEp vd e f).etherType = s.etherType := rfl
@[simp] theorem State.mapEp_trust (s : State) (vd : Nat) (e : BitVec 8) (f : Endpoint → Endpoint) : (s.mapEp vd e f).trust = s.trust := rfl
@[simp] theorem State.mapEp_out (s : State) (vd : Nat) (e : BitVec 8) (f : Endpoint → Endpoint) : (s.mapEp vd e f).out = s.out := rfl
@[simp] theorem State.mapEp_nextId (s : State) (vd : Nat) (e : BitVec 8) (f : Endpoint → Endpoint) : (s.mapEp vd e f).nextId = s.nextId := rfl
@[simp] theorem State.mapEp_turn (s : State) (vd : Nat) (e : BitVec 8) (f : Endpoint → Endpoint) : (s.mapEp vd e f).turn = s.turn := rfl
@[simp] theorem State.mapEp_slot (s : State) (vd : Nat) (e : BitVec 8) (f : Endpoint → Endpoint) : (s.mapEp vd e f).slot = s.slot := rfl

-- mapGrid

@[simp] theorem State.mapGrid_agenda (s : State) (vd gid : Nat) (f : Grid → Grid) : (s.mapGrid vd gid f).agenda = s.agenda := rfl
@[simp] theorem State.mapGrid_tick (s : State) (vd gid : Nat) (f : Grid → Grid) : (s.mapGrid vd gid f).tick = s.tick := rfl
@[simp] theorem State.mapGrid_isE (s : State) (vd gid : Nat) (f : Grid → Grid) : (s.mapGrid vd gid f).isE = s.isE := rfl
@[simp] theorem State.mapGrid_me (s : State) (vd gid : Nat) (f : Grid → Grid) : (s.mapGrid vd gid f).me = s.me := rfl
@[simp] theorem State.mapGrid_peer (s : State) (vd gid : Nat) (f : Grid → Grid) : (s.mapGrid vd gid f).peer = s.peer := rfl
@[simp] theorem State.mapGrid_hart (s : State) (vd gid : Nat) (f : Grid → Grid) : (s.mapGrid vd gid f).hart = s.hart := rfl
@[simp] theorem State.mapGrid_core (s : State) (vd gid : Nat) (f : Grid → Grid) : (s.mapGrid vd gid f).core = s.core := rfl
@[simp] theorem State.mapGrid_clus (s : State) (vd gid : Nat) (f : Grid → Grid) : (s.mapGrid vd gid f).clus = s.clus := rfl
@[simp] theorem State.mapGrid_parked (s : State) (vd gid : Nat) (f : Grid → Grid) : (s.mapGrid vd gid f).parked = s.parked := rfl
@[simp] theorem State.mapGrid_cores (s : State) (vd gid : Nat) (f : Grid → Grid) : (s.mapGrid vd gid f).cores = s.cores := rfl
@[simp] theorem State.mapGrid_cluss (s : State) (vd gid : Nat) (f : Grid → Grid) : (s.mapGrid vd gid f).cluss = s.cluss := rfl
@[simp] theorem State.mapGrid_dies (s : State) (vd gid : Nat) (f : Grid → Grid) : (s.mapGrid vd gid f).dies = s.dies := rfl
@[simp] theorem State.mapGrid_mem (s : State) (vd gid : Nat) (f : Grid → Grid) : (s.mapGrid vd gid f).mem = s.mem := rfl
@[simp] theorem State.mapGrid_vers (s : State) (vd gid : Nat) (f : Grid → Grid) : (s.mapGrid vd gid f).vers = s.vers := rfl
@[simp] theorem State.mapGrid_slotBad (s : State) (vd gid : Nat) (f : Grid → Grid) : (s.mapGrid vd gid f).slotBad = s.slotBad := rfl
@[simp] theorem State.mapGrid_poison (s : State) (vd gid : Nat) (f : Grid → Grid) : (s.mapGrid vd gid f).poison = s.poison := rfl
@[simp] theorem State.mapGrid_raw (s : State) (vd gid : Nat) (f : Grid → Grid) : (s.mapGrid vd gid f).raw = s.raw := rfl
@[simp] theorem State.mapGrid_verRegs (s : State) (vd gid : Nat) (f : Grid → Grid) : (s.mapGrid vd gid f).verRegs = s.verRegs := rfl
@[simp] theorem State.mapGrid_dirtyLog (s : State) (vd gid : Nat) (f : Grid → Grid) : (s.mapGrid vd gid f).dirtyLog = s.dirtyLog := rfl
@[simp] theorem State.mapGrid_hubq (s : State) (vd gid : Nat) (f : Grid → Grid) : (s.mapGrid vd gid f).hubq = s.hubq := rfl
@[simp] theorem State.mapGrid_vds (s : State) (vd gid : Nat) (f : Grid → Grid) : (s.mapGrid vd gid f).vds = s.vds := rfl
@[simp] theorem State.mapGrid_grids (s : State) (vd gid : Nat) (f : Grid → Grid) :
    (s.mapGrid vd gid f).grids = upd (fun g => g.vd = vd ∧ g.gid = gid) f s.grids := rfl
@[simp] theorem State.mapGrid_teams (s : State) (vd gid : Nat) (f : Grid → Grid) : (s.mapGrid vd gid f).teams = s.teams := rfl
@[simp] theorem State.mapGrid_parts (s : State) (vd gid : Nat) (f : Grid → Grid) : (s.mapGrid vd gid f).parts = s.parts := rfl
@[simp] theorem State.mapGrid_removed (s : State) (vd gid : Nat) (f : Grid → Grid) : (s.mapGrid vd gid f).removed = s.removed := rfl
@[simp] theorem State.mapGrid_decoders (s : State) (vd gid : Nat) (f : Grid → Grid) : (s.mapGrid vd gid f).decoders = s.decoders := rfl
@[simp] theorem State.mapGrid_stamp (s : State) (vd gid : Nat) (f : Grid → Grid) : (s.mapGrid vd gid f).stamp = s.stamp := rfl
@[simp] theorem State.mapGrid_ecFig (s : State) (vd gid : Nat) (f : Grid → Grid) : (s.mapGrid vd gid f).ecFig = s.ecFig := rfl
@[simp] theorem State.mapGrid_time (s : State) (vd gid : Nat) (f : Grid → Grid) : (s.mapGrid vd gid f).time = s.time := rfl
@[simp] theorem State.mapGrid_timeLocked (s : State) (vd gid : Nat) (f : Grid → Grid) : (s.mapGrid vd gid f).timeLocked = s.timeLocked := rfl
@[simp] theorem State.mapGrid_moduleCollapsed (s : State) (vd gid : Nat) (f : Grid → Grid) : (s.mapGrid vd gid f).moduleCollapsed = s.moduleCollapsed := rfl
@[simp] theorem State.mapGrid_powered (s : State) (vd gid : Nat) (f : Grid → Grid) : (s.mapGrid vd gid f).powered = s.powered := rfl
@[simp] theorem State.mapGrid_booted (s : State) (vd gid : Nat) (f : Grid → Grid) : (s.mapGrid vd gid f).booted = s.booted := rfl
@[simp] theorem State.mapGrid_railDwellUs (s : State) (vd gid : Nat) (f : Grid → Grid) : (s.mapGrid vd gid f).railDwellUs = s.railDwellUs := rfl
@[simp] theorem State.mapGrid_hbm (s : State) (vd gid : Nat) (f : Grid → Grid) : (s.mapGrid vd gid f).hbm = s.hbm := rfl
@[simp] theorem State.mapGrid_spares (s : State) (vd gid : Nat) (f : Grid → Grid) : (s.mapGrid vd gid f).spares = s.spares := rfl
@[simp] theorem State.mapGrid_etherType (s : State) (vd gid : Nat) (f : Grid → Grid) : (s.mapGrid vd gid f).etherType = s.etherType := rfl
@[simp] theorem State.mapGrid_trust (s : State) (vd gid : Nat) (f : Grid → Grid) : (s.mapGrid vd gid f).trust = s.trust := rfl
@[simp] theorem State.mapGrid_out (s : State) (vd gid : Nat) (f : Grid → Grid) : (s.mapGrid vd gid f).out = s.out := rfl
@[simp] theorem State.mapGrid_nextId (s : State) (vd gid : Nat) (f : Grid → Grid) : (s.mapGrid vd gid f).nextId = s.nextId := rfl
@[simp] theorem State.mapGrid_turn (s : State) (vd gid : Nat) (f : Grid → Grid) : (s.mapGrid vd gid f).turn = s.turn := rfl
@[simp] theorem State.mapGrid_slot (s : State) (vd gid : Nat) (f : Grid → Grid) : (s.mapGrid vd gid f).slot = s.slot := rfl

-- mapTeam

@[simp] theorem State.mapTeam_agenda (s : State) (k : TeamKey) (f : Team → Team) : (s.mapTeam k f).agenda = s.agenda := rfl
@[simp] theorem State.mapTeam_tick (s : State) (k : TeamKey) (f : Team → Team) : (s.mapTeam k f).tick = s.tick := rfl
@[simp] theorem State.mapTeam_isE (s : State) (k : TeamKey) (f : Team → Team) : (s.mapTeam k f).isE = s.isE := rfl
@[simp] theorem State.mapTeam_me (s : State) (k : TeamKey) (f : Team → Team) : (s.mapTeam k f).me = s.me := rfl
@[simp] theorem State.mapTeam_peer (s : State) (k : TeamKey) (f : Team → Team) : (s.mapTeam k f).peer = s.peer := rfl
@[simp] theorem State.mapTeam_hart (s : State) (k : TeamKey) (f : Team → Team) : (s.mapTeam k f).hart = s.hart := rfl
@[simp] theorem State.mapTeam_core (s : State) (k : TeamKey) (f : Team → Team) : (s.mapTeam k f).core = s.core := rfl
@[simp] theorem State.mapTeam_clus (s : State) (k : TeamKey) (f : Team → Team) : (s.mapTeam k f).clus = s.clus := rfl
@[simp] theorem State.mapTeam_parked (s : State) (k : TeamKey) (f : Team → Team) : (s.mapTeam k f).parked = s.parked := rfl
@[simp] theorem State.mapTeam_cores (s : State) (k : TeamKey) (f : Team → Team) : (s.mapTeam k f).cores = s.cores := rfl
@[simp] theorem State.mapTeam_cluss (s : State) (k : TeamKey) (f : Team → Team) : (s.mapTeam k f).cluss = s.cluss := rfl
@[simp] theorem State.mapTeam_dies (s : State) (k : TeamKey) (f : Team → Team) : (s.mapTeam k f).dies = s.dies := rfl
@[simp] theorem State.mapTeam_mem (s : State) (k : TeamKey) (f : Team → Team) : (s.mapTeam k f).mem = s.mem := rfl
@[simp] theorem State.mapTeam_vers (s : State) (k : TeamKey) (f : Team → Team) : (s.mapTeam k f).vers = s.vers := rfl
@[simp] theorem State.mapTeam_slotBad (s : State) (k : TeamKey) (f : Team → Team) : (s.mapTeam k f).slotBad = s.slotBad := rfl
@[simp] theorem State.mapTeam_poison (s : State) (k : TeamKey) (f : Team → Team) : (s.mapTeam k f).poison = s.poison := rfl
@[simp] theorem State.mapTeam_raw (s : State) (k : TeamKey) (f : Team → Team) : (s.mapTeam k f).raw = s.raw := rfl
@[simp] theorem State.mapTeam_verRegs (s : State) (k : TeamKey) (f : Team → Team) : (s.mapTeam k f).verRegs = s.verRegs := rfl
@[simp] theorem State.mapTeam_dirtyLog (s : State) (k : TeamKey) (f : Team → Team) : (s.mapTeam k f).dirtyLog = s.dirtyLog := rfl
@[simp] theorem State.mapTeam_hubq (s : State) (k : TeamKey) (f : Team → Team) : (s.mapTeam k f).hubq = s.hubq := rfl
@[simp] theorem State.mapTeam_vds (s : State) (k : TeamKey) (f : Team → Team) : (s.mapTeam k f).vds = s.vds := rfl
@[simp] theorem State.mapTeam_grids (s : State) (k : TeamKey) (f : Team → Team) : (s.mapTeam k f).grids = s.grids := rfl
@[simp] theorem State.mapTeam_teams (s : State) (k : TeamKey) (f : Team → Team) : (s.mapTeam k f).teams = upd (fun t => t.key = k) f s.teams := rfl
@[simp] theorem State.mapTeam_parts (s : State) (k : TeamKey) (f : Team → Team) : (s.mapTeam k f).parts = s.parts := rfl
@[simp] theorem State.mapTeam_removed (s : State) (k : TeamKey) (f : Team → Team) : (s.mapTeam k f).removed = s.removed := rfl
@[simp] theorem State.mapTeam_decoders (s : State) (k : TeamKey) (f : Team → Team) : (s.mapTeam k f).decoders = s.decoders := rfl
@[simp] theorem State.mapTeam_stamp (s : State) (k : TeamKey) (f : Team → Team) : (s.mapTeam k f).stamp = s.stamp := rfl
@[simp] theorem State.mapTeam_ecFig (s : State) (k : TeamKey) (f : Team → Team) : (s.mapTeam k f).ecFig = s.ecFig := rfl
@[simp] theorem State.mapTeam_time (s : State) (k : TeamKey) (f : Team → Team) : (s.mapTeam k f).time = s.time := rfl
@[simp] theorem State.mapTeam_timeLocked (s : State) (k : TeamKey) (f : Team → Team) : (s.mapTeam k f).timeLocked = s.timeLocked := rfl
@[simp] theorem State.mapTeam_moduleCollapsed (s : State) (k : TeamKey) (f : Team → Team) : (s.mapTeam k f).moduleCollapsed = s.moduleCollapsed := rfl
@[simp] theorem State.mapTeam_powered (s : State) (k : TeamKey) (f : Team → Team) : (s.mapTeam k f).powered = s.powered := rfl
@[simp] theorem State.mapTeam_booted (s : State) (k : TeamKey) (f : Team → Team) : (s.mapTeam k f).booted = s.booted := rfl
@[simp] theorem State.mapTeam_railDwellUs (s : State) (k : TeamKey) (f : Team → Team) : (s.mapTeam k f).railDwellUs = s.railDwellUs := rfl
@[simp] theorem State.mapTeam_hbm (s : State) (k : TeamKey) (f : Team → Team) : (s.mapTeam k f).hbm = s.hbm := rfl
@[simp] theorem State.mapTeam_spares (s : State) (k : TeamKey) (f : Team → Team) : (s.mapTeam k f).spares = s.spares := rfl
@[simp] theorem State.mapTeam_etherType (s : State) (k : TeamKey) (f : Team → Team) : (s.mapTeam k f).etherType = s.etherType := rfl
@[simp] theorem State.mapTeam_trust (s : State) (k : TeamKey) (f : Team → Team) : (s.mapTeam k f).trust = s.trust := rfl
@[simp] theorem State.mapTeam_out (s : State) (k : TeamKey) (f : Team → Team) : (s.mapTeam k f).out = s.out := rfl
@[simp] theorem State.mapTeam_nextId (s : State) (k : TeamKey) (f : Team → Team) : (s.mapTeam k f).nextId = s.nextId := rfl
@[simp] theorem State.mapTeam_turn (s : State) (k : TeamKey) (f : Team → Team) : (s.mapTeam k f).turn = s.turn := rfl
@[simp] theorem State.mapTeam_slot (s : State) (k : TeamKey) (f : Team → Team) : (s.mapTeam k f).slot = s.slot := rfl

-- report

@[simp] theorem State.report_agenda (s : State) (r : Report) : (s.report r).agenda = s.agenda := rfl
@[simp] theorem State.report_tick (s : State) (r : Report) : (s.report r).tick = s.tick := rfl
@[simp] theorem State.report_isE (s : State) (r : Report) : (s.report r).isE = s.isE := rfl
@[simp] theorem State.report_me (s : State) (r : Report) : (s.report r).me = s.me := rfl
@[simp] theorem State.report_peer (s : State) (r : Report) : (s.report r).peer = s.peer := rfl
@[simp] theorem State.report_hart (s : State) (r : Report) : (s.report r).hart = s.hart := rfl
@[simp] theorem State.report_core (s : State) (r : Report) : (s.report r).core = s.core := rfl
@[simp] theorem State.report_clus (s : State) (r : Report) : (s.report r).clus = s.clus := rfl
@[simp] theorem State.report_parked (s : State) (r : Report) : (s.report r).parked = s.parked := rfl
@[simp] theorem State.report_cores (s : State) (r : Report) : (s.report r).cores = s.cores := rfl
@[simp] theorem State.report_cluss (s : State) (r : Report) : (s.report r).cluss = s.cluss := rfl
@[simp] theorem State.report_dies (s : State) (r : Report) : (s.report r).dies = s.dies := rfl
@[simp] theorem State.report_mem (s : State) (r : Report) : (s.report r).mem = s.mem := rfl
@[simp] theorem State.report_vers (s : State) (r : Report) : (s.report r).vers = s.vers := rfl
@[simp] theorem State.report_slotBad (s : State) (r : Report) : (s.report r).slotBad = s.slotBad := rfl
@[simp] theorem State.report_poison (s : State) (r : Report) : (s.report r).poison = s.poison := rfl
@[simp] theorem State.report_raw (s : State) (r : Report) : (s.report r).raw = s.raw := rfl
@[simp] theorem State.report_verRegs (s : State) (r : Report) : (s.report r).verRegs = s.verRegs := rfl
@[simp] theorem State.report_dirtyLog (s : State) (r : Report) : (s.report r).dirtyLog = s.dirtyLog := rfl
@[simp] theorem State.report_hubq (s : State) (r : Report) : (s.report r).hubq = s.hubq := rfl
@[simp] theorem State.report_vds (s : State) (r : Report) : (s.report r).vds = s.vds := rfl
@[simp] theorem State.report_grids (s : State) (r : Report) : (s.report r).grids = s.grids := rfl
@[simp] theorem State.report_teams (s : State) (r : Report) : (s.report r).teams = s.teams := rfl
@[simp] theorem State.report_parts (s : State) (r : Report) : (s.report r).parts = s.parts := rfl
@[simp] theorem State.report_removed (s : State) (r : Report) : (s.report r).removed = s.removed := rfl
@[simp] theorem State.report_decoders (s : State) (r : Report) : (s.report r).decoders = s.decoders := rfl
@[simp] theorem State.report_stamp (s : State) (r : Report) : (s.report r).stamp = s.stamp := rfl
@[simp] theorem State.report_ecFig (s : State) (r : Report) : (s.report r).ecFig = s.ecFig := rfl
@[simp] theorem State.report_time (s : State) (r : Report) : (s.report r).time = s.time := rfl
@[simp] theorem State.report_timeLocked (s : State) (r : Report) : (s.report r).timeLocked = s.timeLocked := rfl
@[simp] theorem State.report_moduleCollapsed (s : State) (r : Report) : (s.report r).moduleCollapsed = s.moduleCollapsed := rfl
@[simp] theorem State.report_powered (s : State) (r : Report) : (s.report r).powered = s.powered := rfl
@[simp] theorem State.report_booted (s : State) (r : Report) : (s.report r).booted = s.booted := rfl
@[simp] theorem State.report_railDwellUs (s : State) (r : Report) : (s.report r).railDwellUs = s.railDwellUs := rfl
@[simp] theorem State.report_hbm (s : State) (r : Report) : (s.report r).hbm = s.hbm := rfl
@[simp] theorem State.report_spares (s : State) (r : Report) : (s.report r).spares = s.spares := rfl
@[simp] theorem State.report_etherType (s : State) (r : Report) : (s.report r).etherType = s.etherType := rfl
@[simp] theorem State.report_trust (s : State) (r : Report) : (s.report r).trust = s.trust := rfl
@[simp] theorem State.report_out (s : State) (r : Report) : (s.report r).out = s.out ++ [r] := rfl
@[simp] theorem State.report_nextId (s : State) (r : Report) : (s.report r).nextId = s.nextId := rfl
@[simp] theorem State.report_turn (s : State) (r : Report) : (s.report r).turn = s.turn := rfl
@[simp] theorem State.report_slot (s : State) (r : Report) : (s.report r).slot = s.slot := rfl

-- now

@[simp] theorem State.now_agenda (s : State) : (s.now).agenda = s.agenda := rfl
@[simp] theorem State.now_tick (s : State) : (s.now).tick = s.tick + 1 := rfl
@[simp] theorem State.now_isE (s : State) : (s.now).isE = s.isE := rfl
@[simp] theorem State.now_me (s : State) : (s.now).me = s.me := rfl
@[simp] theorem State.now_peer (s : State) : (s.now).peer = s.peer := rfl
@[simp] theorem State.now_hart (s : State) : (s.now).hart = s.hart := rfl
@[simp] theorem State.now_core (s : State) : (s.now).core = s.core := rfl
@[simp] theorem State.now_clus (s : State) : (s.now).clus = s.clus := rfl
@[simp] theorem State.now_parked (s : State) : (s.now).parked = s.parked := rfl
@[simp] theorem State.now_cores (s : State) : (s.now).cores = s.cores := rfl
@[simp] theorem State.now_cluss (s : State) : (s.now).cluss = s.cluss := rfl
@[simp] theorem State.now_dies (s : State) : (s.now).dies = s.dies := rfl
@[simp] theorem State.now_mem (s : State) : (s.now).mem = s.mem := rfl
@[simp] theorem State.now_vers (s : State) : (s.now).vers = s.vers := rfl
@[simp] theorem State.now_slotBad (s : State) : (s.now).slotBad = s.slotBad := rfl
@[simp] theorem State.now_poison (s : State) : (s.now).poison = s.poison := rfl
@[simp] theorem State.now_raw (s : State) : (s.now).raw = s.raw := rfl
@[simp] theorem State.now_verRegs (s : State) : (s.now).verRegs = s.verRegs := rfl
@[simp] theorem State.now_dirtyLog (s : State) : (s.now).dirtyLog = s.dirtyLog := rfl
@[simp] theorem State.now_hubq (s : State) : (s.now).hubq = s.hubq := rfl
@[simp] theorem State.now_vds (s : State) : (s.now).vds = s.vds := rfl
@[simp] theorem State.now_grids (s : State) : (s.now).grids = s.grids := rfl
@[simp] theorem State.now_teams (s : State) : (s.now).teams = s.teams := rfl
@[simp] theorem State.now_parts (s : State) : (s.now).parts = s.parts := rfl
@[simp] theorem State.now_removed (s : State) : (s.now).removed = s.removed := rfl
@[simp] theorem State.now_decoders (s : State) : (s.now).decoders = s.decoders := rfl
@[simp] theorem State.now_stamp (s : State) : (s.now).stamp = s.stamp := rfl
@[simp] theorem State.now_ecFig (s : State) : (s.now).ecFig = s.ecFig := rfl
@[simp] theorem State.now_time (s : State) : (s.now).time = s.time + Config.timeAdvance s.tick := rfl
@[simp] theorem State.now_timeLocked (s : State) : (s.now).timeLocked = s.timeLocked := rfl
@[simp] theorem State.now_moduleCollapsed (s : State) : (s.now).moduleCollapsed = s.moduleCollapsed := rfl
@[simp] theorem State.now_powered (s : State) : (s.now).powered = s.powered := rfl
@[simp] theorem State.now_booted (s : State) : (s.now).booted = s.booted := rfl
@[simp] theorem State.now_railDwellUs (s : State) : (s.now).railDwellUs = s.railDwellUs := rfl
@[simp] theorem State.now_hbm (s : State) : (s.now).hbm = s.hbm := rfl
@[simp] theorem State.now_spares (s : State) : (s.now).spares = s.spares := rfl
@[simp] theorem State.now_etherType (s : State) : (s.now).etherType = s.etherType := rfl
@[simp] theorem State.now_trust (s : State) : (s.now).trust = s.trust := rfl
@[simp] theorem State.now_out (s : State) : (s.now).out = s.out := rfl
@[simp] theorem State.now_nextId (s : State) : (s.now).nextId = s.nextId := rfl
@[simp] theorem State.now_turn (s : State) : (s.now).turn = s.turn := rfl
@[simp] theorem State.now_slot (s : State) : (s.now).slot = s.slot := rfl

-- setComm

@[simp] theorem State.setComm_agenda (s : State) (c : CommFile) : (s.setComm c).agenda = s.agenda := rfl
@[simp] theorem State.setComm_tick (s : State) (c : CommFile) : (s.setComm c).tick = s.tick := rfl
@[simp] theorem State.setComm_isE (s : State) (c : CommFile) : (s.setComm c).isE = s.isE := rfl
@[simp] theorem State.setComm_me (s : State) (c : CommFile) : (s.setComm c).me = s.me := rfl
@[simp] theorem State.setComm_peer (s : State) (c : CommFile) : (s.setComm c).peer = s.peer := rfl
@[simp] theorem State.setComm_hart (s : State) (c : CommFile) : (s.setComm c).hart = s.hart := rfl
@[simp] theorem State.setComm_core (s : State) (c : CommFile) : (s.setComm c).core = s.core := rfl
@[simp] theorem State.setComm_clus (s : State) (c : CommFile) : (s.setComm c).clus = { s.clus with comm := c } := rfl
@[simp] theorem State.setComm_parked (s : State) (c : CommFile) : (s.setComm c).parked = s.parked := rfl
@[simp] theorem State.setComm_cores (s : State) (c : CommFile) : (s.setComm c).cores = s.cores := rfl
@[simp] theorem State.setComm_cluss (s : State) (c : CommFile) : (s.setComm c).cluss = s.cluss := rfl
@[simp] theorem State.setComm_dies (s : State) (c : CommFile) : (s.setComm c).dies = s.dies := rfl
@[simp] theorem State.setComm_mem (s : State) (c : CommFile) : (s.setComm c).mem = s.mem := rfl
@[simp] theorem State.setComm_vers (s : State) (c : CommFile) : (s.setComm c).vers = s.vers := rfl
@[simp] theorem State.setComm_slotBad (s : State) (c : CommFile) : (s.setComm c).slotBad = s.slotBad := rfl
@[simp] theorem State.setComm_poison (s : State) (c : CommFile) : (s.setComm c).poison = s.poison := rfl
@[simp] theorem State.setComm_raw (s : State) (c : CommFile) : (s.setComm c).raw = s.raw := rfl
@[simp] theorem State.setComm_verRegs (s : State) (c : CommFile) : (s.setComm c).verRegs = s.verRegs := rfl
@[simp] theorem State.setComm_dirtyLog (s : State) (c : CommFile) : (s.setComm c).dirtyLog = s.dirtyLog := rfl
@[simp] theorem State.setComm_hubq (s : State) (c : CommFile) : (s.setComm c).hubq = s.hubq := rfl
@[simp] theorem State.setComm_vds (s : State) (c : CommFile) : (s.setComm c).vds = s.vds := rfl
@[simp] theorem State.setComm_grids (s : State) (c : CommFile) : (s.setComm c).grids = s.grids := rfl
@[simp] theorem State.setComm_teams (s : State) (c : CommFile) : (s.setComm c).teams = s.teams := rfl
@[simp] theorem State.setComm_parts (s : State) (c : CommFile) : (s.setComm c).parts = s.parts := rfl
@[simp] theorem State.setComm_removed (s : State) (c : CommFile) : (s.setComm c).removed = s.removed := rfl
@[simp] theorem State.setComm_decoders (s : State) (c : CommFile) : (s.setComm c).decoders = s.decoders := rfl
@[simp] theorem State.setComm_stamp (s : State) (c : CommFile) : (s.setComm c).stamp = s.stamp := rfl
@[simp] theorem State.setComm_ecFig (s : State) (c : CommFile) : (s.setComm c).ecFig = s.ecFig := rfl
@[simp] theorem State.setComm_time (s : State) (c : CommFile) : (s.setComm c).time = s.time := rfl
@[simp] theorem State.setComm_timeLocked (s : State) (c : CommFile) : (s.setComm c).timeLocked = s.timeLocked := rfl
@[simp] theorem State.setComm_moduleCollapsed (s : State) (c : CommFile) : (s.setComm c).moduleCollapsed = s.moduleCollapsed := rfl
@[simp] theorem State.setComm_powered (s : State) (c : CommFile) : (s.setComm c).powered = s.powered := rfl
@[simp] theorem State.setComm_booted (s : State) (c : CommFile) : (s.setComm c).booted = s.booted := rfl
@[simp] theorem State.setComm_railDwellUs (s : State) (c : CommFile) : (s.setComm c).railDwellUs = s.railDwellUs := rfl
@[simp] theorem State.setComm_hbm (s : State) (c : CommFile) : (s.setComm c).hbm = s.hbm := rfl
@[simp] theorem State.setComm_spares (s : State) (c : CommFile) : (s.setComm c).spares = s.spares := rfl
@[simp] theorem State.setComm_etherType (s : State) (c : CommFile) : (s.setComm c).etherType = s.etherType := rfl
@[simp] theorem State.setComm_trust (s : State) (c : CommFile) : (s.setComm c).trust = s.trust := rfl
@[simp] theorem State.setComm_out (s : State) (c : CommFile) : (s.setComm c).out = s.out := rfl
@[simp] theorem State.setComm_nextId (s : State) (c : CommFile) : (s.setComm c).nextId = s.nextId := rfl
@[simp] theorem State.setComm_turn (s : State) (c : CommFile) : (s.setComm c).turn = s.turn := rfl
@[simp] theorem State.setComm_slot (s : State) (c : CommFile) : (s.setComm c).slot = s.slot := rfl

-- setDie

@[simp] theorem State.setDie_agenda (s : State) (i : Fin 4) (d : Die) : (s.setDie i d).agenda = s.agenda := rfl
@[simp] theorem State.setDie_tick (s : State) (i : Fin 4) (d : Die) : (s.setDie i d).tick = s.tick := rfl
@[simp] theorem State.setDie_isE (s : State) (i : Fin 4) (d : Die) : (s.setDie i d).isE = s.isE := rfl
@[simp] theorem State.setDie_me (s : State) (i : Fin 4) (d : Die) : (s.setDie i d).me = s.me := rfl
@[simp] theorem State.setDie_peer (s : State) (i : Fin 4) (d : Die) : (s.setDie i d).peer = s.peer := rfl
@[simp] theorem State.setDie_hart (s : State) (i : Fin 4) (d : Die) : (s.setDie i d).hart = s.hart := rfl
@[simp] theorem State.setDie_core (s : State) (i : Fin 4) (d : Die) : (s.setDie i d).core = s.core := rfl
@[simp] theorem State.setDie_clus (s : State) (i : Fin 4) (d : Die) : (s.setDie i d).clus = s.clus := rfl
@[simp] theorem State.setDie_parked (s : State) (i : Fin 4) (d : Die) : (s.setDie i d).parked = s.parked := rfl
@[simp] theorem State.setDie_cores (s : State) (i : Fin 4) (d : Die) : (s.setDie i d).cores = s.cores := rfl
@[simp] theorem State.setDie_cluss (s : State) (i : Fin 4) (d : Die) : (s.setDie i d).cluss = s.cluss := rfl
@[simp] theorem State.setDie_dies (s : State) (i : Fin 4) (d : Die) : (s.setDie i d).dies = s.dies.set i d := rfl
@[simp] theorem State.setDie_mem (s : State) (i : Fin 4) (d : Die) : (s.setDie i d).mem = s.mem := rfl
@[simp] theorem State.setDie_vers (s : State) (i : Fin 4) (d : Die) : (s.setDie i d).vers = s.vers := rfl
@[simp] theorem State.setDie_slotBad (s : State) (i : Fin 4) (d : Die) : (s.setDie i d).slotBad = s.slotBad := rfl
@[simp] theorem State.setDie_poison (s : State) (i : Fin 4) (d : Die) : (s.setDie i d).poison = s.poison := rfl
@[simp] theorem State.setDie_raw (s : State) (i : Fin 4) (d : Die) : (s.setDie i d).raw = s.raw := rfl
@[simp] theorem State.setDie_verRegs (s : State) (i : Fin 4) (d : Die) : (s.setDie i d).verRegs = s.verRegs := rfl
@[simp] theorem State.setDie_dirtyLog (s : State) (i : Fin 4) (d : Die) : (s.setDie i d).dirtyLog = s.dirtyLog := rfl
@[simp] theorem State.setDie_hubq (s : State) (i : Fin 4) (d : Die) : (s.setDie i d).hubq = s.hubq := rfl
@[simp] theorem State.setDie_vds (s : State) (i : Fin 4) (d : Die) : (s.setDie i d).vds = s.vds := rfl
@[simp] theorem State.setDie_grids (s : State) (i : Fin 4) (d : Die) : (s.setDie i d).grids = s.grids := rfl
@[simp] theorem State.setDie_teams (s : State) (i : Fin 4) (d : Die) : (s.setDie i d).teams = s.teams := rfl
@[simp] theorem State.setDie_parts (s : State) (i : Fin 4) (d : Die) : (s.setDie i d).parts = s.parts := rfl
@[simp] theorem State.setDie_removed (s : State) (i : Fin 4) (d : Die) : (s.setDie i d).removed = s.removed := rfl
@[simp] theorem State.setDie_decoders (s : State) (i : Fin 4) (d : Die) : (s.setDie i d).decoders = s.decoders := rfl
@[simp] theorem State.setDie_stamp (s : State) (i : Fin 4) (d : Die) : (s.setDie i d).stamp = s.stamp := rfl
@[simp] theorem State.setDie_ecFig (s : State) (i : Fin 4) (d : Die) : (s.setDie i d).ecFig = s.ecFig := rfl
@[simp] theorem State.setDie_time (s : State) (i : Fin 4) (d : Die) : (s.setDie i d).time = s.time := rfl
@[simp] theorem State.setDie_timeLocked (s : State) (i : Fin 4) (d : Die) : (s.setDie i d).timeLocked = s.timeLocked := rfl
@[simp] theorem State.setDie_moduleCollapsed (s : State) (i : Fin 4) (d : Die) : (s.setDie i d).moduleCollapsed = s.moduleCollapsed := rfl
@[simp] theorem State.setDie_powered (s : State) (i : Fin 4) (d : Die) : (s.setDie i d).powered = s.powered := rfl
@[simp] theorem State.setDie_booted (s : State) (i : Fin 4) (d : Die) : (s.setDie i d).booted = s.booted := rfl
@[simp] theorem State.setDie_railDwellUs (s : State) (i : Fin 4) (d : Die) : (s.setDie i d).railDwellUs = s.railDwellUs := rfl
@[simp] theorem State.setDie_hbm (s : State) (i : Fin 4) (d : Die) : (s.setDie i d).hbm = s.hbm := rfl
@[simp] theorem State.setDie_spares (s : State) (i : Fin 4) (d : Die) : (s.setDie i d).spares = s.spares := rfl
@[simp] theorem State.setDie_etherType (s : State) (i : Fin 4) (d : Die) : (s.setDie i d).etherType = s.etherType := rfl
@[simp] theorem State.setDie_trust (s : State) (i : Fin 4) (d : Die) : (s.setDie i d).trust = s.trust := rfl
@[simp] theorem State.setDie_out (s : State) (i : Fin 4) (d : Die) : (s.setDie i d).out = s.out := rfl
@[simp] theorem State.setDie_nextId (s : State) (i : Fin 4) (d : Die) : (s.setDie i d).nextId = s.nextId := rfl
@[simp] theorem State.setDie_turn (s : State) (i : Fin 4) (d : Die) : (s.setDie i d).turn = s.turn := rfl
@[simp] theorem State.setDie_slot (s : State) (i : Fin 4) (d : Die) : (s.setDie i d).slot = s.slot := rfl

-- setCache

@[simp] theorem State.setCache_agenda (s : State) (c : List CLine) : (s.setCache c).agenda = s.agenda := rfl
@[simp] theorem State.setCache_tick (s : State) (c : List CLine) : (s.setCache c).tick = s.tick := rfl
@[simp] theorem State.setCache_isE (s : State) (c : List CLine) : (s.setCache c).isE = s.isE := rfl
@[simp] theorem State.setCache_me (s : State) (c : List CLine) : (s.setCache c).me = s.me := rfl
@[simp] theorem State.setCache_peer (s : State) (c : List CLine) : (s.setCache c).peer = s.peer := rfl
@[simp] theorem State.setCache_hart (s : State) (c : List CLine) : (s.setCache c).hart = s.hart := rfl
@[simp] theorem State.setCache_core (s : State) (c : List CLine) : (s.setCache c).core = { s.core with dcache := c } := rfl
@[simp] theorem State.setCache_clus (s : State) (c : List CLine) : (s.setCache c).clus = s.clus := rfl
@[simp] theorem State.setCache_parked (s : State) (c : List CLine) : (s.setCache c).parked = s.parked := rfl
@[simp] theorem State.setCache_cores (s : State) (c : List CLine) : (s.setCache c).cores = s.cores := rfl
@[simp] theorem State.setCache_cluss (s : State) (c : List CLine) : (s.setCache c).cluss = s.cluss := rfl
@[simp] theorem State.setCache_dies (s : State) (c : List CLine) : (s.setCache c).dies = s.dies := rfl
@[simp] theorem State.setCache_mem (s : State) (c : List CLine) : (s.setCache c).mem = s.mem := rfl
@[simp] theorem State.setCache_vers (s : State) (c : List CLine) : (s.setCache c).vers = s.vers := rfl
@[simp] theorem State.setCache_slotBad (s : State) (c : List CLine) : (s.setCache c).slotBad = s.slotBad := rfl
@[simp] theorem State.setCache_poison (s : State) (c : List CLine) : (s.setCache c).poison = s.poison := rfl
@[simp] theorem State.setCache_raw (s : State) (c : List CLine) : (s.setCache c).raw = s.raw := rfl
@[simp] theorem State.setCache_verRegs (s : State) (c : List CLine) : (s.setCache c).verRegs = s.verRegs := rfl
@[simp] theorem State.setCache_dirtyLog (s : State) (c : List CLine) : (s.setCache c).dirtyLog = s.dirtyLog := rfl
@[simp] theorem State.setCache_hubq (s : State) (c : List CLine) : (s.setCache c).hubq = s.hubq := rfl
@[simp] theorem State.setCache_vds (s : State) (c : List CLine) : (s.setCache c).vds = s.vds := rfl
@[simp] theorem State.setCache_grids (s : State) (c : List CLine) : (s.setCache c).grids = s.grids := rfl
@[simp] theorem State.setCache_teams (s : State) (c : List CLine) : (s.setCache c).teams = s.teams := rfl
@[simp] theorem State.setCache_parts (s : State) (c : List CLine) : (s.setCache c).parts = s.parts := rfl
@[simp] theorem State.setCache_removed (s : State) (c : List CLine) : (s.setCache c).removed = s.removed := rfl
@[simp] theorem State.setCache_decoders (s : State) (c : List CLine) : (s.setCache c).decoders = s.decoders := rfl
@[simp] theorem State.setCache_stamp (s : State) (c : List CLine) : (s.setCache c).stamp = s.stamp := rfl
@[simp] theorem State.setCache_ecFig (s : State) (c : List CLine) : (s.setCache c).ecFig = s.ecFig := rfl
@[simp] theorem State.setCache_time (s : State) (c : List CLine) : (s.setCache c).time = s.time := rfl
@[simp] theorem State.setCache_timeLocked (s : State) (c : List CLine) : (s.setCache c).timeLocked = s.timeLocked := rfl
@[simp] theorem State.setCache_moduleCollapsed (s : State) (c : List CLine) : (s.setCache c).moduleCollapsed = s.moduleCollapsed := rfl
@[simp] theorem State.setCache_powered (s : State) (c : List CLine) : (s.setCache c).powered = s.powered := rfl
@[simp] theorem State.setCache_booted (s : State) (c : List CLine) : (s.setCache c).booted = s.booted := rfl
@[simp] theorem State.setCache_railDwellUs (s : State) (c : List CLine) : (s.setCache c).railDwellUs = s.railDwellUs := rfl
@[simp] theorem State.setCache_hbm (s : State) (c : List CLine) : (s.setCache c).hbm = s.hbm := rfl
@[simp] theorem State.setCache_spares (s : State) (c : List CLine) : (s.setCache c).spares = s.spares := rfl
@[simp] theorem State.setCache_etherType (s : State) (c : List CLine) : (s.setCache c).etherType = s.etherType := rfl
@[simp] theorem State.setCache_trust (s : State) (c : List CLine) : (s.setCache c).trust = s.trust := rfl
@[simp] theorem State.setCache_out (s : State) (c : List CLine) : (s.setCache c).out = s.out := rfl
@[simp] theorem State.setCache_nextId (s : State) (c : List CLine) : (s.setCache c).nextId = s.nextId := rfl
@[simp] theorem State.setCache_turn (s : State) (c : List CLine) : (s.setCache c).turn = s.turn := rfl
@[simp] theorem State.setCache_slot (s : State) (c : List CLine) : (s.setCache c).slot = s.slot := rfl

-- setChan

@[simp] theorem State.setChan_agenda (s : State) (i : BitVec 3) (c : Channel) : (s.setChan i c).agenda = s.agenda := rfl
@[simp] theorem State.setChan_tick (s : State) (i : BitVec 3) (c : Channel) : (s.setChan i c).tick = s.tick := rfl
@[simp] theorem State.setChan_isE (s : State) (i : BitVec 3) (c : Channel) : (s.setChan i c).isE = s.isE := rfl
@[simp] theorem State.setChan_me (s : State) (i : BitVec 3) (c : Channel) : (s.setChan i c).me = s.me := rfl
@[simp] theorem State.setChan_peer (s : State) (i : BitVec 3) (c : Channel) : (s.setChan i c).peer = s.peer := rfl
@[simp] theorem State.setChan_hart (s : State) (i : BitVec 3) (c : Channel) : (s.setChan i c).hart = s.hart := rfl
@[simp] theorem State.setChan_core (s : State) (i : BitVec 3) (c : Channel) :
    (s.setChan i c).core = { s.core with chans := s.core.chans.set i.toNat c } := rfl
@[simp] theorem State.setChan_clus (s : State) (i : BitVec 3) (c : Channel) : (s.setChan i c).clus = s.clus := rfl
@[simp] theorem State.setChan_parked (s : State) (i : BitVec 3) (c : Channel) : (s.setChan i c).parked = s.parked := rfl
@[simp] theorem State.setChan_cores (s : State) (i : BitVec 3) (c : Channel) : (s.setChan i c).cores = s.cores := rfl
@[simp] theorem State.setChan_cluss (s : State) (i : BitVec 3) (c : Channel) : (s.setChan i c).cluss = s.cluss := rfl
@[simp] theorem State.setChan_dies (s : State) (i : BitVec 3) (c : Channel) : (s.setChan i c).dies = s.dies := rfl
@[simp] theorem State.setChan_mem (s : State) (i : BitVec 3) (c : Channel) : (s.setChan i c).mem = s.mem := rfl
@[simp] theorem State.setChan_vers (s : State) (i : BitVec 3) (c : Channel) : (s.setChan i c).vers = s.vers := rfl
@[simp] theorem State.setChan_slotBad (s : State) (i : BitVec 3) (c : Channel) : (s.setChan i c).slotBad = s.slotBad := rfl
@[simp] theorem State.setChan_poison (s : State) (i : BitVec 3) (c : Channel) : (s.setChan i c).poison = s.poison := rfl
@[simp] theorem State.setChan_raw (s : State) (i : BitVec 3) (c : Channel) : (s.setChan i c).raw = s.raw := rfl
@[simp] theorem State.setChan_verRegs (s : State) (i : BitVec 3) (c : Channel) : (s.setChan i c).verRegs = s.verRegs := rfl
@[simp] theorem State.setChan_dirtyLog (s : State) (i : BitVec 3) (c : Channel) : (s.setChan i c).dirtyLog = s.dirtyLog := rfl
@[simp] theorem State.setChan_hubq (s : State) (i : BitVec 3) (c : Channel) : (s.setChan i c).hubq = s.hubq := rfl
@[simp] theorem State.setChan_vds (s : State) (i : BitVec 3) (c : Channel) : (s.setChan i c).vds = s.vds := rfl
@[simp] theorem State.setChan_grids (s : State) (i : BitVec 3) (c : Channel) : (s.setChan i c).grids = s.grids := rfl
@[simp] theorem State.setChan_teams (s : State) (i : BitVec 3) (c : Channel) : (s.setChan i c).teams = s.teams := rfl
@[simp] theorem State.setChan_parts (s : State) (i : BitVec 3) (c : Channel) : (s.setChan i c).parts = s.parts := rfl
@[simp] theorem State.setChan_removed (s : State) (i : BitVec 3) (c : Channel) : (s.setChan i c).removed = s.removed := rfl
@[simp] theorem State.setChan_decoders (s : State) (i : BitVec 3) (c : Channel) : (s.setChan i c).decoders = s.decoders := rfl
@[simp] theorem State.setChan_stamp (s : State) (i : BitVec 3) (c : Channel) : (s.setChan i c).stamp = s.stamp := rfl
@[simp] theorem State.setChan_ecFig (s : State) (i : BitVec 3) (c : Channel) : (s.setChan i c).ecFig = s.ecFig := rfl
@[simp] theorem State.setChan_time (s : State) (i : BitVec 3) (c : Channel) : (s.setChan i c).time = s.time := rfl
@[simp] theorem State.setChan_timeLocked (s : State) (i : BitVec 3) (c : Channel) : (s.setChan i c).timeLocked = s.timeLocked := rfl
@[simp] theorem State.setChan_moduleCollapsed (s : State) (i : BitVec 3) (c : Channel) : (s.setChan i c).moduleCollapsed = s.moduleCollapsed := rfl
@[simp] theorem State.setChan_powered (s : State) (i : BitVec 3) (c : Channel) : (s.setChan i c).powered = s.powered := rfl
@[simp] theorem State.setChan_booted (s : State) (i : BitVec 3) (c : Channel) : (s.setChan i c).booted = s.booted := rfl
@[simp] theorem State.setChan_railDwellUs (s : State) (i : BitVec 3) (c : Channel) : (s.setChan i c).railDwellUs = s.railDwellUs := rfl
@[simp] theorem State.setChan_hbm (s : State) (i : BitVec 3) (c : Channel) : (s.setChan i c).hbm = s.hbm := rfl
@[simp] theorem State.setChan_spares (s : State) (i : BitVec 3) (c : Channel) : (s.setChan i c).spares = s.spares := rfl
@[simp] theorem State.setChan_etherType (s : State) (i : BitVec 3) (c : Channel) : (s.setChan i c).etherType = s.etherType := rfl
@[simp] theorem State.setChan_trust (s : State) (i : BitVec 3) (c : Channel) : (s.setChan i c).trust = s.trust := rfl
@[simp] theorem State.setChan_out (s : State) (i : BitVec 3) (c : Channel) : (s.setChan i c).out = s.out := rfl
@[simp] theorem State.setChan_nextId (s : State) (i : BitVec 3) (c : Channel) : (s.setChan i c).nextId = s.nextId := rfl
@[simp] theorem State.setChan_turn (s : State) (i : BitVec 3) (c : Channel) : (s.setChan i c).turn = s.turn := rfl
@[simp] theorem State.setChan_slot (s : State) (i : BitVec 3) (c : Channel) : (s.setChan i c).slot = s.slot := rfl

-- mapBar

@[simp] theorem State.mapBar_agenda (s : State) (n : BitVec 4) (f : Barrier → Barrier) : (s.mapBar n f).agenda = s.agenda := rfl
@[simp] theorem State.mapBar_tick (s : State) (n : BitVec 4) (f : Barrier → Barrier) : (s.mapBar n f).tick = s.tick := rfl
@[simp] theorem State.mapBar_isE (s : State) (n : BitVec 4) (f : Barrier → Barrier) : (s.mapBar n f).isE = s.isE := rfl
@[simp] theorem State.mapBar_me (s : State) (n : BitVec 4) (f : Barrier → Barrier) : (s.mapBar n f).me = s.me := rfl
@[simp] theorem State.mapBar_peer (s : State) (n : BitVec 4) (f : Barrier → Barrier) : (s.mapBar n f).peer = s.peer := rfl
@[simp] theorem State.mapBar_hart (s : State) (n : BitVec 4) (f : Barrier → Barrier) : (s.mapBar n f).hart = s.hart := rfl
@[simp] theorem State.mapBar_core (s : State) (n : BitVec 4) (f : Barrier → Barrier) :
    (s.mapBar n f).core = Core.settleBar { s.core with tbs := s.core.tbs.set n.toNat (f s.core.tbs[n.toNat]) } n := rfl
@[simp] theorem State.mapBar_clus (s : State) (n : BitVec 4) (f : Barrier → Barrier) : (s.mapBar n f).clus = s.clus := rfl
@[simp] theorem State.mapBar_parked (s : State) (n : BitVec 4) (f : Barrier → Barrier) : (s.mapBar n f).parked = s.parked := rfl
@[simp] theorem State.mapBar_cores (s : State) (n : BitVec 4) (f : Barrier → Barrier) : (s.mapBar n f).cores = s.cores := rfl
@[simp] theorem State.mapBar_cluss (s : State) (n : BitVec 4) (f : Barrier → Barrier) : (s.mapBar n f).cluss = s.cluss := rfl
@[simp] theorem State.mapBar_dies (s : State) (n : BitVec 4) (f : Barrier → Barrier) : (s.mapBar n f).dies = s.dies := rfl
@[simp] theorem State.mapBar_mem (s : State) (n : BitVec 4) (f : Barrier → Barrier) : (s.mapBar n f).mem = s.mem := rfl
@[simp] theorem State.mapBar_vers (s : State) (n : BitVec 4) (f : Barrier → Barrier) : (s.mapBar n f).vers = s.vers := rfl
@[simp] theorem State.mapBar_slotBad (s : State) (n : BitVec 4) (f : Barrier → Barrier) : (s.mapBar n f).slotBad = s.slotBad := rfl
@[simp] theorem State.mapBar_poison (s : State) (n : BitVec 4) (f : Barrier → Barrier) : (s.mapBar n f).poison = s.poison := rfl
@[simp] theorem State.mapBar_raw (s : State) (n : BitVec 4) (f : Barrier → Barrier) : (s.mapBar n f).raw = s.raw := rfl
@[simp] theorem State.mapBar_verRegs (s : State) (n : BitVec 4) (f : Barrier → Barrier) : (s.mapBar n f).verRegs = s.verRegs := rfl
@[simp] theorem State.mapBar_dirtyLog (s : State) (n : BitVec 4) (f : Barrier → Barrier) : (s.mapBar n f).dirtyLog = s.dirtyLog := rfl
@[simp] theorem State.mapBar_hubq (s : State) (n : BitVec 4) (f : Barrier → Barrier) : (s.mapBar n f).hubq = s.hubq := rfl
@[simp] theorem State.mapBar_vds (s : State) (n : BitVec 4) (f : Barrier → Barrier) : (s.mapBar n f).vds = s.vds := rfl
@[simp] theorem State.mapBar_grids (s : State) (n : BitVec 4) (f : Barrier → Barrier) : (s.mapBar n f).grids = s.grids := rfl
@[simp] theorem State.mapBar_teams (s : State) (n : BitVec 4) (f : Barrier → Barrier) : (s.mapBar n f).teams = s.teams := rfl
@[simp] theorem State.mapBar_parts (s : State) (n : BitVec 4) (f : Barrier → Barrier) : (s.mapBar n f).parts = s.parts := rfl
@[simp] theorem State.mapBar_removed (s : State) (n : BitVec 4) (f : Barrier → Barrier) : (s.mapBar n f).removed = s.removed := rfl
@[simp] theorem State.mapBar_decoders (s : State) (n : BitVec 4) (f : Barrier → Barrier) : (s.mapBar n f).decoders = s.decoders := rfl
@[simp] theorem State.mapBar_stamp (s : State) (n : BitVec 4) (f : Barrier → Barrier) : (s.mapBar n f).stamp = s.stamp := rfl
@[simp] theorem State.mapBar_ecFig (s : State) (n : BitVec 4) (f : Barrier → Barrier) : (s.mapBar n f).ecFig = s.ecFig := rfl
@[simp] theorem State.mapBar_time (s : State) (n : BitVec 4) (f : Barrier → Barrier) : (s.mapBar n f).time = s.time := rfl
@[simp] theorem State.mapBar_timeLocked (s : State) (n : BitVec 4) (f : Barrier → Barrier) : (s.mapBar n f).timeLocked = s.timeLocked := rfl
@[simp] theorem State.mapBar_moduleCollapsed (s : State) (n : BitVec 4) (f : Barrier → Barrier) : (s.mapBar n f).moduleCollapsed = s.moduleCollapsed := rfl
@[simp] theorem State.mapBar_powered (s : State) (n : BitVec 4) (f : Barrier → Barrier) : (s.mapBar n f).powered = s.powered := rfl
@[simp] theorem State.mapBar_booted (s : State) (n : BitVec 4) (f : Barrier → Barrier) : (s.mapBar n f).booted = s.booted := rfl
@[simp] theorem State.mapBar_railDwellUs (s : State) (n : BitVec 4) (f : Barrier → Barrier) : (s.mapBar n f).railDwellUs = s.railDwellUs := rfl
@[simp] theorem State.mapBar_hbm (s : State) (n : BitVec 4) (f : Barrier → Barrier) : (s.mapBar n f).hbm = s.hbm := rfl
@[simp] theorem State.mapBar_spares (s : State) (n : BitVec 4) (f : Barrier → Barrier) : (s.mapBar n f).spares = s.spares := rfl
@[simp] theorem State.mapBar_etherType (s : State) (n : BitVec 4) (f : Barrier → Barrier) : (s.mapBar n f).etherType = s.etherType := rfl
@[simp] theorem State.mapBar_trust (s : State) (n : BitVec 4) (f : Barrier → Barrier) : (s.mapBar n f).trust = s.trust := rfl
@[simp] theorem State.mapBar_out (s : State) (n : BitVec 4) (f : Barrier → Barrier) : (s.mapBar n f).out = s.out := rfl
@[simp] theorem State.mapBar_nextId (s : State) (n : BitVec 4) (f : Barrier → Barrier) : (s.mapBar n f).nextId = s.nextId := rfl
@[simp] theorem State.mapBar_turn (s : State) (n : BitVec 4) (f : Barrier → Barrier) : (s.mapBar n f).turn = s.turn := rfl
@[simp] theorem State.mapBar_slot (s : State) (n : BitVec 4) (f : Barrier → Barrier) : (s.mapBar n f).slot = s.slot := rfl

-- dropIlocks

@[simp] theorem State.dropIlocks_agenda (s : State) (p : Ilock → Bool) : (s.dropIlocks p).agenda = s.agenda := rfl
@[simp] theorem State.dropIlocks_tick (s : State) (p : Ilock → Bool) : (s.dropIlocks p).tick = s.tick := rfl
@[simp] theorem State.dropIlocks_isE (s : State) (p : Ilock → Bool) : (s.dropIlocks p).isE = s.isE := rfl
@[simp] theorem State.dropIlocks_me (s : State) (p : Ilock → Bool) : (s.dropIlocks p).me = s.me := rfl
@[simp] theorem State.dropIlocks_peer (s : State) (p : Ilock → Bool) : (s.dropIlocks p).peer = s.peer := rfl
@[simp] theorem State.dropIlocks_hart (s : State) (p : Ilock → Bool) :
    (s.dropIlocks p).hart = { s.hart with ilocks := s.hart.ilocks.filter (fun e => !p e) } := rfl
@[simp] theorem State.dropIlocks_core (s : State) (p : Ilock → Bool) : (s.dropIlocks p).core = s.core := rfl
@[simp] theorem State.dropIlocks_clus (s : State) (p : Ilock → Bool) : (s.dropIlocks p).clus = s.clus := rfl
@[simp] theorem State.dropIlocks_parked (s : State) (p : Ilock → Bool) : (s.dropIlocks p).parked = s.parked := rfl
@[simp] theorem State.dropIlocks_cores (s : State) (p : Ilock → Bool) : (s.dropIlocks p).cores = s.cores := rfl
@[simp] theorem State.dropIlocks_cluss (s : State) (p : Ilock → Bool) : (s.dropIlocks p).cluss = s.cluss := rfl
@[simp] theorem State.dropIlocks_dies (s : State) (p : Ilock → Bool) : (s.dropIlocks p).dies = s.dies := rfl
@[simp] theorem State.dropIlocks_mem (s : State) (p : Ilock → Bool) : (s.dropIlocks p).mem = s.mem := rfl
@[simp] theorem State.dropIlocks_vers (s : State) (p : Ilock → Bool) : (s.dropIlocks p).vers = s.vers := rfl
@[simp] theorem State.dropIlocks_slotBad (s : State) (p : Ilock → Bool) : (s.dropIlocks p).slotBad = s.slotBad := rfl
@[simp] theorem State.dropIlocks_poison (s : State) (p : Ilock → Bool) : (s.dropIlocks p).poison = s.poison := rfl
@[simp] theorem State.dropIlocks_raw (s : State) (p : Ilock → Bool) : (s.dropIlocks p).raw = s.raw := rfl
@[simp] theorem State.dropIlocks_verRegs (s : State) (p : Ilock → Bool) : (s.dropIlocks p).verRegs = s.verRegs := rfl
@[simp] theorem State.dropIlocks_dirtyLog (s : State) (p : Ilock → Bool) : (s.dropIlocks p).dirtyLog = s.dirtyLog := rfl
@[simp] theorem State.dropIlocks_hubq (s : State) (p : Ilock → Bool) : (s.dropIlocks p).hubq = s.hubq := rfl
@[simp] theorem State.dropIlocks_vds (s : State) (p : Ilock → Bool) : (s.dropIlocks p).vds = s.vds := rfl
@[simp] theorem State.dropIlocks_grids (s : State) (p : Ilock → Bool) : (s.dropIlocks p).grids = s.grids := rfl
@[simp] theorem State.dropIlocks_teams (s : State) (p : Ilock → Bool) : (s.dropIlocks p).teams = s.teams := rfl
@[simp] theorem State.dropIlocks_parts (s : State) (p : Ilock → Bool) : (s.dropIlocks p).parts = s.parts := rfl
@[simp] theorem State.dropIlocks_removed (s : State) (p : Ilock → Bool) : (s.dropIlocks p).removed = s.removed := rfl
@[simp] theorem State.dropIlocks_decoders (s : State) (p : Ilock → Bool) : (s.dropIlocks p).decoders = s.decoders := rfl
@[simp] theorem State.dropIlocks_stamp (s : State) (p : Ilock → Bool) : (s.dropIlocks p).stamp = s.stamp := rfl
@[simp] theorem State.dropIlocks_ecFig (s : State) (p : Ilock → Bool) : (s.dropIlocks p).ecFig = s.ecFig := rfl
@[simp] theorem State.dropIlocks_time (s : State) (p : Ilock → Bool) : (s.dropIlocks p).time = s.time := rfl
@[simp] theorem State.dropIlocks_timeLocked (s : State) (p : Ilock → Bool) : (s.dropIlocks p).timeLocked = s.timeLocked := rfl
@[simp] theorem State.dropIlocks_moduleCollapsed (s : State) (p : Ilock → Bool) : (s.dropIlocks p).moduleCollapsed = s.moduleCollapsed := rfl
@[simp] theorem State.dropIlocks_powered (s : State) (p : Ilock → Bool) : (s.dropIlocks p).powered = s.powered := rfl
@[simp] theorem State.dropIlocks_booted (s : State) (p : Ilock → Bool) : (s.dropIlocks p).booted = s.booted := rfl
@[simp] theorem State.dropIlocks_railDwellUs (s : State) (p : Ilock → Bool) : (s.dropIlocks p).railDwellUs = s.railDwellUs := rfl
@[simp] theorem State.dropIlocks_hbm (s : State) (p : Ilock → Bool) : (s.dropIlocks p).hbm = s.hbm := rfl
@[simp] theorem State.dropIlocks_spares (s : State) (p : Ilock → Bool) : (s.dropIlocks p).spares = s.spares := rfl
@[simp] theorem State.dropIlocks_etherType (s : State) (p : Ilock → Bool) : (s.dropIlocks p).etherType = s.etherType := rfl
@[simp] theorem State.dropIlocks_trust (s : State) (p : Ilock → Bool) : (s.dropIlocks p).trust = s.trust := rfl
@[simp] theorem State.dropIlocks_out (s : State) (p : Ilock → Bool) : (s.dropIlocks p).out = s.out := rfl
@[simp] theorem State.dropIlocks_nextId (s : State) (p : Ilock → Bool) : (s.dropIlocks p).nextId = s.nextId := rfl
@[simp] theorem State.dropIlocks_turn (s : State) (p : Ilock → Bool) : (s.dropIlocks p).turn = s.turn := rfl
@[simp] theorem State.dropIlocks_slot (s : State) (p : Ilock → Bool) : (s.dropIlocks p).slot = s.slot := rfl

-- popped

@[simp] theorem State.popped_agenda (s : State) (srcs : List Reg) : (s.popped srcs).agenda = s.agenda := rfl
@[simp] theorem State.popped_tick (s : State) (srcs : List Reg) : (s.popped srcs).tick = s.tick := rfl
@[simp] theorem State.popped_isE (s : State) (srcs : List Reg) : (s.popped srcs).isE = s.isE := rfl
@[simp] theorem State.popped_me (s : State) (srcs : List Reg) : (s.popped srcs).me = s.me := rfl
@[simp] theorem State.popped_peer (s : State) (srcs : List Reg) : (s.popped srcs).peer = s.peer := rfl
@[simp] theorem State.popped_hart (s : State) (srcs : List Reg) : (s.popped srcs).hart = (popAll srcs s.me s.hart).2 := rfl
@[simp] theorem State.popped_core (s : State) (srcs : List Reg) : (s.popped srcs).core = s.core := rfl
@[simp] theorem State.popped_clus (s : State) (srcs : List Reg) : (s.popped srcs).clus = s.clus := rfl
@[simp] theorem State.popped_parked (s : State) (srcs : List Reg) : (s.popped srcs).parked = s.parked := rfl
@[simp] theorem State.popped_cores (s : State) (srcs : List Reg) : (s.popped srcs).cores = s.cores := rfl
@[simp] theorem State.popped_cluss (s : State) (srcs : List Reg) : (s.popped srcs).cluss = s.cluss := rfl
@[simp] theorem State.popped_dies (s : State) (srcs : List Reg) : (s.popped srcs).dies = s.dies := rfl
@[simp] theorem State.popped_mem (s : State) (srcs : List Reg) : (s.popped srcs).mem = s.mem := rfl
@[simp] theorem State.popped_vers (s : State) (srcs : List Reg) : (s.popped srcs).vers = s.vers := rfl
@[simp] theorem State.popped_slotBad (s : State) (srcs : List Reg) : (s.popped srcs).slotBad = s.slotBad := rfl
@[simp] theorem State.popped_poison (s : State) (srcs : List Reg) : (s.popped srcs).poison = s.poison := rfl
@[simp] theorem State.popped_raw (s : State) (srcs : List Reg) : (s.popped srcs).raw = s.raw := rfl
@[simp] theorem State.popped_verRegs (s : State) (srcs : List Reg) : (s.popped srcs).verRegs = s.verRegs := rfl
@[simp] theorem State.popped_dirtyLog (s : State) (srcs : List Reg) : (s.popped srcs).dirtyLog = s.dirtyLog := rfl
@[simp] theorem State.popped_hubq (s : State) (srcs : List Reg) : (s.popped srcs).hubq = s.hubq := rfl
@[simp] theorem State.popped_vds (s : State) (srcs : List Reg) : (s.popped srcs).vds = s.vds := rfl
@[simp] theorem State.popped_grids (s : State) (srcs : List Reg) : (s.popped srcs).grids = s.grids := rfl
@[simp] theorem State.popped_teams (s : State) (srcs : List Reg) : (s.popped srcs).teams = s.teams := rfl
@[simp] theorem State.popped_parts (s : State) (srcs : List Reg) : (s.popped srcs).parts = s.parts := rfl
@[simp] theorem State.popped_removed (s : State) (srcs : List Reg) : (s.popped srcs).removed = s.removed := rfl
@[simp] theorem State.popped_decoders (s : State) (srcs : List Reg) : (s.popped srcs).decoders = s.decoders := rfl
@[simp] theorem State.popped_stamp (s : State) (srcs : List Reg) : (s.popped srcs).stamp = s.stamp := rfl
@[simp] theorem State.popped_ecFig (s : State) (srcs : List Reg) : (s.popped srcs).ecFig = s.ecFig := rfl
@[simp] theorem State.popped_time (s : State) (srcs : List Reg) : (s.popped srcs).time = s.time := rfl
@[simp] theorem State.popped_timeLocked (s : State) (srcs : List Reg) : (s.popped srcs).timeLocked = s.timeLocked := rfl
@[simp] theorem State.popped_moduleCollapsed (s : State) (srcs : List Reg) : (s.popped srcs).moduleCollapsed = s.moduleCollapsed := rfl
@[simp] theorem State.popped_powered (s : State) (srcs : List Reg) : (s.popped srcs).powered = s.powered := rfl
@[simp] theorem State.popped_booted (s : State) (srcs : List Reg) : (s.popped srcs).booted = s.booted := rfl
@[simp] theorem State.popped_railDwellUs (s : State) (srcs : List Reg) : (s.popped srcs).railDwellUs = s.railDwellUs := rfl
@[simp] theorem State.popped_hbm (s : State) (srcs : List Reg) : (s.popped srcs).hbm = s.hbm := rfl
@[simp] theorem State.popped_spares (s : State) (srcs : List Reg) : (s.popped srcs).spares = s.spares := rfl
@[simp] theorem State.popped_etherType (s : State) (srcs : List Reg) : (s.popped srcs).etherType = s.etherType := rfl
@[simp] theorem State.popped_trust (s : State) (srcs : List Reg) : (s.popped srcs).trust = s.trust := rfl
@[simp] theorem State.popped_out (s : State) (srcs : List Reg) : (s.popped srcs).out = s.out := rfl
@[simp] theorem State.popped_nextId (s : State) (srcs : List Reg) : (s.popped srcs).nextId = s.nextId := rfl
@[simp] theorem State.popped_turn (s : State) (srcs : List Reg) : (s.popped srcs).turn = s.turn := rfl
@[simp] theorem State.popped_slot (s : State) (srcs : List Reg) : (s.popped srcs).slot = s.slot := rfl

-- keepLine

@[simp] theorem State.keepLine_agenda (s : State) (l : FetchLine) : (s.keepLine l).agenda = s.agenda := rfl
@[simp] theorem State.keepLine_tick (s : State) (l : FetchLine) : (s.keepLine l).tick = s.tick := rfl
@[simp] theorem State.keepLine_isE (s : State) (l : FetchLine) : (s.keepLine l).isE = s.isE := rfl
@[simp] theorem State.keepLine_me (s : State) (l : FetchLine) : (s.keepLine l).me = { s.me with fetchBuf := s.me.fetchBuf ++ [l] } := rfl
@[simp] theorem State.keepLine_peer (s : State) (l : FetchLine) : (s.keepLine l).peer = s.peer := rfl
@[simp] theorem State.keepLine_hart (s : State) (l : FetchLine) : (s.keepLine l).hart = s.hart := rfl
@[simp] theorem State.keepLine_core (s : State) (l : FetchLine) : (s.keepLine l).core = s.core := rfl
@[simp] theorem State.keepLine_clus (s : State) (l : FetchLine) : (s.keepLine l).clus = s.clus := rfl
@[simp] theorem State.keepLine_parked (s : State) (l : FetchLine) : (s.keepLine l).parked = s.parked := rfl
@[simp] theorem State.keepLine_cores (s : State) (l : FetchLine) : (s.keepLine l).cores = s.cores := rfl
@[simp] theorem State.keepLine_cluss (s : State) (l : FetchLine) : (s.keepLine l).cluss = s.cluss := rfl
@[simp] theorem State.keepLine_dies (s : State) (l : FetchLine) : (s.keepLine l).dies = s.dies := rfl
@[simp] theorem State.keepLine_mem (s : State) (l : FetchLine) : (s.keepLine l).mem = s.mem := rfl
@[simp] theorem State.keepLine_vers (s : State) (l : FetchLine) : (s.keepLine l).vers = s.vers := rfl
@[simp] theorem State.keepLine_slotBad (s : State) (l : FetchLine) : (s.keepLine l).slotBad = s.slotBad := rfl
@[simp] theorem State.keepLine_poison (s : State) (l : FetchLine) : (s.keepLine l).poison = s.poison := rfl
@[simp] theorem State.keepLine_raw (s : State) (l : FetchLine) : (s.keepLine l).raw = s.raw := rfl
@[simp] theorem State.keepLine_verRegs (s : State) (l : FetchLine) : (s.keepLine l).verRegs = s.verRegs := rfl
@[simp] theorem State.keepLine_dirtyLog (s : State) (l : FetchLine) : (s.keepLine l).dirtyLog = s.dirtyLog := rfl
@[simp] theorem State.keepLine_hubq (s : State) (l : FetchLine) : (s.keepLine l).hubq = s.hubq := rfl
@[simp] theorem State.keepLine_vds (s : State) (l : FetchLine) : (s.keepLine l).vds = s.vds := rfl
@[simp] theorem State.keepLine_grids (s : State) (l : FetchLine) : (s.keepLine l).grids = s.grids := rfl
@[simp] theorem State.keepLine_teams (s : State) (l : FetchLine) : (s.keepLine l).teams = s.teams := rfl
@[simp] theorem State.keepLine_parts (s : State) (l : FetchLine) : (s.keepLine l).parts = s.parts := rfl
@[simp] theorem State.keepLine_removed (s : State) (l : FetchLine) : (s.keepLine l).removed = s.removed := rfl
@[simp] theorem State.keepLine_decoders (s : State) (l : FetchLine) : (s.keepLine l).decoders = s.decoders := rfl
@[simp] theorem State.keepLine_stamp (s : State) (l : FetchLine) : (s.keepLine l).stamp = s.stamp := rfl
@[simp] theorem State.keepLine_ecFig (s : State) (l : FetchLine) : (s.keepLine l).ecFig = s.ecFig := rfl
@[simp] theorem State.keepLine_time (s : State) (l : FetchLine) : (s.keepLine l).time = s.time := rfl
@[simp] theorem State.keepLine_timeLocked (s : State) (l : FetchLine) : (s.keepLine l).timeLocked = s.timeLocked := rfl
@[simp] theorem State.keepLine_moduleCollapsed (s : State) (l : FetchLine) : (s.keepLine l).moduleCollapsed = s.moduleCollapsed := rfl
@[simp] theorem State.keepLine_powered (s : State) (l : FetchLine) : (s.keepLine l).powered = s.powered := rfl
@[simp] theorem State.keepLine_booted (s : State) (l : FetchLine) : (s.keepLine l).booted = s.booted := rfl
@[simp] theorem State.keepLine_railDwellUs (s : State) (l : FetchLine) : (s.keepLine l).railDwellUs = s.railDwellUs := rfl
@[simp] theorem State.keepLine_hbm (s : State) (l : FetchLine) : (s.keepLine l).hbm = s.hbm := rfl
@[simp] theorem State.keepLine_spares (s : State) (l : FetchLine) : (s.keepLine l).spares = s.spares := rfl
@[simp] theorem State.keepLine_etherType (s : State) (l : FetchLine) : (s.keepLine l).etherType = s.etherType := rfl
@[simp] theorem State.keepLine_trust (s : State) (l : FetchLine) : (s.keepLine l).trust = s.trust := rfl
@[simp] theorem State.keepLine_out (s : State) (l : FetchLine) : (s.keepLine l).out = s.out := rfl
@[simp] theorem State.keepLine_nextId (s : State) (l : FetchLine) : (s.keepLine l).nextId = s.nextId := rfl
@[simp] theorem State.keepLine_turn (s : State) (l : FetchLine) : (s.keepLine l).turn = s.turn := rfl
@[simp] theorem State.keepLine_slot (s : State) (l : FetchLine) : (s.keepLine l).slot = s.slot := rfl

-- setRail

@[simp] theorem State.setRail_agenda (s : State) (die rail : BitVec 2) (r : Rail) : (s.setRail die rail r).agenda = s.agenda := rfl
@[simp] theorem State.setRail_tick (s : State) (die rail : BitVec 2) (r : Rail) : (s.setRail die rail r).tick = s.tick := rfl
@[simp] theorem State.setRail_isE (s : State) (die rail : BitVec 2) (r : Rail) : (s.setRail die rail r).isE = s.isE := rfl
@[simp] theorem State.setRail_me (s : State) (die rail : BitVec 2) (r : Rail) : (s.setRail die rail r).me = s.me := rfl
@[simp] theorem State.setRail_peer (s : State) (die rail : BitVec 2) (r : Rail) : (s.setRail die rail r).peer = s.peer := rfl
@[simp] theorem State.setRail_hart (s : State) (die rail : BitVec 2) (r : Rail) : (s.setRail die rail r).hart = s.hart := rfl
@[simp] theorem State.setRail_core (s : State) (die rail : BitVec 2) (r : Rail) : (s.setRail die rail r).core = s.core := rfl
@[simp] theorem State.setRail_clus (s : State) (die rail : BitVec 2) (r : Rail) : (s.setRail die rail r).clus = s.clus := rfl
@[simp] theorem State.setRail_parked (s : State) (die rail : BitVec 2) (r : Rail) : (s.setRail die rail r).parked = s.parked := rfl
@[simp] theorem State.setRail_cores (s : State) (die rail : BitVec 2) (r : Rail) : (s.setRail die rail r).cores = s.cores := rfl
@[simp] theorem State.setRail_cluss (s : State) (die rail : BitVec 2) (r : Rail) : (s.setRail die rail r).cluss = s.cluss := rfl
@[simp] theorem State.setRail_dies (s : State) (die rail : BitVec 2) (r : Rail) :
    (s.setRail die rail r).dies = s.dies.set (dieIx die) { s.dies[dieIx die] with rails := s.dies[dieIx die].rails.set (dieIx rail) r } := rfl
@[simp] theorem State.setRail_mem (s : State) (die rail : BitVec 2) (r : Rail) : (s.setRail die rail r).mem = s.mem := rfl
@[simp] theorem State.setRail_vers (s : State) (die rail : BitVec 2) (r : Rail) : (s.setRail die rail r).vers = s.vers := rfl
@[simp] theorem State.setRail_slotBad (s : State) (die rail : BitVec 2) (r : Rail) : (s.setRail die rail r).slotBad = s.slotBad := rfl
@[simp] theorem State.setRail_poison (s : State) (die rail : BitVec 2) (r : Rail) : (s.setRail die rail r).poison = s.poison := rfl
@[simp] theorem State.setRail_raw (s : State) (die rail : BitVec 2) (r : Rail) : (s.setRail die rail r).raw = s.raw := rfl
@[simp] theorem State.setRail_verRegs (s : State) (die rail : BitVec 2) (r : Rail) : (s.setRail die rail r).verRegs = s.verRegs := rfl
@[simp] theorem State.setRail_dirtyLog (s : State) (die rail : BitVec 2) (r : Rail) : (s.setRail die rail r).dirtyLog = s.dirtyLog := rfl
@[simp] theorem State.setRail_hubq (s : State) (die rail : BitVec 2) (r : Rail) : (s.setRail die rail r).hubq = s.hubq := rfl
@[simp] theorem State.setRail_vds (s : State) (die rail : BitVec 2) (r : Rail) : (s.setRail die rail r).vds = s.vds := rfl
@[simp] theorem State.setRail_grids (s : State) (die rail : BitVec 2) (r : Rail) : (s.setRail die rail r).grids = s.grids := rfl
@[simp] theorem State.setRail_teams (s : State) (die rail : BitVec 2) (r : Rail) : (s.setRail die rail r).teams = s.teams := rfl
@[simp] theorem State.setRail_parts (s : State) (die rail : BitVec 2) (r : Rail) : (s.setRail die rail r).parts = s.parts := rfl
@[simp] theorem State.setRail_removed (s : State) (die rail : BitVec 2) (r : Rail) : (s.setRail die rail r).removed = s.removed := rfl
@[simp] theorem State.setRail_decoders (s : State) (die rail : BitVec 2) (r : Rail) : (s.setRail die rail r).decoders = s.decoders := rfl
@[simp] theorem State.setRail_stamp (s : State) (die rail : BitVec 2) (r : Rail) : (s.setRail die rail r).stamp = s.stamp := rfl
@[simp] theorem State.setRail_ecFig (s : State) (die rail : BitVec 2) (r : Rail) : (s.setRail die rail r).ecFig = s.ecFig := rfl
@[simp] theorem State.setRail_time (s : State) (die rail : BitVec 2) (r : Rail) : (s.setRail die rail r).time = s.time := rfl
@[simp] theorem State.setRail_timeLocked (s : State) (die rail : BitVec 2) (r : Rail) : (s.setRail die rail r).timeLocked = s.timeLocked := rfl
@[simp] theorem State.setRail_moduleCollapsed (s : State) (die rail : BitVec 2) (r : Rail) : (s.setRail die rail r).moduleCollapsed = s.moduleCollapsed := rfl
@[simp] theorem State.setRail_powered (s : State) (die rail : BitVec 2) (r : Rail) : (s.setRail die rail r).powered = s.powered := rfl
@[simp] theorem State.setRail_booted (s : State) (die rail : BitVec 2) (r : Rail) : (s.setRail die rail r).booted = s.booted := rfl
@[simp] theorem State.setRail_railDwellUs (s : State) (die rail : BitVec 2) (r : Rail) : (s.setRail die rail r).railDwellUs = s.railDwellUs := rfl
@[simp] theorem State.setRail_hbm (s : State) (die rail : BitVec 2) (r : Rail) : (s.setRail die rail r).hbm = s.hbm := rfl
@[simp] theorem State.setRail_spares (s : State) (die rail : BitVec 2) (r : Rail) : (s.setRail die rail r).spares = s.spares := rfl
@[simp] theorem State.setRail_etherType (s : State) (die rail : BitVec 2) (r : Rail) : (s.setRail die rail r).etherType = s.etherType := rfl
@[simp] theorem State.setRail_trust (s : State) (die rail : BitVec 2) (r : Rail) : (s.setRail die rail r).trust = s.trust := rfl
@[simp] theorem State.setRail_out (s : State) (die rail : BitVec 2) (r : Rail) : (s.setRail die rail r).out = s.out := rfl
@[simp] theorem State.setRail_nextId (s : State) (die rail : BitVec 2) (r : Rail) : (s.setRail die rail r).nextId = s.nextId := rfl
@[simp] theorem State.setRail_turn (s : State) (die rail : BitVec 2) (r : Rail) : (s.setRail die rail r).turn = s.turn := rfl
@[simp] theorem State.setRail_slot (s : State) (die rail : BitVec 2) (r : Rail) : (s.setRail die rail r).slot = s.slot := rfl

-- mapTier

@[simp] theorem State.mapTier_agenda (s : State) (t : Bool) (f : VerRange → VerRange) : (s.mapTier t f).agenda = s.agenda := rfl
@[simp] theorem State.mapTier_tick (s : State) (t : Bool) (f : VerRange → VerRange) : (s.mapTier t f).tick = s.tick := rfl
@[simp] theorem State.mapTier_isE (s : State) (t : Bool) (f : VerRange → VerRange) : (s.mapTier t f).isE = s.isE := rfl
@[simp] theorem State.mapTier_me (s : State) (t : Bool) (f : VerRange → VerRange) : (s.mapTier t f).me = s.me := rfl
@[simp] theorem State.mapTier_peer (s : State) (t : Bool) (f : VerRange → VerRange) : (s.mapTier t f).peer = s.peer := rfl
@[simp] theorem State.mapTier_hart (s : State) (t : Bool) (f : VerRange → VerRange) : (s.mapTier t f).hart = s.hart := rfl
@[simp] theorem State.mapTier_core (s : State) (t : Bool) (f : VerRange → VerRange) : (s.mapTier t f).core = s.core := rfl
@[simp] theorem State.mapTier_clus (s : State) (t : Bool) (f : VerRange → VerRange) : (s.mapTier t f).clus = s.clus := rfl
@[simp] theorem State.mapTier_parked (s : State) (t : Bool) (f : VerRange → VerRange) : (s.mapTier t f).parked = s.parked := rfl
@[simp] theorem State.mapTier_cores (s : State) (t : Bool) (f : VerRange → VerRange) : (s.mapTier t f).cores = s.cores := rfl
@[simp] theorem State.mapTier_cluss (s : State) (t : Bool) (f : VerRange → VerRange) : (s.mapTier t f).cluss = s.cluss := rfl
@[simp] theorem State.mapTier_dies (s : State) (t : Bool) (f : VerRange → VerRange) : (s.mapTier t f).dies = s.dies := rfl
@[simp] theorem State.mapTier_mem (s : State) (t : Bool) (f : VerRange → VerRange) : (s.mapTier t f).mem = s.mem := rfl
@[simp] theorem State.mapTier_vers (s : State) (t : Bool) (f : VerRange → VerRange) : (s.mapTier t f).vers = s.vers := rfl
@[simp] theorem State.mapTier_slotBad (s : State) (t : Bool) (f : VerRange → VerRange) : (s.mapTier t f).slotBad = s.slotBad := rfl
@[simp] theorem State.mapTier_poison (s : State) (t : Bool) (f : VerRange → VerRange) : (s.mapTier t f).poison = s.poison := rfl
@[simp] theorem State.mapTier_raw (s : State) (t : Bool) (f : VerRange → VerRange) : (s.mapTier t f).raw = s.raw := rfl
@[simp] theorem State.mapTier_verRegs (s : State) (t : Bool) (f : VerRange → VerRange) :
    (s.mapTier t f).verRegs = s.verRegs.set (tierIx t) (f s.verRegs[tierIx t]) := rfl
@[simp] theorem State.mapTier_dirtyLog (s : State) (t : Bool) (f : VerRange → VerRange) : (s.mapTier t f).dirtyLog = s.dirtyLog := rfl
@[simp] theorem State.mapTier_hubq (s : State) (t : Bool) (f : VerRange → VerRange) : (s.mapTier t f).hubq = s.hubq := rfl
@[simp] theorem State.mapTier_vds (s : State) (t : Bool) (f : VerRange → VerRange) : (s.mapTier t f).vds = s.vds := rfl
@[simp] theorem State.mapTier_grids (s : State) (t : Bool) (f : VerRange → VerRange) : (s.mapTier t f).grids = s.grids := rfl
@[simp] theorem State.mapTier_teams (s : State) (t : Bool) (f : VerRange → VerRange) : (s.mapTier t f).teams = s.teams := rfl
@[simp] theorem State.mapTier_parts (s : State) (t : Bool) (f : VerRange → VerRange) : (s.mapTier t f).parts = s.parts := rfl
@[simp] theorem State.mapTier_removed (s : State) (t : Bool) (f : VerRange → VerRange) : (s.mapTier t f).removed = s.removed := rfl
@[simp] theorem State.mapTier_decoders (s : State) (t : Bool) (f : VerRange → VerRange) : (s.mapTier t f).decoders = s.decoders := rfl
@[simp] theorem State.mapTier_stamp (s : State) (t : Bool) (f : VerRange → VerRange) : (s.mapTier t f).stamp = s.stamp := rfl
@[simp] theorem State.mapTier_ecFig (s : State) (t : Bool) (f : VerRange → VerRange) : (s.mapTier t f).ecFig = s.ecFig := rfl
@[simp] theorem State.mapTier_time (s : State) (t : Bool) (f : VerRange → VerRange) : (s.mapTier t f).time = s.time := rfl
@[simp] theorem State.mapTier_timeLocked (s : State) (t : Bool) (f : VerRange → VerRange) : (s.mapTier t f).timeLocked = s.timeLocked := rfl
@[simp] theorem State.mapTier_moduleCollapsed (s : State) (t : Bool) (f : VerRange → VerRange) : (s.mapTier t f).moduleCollapsed = s.moduleCollapsed := rfl
@[simp] theorem State.mapTier_powered (s : State) (t : Bool) (f : VerRange → VerRange) : (s.mapTier t f).powered = s.powered := rfl
@[simp] theorem State.mapTier_booted (s : State) (t : Bool) (f : VerRange → VerRange) : (s.mapTier t f).booted = s.booted := rfl
@[simp] theorem State.mapTier_railDwellUs (s : State) (t : Bool) (f : VerRange → VerRange) : (s.mapTier t f).railDwellUs = s.railDwellUs := rfl
@[simp] theorem State.mapTier_hbm (s : State) (t : Bool) (f : VerRange → VerRange) : (s.mapTier t f).hbm = s.hbm := rfl
@[simp] theorem State.mapTier_spares (s : State) (t : Bool) (f : VerRange → VerRange) : (s.mapTier t f).spares = s.spares := rfl
@[simp] theorem State.mapTier_etherType (s : State) (t : Bool) (f : VerRange → VerRange) : (s.mapTier t f).etherType = s.etherType := rfl
@[simp] theorem State.mapTier_trust (s : State) (t : Bool) (f : VerRange → VerRange) : (s.mapTier t f).trust = s.trust := rfl
@[simp] theorem State.mapTier_out (s : State) (t : Bool) (f : VerRange → VerRange) : (s.mapTier t f).out = s.out := rfl
@[simp] theorem State.mapTier_nextId (s : State) (t : Bool) (f : VerRange → VerRange) : (s.mapTier t f).nextId = s.nextId := rfl
@[simp] theorem State.mapTier_turn (s : State) (t : Bool) (f : VerRange → VerRange) : (s.mapTier t f).turn = s.turn := rfl
@[simp] theorem State.mapTier_slot (s : State) (t : Bool) (f : VerRange → VerRange) : (s.mapTier t f).slot = s.slot := rfl

-- retire

@[simp] theorem State.retire_agenda (s : State) (n : Nat) : (s.retire n).agenda = s.agenda := rfl
@[simp] theorem State.retire_tick (s : State) (n : Nat) : (s.retire n).tick = s.tick := rfl
@[simp] theorem State.retire_isE (s : State) (n : Nat) : (s.retire n).isE = s.isE := rfl
@[simp] theorem State.retire_me (s : State) (n : Nat) : (s.retire n).me = s.me.advance n := rfl
@[simp] theorem State.retire_peer (s : State) (n : Nat) : (s.retire n).peer = s.peer := rfl
@[simp] theorem State.retire_hart (s : State) (n : Nat) : (s.retire n).hart = s.hart := rfl
@[simp] theorem State.retire_core (s : State) (n : Nat) : (s.retire n).core = s.core := rfl
@[simp] theorem State.retire_clus (s : State) (n : Nat) : (s.retire n).clus = s.clus := rfl
@[simp] theorem State.retire_parked (s : State) (n : Nat) : (s.retire n).parked = s.parked := rfl
@[simp] theorem State.retire_cores (s : State) (n : Nat) : (s.retire n).cores = s.cores := rfl
@[simp] theorem State.retire_cluss (s : State) (n : Nat) : (s.retire n).cluss = s.cluss := rfl
@[simp] theorem State.retire_dies (s : State) (n : Nat) : (s.retire n).dies = s.dies := rfl
@[simp] theorem State.retire_mem (s : State) (n : Nat) : (s.retire n).mem = s.mem := rfl
@[simp] theorem State.retire_vers (s : State) (n : Nat) : (s.retire n).vers = s.vers := rfl
@[simp] theorem State.retire_slotBad (s : State) (n : Nat) : (s.retire n).slotBad = s.slotBad := rfl
@[simp] theorem State.retire_poison (s : State) (n : Nat) : (s.retire n).poison = s.poison := rfl
@[simp] theorem State.retire_raw (s : State) (n : Nat) : (s.retire n).raw = s.raw := rfl
@[simp] theorem State.retire_verRegs (s : State) (n : Nat) : (s.retire n).verRegs = s.verRegs := rfl
@[simp] theorem State.retire_dirtyLog (s : State) (n : Nat) : (s.retire n).dirtyLog = s.dirtyLog := rfl
@[simp] theorem State.retire_hubq (s : State) (n : Nat) : (s.retire n).hubq = s.hubq := rfl
@[simp] theorem State.retire_vds (s : State) (n : Nat) : (s.retire n).vds = s.vds := rfl
@[simp] theorem State.retire_grids (s : State) (n : Nat) : (s.retire n).grids = s.grids := rfl
@[simp] theorem State.retire_teams (s : State) (n : Nat) : (s.retire n).teams = s.teams := rfl
@[simp] theorem State.retire_parts (s : State) (n : Nat) : (s.retire n).parts = s.parts := rfl
@[simp] theorem State.retire_removed (s : State) (n : Nat) : (s.retire n).removed = s.removed := rfl
@[simp] theorem State.retire_decoders (s : State) (n : Nat) : (s.retire n).decoders = s.decoders := rfl
@[simp] theorem State.retire_stamp (s : State) (n : Nat) : (s.retire n).stamp = s.stamp := rfl
@[simp] theorem State.retire_ecFig (s : State) (n : Nat) : (s.retire n).ecFig = s.ecFig := rfl
@[simp] theorem State.retire_time (s : State) (n : Nat) : (s.retire n).time = s.time := rfl
@[simp] theorem State.retire_timeLocked (s : State) (n : Nat) : (s.retire n).timeLocked = s.timeLocked := rfl
@[simp] theorem State.retire_moduleCollapsed (s : State) (n : Nat) : (s.retire n).moduleCollapsed = s.moduleCollapsed := rfl
@[simp] theorem State.retire_powered (s : State) (n : Nat) : (s.retire n).powered = s.powered := rfl
@[simp] theorem State.retire_booted (s : State) (n : Nat) : (s.retire n).booted = s.booted := rfl
@[simp] theorem State.retire_railDwellUs (s : State) (n : Nat) : (s.retire n).railDwellUs = s.railDwellUs := rfl
@[simp] theorem State.retire_hbm (s : State) (n : Nat) : (s.retire n).hbm = s.hbm := rfl
@[simp] theorem State.retire_spares (s : State) (n : Nat) : (s.retire n).spares = s.spares := rfl
@[simp] theorem State.retire_etherType (s : State) (n : Nat) : (s.retire n).etherType = s.etherType := rfl
@[simp] theorem State.retire_trust (s : State) (n : Nat) : (s.retire n).trust = s.trust := rfl
@[simp] theorem State.retire_out (s : State) (n : Nat) : (s.retire n).out = s.out := rfl
@[simp] theorem State.retire_nextId (s : State) (n : Nat) : (s.retire n).nextId = s.nextId := rfl
@[simp] theorem State.retire_turn (s : State) (n : Nat) : (s.retire n).turn = s.turn := rfl
@[simp] theorem State.retire_slot (s : State) (n : Nat) : (s.retire n).slot = s.slot := rfl

-- addEnergy

@[simp] theorem State.addEnergy_agenda (s : State) (c : List (Nat × Nat)) : (s.addEnergy c).agenda = s.agenda := rfl
@[simp] theorem State.addEnergy_tick (s : State) (c : List (Nat × Nat)) : (s.addEnergy c).tick = s.tick := rfl
@[simp] theorem State.addEnergy_isE (s : State) (c : List (Nat × Nat)) : (s.addEnergy c).isE = s.isE := rfl
@[simp] theorem State.addEnergy_me (s : State) (c : List (Nat × Nat)) : (s.addEnergy c).me = s.me := rfl
@[simp] theorem State.addEnergy_peer (s : State) (c : List (Nat × Nat)) : (s.addEnergy c).peer = s.peer := rfl
@[simp] theorem State.addEnergy_hart (s : State) (c : List (Nat × Nat)) : (s.addEnergy c).hart = s.hart := rfl
@[simp] theorem State.addEnergy_core (s : State) (c : List (Nat × Nat)) : (s.addEnergy c).core = s.core := rfl
@[simp] theorem State.addEnergy_parked (s : State) (c : List (Nat × Nat)) : (s.addEnergy c).parked = s.parked := rfl
@[simp] theorem State.addEnergy_cores (s : State) (c : List (Nat × Nat)) : (s.addEnergy c).cores = s.cores := rfl
@[simp] theorem State.addEnergy_cluss (s : State) (c : List (Nat × Nat)) : (s.addEnergy c).cluss = s.cluss := rfl
@[simp] theorem State.addEnergy_dies (s : State) (c : List (Nat × Nat)) : (s.addEnergy c).dies = s.dies := rfl
@[simp] theorem State.addEnergy_mem (s : State) (c : List (Nat × Nat)) : (s.addEnergy c).mem = s.mem := rfl
@[simp] theorem State.addEnergy_vers (s : State) (c : List (Nat × Nat)) : (s.addEnergy c).vers = s.vers := rfl
@[simp] theorem State.addEnergy_slotBad (s : State) (c : List (Nat × Nat)) : (s.addEnergy c).slotBad = s.slotBad := rfl
@[simp] theorem State.addEnergy_poison (s : State) (c : List (Nat × Nat)) : (s.addEnergy c).poison = s.poison := rfl
@[simp] theorem State.addEnergy_raw (s : State) (c : List (Nat × Nat)) : (s.addEnergy c).raw = s.raw := rfl
@[simp] theorem State.addEnergy_verRegs (s : State) (c : List (Nat × Nat)) : (s.addEnergy c).verRegs = s.verRegs := rfl
@[simp] theorem State.addEnergy_dirtyLog (s : State) (c : List (Nat × Nat)) : (s.addEnergy c).dirtyLog = s.dirtyLog := rfl
@[simp] theorem State.addEnergy_hubq (s : State) (c : List (Nat × Nat)) : (s.addEnergy c).hubq = s.hubq := rfl
@[simp] theorem State.addEnergy_vds (s : State) (c : List (Nat × Nat)) : (s.addEnergy c).vds = s.vds := rfl
@[simp] theorem State.addEnergy_grids (s : State) (c : List (Nat × Nat)) : (s.addEnergy c).grids = s.grids := rfl
@[simp] theorem State.addEnergy_teams (s : State) (c : List (Nat × Nat)) : (s.addEnergy c).teams = s.teams := rfl
@[simp] theorem State.addEnergy_parts (s : State) (c : List (Nat × Nat)) : (s.addEnergy c).parts = s.parts := rfl
@[simp] theorem State.addEnergy_removed (s : State) (c : List (Nat × Nat)) : (s.addEnergy c).removed = s.removed := rfl
@[simp] theorem State.addEnergy_decoders (s : State) (c : List (Nat × Nat)) : (s.addEnergy c).decoders = s.decoders := rfl
@[simp] theorem State.addEnergy_stamp (s : State) (c : List (Nat × Nat)) : (s.addEnergy c).stamp = s.stamp := rfl
@[simp] theorem State.addEnergy_ecFig (s : State) (c : List (Nat × Nat)) : (s.addEnergy c).ecFig = s.ecFig := rfl
@[simp] theorem State.addEnergy_time (s : State) (c : List (Nat × Nat)) : (s.addEnergy c).time = s.time := rfl
@[simp] theorem State.addEnergy_timeLocked (s : State) (c : List (Nat × Nat)) : (s.addEnergy c).timeLocked = s.timeLocked := rfl
@[simp] theorem State.addEnergy_moduleCollapsed (s : State) (c : List (Nat × Nat)) : (s.addEnergy c).moduleCollapsed = s.moduleCollapsed := rfl
@[simp] theorem State.addEnergy_powered (s : State) (c : List (Nat × Nat)) : (s.addEnergy c).powered = s.powered := rfl
@[simp] theorem State.addEnergy_booted (s : State) (c : List (Nat × Nat)) : (s.addEnergy c).booted = s.booted := rfl
@[simp] theorem State.addEnergy_railDwellUs (s : State) (c : List (Nat × Nat)) : (s.addEnergy c).railDwellUs = s.railDwellUs := rfl
@[simp] theorem State.addEnergy_hbm (s : State) (c : List (Nat × Nat)) : (s.addEnergy c).hbm = s.hbm := rfl
@[simp] theorem State.addEnergy_spares (s : State) (c : List (Nat × Nat)) : (s.addEnergy c).spares = s.spares := rfl
@[simp] theorem State.addEnergy_etherType (s : State) (c : List (Nat × Nat)) : (s.addEnergy c).etherType = s.etherType := rfl
@[simp] theorem State.addEnergy_trust (s : State) (c : List (Nat × Nat)) : (s.addEnergy c).trust = s.trust := rfl
@[simp] theorem State.addEnergy_out (s : State) (c : List (Nat × Nat)) : (s.addEnergy c).out = s.out := rfl
@[simp] theorem State.addEnergy_nextId (s : State) (c : List (Nat × Nat)) : (s.addEnergy c).nextId = s.nextId := rfl
@[simp] theorem State.addEnergy_turn (s : State) (c : List (Nat × Nat)) : (s.addEnergy c).turn = s.turn := rfl
@[simp] theorem State.addEnergy_slot (s : State) (c : List (Nat × Nat)) : (s.addEnergy c).slot = s.slot := rfl

-- mapStrms

@[simp] theorem State.mapStrms_agenda (s : State) (f : BitVec 14 → Bool → Strm → Strm) : (s.mapStrms f).agenda = s.agenda := rfl
@[simp] theorem State.mapStrms_tick (s : State) (f : BitVec 14 → Bool → Strm → Strm) : (s.mapStrms f).tick = s.tick := rfl
@[simp] theorem State.mapStrms_isE (s : State) (f : BitVec 14 → Bool → Strm → Strm) : (s.mapStrms f).isE = s.isE := rfl
@[simp] theorem State.mapStrms_me (s : State) (f : BitVec 14 → Bool → Strm → Strm) : (s.mapStrms f).me = f s.hart.id s.isE s.me := rfl
@[simp] theorem State.mapStrms_peer (s : State) (f : BitVec 14 → Bool → Strm → Strm) : (s.mapStrms f).peer = f s.hart.id (!s.isE) s.peer := rfl
@[simp] theorem State.mapStrms_hart (s : State) (f : BitVec 14 → Bool → Strm → Strm) : (s.mapStrms f).hart = s.hart := rfl
@[simp] theorem State.mapStrms_core (s : State) (f : BitVec 14 → Bool → Strm → Strm) : (s.mapStrms f).core = s.core := rfl
@[simp] theorem State.mapStrms_clus (s : State) (f : BitVec 14 → Bool → Strm → Strm) : (s.mapStrms f).clus = s.clus := rfl
@[simp] theorem State.mapStrms_parked (s : State) (f : BitVec 14 → Bool → Strm → Strm) : (s.mapStrms f).parked = s.parked.map fun c => { c with a := f c.hart.id false c.a, e := f c.hart.id true c.e } := rfl
@[simp] theorem State.mapStrms_cores (s : State) (f : BitVec 14 → Bool → Strm → Strm) : (s.mapStrms f).cores = s.cores := rfl
@[simp] theorem State.mapStrms_cluss (s : State) (f : BitVec 14 → Bool → Strm → Strm) : (s.mapStrms f).cluss = s.cluss := rfl
@[simp] theorem State.mapStrms_dies (s : State) (f : BitVec 14 → Bool → Strm → Strm) : (s.mapStrms f).dies = s.dies := rfl
@[simp] theorem State.mapStrms_mem (s : State) (f : BitVec 14 → Bool → Strm → Strm) : (s.mapStrms f).mem = s.mem := rfl
@[simp] theorem State.mapStrms_vers (s : State) (f : BitVec 14 → Bool → Strm → Strm) : (s.mapStrms f).vers = s.vers := rfl
@[simp] theorem State.mapStrms_slotBad (s : State) (f : BitVec 14 → Bool → Strm → Strm) : (s.mapStrms f).slotBad = s.slotBad := rfl
@[simp] theorem State.mapStrms_poison (s : State) (f : BitVec 14 → Bool → Strm → Strm) : (s.mapStrms f).poison = s.poison := rfl
@[simp] theorem State.mapStrms_raw (s : State) (f : BitVec 14 → Bool → Strm → Strm) : (s.mapStrms f).raw = s.raw := rfl
@[simp] theorem State.mapStrms_verRegs (s : State) (f : BitVec 14 → Bool → Strm → Strm) : (s.mapStrms f).verRegs = s.verRegs := rfl
@[simp] theorem State.mapStrms_dirtyLog (s : State) (f : BitVec 14 → Bool → Strm → Strm) : (s.mapStrms f).dirtyLog = s.dirtyLog := rfl
@[simp] theorem State.mapStrms_hubq (s : State) (f : BitVec 14 → Bool → Strm → Strm) : (s.mapStrms f).hubq = s.hubq := rfl
@[simp] theorem State.mapStrms_vds (s : State) (f : BitVec 14 → Bool → Strm → Strm) : (s.mapStrms f).vds = s.vds := rfl
@[simp] theorem State.mapStrms_grids (s : State) (f : BitVec 14 → Bool → Strm → Strm) : (s.mapStrms f).grids = s.grids := rfl
@[simp] theorem State.mapStrms_teams (s : State) (f : BitVec 14 → Bool → Strm → Strm) : (s.mapStrms f).teams = s.teams := rfl
@[simp] theorem State.mapStrms_parts (s : State) (f : BitVec 14 → Bool → Strm → Strm) : (s.mapStrms f).parts = s.parts := rfl
@[simp] theorem State.mapStrms_removed (s : State) (f : BitVec 14 → Bool → Strm → Strm) : (s.mapStrms f).removed = s.removed := rfl
@[simp] theorem State.mapStrms_decoders (s : State) (f : BitVec 14 → Bool → Strm → Strm) : (s.mapStrms f).decoders = s.decoders := rfl
@[simp] theorem State.mapStrms_stamp (s : State) (f : BitVec 14 → Bool → Strm → Strm) : (s.mapStrms f).stamp = s.stamp := rfl
@[simp] theorem State.mapStrms_ecFig (s : State) (f : BitVec 14 → Bool → Strm → Strm) : (s.mapStrms f).ecFig = s.ecFig := rfl
@[simp] theorem State.mapStrms_time (s : State) (f : BitVec 14 → Bool → Strm → Strm) : (s.mapStrms f).time = s.time := rfl
@[simp] theorem State.mapStrms_timeLocked (s : State) (f : BitVec 14 → Bool → Strm → Strm) : (s.mapStrms f).timeLocked = s.timeLocked := rfl
@[simp] theorem State.mapStrms_moduleCollapsed (s : State) (f : BitVec 14 → Bool → Strm → Strm) : (s.mapStrms f).moduleCollapsed = s.moduleCollapsed := rfl
@[simp] theorem State.mapStrms_powered (s : State) (f : BitVec 14 → Bool → Strm → Strm) : (s.mapStrms f).powered = s.powered := rfl
@[simp] theorem State.mapStrms_booted (s : State) (f : BitVec 14 → Bool → Strm → Strm) : (s.mapStrms f).booted = s.booted := rfl
@[simp] theorem State.mapStrms_railDwellUs (s : State) (f : BitVec 14 → Bool → Strm → Strm) : (s.mapStrms f).railDwellUs = s.railDwellUs := rfl
@[simp] theorem State.mapStrms_hbm (s : State) (f : BitVec 14 → Bool → Strm → Strm) : (s.mapStrms f).hbm = s.hbm := rfl
@[simp] theorem State.mapStrms_spares (s : State) (f : BitVec 14 → Bool → Strm → Strm) : (s.mapStrms f).spares = s.spares := rfl
@[simp] theorem State.mapStrms_etherType (s : State) (f : BitVec 14 → Bool → Strm → Strm) : (s.mapStrms f).etherType = s.etherType := rfl
@[simp] theorem State.mapStrms_trust (s : State) (f : BitVec 14 → Bool → Strm → Strm) : (s.mapStrms f).trust = s.trust := rfl
@[simp] theorem State.mapStrms_out (s : State) (f : BitVec 14 → Bool → Strm → Strm) : (s.mapStrms f).out = s.out := rfl
@[simp] theorem State.mapStrms_nextId (s : State) (f : BitVec 14 → Bool → Strm → Strm) : (s.mapStrms f).nextId = s.nextId := rfl
@[simp] theorem State.mapStrms_turn (s : State) (f : BitVec 14 → Bool → Strm → Strm) : (s.mapStrms f).turn = s.turn := rfl
@[simp] theorem State.mapStrms_slot (s : State) (f : BitVec 14 → Bool → Strm → Strm) : (s.mapStrms f).slot = s.slot := rfl

-- markRetried: the caches alone, where a line's retry mark is set (R333)

@[simp] theorem State.markRetried_agenda (s : State) (l : Nat) : (s.markRetried l).agenda = s.agenda := rfl
@[simp] theorem State.markRetried_tick (s : State) (l : Nat) : (s.markRetried l).tick = s.tick := rfl
@[simp] theorem State.markRetried_isE (s : State) (l : Nat) : (s.markRetried l).isE = s.isE := rfl
@[simp] theorem State.markRetried_me (s : State) (l : Nat) : (s.markRetried l).me = s.me := rfl
@[simp] theorem State.markRetried_peer (s : State) (l : Nat) : (s.markRetried l).peer = s.peer := rfl
@[simp] theorem State.markRetried_hart (s : State) (l : Nat) : (s.markRetried l).hart = s.hart := rfl
@[simp] theorem State.markRetried_clus (s : State) (l : Nat) : (s.markRetried l).clus = s.clus := rfl
@[simp] theorem State.markRetried_parked (s : State) (l : Nat) : (s.markRetried l).parked = s.parked := rfl
@[simp] theorem State.markRetried_cluss (s : State) (l : Nat) : (s.markRetried l).cluss = s.cluss := rfl
@[simp] theorem State.markRetried_dies (s : State) (l : Nat) : (s.markRetried l).dies = s.dies := rfl
@[simp] theorem State.markRetried_mem (s : State) (l : Nat) : (s.markRetried l).mem = s.mem := rfl
@[simp] theorem State.markRetried_vers (s : State) (l : Nat) : (s.markRetried l).vers = s.vers := rfl
@[simp] theorem State.markRetried_slotBad (s : State) (l : Nat) : (s.markRetried l).slotBad = s.slotBad := rfl
@[simp] theorem State.markRetried_poison (s : State) (l : Nat) : (s.markRetried l).poison = s.poison := rfl
@[simp] theorem State.markRetried_raw (s : State) (l : Nat) : (s.markRetried l).raw = s.raw := rfl
@[simp] theorem State.markRetried_verRegs (s : State) (l : Nat) : (s.markRetried l).verRegs = s.verRegs := rfl
@[simp] theorem State.markRetried_dirtyLog (s : State) (l : Nat) : (s.markRetried l).dirtyLog = s.dirtyLog := rfl
@[simp] theorem State.markRetried_hubq (s : State) (l : Nat) : (s.markRetried l).hubq = s.hubq := rfl
@[simp] theorem State.markRetried_vds (s : State) (l : Nat) : (s.markRetried l).vds = s.vds := rfl
@[simp] theorem State.markRetried_grids (s : State) (l : Nat) : (s.markRetried l).grids = s.grids := rfl
@[simp] theorem State.markRetried_teams (s : State) (l : Nat) : (s.markRetried l).teams = s.teams := rfl
@[simp] theorem State.markRetried_parts (s : State) (l : Nat) : (s.markRetried l).parts = s.parts := rfl
@[simp] theorem State.markRetried_removed (s : State) (l : Nat) : (s.markRetried l).removed = s.removed := rfl
@[simp] theorem State.markRetried_decoders (s : State) (l : Nat) : (s.markRetried l).decoders = s.decoders := rfl
@[simp] theorem State.markRetried_stamp (s : State) (l : Nat) : (s.markRetried l).stamp = s.stamp := rfl
@[simp] theorem State.markRetried_ecFig (s : State) (l : Nat) : (s.markRetried l).ecFig = s.ecFig := rfl
@[simp] theorem State.markRetried_time (s : State) (l : Nat) : (s.markRetried l).time = s.time := rfl
@[simp] theorem State.markRetried_timeLocked (s : State) (l : Nat) : (s.markRetried l).timeLocked = s.timeLocked := rfl
@[simp] theorem State.markRetried_moduleCollapsed (s : State) (l : Nat) : (s.markRetried l).moduleCollapsed = s.moduleCollapsed := rfl
@[simp] theorem State.markRetried_powered (s : State) (l : Nat) : (s.markRetried l).powered = s.powered := rfl
@[simp] theorem State.markRetried_booted (s : State) (l : Nat) : (s.markRetried l).booted = s.booted := rfl
@[simp] theorem State.markRetried_railDwellUs (s : State) (l : Nat) : (s.markRetried l).railDwellUs = s.railDwellUs := rfl
@[simp] theorem State.markRetried_hbm (s : State) (l : Nat) : (s.markRetried l).hbm = s.hbm := rfl
@[simp] theorem State.markRetried_spares (s : State) (l : Nat) : (s.markRetried l).spares = s.spares := rfl
@[simp] theorem State.markRetried_etherType (s : State) (l : Nat) : (s.markRetried l).etherType = s.etherType := rfl
@[simp] theorem State.markRetried_trust (s : State) (l : Nat) : (s.markRetried l).trust = s.trust := rfl
@[simp] theorem State.markRetried_out (s : State) (l : Nat) : (s.markRetried l).out = s.out := rfl
@[simp] theorem State.markRetried_nextId (s : State) (l : Nat) : (s.markRetried l).nextId = s.nextId := rfl
@[simp] theorem State.markRetried_turn (s : State) (l : Nat) : (s.markRetried l).turn = s.turn := rfl
@[simp] theorem State.markRetried_slot (s : State) (l : Nat) : (s.markRetried l).slot = s.slot := rfl

-- hubKeep

@[simp] theorem State.hubKeep_agenda (s : State) (op : HubOp) (l arrival : Nat) : (s.hubKeep op l arrival).agenda = s.agenda := rfl
@[simp] theorem State.hubKeep_tick (s : State) (op : HubOp) (l arrival : Nat) : (s.hubKeep op l arrival).tick = s.tick := rfl
@[simp] theorem State.hubKeep_isE (s : State) (op : HubOp) (l arrival : Nat) : (s.hubKeep op l arrival).isE = s.isE := rfl
@[simp] theorem State.hubKeep_me (s : State) (op : HubOp) (l arrival : Nat) : (s.hubKeep op l arrival).me = s.me := rfl
@[simp] theorem State.hubKeep_peer (s : State) (op : HubOp) (l arrival : Nat) : (s.hubKeep op l arrival).peer = s.peer := rfl
@[simp] theorem State.hubKeep_hart (s : State) (op : HubOp) (l arrival : Nat) : (s.hubKeep op l arrival).hart = s.hart := rfl
@[simp] theorem State.hubKeep_core (s : State) (op : HubOp) (l arrival : Nat) : (s.hubKeep op l arrival).core = (s.markRetried l).core := rfl
@[simp] theorem State.hubKeep_clus (s : State) (op : HubOp) (l arrival : Nat) : (s.hubKeep op l arrival).clus = s.clus := rfl
@[simp] theorem State.hubKeep_parked (s : State) (op : HubOp) (l arrival : Nat) : (s.hubKeep op l arrival).parked = s.parked := rfl
@[simp] theorem State.hubKeep_cores (s : State) (op : HubOp) (l arrival : Nat) : (s.hubKeep op l arrival).cores = (s.markRetried l).cores := rfl
@[simp] theorem State.hubKeep_cluss (s : State) (op : HubOp) (l arrival : Nat) : (s.hubKeep op l arrival).cluss = s.cluss := rfl
@[simp] theorem State.hubKeep_dies (s : State) (op : HubOp) (l arrival : Nat) : (s.hubKeep op l arrival).dies = s.dies := rfl
@[simp] theorem State.hubKeep_mem (s : State) (op : HubOp) (l arrival : Nat) : (s.hubKeep op l arrival).mem = s.mem := rfl
@[simp] theorem State.hubKeep_vers (s : State) (op : HubOp) (l arrival : Nat) : (s.hubKeep op l arrival).vers = s.vers := rfl
@[simp] theorem State.hubKeep_slotBad (s : State) (op : HubOp) (l arrival : Nat) : (s.hubKeep op l arrival).slotBad = s.slotBad := rfl
@[simp] theorem State.hubKeep_poison (s : State) (op : HubOp) (l arrival : Nat) : (s.hubKeep op l arrival).poison = s.poison := rfl
@[simp] theorem State.hubKeep_raw (s : State) (op : HubOp) (l arrival : Nat) : (s.hubKeep op l arrival).raw = s.raw := rfl
@[simp] theorem State.hubKeep_verRegs (s : State) (op : HubOp) (l arrival : Nat) : (s.hubKeep op l arrival).verRegs = s.verRegs := rfl
@[simp] theorem State.hubKeep_dirtyLog (s : State) (op : HubOp) (l arrival : Nat) : (s.hubKeep op l arrival).dirtyLog = s.dirtyLog := rfl
@[simp] theorem State.hubKeep_hubq (s : State) (op : HubOp) (l arrival : Nat) : (s.hubKeep op l arrival).hubq = s.hubq ++ [⟨op, [l], arrival⟩] := rfl
@[simp] theorem State.hubKeep_vds (s : State) (op : HubOp) (l arrival : Nat) : (s.hubKeep op l arrival).vds = s.vds := rfl
@[simp] theorem State.hubKeep_grids (s : State) (op : HubOp) (l arrival : Nat) : (s.hubKeep op l arrival).grids = s.grids := rfl
@[simp] theorem State.hubKeep_teams (s : State) (op : HubOp) (l arrival : Nat) : (s.hubKeep op l arrival).teams = s.teams := rfl
@[simp] theorem State.hubKeep_parts (s : State) (op : HubOp) (l arrival : Nat) : (s.hubKeep op l arrival).parts = s.parts := rfl
@[simp] theorem State.hubKeep_removed (s : State) (op : HubOp) (l arrival : Nat) : (s.hubKeep op l arrival).removed = s.removed := rfl
@[simp] theorem State.hubKeep_decoders (s : State) (op : HubOp) (l arrival : Nat) : (s.hubKeep op l arrival).decoders = s.decoders := rfl
@[simp] theorem State.hubKeep_stamp (s : State) (op : HubOp) (l arrival : Nat) : (s.hubKeep op l arrival).stamp = max s.stamp (arrival + 1) := rfl
@[simp] theorem State.hubKeep_ecFig (s : State) (op : HubOp) (l arrival : Nat) : (s.hubKeep op l arrival).ecFig = s.ecFig := rfl
@[simp] theorem State.hubKeep_time (s : State) (op : HubOp) (l arrival : Nat) : (s.hubKeep op l arrival).time = s.time := rfl
@[simp] theorem State.hubKeep_timeLocked (s : State) (op : HubOp) (l arrival : Nat) : (s.hubKeep op l arrival).timeLocked = s.timeLocked := rfl
@[simp] theorem State.hubKeep_moduleCollapsed (s : State) (op : HubOp) (l arrival : Nat) : (s.hubKeep op l arrival).moduleCollapsed = s.moduleCollapsed := rfl
@[simp] theorem State.hubKeep_powered (s : State) (op : HubOp) (l arrival : Nat) : (s.hubKeep op l arrival).powered = s.powered := rfl
@[simp] theorem State.hubKeep_booted (s : State) (op : HubOp) (l arrival : Nat) : (s.hubKeep op l arrival).booted = s.booted := rfl
@[simp] theorem State.hubKeep_railDwellUs (s : State) (op : HubOp) (l arrival : Nat) : (s.hubKeep op l arrival).railDwellUs = s.railDwellUs := rfl
@[simp] theorem State.hubKeep_hbm (s : State) (op : HubOp) (l arrival : Nat) : (s.hubKeep op l arrival).hbm = s.hbm := rfl
@[simp] theorem State.hubKeep_spares (s : State) (op : HubOp) (l arrival : Nat) : (s.hubKeep op l arrival).spares = s.spares := rfl
@[simp] theorem State.hubKeep_etherType (s : State) (op : HubOp) (l arrival : Nat) : (s.hubKeep op l arrival).etherType = s.etherType := rfl
@[simp] theorem State.hubKeep_trust (s : State) (op : HubOp) (l arrival : Nat) : (s.hubKeep op l arrival).trust = s.trust := rfl
@[simp] theorem State.hubKeep_out (s : State) (op : HubOp) (l arrival : Nat) : (s.hubKeep op l arrival).out = s.out := rfl
@[simp] theorem State.hubKeep_nextId (s : State) (op : HubOp) (l arrival : Nat) : (s.hubKeep op l arrival).nextId = s.nextId := rfl
@[simp] theorem State.hubKeep_turn (s : State) (op : HubOp) (l arrival : Nat) : (s.hubKeep op l arrival).turn = s.turn := rfl
@[simp] theorem State.hubKeep_slot (s : State) (op : HubOp) (l arrival : Nat) : (s.hubKeep op l arrival).slot = s.slot := rfl

end Sys2Proof.Machine
end

