-- ==== Sys2Proof/Laws/Cache.lean ====
section
/-! SUPPORT. What filling, reading, writing and cleaning the core data cache do, each said once. -/
namespace Sys2Proof.Machine

@[simp] theorem State.setCache_dcache (s : State) (c : List CLine) : (s.setCache c).core.dcache = c := rfl

/-- The line found is listed, and under its number. -/
theorem State.cached_mem {s : State} {n : Nat} {l : CLine} (h : s.cached n = some l) : l ∈ s.core.dcache ∧ l.line = n := by
  unfold State.cached at h
  exact ⟨List.mem_of_find?_eq_some h, by simpa using List.find?_some h⟩

theorem State.cached_none {s : State} {n : Nat} (h : s.cached n = none) (l : CLine) (hl : l ∈ s.core.dcache) : l.line ≠ n := by
  unfold State.cached at h
  simpa using List.find?_eq_none.mp h l hl

/-- A cache that holds each line once holds no other line of a listed one's number. -/
theorem State.LinesOnce.eq {s : State} (h : s.LinesOnce) {l l' : CLine} (hl : l ∈ s.core.dcache) (hl' : l' ∈ s.core.dcache)
    (e : l.line = l'.line) : l = l' := List.inj_on_of_nodup_map h hl hl' e

theorem State.LinesOnce.cached {s : State} (h : s.LinesOnce) {l : CLine} (hl : l ∈ s.core.dcache) : s.cached l.line = some l := by
  cases hc : s.cached l.line with
  | none => exact absurd rfl (State.cached_none hc l hl)
  | some l' =>
    have := State.cached_mem hc
    rw [h.eq this.1 hl this.2]

theorem State.LinesOnce.of_lines {s t : State} (h : s.LinesOnce) (e : t.core.dcache.map (·.line) = s.core.dcache.map (·.line)) :
    t.LinesOnce := by unfold State.LinesOnce; rw [e]; exact h

theorem State.LinesOnce.clean {s : State} (h : s.LinesOnce) (p : CLine → Bool) : (s.cleanLines p).LinesOnce :=
  h.of_lines (by rw [State.cleanLines_dcache]; exact map_line_upd p CLine.clean (fun _ => rfl) _)

theorem State.LinesOnce.filter {s : State} (h : s.LinesOnce) (p : CLine → Bool) :
    (s.setCache (s.core.dcache.filter p)).LinesOnce := by
  unfold State.LinesOnce
  exact h.sublist (List.Sublist.map _ List.filter_sublist)

/-- Cleaning changes only a line's dirty marks, and none of a line that it spares. -/
theorem State.cleanLines_cached (s : State) (p : CLine → Bool) (n : Nat) :
    (s.cleanLines p).cached n = (s.cached n).map fun l => if p l then l.clean else l := by
  unfold State.cached
  rw [State.cleanLines_dcache]
  induction s.core.dcache with
  | nil => rfl
  | cons l ls ih =>
    have hline : (if p l then l.clean else l).line = l.line := by split <;> rfl
    simp only [upd, List.map_cons, List.find?_cons, hline]
    by_cases h : l.line = n
    · simp [h]
    · simp only [h, decide_false]
      exact ih

/-- The byte of memory after cleaning, in a cache that holds each line once. -/
theorem State.cleanLines_byte {s : State} (h : s.LinesOnce) (p : CLine → Bool) (x : Nat) :
    (s.cleanLines p).mem.get x =
      match s.cached (lineOf x) with
      | some l => if p l = true ∧ l.dirty.getD (x % 128) false = true then l.data.getD (x % 128) 0 else s.mem.get x
      | none => s.mem.get x := by
  rcases s.cleanLines_get p x with ⟨e, hn⟩ | ⟨l, hl, hp, hx, hd, e⟩
  · rw [e]
    cases hc : s.cached (lineOf x) with
    | none => rfl
    | some l =>
      have hm := State.cached_mem hc
      have := hn l hm.1
      simp only
      split
      · rename_i hh; exact absurd ⟨hm.2, hh.2⟩ (this hh.1)
      · rfl
  · rw [← hx, h.cached hl]; simp only [hp, hd, and_self, if_true]; exact e

theorem State.cleanLines_cacheByte {s : State} (h : s.LinesOnce) (p : CLine → Bool) (x : Nat) :
    (s.cleanLines p).cacheByte x = s.cacheByte x := by
  unfold State.cacheByte
  rw [State.cleanLines_cached, State.cleanLines_byte h]
  cases s.cached (lineOf x) with
  | none => rfl
  | some l => simp only [Option.map_some]; split <;> rfl

theorem State.cleanLines_homeByte {s : State} (h : s.LinesOnce) (p : CLine → Bool) (x : Nat) :
    (s.cleanLines p).homeByte x = s.homeByte x := by
  unfold State.homeByte
  rw [State.cleanLines_cached, State.cleanLines_byte h]
  cases s.cached (lineOf x) with
  | none => rfl
  | some l =>
    simp only [Option.map_some]
    by_cases hp : p l = true
    · simp only [hp, if_true, CLine.clean_dirty, true_and, Bool.false_eq_true, if_false]
    · simp only [hp, Bool.false_eq_true, if_false, false_and]

/-- Ending pins writes back as cleaning does and leaves the bytes that the cache holds. -/
theorem State.unpin_mem (s : State) (p : CLine → Bool) : (s.unpin p).mem = (s.cleanLines p).mem := rfl
theorem State.unpin_dcache (s : State) (p : CLine → Bool) :
    (s.unpin p).core.dcache = upd p (fun l => { l with pin := none, retried := false }) (upd p CLine.clean s.core.dcache) := by
  simp [State.unpin]
@[simp] theorem State.unpin_me (s : State) (p : CLine → Bool) : (s.unpin p).me = s.me := by simp [State.unpin]
@[simp] theorem State.unpin_hart (s : State) (p : CLine → Bool) : (s.unpin p).hart = s.hart := by simp [State.unpin]

theorem State.LinesOnce.unpin {s : State} (h : s.LinesOnce) (p : CLine → Bool) : (s.unpin p).LinesOnce :=
  h.of_lines (by rw [State.unpin_dcache, map_line_upd, map_line_upd] <;> intro _ <;> rfl)

theorem State.unpin_kept (s : State) (p : CLine → Bool) (w : Nat → Prop) : s.BytesKept (s.unpin p) w := by
  refine (s.cleanLines_kept p w).trans ⟨fun x _ => .inl rfl, fun x _ v hv => ?_⟩
  obtain ⟨l, hl, h1, h2, h3⟩ := hv
  rw [State.unpin_dcache, ← State.cleanLines_dcache] at hl
  obtain ⟨l0, hl0, rfl⟩ := List.mem_map.mp hl
  refine ⟨l0, hl0, ?_⟩
  by_cases hp : p l0 = true <;> simp only [hp, if_true] at h1 h2 h3 <;> exact ⟨h1, h2, h3⟩

theorem State.unpin_cached (s : State) (p : CLine → Bool) (n : Nat) :
    ∃ f : CLine → CLine, (s.unpin p).cached n = (s.cached n).map f ∧
      ∀ l, (f l).data = l.data ∧ (f l).line = l.line ∧ ∀ i, (f l).dirty.getD i false = true → p l = false ∧ (f l).dirty = l.dirty := by
  let g : CLine → CLine := fun l => if p l then { l with pin := none, retried := false } else l
  let c : CLine → CLine := fun l => if p l then l.clean else l
  have hg : ∀ l, (g l).line = l.line := fun l => by simp only [g]; split <;> rfl
  have hc : ∀ l, (c l).line = l.line := fun l => by simp only [c]; split <;> rfl
  refine ⟨g ∘ c, ?_, fun l => ?_⟩
  · unfold State.cached
    rw [State.unpin_dcache]
    induction s.core.dcache with
    | nil => rfl
    | cons l ls ih =>
      have hline : (g (c l)).line = l.line := (hg _).trans (hc _)
      simp only [upd, List.map_cons, List.find?_cons]
      by_cases h : l.line = n
      · have : (g (c l)).line = n := hline.trans h
        simp only [g, c] at this ⊢
        simp [this, h, g]
      · have : (g (c l)).line ≠ n := fun e => h (hline.symm.trans e)
        simp only [g, c] at this
        simp only [this, h, decide_false]
        exact ih
  · by_cases hp : p l = true
    · have hc : c l = l.clean := by simp [c, hp]
      refine ⟨?_, ?_, fun i hi => ?_⟩
      · simp only [Function.comp, g, hc]; split <;> rfl
      · simp only [Function.comp, g, hc]; split <;> rfl
      · exfalso
        have : ((g ∘ c) l).dirty = l.clean.dirty := by simp only [Function.comp, g, hc]; split <;> rfl
        rw [this, CLine.clean_dirty] at hi; exact absurd hi (by decide)
    · have hp' : p l = false := by simpa using hp
      simp [Function.comp, g, c, hp']

-- Fills

/-- The best of a list is one of it. -/
theorem best_mem {α : Type} (better : α → α → Bool) (l : List α) {a : α} (h : best better l = some a) : a ∈ l := by
  induction l generalizing a with
  | nil => cases h
  | cons x l ih =>
    unfold best at h
    cases hb : best better l with
    | none => rw [hb] at h; cases h; exact List.mem_cons_self ..
    | some b =>
      rw [hb] at h
      simp only at h
      split at h <;> cases h
      · exact List.mem_cons_of_mem _ (ih hb)
      · exact List.mem_cons_self ..

/-- The line that leaves a full set is one of the cache's. -/
theorem State.victim_mem {s : State} {n : Nat} {v : CLine} (h : s.victim n = some v) : v ∈ s.core.dcache := by
  unfold State.victim at h
  split at h
  · cases h
  · simp only at h
    split at h
    · rename_i x hx
      cases h
      exact List.mem_of_mem_filter (List.mem_of_mem_filter (List.mem_of_getElem? hx))
    · exact List.mem_of_mem_filter (List.mem_of_mem_filter (best_mem _ _ h))

/-- Making room writes at most one line back and gives it up. -/
theorem State.makeRoom_cases (s : State) (n : Nat) :
    s.makeRoom n = s ∨ ∃ v ∈ s.core.dcache,
      s.makeRoom n = { (s.writeBack v).setCache (s.core.dcache.filter (fun l => l.line ≠ v.line)) with tick := (s.writeBack v).tick + 1 } := by
  unfold State.makeRoom
  cases h : s.victim n with
  | none => exact .inl rfl
  | some v => exact .inr ⟨v, State.victim_mem h, by simp only [State.writeBack_core]⟩

theorem State.makeRoom_kept (s : State) (n : Nat) (w : Nat → Prop) : s.BytesKept (s.makeRoom n) w := by
  rcases s.makeRoom_cases n with e | ⟨v, hv, e⟩
  · rw [e]; exact .refl s w
  · rw [e]
    refine ⟨fun x _ => ?_, fun x _ b hb => ?_⟩
    · show (s.writeBack v).mem.get x = _ ∨ _
      rw [State.writeBack_get]
      split
      · rename_i h
        exact .inr ⟨v, hv, h.1, h.2, by show _ = (s.writeBack v).mem.get x; rw [State.writeBack_get, if_pos h]⟩
      · exact .inl rfl
    · obtain ⟨l, hl, h⟩ := hb
      exact ⟨l, (List.mem_filter.mp hl).1, h⟩

@[simp] theorem State.makeRoom_me (s : State) (n : Nat) : (s.makeRoom n).me = s.me := by
  rcases s.makeRoom_cases n with e | ⟨v, _, e⟩ <;> rw [e]; simp
@[simp] theorem State.makeRoom_hart (s : State) (n : Nat) : (s.makeRoom n).hart = s.hart := by
  rcases s.makeRoom_cases n with e | ⟨v, _, e⟩ <;> rw [e]; simp

theorem State.LinesOnce.makeRoom {s : State} (h : s.LinesOnce) (n : Nat) : (s.makeRoom n).LinesOnce := by
  rcases s.makeRoom_cases n with e | ⟨v, _, e⟩ <;> rw [e]
  · exact h
  · exact h.filter _

theorem State.makeRoom_cached (s : State) (m n : Nat) : (s.makeRoom m).cached n = s.cached n ∨ (s.makeRoom m).cached n = none := by
  rcases s.makeRoom_cases m with e | ⟨v, _, e⟩ <;> rw [e]
  · exact .inl rfl
  · by_cases hn : n = v.line
    · refine .inr ?_
      unfold State.cached
      refine List.find?_eq_none.mpr fun l hl => ?_
      have := (List.mem_filter.mp hl).2
      simp only [hn]; simpa using this
    · refine .inl ?_
      unfold State.cached
      simp only [State.setCache_dcache]
      induction s.core.dcache with
      | nil => rfl
      | cons l ls ih =>
        by_cases hl : l.line = v.line
        · have : l.line ≠ n := fun e => hn (e.symm.trans hl)
          simp only [List.filter_cons, hl, ne_eq, not_true_eq_false, decide_false, Bool.false_eq_true, if_false, List.find?_cons]
          rw [show (decide (v.line = n)) = false by simpa using fun e => hn e.symm]
          exact ih
        · simp only [List.filter_cons, ne_eq, hl, not_false_eq_true, decide_true, if_true, List.find?_cons]
          rw [ih]

/-- The line that a fill gives: the one held, or the home's bytes (R316). -/
theorem State.fill_cases (s : State) (n : Nat) :
    (∃ l, s.cached n = some l ∧ s.fill n = (l, s)) ∨
    (s.cached n = none ∧ ∃ l : CLine, l.line = n ∧ l.data = (s.makeRoom n).mem.bytes (n * 128) 128 ∧ (∀ i, l.dirty.getD i false = false) ∧
      s.fill n = (l, (s.makeRoom n).setCache ((s.makeRoom n).core.dcache ++ [l]))) := by
  unfold State.fill
  cases h : s.cached n with
  | some l => exact .inl ⟨l, rfl, rfl⟩
  | none => exact .inr ⟨rfl, _, rfl, rfl, fun i => by
      simp only [List.getD_eq_getElem?_getD, List.getElem?_replicate]; split <;> rfl, rfl⟩

/-- A line that is not held is not among those a full cache gives up: its bytes at the home stay. -/
theorem State.makeRoom_byte {s : State} {x : Nat} (h : s.cached (lineOf x) = none) (n : Nat) : (s.makeRoom n).mem.get x = s.mem.get x := by
  rcases s.makeRoom_cases n with e | ⟨v, hv, e⟩ <;> rw [e]
  show (s.writeBack v).mem.get x = _
  rw [State.writeBack_get, if_neg fun hh => State.cached_none h v hv hh.1]

end Sys2Proof.Machine
end

