-- ==== Sys2Proof/Laws/Issue.lean ====
section
/-! SUPPORT. What issue, operand reading, writing a result and completing in sequence can do, and what a report of an error, a retry and a
transpose under way leave, each said once. -/
namespace Sys2Proof.Machine

-- Issue and operands

theorem State.issue_fits {s : State} {c : Class} {n : Nat} (h : s.Fits c n) (k : Res) : s.issue c n k = k := by
  rw [State.issue, if_neg h.1, if_pos h.2]

theorem State.operands_ready {s : State} {srcs dsts : List Reg} (h : s.Ready srcs dsts) (k : List Word → State → Res) :
    s.operands srcs dsts k = k (popAll srcs s.me s.hart).1 (s.popped srcs) := by
  obtain ⟨h1, h2, h3, h4, h5⟩ := h
  have h3' : (srcs ++ dsts).any s.me.scoreboarded = false := by
    rw [List.any_eq_false]; intro r hr; simp [h3 r hr]
  simp only [State.operands, List.all_eq_true.mpr h1, List.all_eq_true.mpr h2, h3', h4, h5, Bool.and_self, if_true, Bool.false_eq_true,
    if_false]
  rfl

/-- An instruction with one destination runs to its write and completes (R107). -/
theorem State.compute_issues {s : State} {n : Nat} {srcs : List Reg} {d : Reg} (h : s.Issues .both n srcs [d]) (f : List Word → Word) :
    s.compute n srcs d f = .next (s.wrote n srcs d (f (popAll srcs s.me s.hart).1)) := by
  rw [State.compute, State.issue_fits h.1, State.operands_ready h.2]; rfl

/-- Every case of issue: the instruction goes on, or the stream traps with TVAL the instruction's first word. -/
theorem State.issue_cases (s : State) (c : Class) (n : Nat) (k : Res) :
    s.issue c n k = k ∨ ∃ cause, (cause = illegalInstruction ∨ cause = wrongStream) ∧ s.issue c n k = s.trap (.plain cause s.insWord) := by
  unfold State.issue
  split
  · exact .inr ⟨_, .inl rfl, rfl⟩
  · split
    · exact .inl rfl
    · exact .inr ⟨_, .inr rfl, rfl⟩

/-- Every case of operand reading: the operands are ready, a register or queue is waited for, or the queue is of the other stream. -/
theorem State.operands_cases (s : State) (srcs dsts : List Reg) (k : List Word → State → Res) :
    (s.Ready srcs dsts ∧ s.operands srcs dsts k = k (popAll srcs s.me s.hart).1 (s.popped srcs)) ∨
    (∃ w, s.operands srcs dsts k = s.stall w) ∨ s.operands srcs dsts k = s.trap (.plain wrongStream s.insWord) := by
  by_cases h : s.Ready srcs dsts
  · exact .inl ⟨h, State.operands_ready h k⟩
  · right
    unfold State.operands
    split
    · split
      · exact .inl ⟨_, rfl⟩
      · split
        · exact .inl ⟨_, rfl⟩
        · split
          · exact .inl ⟨_, rfl⟩
          · rename_i hq hs _ hm _ hn
            simp only [Bool.and_eq_true, List.all_eq_true] at hq
            have hs' : ∀ r ∈ srcs ++ dsts, s.me.scoreboarded r = false := fun r hr =>
              Bool.eq_false_iff.mpr fun hb => hs (List.any_eq_true.mpr ⟨r, hr, hb⟩)
            exact absurd ⟨hq.1, hq.2, hs', hm, hn⟩ h
    · exact .inr rfl

-- Words in error, and what a transpose under way hides

/-- Scratchpad bytes without an error among them: their read reports nothing (R409). -/
theorem State.noteScratch_sound {s : State} {o n : Nat} (h : s.Sound (.scratch o) n) : s.noteScratch o n = s := by
  have : (s.hart.scratchBad.filter fun w => decide (o < 8 * w + 8 ∧ 8 * w < o + n)) = [] :=
    List.filter_eq_nil_iff.mpr fun w hw => by simpa using h o rfl w hw
  rw [State.noteScratch, this]; rfl

/-- With no transpose under way the lane instructions read the rows as they stand (R179). -/
theorem State.laneHart_of_none {s : State} (h : s.transposes = []) : s.laneHart = s.hart := by rw [State.laneHart, h]

/-- A retry leaves every line of the core's cache but for its mark. -/
theorem State.markRetried_lines (s : State) (l : Nat) :
    (s.markRetried l).core.dcache.map (fun x => (x.line, x.data, x.dirty, x.pin)) = s.core.dcache.map fun x => (x.line, x.data, x.dirty, x.pin) := by
  simp only [State.markRetried, upd, List.map_map]
  refine List.map_congr_left fun x _ => ?_
  simp only [Function.comp_apply]
  split <;> rfl

-- Registers

@[simp] theorem Strm.reg_zero (t : Strm) : t.reg 0 = 0 := rfl
@[simp] theorem Strm.setReg_zero (t : Strm) (v : Word) : t.setReg 0 v = t := rfl

/-- A write of a register: that register alone, none for s0 (R14). -/
theorem Strm.reg_setReg (t : Strm) (d r : Reg) (v : Word) :
    (t.setReg d v).reg r = if r = d ∧ d ≠ 0 ∧ d.toNat < 24 then v else t.reg r := by
  unfold Strm.setReg Strm.reg
  by_cases h0 : d = 0
  · simp [h0]
  by_cases h24 : d.toNat < 24
  · simp only [h0, if_false, h24, dif_pos]
    by_cases hr : r = d
    · subst hr; simp only [h0, h24, if_false, dif_pos, Vector.getElem_set_self, and_self, if_true, not_false_iff, ne_eq]
    · have : d.toNat ≠ r.toNat := fun h => hr (BitVec.eq_of_toNat_eq h.symm)
      simp only [hr, false_and, if_false]
      split
      · rfl
      · split
        · exact Vector.getElem_set_ne _ _ this
        · rfl
  · simp [h24]

/-- A write of a register changes nothing but the registers. -/
theorem Strm.setReg_only (t : Strm) (d : Reg) (v : Word) : t.setReg d v = { t with regs := (t.setReg d v).regs } := by
  unfold Strm.setReg; split
  · rfl
  · split <;> rfl

theorem isQ_false_lt {r : Reg} (h : isQ r = false) : r.toNat < 24 := by simpa [isQ] using h

/-- The queue that a write went to, and no other, has one more entry (R15). -/
theorem Hart.q_setQ (h : Hart) (i j : Fin 8) (x : List QEnt) : (h.setQ i x).q j = if j = i then x else h.q j := by
  simp only [Hart.setQ, Hart.q]
  by_cases hji : j = i
  · subst hji; simp
  · have : (i : Nat) ≠ j := fun e => hji (Fin.ext e.symm)
    simp [this, hji]

theorem Hart.setQ_only (h : Hart) (i : Fin 8) (x : List QEnt) : h.setQ i x = { h with queues := (h.setQ i x).queues } := rfl

/-- What writing a result can do: nothing for s0, one register, or one queue. -/
theorem State.wr_cases (s : State) (d : Reg) (v : Word) :
    (d = 0 ∧ s.wr d v = s) ∨ (isQ d = true ∧ s.wr d v = { s with hart := s.hart.setQ (qIdx d) (s.hart.q (qIdx d) ++ [.val v]) }) ∨
    (d ≠ 0 ∧ isQ d = false ∧ s.wr d v = { s with me := s.me.setReg d v }) := by
  by_cases h0 : d = 0
  · subst h0; exact .inl ⟨rfl, rfl⟩
  · by_cases hq : isQ d = true
    · exact .inr (.inl ⟨hq, by simp [State.wr, hq]⟩)
    · exact .inr (.inr ⟨h0, by simpa using hq, by simp [State.wr, hq]⟩)

-- Pops

/-- Reading the sources changes nothing of the hart but its queues. -/
theorem popAll_only (rs : List Reg) (t : Strm) (h : Hart) : (popAll rs t h).2 = { h with queues := (popAll rs t h).2.queues } := by
  induction rs generalizing h with
  | nil => rfl
  | cons r rs ih =>
    unfold popAll
    split
    · exact (ih _).trans (by rfl)
    · exact ih h

/-- A queue that no source names is as it was. -/
theorem popAll_q (rs : List Reg) (t : Strm) (h : Hart) (i : Fin 8) (hi : ∀ r ∈ rs, isQ r = true → qIdx r ≠ i) :
    (popAll rs t h).2.q i = h.q i := by
  induction rs generalizing h with
  | nil => rfl
  | cons r rs ih =>
    have hrs : ∀ r ∈ rs, isQ r = true → qIdx r ≠ i := fun r hr => hi r (List.mem_cons_of_mem _ hr)
    unfold popAll
    split
    · rename_i hq
      have := hi r (List.mem_cons_self ..) hq
      exact (ih _ hrs).trans (by rw [Hart.q_setQ, if_neg (Ne.symm this)])
    · exact ih h hrs

/-- Sources that are all registers pop nothing. -/
theorem popAll_regs (rs : List Reg) (t : Strm) (h : Hart) (hr : ∀ r ∈ rs, isQ r = false) : popAll rs t h = (rs.map t.reg, h) := by
  induction rs with
  | nil => rfl
  | cons r rs ih =>
    have h1 := hr r (List.mem_cons_self ..)
    have h2 := ih fun r h => hr r (List.mem_cons_of_mem _ h)
    simp [popAll, h1, h2]

-- Completion in sequence and loops

theorem Strm.setAct_active (t : Strm) (i j : Fin 6) (a : Option Loop) :
    (t.setAct i a).active j = if j = i then (a.bind fun x => if x.mode = t.mode then some x else none) else t.active j := by
  have hm : (t.setAct i a).mode = t.mode := rfl
  unfold Strm.active
  rw [hm]
  by_cases h : j = i
  · subst h
    have : ((t.setAct j a).loops[j]).act = a := by simp [Strm.setAct]
    rw [this, if_pos rfl]; cases a <;> rfl
  · have hne : (i : Nat) ≠ j := fun e => h (Fin.ext e.symm)
    have : (t.setAct i a).loops[j] = t.loops[j] := by
      simp [Strm.setAct, hne]
    rw [this, if_neg h]

theorem Strm.active_of_loops {t u : Strm} (hl : u.loops = t.loops) (hm : u.mode = t.mode) (i : Fin 6) : u.active i = t.active i := by
  simp [Strm.active, hl, hm]

/-- No level ends here: control goes on and nothing else changes. -/
theorem loopEnd_none (last : Word) (is : List (Fin 6)) (next : Word) (t : Strm)
    (h : ∀ i ∈ is, ∀ a, t.active i = some a → a.last ≠ last) : loopEnd last is next t = { t with pc := next } := by
  induction is with
  | nil => rfl
  | cons i is ih =>
    have hi := h i (List.mem_cons_self ..)
    have := ih fun j hj => h j (List.mem_cons_of_mem _ hj)
    simp only [loopEnd]
    split
    · rename_i a ha; rw [if_neg (hi a ha)]; exact this
    · exact this

theorem Strm.lastOfBody_false {t : Strm} {a : Word} (h : t.lastOfBody a = false) (i : Fin 6) (l : Loop) (hl : t.active i = some l) :
    l.last ≠ a := by
  simp only [Strm.lastOfBody, List.any_eq_false] at h
  have := h i (List.mem_finRange i)
  simpa [hl] using this

/-- Completion where no active body ends (R76). -/
theorem State.retire_plain {s : State} {n : Nat} (h : s.me.lastOfBody (s.lastSlot n) = false) :
    s.retire n = { s with me := { s.me with pc := nextSlot s.me.pc n, pfx := none, wait := none, age := 0 } } := by
  have := loopEnd_none (s.lastSlot n) deepFirst (nextSlot s.me.pc n) { s.me with pfx := none, wait := none, age := 0 }
    fun i _ a ha => Strm.lastOfBody_false h i a ((Strm.active_of_loops rfl rfl i).symm.trans ha)
  simp only [State.retire, Strm.advance]
  exact congrArg (fun m => { s with me := m }) this

/-- Parts of a stream that no stride touches. -/
abbrev Strm.StrideFrame (t u : Strm) : Prop := u = { t with regs := u.regs, pend := u.pend }
/-- Parts of a stream that no end of an iteration touches. -/
abbrev Strm.LoopFrame (t u : Strm) : Prop := u = { t with pc := u.pc, regs := u.regs, pend := u.pend, loops := u.loops }

theorem Strm.StrideFrame.trans {t u v : Strm} (h : t.StrideFrame u) (k : u.StrideFrame v) : t.StrideFrame v := by
  unfold Strm.StrideFrame at *; rw [k]; simp only; rw [h]

theorem Strm.LoopFrame.trans {t u v : Strm} (h : t.LoopFrame u) (k : u.LoopFrame v) : t.LoopFrame v := by
  unfold Strm.LoopFrame at *; rw [k]; simp only; rw [h]

theorem Strm.StrideFrame.loop {t u : Strm} (h : t.StrideFrame u) : t.LoopFrame u := by
  unfold Strm.StrideFrame at h; rw [h]

theorem Strm.land_frame (t : Strm) (r : Reg) : t.StrideFrame (t.land r) := by
  unfold Strm.land Strm.StrideFrame
  split
  · rw [Strm.setReg_only]
  · rfl

theorem Strm.setReg_frame (t : Strm) (r : Reg) (v : Word) : t.StrideFrame (t.setReg r v) := by
  unfold Strm.StrideFrame; rw [Strm.setReg_only]

theorem stepStrides_frame (ps : List (Reg × Word)) (t : Strm) : t.StrideFrame (stepStrides ps t) := by
  unfold stepStrides
  induction ps generalizing t with
  | nil => rfl
  | cons p ps ih => exact ((Strm.land_frame t p.1).trans (Strm.setReg_frame _ _ _)).trans (ih _)

theorem stepStrides_active (ps : List (Reg × Word)) (t : Strm) (i : Fin 6) : (stepStrides ps t).active i = t.active i := by
  have h := stepStrides_frame ps t
  exact Strm.active_of_loops (congrArg Strm.loops h) (congrArg Strm.mode h) i

theorem loopEnd_frame (last : Word) (is : List (Fin 6)) (next : Word) (t : Strm) : t.LoopFrame (loopEnd last is next t) := by
  induction is generalizing t with
  | nil => rfl
  | cons i is ih =>
    simp only [loopEnd]
    split
    · rename_i a ha
      split
      · split
        · have h2 : (stepStrides a.strides t).LoopFrame ((stepStrides a.strides t).setAct i none) := rfl
          exact ((stepStrides_frame a.strides t).loop.trans h2).trans (ih _)
        · exact (stepStrides_frame a.strides t).loop.trans rfl
      · exact ih t
    · exact ih t

/-- What completion in sequence can change of the state. -/
theorem State.retire_frame (s : State) (n : Nat) :
    s.retire n = { s with me := { s.me with
      pc := (s.retire n).me.pc, regs := (s.retire n).me.regs, pend := (s.retire n).me.pend, loops := (s.retire n).me.loops,
      pfx := none, wait := none, age := 0 } } := by
  have := loopEnd_frame (s.lastSlot n) deepFirst (nextSlot s.me.pc n) { s.me with pfx := none, wait := none, age := 0 }
  simp only [State.retire, Strm.advance]
  exact congrArg (fun m => { s with me := m }) this

/-- A register that no ending level strides is kept, and so are the deliveries for it. -/
theorem Strm.land_reg (t : Strm) (r x : Reg) (h : x ≠ r) : (t.land r).reg x = t.reg x ∧ ∀ p ∈ t.pend, p.dst = x → p ∈ (t.land r).pend := by
  unfold Strm.land
  split
  · constructor
    · show (t.setReg r _).reg x = _
      rw [Strm.reg_setReg, if_neg fun e => h e.1]
    · intro p hp hx
      simp only [List.mem_filter, hp, true_and]
      simp [show p.dst ≠ r from hx ▸ h]
  · exact ⟨rfl, fun p hp _ => hp⟩

theorem stepStrides_reg (ps : List (Reg × Word)) (t : Strm) (x : Reg) (h : x ∉ ps.map (·.1)) :
    (stepStrides ps t).reg x = t.reg x ∧ ∀ p ∈ t.pend, p.dst = x → p ∈ (stepStrides ps t).pend := by
  unfold stepStrides
  induction ps generalizing t with
  | nil => exact ⟨rfl, fun p hp _ => hp⟩
  | cons q ps ih =>
    simp only [List.map_cons, List.mem_cons, not_or] at h
    have h1 := Strm.land_reg t q.1 x h.1
    have h2 := ih ((t.land q.1).setReg q.1 ((t.land q.1).reg q.1 + q.2)) h.2
    simp only [List.foldl_cons]
    refine ⟨h2.1.trans ((Strm.reg_setReg ..).trans ((if_neg fun e => h.1 e.1).trans h1.1)), fun p hp hx => h2.2 p ?_ hx⟩
    rw [Strm.setReg_only]; exact h1.2 p hp hx

theorem loopEnd_reg (last : Word) (is : List (Fin 6)) (next : Word) (t : Strm) (x : Reg)
    (h : ∀ i ∈ is, ∀ a, t.active i = some a → a.last = last → x ∉ a.strides.map (·.1)) (hn : is.Nodup) :
    (loopEnd last is next t).reg x = t.reg x ∧ ∀ p ∈ t.pend, p.dst = x → p ∈ (loopEnd last is next t).pend := by
  induction is generalizing t with
  | nil => exact ⟨rfl, fun p hp _ => hp⟩
  | cons i is ih =>
    have hrest : ∀ u : Strm, (∀ j ∈ is, u.active j = t.active j) →
        (∀ j ∈ is, ∀ a, u.active j = some a → a.last = last → x ∉ a.strides.map (·.1)) := fun u hu j hj a ha =>
      h j (List.mem_cons_of_mem _ hj) a ((hu j hj).symm.trans ha)
    have hnd := (List.nodup_cons.mp hn)
    simp only [loopEnd]
    split
    · rename_i a ha
      split
      · rename_i hl
        have hx := h i (List.mem_cons_self ..) a ha hl
        have hs := stepStrides_reg a.strides t x hx
        split
        · have hl' : ∀ j ∈ is, ((stepStrides a.strides t).setAct i none).active j = t.active j := by
            intro j hj
            have hji : j ≠ i := fun e => hnd.1 (e ▸ hj)
            rw [Strm.setAct_active, if_neg hji, stepStrides_active]
          have := ih ((stepStrides a.strides t).setAct i none) (hrest _ hl') hnd.2
          exact ⟨this.1.trans hs.1, fun p hp he => this.2 p (hs.2 p hp he) he⟩
        · exact ⟨hs.1, hs.2⟩
      · exact ih t (hrest t fun _ _ => rfl) hnd.2
    · exact ih t (hrest t fun _ _ => rfl) hnd.2

end Sys2Proof.Machine
end

