-- ==== Sys2Proof/Laws/Lane.lean ====
section
/-! SUPPORT. The lane store: bits of rows, elements read after elements written, presence bits. -/
namespace Sys2Proof.Machine

/-- A bit put is the bit read; every other bit of the row is kept (R21). -/
theorem Row.testBit_put (r : Row) (e : Nat) (b : Bool) (i : Nat) :
    Nat.testBit (Row.put r e b) i = if i = e then b else Nat.testBit r i := by
  unfold Row.put
  split
  · rename_i h
    split
    · rename_i hi; rw [hi]; exact h
    · rfl
  · rename_i h
    have hx : Nat.testBit (Nat.xor r (Nat.shiftLeft 1 e)) i = (Nat.testBit r i ^^ Nat.testBit (1 <<< e) i) := Nat.testBit_xor ..
    rw [hx]
    by_cases hi : i = e
    · subst hi
      have : Nat.testBit (1 <<< i) i = true := by simp [Nat.testBit_shiftLeft]
      rw [this]
      cases hb : Nat.testBit r i <;> cases b <;> simp_all
    · have : Nat.testBit (1 <<< e) i = false := by
        rw [Nat.one_shiftLeft, Nat.testBit_two_pow]
        simp; exact fun h => hi h.symm
      rw [this]; simp [hi]

/-- Bits put in distinct lanes: each listed lane has its own, the others are kept. -/
theorem putBits_testBit (p : Nat) (xs : List (Nat × Nat)) (r : Row) (e : Nat) (hn : (xs.map (·.1)).Nodup) :
    Nat.testBit (putBits p xs r) e = match xs.find? (fun x => x.1 = e) with | some x => x.2.testBit p | none => Nat.testBit r e := by
  unfold putBits
  induction xs generalizing r with
  | nil => rfl
  | cons x xs ih =>
    have hn' := List.nodup_cons.mp (by simpa using hn : (x.1 :: xs.map (·.1)).Nodup)
    simp only [List.foldl_cons, List.find?_cons]
    rw [ih _ hn'.2]
    by_cases hx : x.1 = e
    · have : xs.find? (fun y => y.1 = e) = none := List.find?_eq_none.mpr fun y hy hh =>
        hn'.1 (hx ▸ List.mem_map.mpr ⟨y, hy, by simpa using hh⟩)
      rw [this]; simp [hx, Row.testBit_put]
    · simp only [hx, decide_false]
      cases h : xs.find? (fun y => y.1 = e) with
      | some y => rfl
      | none => simp only; rw [Row.testBit_put, if_neg fun h => hx h.symm]

/-- A step of `putElems` on the plane rows. -/
def putPlane (r : Reg) (xs : List (Nat × Nat)) (ps : Vector Row 512) (p : Nat) : Vector Row 512 :=
  if hp : 16 * r.toNat + p < 512 then ps.set (16 * r.toNat + p) (putBits p xs ps[16 * r.toNat + p]) hp else ps

theorem putPlane_get (r : Reg) (xs : List (Nat × Nat)) (ps : Vector Row 512) (p i : Nat) (h : i < 512) :
    (putPlane r xs ps p)[i] = if i = 16 * r.toNat + p then putBits p xs ps[i] else ps[i] := by
  unfold putPlane
  split
  · by_cases hi : i = 16 * r.toNat + p
    · subst hi; simp
    · rw [Vector.getElem_set_ne _ _ fun e => hi e.symm, if_neg hi]
  · rename_i hp; rw [if_neg]; intro e; omega

theorem foldl_putPlane_get (r : Reg) (xs : List (Nat × Nat)) (ps : Vector Row 512) (n i : Nat) (h : i < 512) :
    ((List.range n).foldl (putPlane r xs) ps)[i] =
      if 16 * r.toNat ≤ i ∧ i < 16 * r.toNat + n then putBits (i - 16 * r.toNat) xs ps[i] else ps[i] := by
  induction n with
  | zero => rw [if_neg (by omega)]; rfl
  | succ n ih =>
    rw [List.range_succ, List.foldl_append, List.foldl_cons, List.foldl_nil, putPlane_get, ih]
    by_cases hi : i = 16 * r.toNat + n
    · subst hi
      rw [if_pos rfl, if_neg (by omega), if_pos (by omega)]; congr 1; omega
    · rw [if_neg hi]
      by_cases h2 : 16 * r.toNat ≤ i ∧ i < 16 * r.toNat + n
      · rw [if_pos h2, if_pos (by omega)]
      · rw [if_neg h2, if_neg (by omega)]

/-- The plane rows after elements are written: the destination's rows take their bits, every other row is kept (R21). -/
theorem Hart.putElems_plane (h : Hart) (r : Reg) (w : Nat) (xs : List (Nat × Nat)) (i : Nat) (hi : i < 512) :
    (h.putElems r w xs).planes[i] =
      if 16 * r.toNat ≤ i ∧ i < 16 * r.toNat + w then putBits (i - 16 * r.toNat) xs h.planes[i] else h.planes[i] :=
  foldl_putPlane_get r xs h.planes w i hi

theorem Hart.putElems_only (h : Hart) (r : Reg) (w : Nat) (xs : List (Nat × Nat)) :
    h.putElems r w xs = { h with planes := (h.putElems r w xs).planes } := rfl

theorem elemBits_testBit (rows : List Row) (e p : Nat) : (elemBits rows e).testBit p = (rows.getD p 0).testBit e := by
  induction rows generalizing p with
  | nil => simp [elemBits]
  | cons r rs ih =>
    cases p with
    | zero =>
      simp only [elemBits, List.getD_cons_zero]
      cases Nat.testBit r e <;> simp [boolNat, Nat.testBit_zero]
    | succ p =>
      simp only [elemBits, List.getD_cons_succ, Nat.testBit_succ]
      rw [← ih p]
      congr 1
      cases Nat.testBit r e <;> simp [boolNat] <;> omega

theorem elemBits_lt (rows : List Row) (e : Nat) : elemBits rows e < 2 ^ rows.length := by
  induction rows with
  | nil => simp [elemBits]
  | cons r rs ih =>
    simp only [elemBits, List.length_cons, Nat.pow_succ]
    cases Nat.testBit r e <;> simp [boolNat] <;> omega

/-- A bit of an element is its lane's bit of the plane row (R20). -/
theorem Hart.elem_testBit (h : Hart) (r : Reg) (w e p : Nat) (hw : 16 * r.toNat + w ≤ 512) :
    (h.elem r w e).testBit p = if hp : p < w then Nat.testBit (h.planes[16 * r.toNat + p]'(by omega)) e else false := by
  unfold Hart.elem Hart.rows
  rw [elemBits_testBit]
  by_cases hp : p < w
  · rw [dif_pos hp, List.getD_eq_getElem?_getD, List.getElem?_take, if_pos hp, List.getElem?_drop]
    simp [show 16 * r.toNat + p < 512 by omega]
  · rw [dif_neg hp, List.getD_eq_getElem?_getD, List.getElem?_take, if_neg hp]; simp

theorem Hart.elem_lt (h : Hart) (r : Reg) (w e : Nat) : h.elem r w e < 2 ^ w := by
  refine Nat.lt_of_lt_of_le (elemBits_lt _ e) (Nat.pow_le_pow_right (by omega) ?_)
  simp only [Hart.rows, List.length_take]; omega

/-- Elements read after elements written in distinct lanes: each listed lane reads its pattern, the others what they were. -/
theorem Hart.elem_putElems (h : Hart) (r : Reg) (w : Nat) (xs : List (Nat × Nat)) (e : Nat) (hw : 16 * r.toNat + w ≤ 512)
    (hn : (xs.map (·.1)).Nodup) :
    (h.putElems r w xs).elem r w e = match xs.find? (fun x => x.1 = e) with | some x => x.2 % 2 ^ w | none => h.elem r w e := by
  apply Nat.eq_of_testBit_eq
  intro p
  rw [Hart.elem_testBit _ _ _ _ _ hw]
  by_cases hp : p < w
  · rw [dif_pos hp, Hart.putElems_plane, if_pos (by omega), putBits_testBit _ _ _ _ hn, show 16 * r.toNat + p - 16 * r.toNat = p by omega]
    cases xs.find? (fun x => x.1 = e) with
    | some x => simp [Nat.testBit_mod_two_pow, hp]
    | none => simp only; rw [Hart.elem_testBit _ _ _ _ _ hw, dif_pos hp]
  · rw [dif_neg hp]
    cases xs.find? (fun x => x.1 = e) with
    | some x => simp [Nat.testBit_mod_two_pow, hp]
    | none => simp only; rw [Hart.elem_testBit _ _ _ _ _ hw, dif_neg hp]

/-- An operand whose register passes the pair rule lies within the lane store (R20). -/
theorem pairOk_rows {r : Reg} {w : Nat} (h : pairOk r w = true) (hw : w ≤ 32) : 16 * r.toNat + w ≤ 512 := by
  have hr := r.isLt
  by_cases h16 : w ≤ 16
  · omega
  · have hodd : r.getLsbD 0 = false := by simpa [pairOk, h16] using h
    have : r.toNat % 2 = 0 := by
      have := hodd
      simp only [BitVec.getLsbD, Nat.testBit_zero, decide_eq_false_iff_not] at this
      omega
    omega

/-- Presence bits after a list of registers is set. -/
theorem Hart.full_setFull (h : Hart) (b : Bool) (rs : List Reg) (x : Reg) :
    (h.setFull b rs).full x = if x ∈ rs then b else h.full x := by
  have key : ∀ (ps : Vector Bool 32), (rs.foldl (fun p r => p.set r.toNat b) ps)[x.toNat] = if x ∈ rs then b else ps[x.toNat] := by
    intro ps
    induction rs generalizing ps with
    | nil => simp
    | cons r rs ih =>
      rw [List.foldl_cons, ih]
      by_cases hx : x ∈ rs
      · simp [hx]
      · by_cases hr : x = r
        · subst hr; simp [hx]
        · have : r.toNat ≠ x.toNat := fun e => hr (BitVec.eq_of_toNat_eq e.symm)
          simp [hx, hr, Vector.getElem_set_ne _ _ this]
  exact key h.pres

end Sys2Proof.Machine
end

