-- ==== Sys2Proof/Tests/Slice0.lean ====
section
/-! SUPPORT. The model's own tests: ill-formed terms refused, words of the spec decoded, single steps with results worked out from the manual,
and for every statement a state that meets its hypotheses. -/
namespace Sys2Proof.Tests
open Sys2Proof Sys2Proof.Machine
-- The proofs below are checked one after another: each checked beside the others takes a thread and its stack
set_option Elab.async false

-- WellFormed: a term that fails each check

theorem test_wf_first_word :
    ([.sext .d 1 2, .zext .d 1 2, .ld true .d 1 2 0, .fence .rlx .die, .wun .exp2 .i32 1 2, .wcmp .ltu .f32 1 2 3, .wcmp .geu .bf16 1 2 3,
      .wred .maxu .f16 0 1 2, .wred .sum .i32 7 1 2, .wmov .bc .f32 1 2 3, .loop 6 1 1, .loop 0 1 0, .lstride 6 1 0,
      .lstride 0 24 0, .tlbinv .vd 1, .tlbinv .all 31, .mma false false false 24 1 2, .mmas false false false 31 1 2,
      .vtow false .bf16 1 2 3, .wtov .f16 1 2 3] : List Instr).all (fun i => !i.wfFirst && !i.wf) = true := by decide

theorem test_wf_first_word_more :
    ([.twin true 0 4 1, .twin false 0 5 1, .movh 24 0, .bins 31 1 1 0, .cas .h .rlx .die 1 2 3 4, .casv .b .rlx .die 1 2 3 4,
      .ldo true .d .rlx .die 1 2 0, .ldo false .w .rel .die 1 2 0, .sto .w .acq .die 1 2 0, .vld false false .d 0 1 2 0,
      .vlds false false .d 0 1 2 3 0, .vldx false false .d false 0 1 2 3 0, .vldff false false .d 0 1 2 0, .vst false .d false 0 1 2 0,
      .vsts false .d false 0 1 2 3 0, .vstx false .d false false 0 1 2 3 0, .cpyg ⟨0, 0, 23, 1, 2⟩ 0 true false false 0 false 0 1,
      .cpwait 0 1 .die true] : List Instr).all (fun i => !i.wfFirst && !i.wf) = true := by decide

theorem test_wf_ext_word :
    ([.fshl 1 2 3 true 0 4, .fshr 1 2 3 false 1 4, .bext 1 2 false 0 0, .bext 1 2 true 2 63, .bins 1 2 0 0, .bins 1 2 64 1,
      .vamo .swap false false false .rlx .die 0 1 2 3, .cpys ⟨0, 0, 1, 2, 3⟩ 0 4, .cpyt ⟨0, 0, 1, 2, 3⟩ false false 3 1 0 0 0,
      .cpyt ⟨0, 0, 1, 2, 3⟩ false true 2 1 0 1 4, .cpyt ⟨0, 0, 1, 2, 3⟩ false false 0 1 0 0 0,
      .cpyt ⟨0, 0, 1, 2, 3⟩ false false 1 5 0 0 0, .cpyt ⟨0, 0, 1, 2, 3⟩ false false 0 0 1 0 0,
      .cpyt ⟨0, 0, 1, 2, 3⟩ false false 2 1 0 0 4] : List Instr).all (fun i => i.wfFirst && !i.wf) = true := by decide

theorem test_wf_ext_word_more :
    ([.cpyt ⟨0, 0, 1, 2, 3⟩ false false 1 1 0 0 4, .cpyo ⟨0, 0, 1, 2, 3⟩ false true .addi 1 1 4, .cpyo ⟨0, 0, 1, 2, 3⟩ true false .addf 0 0 0,
      .cpyo ⟨0, 0, 1, 2, 3⟩ false true .none 0 1 4, .cpyo ⟨0, 0, 1, 2, 3⟩ false true .none 5 1 4,
      .cpyo ⟨0, 0, 1, 2, 3⟩ false true .none 1 0 4, .cpyo ⟨0, 0, 1, 2, 3⟩ false false .none 1 0 0,
      .cpyo ⟨0, 0, 1, 2, 3⟩ false false .none 0 1 0, .cpyo ⟨0, 0, 1, 2, 3⟩ false false .none 0 0 4,
      .cpyg ⟨0, 0, 1, 2, 3⟩ 0 false true false 0 true 0 4, .cpstat 0 1 7] : List Instr).all (fun i => i.wfFirst && !i.wf) = true := by decide

-- Decoding: a word for every instruction, its fields put where the spec's encoding tables put them

/-- Each word is read as its instruction. -/
def decodesAll (nbits : Nat) (l : List (Nat × Instr)) : Bool := l.all fun p => decodeTableWord nbits p.1 == some p.2
/-- R84, R93, R108. -/
theorem test_decode_scalar :
    decodesAll 32 [(0x00808400, .add true 4 4 0), (0x00D56504, .sub true 5 11 21), (0x0020A708, .and false 7 5 8),
      (0x00445C0C, .or false 28 2 17), (0x00C03410, .xor true 20 1 16), (0x00B08C14, .andn true 12 4 12),
      (0x00878618, .shl true 6 28 1), (0x00323D1C, .shr false 29 17 12), (0x00966520, .sar true 5 19 5),
      (0x0090EA24, .rol true 10 7 4), (0x00128728, .mul false 7 20 4), (0x00C0EB2C, .mulh true 11 7 16),
      (0x0047A930, .mulhu false 9 29 17), (0x00A66134, .div true 1 19 9), (0x00D43138, .divu true 17 1 21),
      (0x00983B3C, .rem true 27 1 6), (0x00468B40, .remu false 11 20 17), (0x00E0C944, .min true 9 6 24),
      (0x00B16B48, .max true 11 11 12), (0x00AA1E4C, .minu true 30 16 10)] = true := by decide

/-- R84, R93, R111. -/
theorem test_decode_scalar_unary :
    decodesAll 32 [(0x004C4350, .maxu false 3 2 19), (0x006C5E54, .slt false 30 2 27), (0x00283E58, .sltu false 30 1 10),
      (0x00BB5F5C, .seq true 31 26 14), (0x0003D960, .clz false 25 30), (0x0083A764, .ctz true 7 29),
      (0x00037368, .popc false 19 27), (0x00034A6C, .bswap false 10 26), (0x00086070, .sext .w 0 3),
      (0x00000B74, .zext .b 11 0), (0x00180B78, .qstat 11 6)] = true := by decide

/-- R84, R93, R180. -/
theorem test_decode_lane :
    decodesAll 32 [(0x0FFC5080, .vadd true true 7 16 2 31), (0x0DF57384, .vsub true true 3 19 11 29),
      (0x0543FA88, .vmul false true 2 26 31 16), (0x02EA298C, .vmac false false 5 9 17 26),
      (0x03CE1790, .vmin false false 7 23 16 19), (0x07506F94, .vmax false true 6 15 3 20),
      (0x5E22C398, .vlog .xnor true true 4 3 22 8), (0x02014A9C, .vneg false 4 10 10), (0x048037A0, .vabs true 1 23 1),
      (0x02C8FFA4, .vshl false false 5 31 7 18), (0x0DFF42A8, .vshr true true 3 2 26 31),
      (0x0A207BAC, .vsar true false 4 27 3 8), (0x254624B0, .vcmp .lt false true 2 4 17 17),
      (0x0C06ECB4, .vsel true true 0 12 23 1), (0x0082F7B8, .vmv false 1 23 23), (0x0100D6BC, .vbc 2 22 6),
      (0x03801FC0, .vid 7 31)] = true := by decide

/-- R84, R93, R180. -/
theorem test_decode_lane_moves :
    decodesAll 32 [(0x001495C4, .vext false 21 4 5), (0x0002A8C8, .vins 8 21 0), (0x177848CC, .vslide true true 6 8 2 30),
      (0x006A95D0, .vdot false false 0 21 20 26), (0x6781E8D4, .vred .and true 7 8 15),
      (0x411FCCD8, .vgred .minu false 2 7 12 30), (0x038081DC, .vmlog .and 7 1 4 0), (0x030087E0, .vmpop 6 7 4),
      (0x00006DE4, .vmfirst 0 13 3), (0x0400BCE8, .vcompact true 0 28 5), (0x070220EC, .vexpand true 6 0 17),
      (0x0783ABF0, .vclz true 7 11 29), (0x076AE6F4, .vcvtw true 6 26 6 23), (0x0602A6F8, .vxq true 4 6 21),
      (0x0001EBFC, .vzp false 11 15)] = true := by decide

/-- R84, R94, R112, R142. -/
theorem test_decode_immediate_memory :
    decodesAll 32 [(0xE770E701, .addi 7 7 14812), (0x1B355605, .andi 22 10 1741), (0x31C34B09, .ori 11 26 3184),
      (0x4CBD960D, .xori 22 12 4911), (0x003C5911, .shli 25 2 15), (0x006E7A15, .shri 26 19 27),
      (0x00AB5019, .sari 16 26 42), (0x7C645F1D, .slti 31 2 7961), (0x1617B021, .sltiu 16 29 1413),
      (0x73A79D25, .movi 29 236860), (0xF4D5BB41, .ld true .h 27 13 1958), (0x0427E645, .st .h 6 31 33),
      (0x14805D49, .amo .min .acq .core 29 2 0), (0x2D4F064D, .ldv 6 24 362), (0x00001B51, .vval 27), (0x00000055, .vclr),
      (0x0A800059, .fence .rel .sys), (0x0003205D, .cflush 25), (0x00018061, .cinv 12)] = true := by decide

/-- R84, R94, R231. -/
theorem test_decode_word_unit :
    decodesAll 32 [(0x7A000481, .wld .f32 4 0 61), (0xE394D285, .wst .i32 18 6 5 113), (0x00494989, .wadd .f32 9 10 18),
      (0x01C5218D, .wsub .i32 1 9 17), (0x00A4CD91, .wmul .bf16 13 6 9), (0x01B71495, .wfma .i32 20 24 13),
      (0x01963699, .wmin .i32 22 17 5), (0x00FB119D, .wmax .bf16 17 24 30), (0x108306A1, .wun .exp2 .bf16 6 24),
      (0x0303C2A5, .wcvt .bf16 .f16 2 30), (0x10C062A9, .wcmp .lt .bf16 2 3 16), (0x0049B2AD, .wsel 18 13 18),
      (0x090A62B1, .wred .max .f16 2 2 19), (0x000B2DB5, .wperm 13 25 2), (0x0075B5B9, .wmov .ts .f32 21 13 29),
      (0x0062DCBD, .wq false 28 22 24)] = true := by decide

/-- R94, R127, R129, R161 to R168. -/
theorem test_decode_sync :
    decodesAll 32 [(0x037800C1, .semtas .die 30), (0x01E002C5, .semtry .core 56 2), (0x00FC00C9, .semclr .hart 63),
      (0x000C01CD, .crd 3 1), (0x008F80D1, .cwr 35 28), (0x010000D5, .tbar .core), (0x000360D9, .bexp 0 27),
      (0x040020DD, .barv .module 0 1), (0x053316E1, .bwait .sys 12 22 24), (0x000400E5, .qflush 1),
      (0x00014AE9, .setvl 10 10), (0x0000E3ED, .setvtReg 3 7), (0x10E3D1ED, .setvtImm 0 false 16 true 8 true 14 17)] = true := by decide

/-- R84, R95, R117 to R140. -/
theorem test_decode_control :
    decodesAll 32 [(0x716F3602, .b 7434038), (0x3D32AC06, .jal 12 125333), (0xFAB7010A, .jalr 1 24 16045),
      (0xF0A3120E, .bcc .lt 24 8 1926), (0x4A054012, .loop 0 10 4737), (0xEA5DE416, .lstride 4 15 14999),
      (0x23840042, .ecall 2273), (0x00000046, .ebreak), (0x0000004A, .eret), (0x0000004E, .wfi),
      (0x39D01952, .mfsr 25 925), (0xD6D3A056, .mtsr 29 3437), (0x0001E05A, .tlbinv .va 15), (0x0000005E, .nop),
      (0x00010962, .launch 9 8), (0x000DC066, .signal 14 3), (0x0000006A, .exit), (0x0000006E, .yield)] = true := by decide

/-- R86, R95, R214 to R284. -/
theorem test_decode_engines :
    decodesAll 32 [(0x00022082, .mcfg 17), (0x00470F86, .mma false false false 15 24 17), (0x00FAC48A, .mmas false false true 4 22 30),
      (0x0003008E, .mwait false 24), (0x00000C92, .mprog 12), (0x00000096, .mclr), (0x05B24F9A, .vtow true .i32 15 18 12),
      (0x01D23D9E, .wtov .i32 29 17 20), (0x0C7E81C2, .kins true true 0 1 20 31), (0x008519C6, .klook false 1 25 8 1),
      (0x01FDA0CA, .kacc .add false false 3 0 13 31), (0x000279CE, .kdrain 25 19), (0x000000D2, .kclr),
      (0x04801CD6, .twin false 9 0 28), (0x180014DA, .twtake 48 20), (0x158323DE, .twack 43 3 25),
      (0x000335E2, .kvapp 21 25), (0x00EC28E6, .pgget true 8 1 27), (0x00296AEA, .pgput 10 11 10),
      (0x7195A0EE, .send 227 13 5), (0x018088F2, .recv 3 8 4), (0x720000F6, .lnkwait 228), (0x000221FE, .pfx 2 0 true 0 1)] = true := by decide

/-- R81, R96, R113, R142, R151, R160, R198; the words of 05, 06 and 14 among them. -/
theorem test_decode_long :
    decodesAll 64 [(0x0000000300000403, .movl 4 3), (0xFFFFFFFF00000407, .movh 4 0xFFFFFFFF), (0x000001000000A60B, .addl 6 5 0x100),
      (0x0000082000358E0F, .fshl 14 12 13 true 32 0), (0x00000013001D0913, .fshr 9 8 7 false 0 19),
      (0x0000280500016A17, .bext 10 11 true 32 5), (0x0000023800016A1B, .bins 10 11 8 56),
      (0x00000004000C411F, .sel 1 2 3 4), (0x0000001D360C4123, .cas .d .acq .module 1 2 3 29),
      (0x000000003DA88927, .casv .d .ar .die 9 4 10 0), (0x000000102580C52B, .ldo false .w .acq .die 5 6 16),
      (0xFFFFFFFE1A81282F, .sto .h .rel .sys 8 9 0xFFFFFFFE), (0x8000000000001733, .jl 23 0x80000000),
      (0x000000084000E343, .vld false true .b 0 3 7 8), (0x0000000C9398A447, .vlds true false .h 7 4 5 6 12),
      (0x00000000A11CC44B, .vldx true false .w false 2 4 6 7 0),
      (0x7FFFFFFF4080A44F, .vldff false true .b 1 4 5 0x7FFFFFFF), (0x000000012800A453, .vst false .w true 0 4 5 1),
      (0x000000028198A457, .vsts true .b false 3 4 5 6 2), (0x000000031418A45B, .vstx false .h false true 0 4 5 6 3),
      (0x00000000082D2A5F, .vstb true 0 10 9 11 0), (0x918000002024C863, .vamo .fadd false false false .rlx .die 0 8 6 9)] = true := by decide

/-- R96, R241 to R266; the words of 08 and 15 among them. -/
theorem test_decode_copy :
    decodesAll 64 [(0x00000000091CC583, .cpy ⟨1, 2, 7, 6, 5⟩ false), (0x000000013F8C4183, .cpy ⟨7, 15, 3, 2, 1⟩ true),
      (0x001FFFE9128C4193, .cpys ⟨2, 5, 3, 2, 1⟩ 0xFFFF 9),
      (0x0D6000001A0C4187, .cpyt ⟨3, 4, 3, 2, 1⟩ true true 1 3 0 0 0),
      (0x041F0000000C4187, .cpyt ⟨0, 0, 3, 2, 1⟩ false true 0 0 31 0 0),
      (0x0280FFF1000C4187, .cpyt ⟨0, 0, 3, 2, 1⟩ false false 2 4 0 2047 17),
      (0x06000000348C418B, .cpyo ⟨6, 9, 3, 2, 1⟩ false false .minf 0 0 0),
      (0x3020003F000C418B, .cpyo ⟨0, 0, 3, 2, 1⟩ true true .none 1 1 31),
      (0xE0030009009CC58F, .cpyg ⟨0, 1, 7, 6, 5⟩ 7 false false false 0 true 8 9),
      (0xE3BA00070098A88F, .cpyg ⟨0, 1, 6, 5, 8⟩ 7 false false false 0xEE true 0 7),
      (0x3D68000300F0418F, .cpyg ⟨0, 1, 28, 2, 1⟩ 1 true true true 0x5A false 0 3),
      (0x000000082800E097, .cpwait 5 7 .module false), (0x0000000728000097, .cpwait 5 0 .die true),
      (0x0000000100000D9B, .cpstat 0 13 1)] = true := by decide

/-- Words of the worked programs (03 to 08). -/
theorem test_decode_worked_words :
    decodesAll 32 [(0xFFFC8401, .addi 4 4 (-1)), (0x00086300, .add false 3 3 2), (0xFF80910E, .bcc .ne 4 0 (-2)), (0x0000005E, .nop),
      (0x00008625, .movi 6 4), (0x2F9258ED, .setvtImm 0 true 15 false 4 true 2 24), (0x0D800059, .fence .ar .die),
      (0x999CC549, .amo .fadd .rel .die 5 6 7), (0x000C884D, .ldv 8 4 0), (0x00000951, .vval 9), (0x031400C1, .semtas .die 5),
      (0x031400C9, .semclr .die 5), (0x030949E1, .bwait .die 2 9 10), (0x00A00586, .mma false false true 5 0 8),
      (0x0920C58A, .mmas true true false 5 6 8), (0x00008082, .mcfg 4), (0x0080008E, .mwait true 0), (0x0180E281, .wld .i32 2 7 0),
      (0x001483C2, .kins false false 0 3 4 5), (0x05000352, .mfsr 3 0x050)] = true := by decide

/-- R97: reserved OP values. -/
theorem test_decode_reserved_op :
    [0x7C, 0x29, 0x3D, 0x65, 0x7D, 0xF1, 0xFD, 0x1A, 0x3E, 0x72, 0xA2, 0xFA, 0x37, 0x3F, 0x67, 0x7F, 0x9F,
      0xFF].all (fun w => decodeTableWord 64 w == none) = true := by decide

/-- R84, R85: nonzero reserved fields and reserved codes, of the first word and of EXT. -/
theorem test_decode_reserved_fields :
    [0x01000000, 0x00040060, 0x000C0070, 0x00800078, 0x00200078, 0x100000A8, 0x60000098, 0x60000080, 0x00100045, 0x00040151, 0x00000155,
      0x00000059, 0x08000011, 0x03000049, 0xA0000049, 0x0000015E, 0x00010046, 0x0000160E].all (fun w => decodeTableWord 32 w == none) = true := by
  decide

theorem test_decode_reserved_ext :
    [0x0000100000000000 + 0x0F, 0x0000400000000000 + 0x17, 0x0000002000000000 + 0x1F, 0x0000002000000000 + 0x20000023, 0x0040000000000000 + 0x20000063,
      0x0000000200000000 + 0x83, 0x0000000800000000 + 0x9B, 0x0000001000000000 + 0x97].all (fun w => decodeTableWord 64 w == none) = true := by decide
-- A small machine: hart 0 of VD 1, eight harts to a core, one 64 KiB page of versioned HBM at 0x10000, four lanes in use

/-- A leaf of HBM frame 1: R, W, X, U, A, D, VER. -/
def leaf : Word := 0x101DF
def runs : Strm := { Strm.start 0x10004 0 4 0x10800 with vtype := 0, fetchBuf := [⟨0x10000, 0x00010001 :: List.replicate 15 0x5E⟩] }
def vdOne : Vd := Vd.create 1 ⟨0, 64, 10, 1, 0x1000000, 0x2000000, 0x10800, 0x3000000, 0x30004⟩
def demo : State :=
  { State.reset with
    me := runs, peer := runs
    hart := { Hart.start 0 0 1 1 3 4 true with wregs := Vector.replicate 32 (Vector.replicate 64 0) }
    core := { Core.start with tlb := [⟨1, 0, 1, leaf⟩] }
    verRegs := #v[⟨0, 0x100000, 0x4000000⟩, ⟨0, 0, 0⟩], vds := [{ vdOne with st := .active }] }
/-- The same hart's E-stream. -/
def demoE : State := { demo with isE := true }

def setS (s : State) (l : List (Reg × Word)) : State := { s with me := l.foldl (fun m p => m.setReg p.1 p.2) s.me }
def setQ (s : State) (r : Reg) (l : List QEnt) : State := { s with hart := s.hart.setQ (qIdx r) l }
def setV (s : State) (r : Reg) (w : Nat) (xs : List Nat) : State :=
  { s with hart := (s.hart.putElems r w (xs.zipIdx.map fun p => (p.2, p.1))).setFull true (regsOf r w) }
def setPfx (s : State) (sat : BitVec 2) : State := { s with me := { s.me with pfx := some ⟨0x10004, false, sat, 0⟩ } }
def setMem (s : State) (a n v : Nat) : State := { s with mem := s.mem.wr a n v }

/-- What a next state shows. -/
def shows {α : Type} [DecidableEq α] (o : Host.Outcome State Fault Refusal) (f : State → α) (v : α) : Bool :=
  match o with | .next t => f t == v | _ => false
/-- The registers of the stream, deliveries made. -/
def regOf (r : Reg) (t : State) : Word := t.deliverAll.me.reg r

-- Scalar operands, results and sequencing

theorem witness_OperandsAndResults :
    demo.Ready [0, 5] [] ∧ (setQ demoE 24 [.val 7, .val 8]).Ready [24, 24] [] ∧ (setQ demoE 27 [.val 7]).Ready [5, 27] [] ∧
    (setQ demo 31 [.val 7, .reserved]).Ready [31, 0] [] ∧ (setQ demo 31 [.val 7, .reserved]).hart.q (qIdx 31) = .val 7 :: [.reserved] ∧
    isQ 23 = false ∧ isQ 24 = true ∧ isQ 31 = true := by
  and_intros <;> decide

/-- A body of two slots at slots 3 and 4, with two strides, in its last iteration or not. -/
def looping (left : Word) : State :=
  { demo with me := { (runs.setAct 5 (some ⟨0x1000C, 0x10010, left, 0, .u, [(4, 8), (5, -1)]⟩)) with pc := 0x10010 } }

theorem witness_SequencingResults :
    demo.me.lastOfBody (demo.lastSlot 1) = false ∧ demo.me.lastOfBody (demo.lastSlot 2) = false := by decide

theorem witness_SequencingResults_loop (left : Word) :
    ∃ a, (looping left).me.active 5 = some a ∧ a.last = (looping left).lastSlot 1 ∧ a.left = left ∧
      (∀ j, j ≠ 5 → ∀ b, (looping left).me.active j = some b → b.last ≠ (looping left).lastSlot 1) ∧
      (∀ p ∈ a.strides, p.1 ≠ 0 ∧ isQ p.1 = false ∧ (looping left).me.scoreboarded p.1 = false) ∧ (a.strides.map (·.1)).Nodup := by
  refine ⟨_, rfl, rfl, rfl, fun j hj b hb => ?_, fun p hp => ?_, show [(4 : Reg), 5].Nodup by decide⟩
  · have h : (looping left).me.active j = none := by
      fin_cases j <;> first | rfl | exact absurd rfl hj
    rw [h] at hb; cases hb
  · have h : p = (4, 8) ∨ p = (5, -1) := by simpa using hp
    rcases h with rfl | rfl <;> exact ⟨by decide, rfl, rfl⟩

/-- Two levels whose bodies end at slot 4, with these counts left, the first's stride on s4, the deeper's on s5. -/
def nested (left left2 : Word) : State :=
  { demo with me := { ((runs.setAct 2 (some ⟨0x10008, 0x10010, left, 0, .u, [(4, 8)]⟩)).setAct 5
      (some ⟨0x1000C, 0x10010, left2, 0, .u, [(5, -1)]⟩)) with pc := 0x10010 } }

theorem witness_SequencingResults_nested :
    ∃ a b, (nested 1 1).me.active 2 = some a ∧ (nested 1 1).me.active 5 = some b ∧ a.left = 1 ∧ b.left = 1 ∧
      a.last = (nested 1 1).lastSlot 1 ∧ b.last = (nested 1 1).lastSlot 1 ∧
      ∀ k : Fin 6, k ≠ 2 → k ≠ 5 → (nested 1 1).me.active k = none :=
  ⟨_, _, rfl, rfl, rfl, rfl, by decide, by decide, by decide⟩

-- R123: the deeper level first
theorem test_nested_loops :
    let at_ (t : State) := (t.me.pc, (t.me.active 2).map (·.left), (t.me.active 5).map (·.left), t.me.reg 4, t.me.reg 5)
    shows (exec .nop (nested 2 2)) at_ (0x1000C, some 2, some 1, 0, -1) = true ∧
    shows (exec .nop (nested 2 1)) at_ (0x10008, some 1, none, 8, -1) = true ∧
    shows (exec .nop (nested 1 1)) at_ (0x10014, none, none, 8, -1) = true := by and_intros <;> decide

theorem witness_Scalar :
    demo.Issues .both 1 [23, 0] [0] ∧ demo.Issues .both 1 [0, 23] [24] ∧ demo.Issues .both 1 [23] [23] ∧ demo.Ready [] [0] ∧ demo.pfxSat = 0 ∧
    (setPfx demo 1).pfxSat = 1 ∧ (setPfx demo 1).Issues .both 1 [23, 0] [4] ∧ (setPfx demo 2).pfxSat = 2 ∧
    (setPfx demo 2).Issues .both 1 [23] [4] ∧ demo.Issues .both 1 [23] [24] ∧
    demo.Ready [] [24] := by
  and_intros <;> decide

theorem witness_Wide :
    demo.Issues .both 2 [] [0] ∧ demo.Issues .both 2 [] [24] ∧ demo.Issues .both 2 [23] [0] ∧ demo.Issues .both 2 [23] [23] ∧
    demo.Issues .both 2 [4, 0, 23] [23] ∧ demo.Issues .both 2 [4, 23] [23] ∧ demo.Issues .both 2 [4, 0] [0] ∧
    1 ≤ (64 : BitVec 7).toNat ∧ (0 : BitVec 6).toNat + (64 : BitVec 7).toNat ≤ 64 ∧ (63 : BitVec 6).toNat + (1 : BitVec 7).toNat ≤ 64 := by
  and_intros <;> decide

theorem witness_ScalarFrame :
    scalarShape (.bins 4 5 1 63) = some (2, [5, 4], 4) ∧ demo.Issues .both 2 [5, 4] [4] ∧
    scalarShape (.add true 24 31 31) = some (1, [31, 31], 24) ∧ (setQ demo 31 [.val 7, .val 8]).Issues .both 1 [31, 31] [24] := by
  and_intros <;> decide

-- Expected values by hand from R107 to R114
theorem test_scalar_results :
    let s := setS demo [(1, 0x80000000), (2, 3), (3, -7), (4, 0x8000000000000000), (5, -1)]
    ([(.add true 8 1 1, 0), (.sub false 8 2 3, 10), (.and false 8 3 2, 1), (.or false 8 2 1, 0x80000003), (.xor false 8 3 5, 6),
      (.andn false 8 5 2, -4), (.shl true 8 2 3, 0x6000000), (.shr false 8 5 4, -1), (.sar true 8 1 2, 0xFFFFFFFFF0000000),
      (.rol true 8 1 2, 4), (.mul false 8 3 2, -21), (.mulh false 8 3 2, -1), (.mulhu false 8 5 5, -2), (.div false 8 3 2, -2),
      (.div false 8 4 5, 0x8000000000000000), (.divu false 8 2 0, -1), (.rem false 8 3 2, -1), (.remu true 8 1 0, 0xFFFFFFFF80000000)] :
      List (Instr × Word)).all (fun p => shows (exec p.1 s) (regOf 8) p.2) = true := by decide

theorem test_scalar_more :
    let s := setS demo [(1, 0x80000000), (2, 3), (3, -7), (4, 0x8000000000000000), (5, -1)]
    ([(.min false 8 3 2, -7), (.max true 8 1 2, 3), (.minu false 8 3 2, 3), (.maxu false 8 3 2, -7), (.slt true 8 1 2, 1),
      (.sltu false 8 3 2, 0), (.seq false 8 2 2, 1), (.clz true 8 2, 30), (.clz false 8 0, 64), (.ctz false 8 4, 63), (.ctz true 8 4, 32),
      (.popc false 8 5, 64), (.bswap true 8 2, 0x3000000), (.bswap false 8 2, 0x0300000000000000), (.sext .b 8 5, -1), (.zext .h 8 5, 0xFFFF),
      (.sext .w 8 1, 0xFFFFFFFF80000000)] : List (Instr × Word)).all (fun p => shows (exec p.1 s) (regOf 8) p.2) = true := by decide

theorem test_immediates :
    let s := setS demo [(2, 3), (3, -7)]
    ([(.addi 8 2 (-1), 2), (.andi 8 3 0xFF, 0xF9), (.ori 8 2 (-8), -5), (.xori 8 2 1, 2), (.shli 8 2 63, 0x8000000000000000), (.shri 8 3 60, 15),
      (.sari 8 3 1, -4), (.slti 8 3 (-6), 1), (.sltiu 8 2 (-1), 1), (.movi 8 4, 4), (.movl 8 0xC0300000, 0xFFFFFFFFC0300000),
      (.movh 3 1, 0x1FFFFFFF9), (.addl 8 2 0x100, 0x103), (.fshl 8 2 3 true 32 0, 0x3FFFFFFFF), (.fshr 8 2 3 false 0 0, -7),
      (.bext 8 3 true 4 0, -7), (.bext 8 3 false 8 60, 15), (.bins 2 3 4 60, 0x9000000000000003), (.sel 8 2 3 0, -7), (.sel 8 2 3 2, 3)] :
      List (Instr × Word)).all (fun p => shows (exec p.1 s) (regOf (match p.1 with | .movh .. => 3 | .bins .. => 2 | _ => 8)) p.2) = true := by
  decide

theorem test_saturation_and_queues :
    shows (exec (.addi 8 4 1) (setPfx (setS demo [(4, 0x7FFFFFFFFFFFFFFF)]) 1)) (regOf 8) 0x7FFFFFFFFFFFFFFF = true ∧
    shows (exec (.sub false 8 0 4) (setPfx (setS demo [(4, 1)]) 2)) (regOf 8) 0 = true ∧
    shows (exec (.sub false 8 31 31) (setQ demo 31 [.val 9, .val 4, .val 1])) (fun t => (regOf 8 t, t.hart.q 7)) (5, [.val 1]) = true ∧
    shows (exec (.add false 24 0 0) (setQ demo 24 (List.replicate 16 (.val 0)))) (fun t => t.me.wait) (some (.queue true 24)) = true ∧
    shows (exec (.qstat 8 7) (setQ demo 31 [.val 9, .reserved])) (regOf 8) 1 = true ∧
    shows (exec (.add false 8 24 0) demo) (fun t => (t.me.tcause, t.me.pc, t.me.mode)) (2, 0x10804, .s) = true := by decide

-- Memory

/-- A translation, or an access found, that answers and meets `p`. -/
def okAnd (r : Except TrapInfo (Nat × Word × State)) (p : Nat → Word → State → Bool) : Bool :=
  match r with | .ok (pa, pte, s) => p pa pte s | .error _ => false
def chkAnd {α : Type} (r : Chk α) (p : α → Bool) : Bool :=
  match r with | .ok x => p x | _ => false

/-- The demo VD's page tables map 0x30000 and 0x40000: three pointers, a 64 KiB leaf not yet accessed, and a compressed one. -/
def tablesOn (s : State) (n : Nat) : State :=
  [(0x1000000, 0x1010001), (0x1010000, 0x1020001), (0x1020000, 0x1030001), (0x1030018, 0x2001F), (0x1030020, 0x2021F)].take n
    |>.foldl (fun s p => setMem s p.1 8 p.2) s
def tables (n : Nat) : State := tablesOn demo n

theorem witness_TranslationResults_walk :
    demo.vds.find? (fun v => v.id = demo.hart.vd.toNat) = some { vdOne with st := .active } ∧ demo.tlbFind demo.hart.vd.toNat 0x30000 = none ∧
    (∀ n ∈ [0, 1, 2, 3, 5], (tables n).tlbFind 1 0x30000 = none) ∧
    pteV (BitVec.ofNat 64 ((tables 0).mem.rd 0x1000000 8)) = false ∧
    (∀ lvl a, (lvl, a) ∈ [(3, 0x1000000), (2, 0x1010000), (1, 0x1020000)] →
      let e := BitVec.ofNat 64 ((tables 3).mem.rd a 8)
      pteV e = true ∧ pteMalformed lvl e = false ∧ ptePointer e = true) ∧
    pteV (BitVec.ofNat 64 ((tables 1).mem.rd 0x1010000 8)) = false ∧ pteV (BitVec.ofNat 64 ((tables 2).mem.rd 0x1020000 8)) = false ∧
    pteV (BitVec.ofNat 64 ((tables 3).mem.rd 0x1030018 8)) = false := by
  refine ⟨rfl, by decide, by decide, by decide, fun lvl a h => ?_, by decide, by decide, by decide⟩
  simp only [List.mem_cons, Prod.mk.injEq, List.not_mem_nil, or_false] at h
  rcases h with ⟨rfl, rfl⟩ | ⟨rfl, rfl⟩ | ⟨rfl, rfl⟩ <;> decide

theorem witness_TranslationResults_leaf :
    (let e := BitVec.ofNat 64 ((tables 5).mem.rd 0x1030018 8)
     pteV e = true ∧ pteMalformed 0 e = false ∧ ptePointer e = false ∧ permits e .atomic true = true ∧ pteCmp e = false ∧
       (tables 5).reachable (pteBase e + 0x3FFFF % 65536) e = true) ∧
    (let e := BitVec.ofNat 64 ((tables 5).mem.rd 0x1030020 8)
     pteV e = true ∧ pteMalformed 0 e = false ∧ ptePointer e = false ∧ permits e .read true = true ∧ pteCmp e = true ∧
       (tables 5).reachable (pteBase e + 0x40008 % 65536) e = true ∧ permits (e &&& ~~~0x10) .read true = false) ∧
    -- a leaf to the frame of the side slots
    (let s := setMem (tables 3) 0x1030018 8 0x400001F
     let e := BitVec.ofNat 64 (s.mem.rd 0x1030018 8)
     pteV e = true ∧ pteMalformed 0 e = false ∧ ptePointer e = false ∧ permits e .read true = true ∧ s.reachable (pteBase e + 0x30008 % 65536) e = false) ∧
    okAnd ((tables 5).translate 0x30008 .write true false) (fun _ _ _ => true) = true := by
  refine ⟨by decide, by decide, by decide, by decide +kernel⟩

theorem witness_TranslationResults_tlbinv :
    demo.Fits .both 1 ∧ demo.me.mode = .u ∧ popOk demo.isE 4 = true ∧ popOk demo.isE 24 = false ∧
    (let s := { demo with me := { runs with mode := .s } }; s.Issues .both 1 [4] [] ∧ s.me.mode = .s ∧ s.Issues .both 1 [0] []) := by
  and_intros <;> decide

theorem test_translate_sets_accessed_and_dirty :
    (match (tables 5).translate 0x30008 .write true false with
     | .ok (pa, pte, s1) => decide (pa = 0x20008 ∧ pte = 0x2001F ∧ s1.mem.rd 0x1030018 8 = 0x200DF) | .error _ => false) = true ∧
    (match (tables 3).translate 0x30008 .read true false with
     | .error t => decide (t = { TrapInfo.addr 0x07 0x30008 .read with wlvl := 1 }) | .ok _ => false) = true ∧
    (match (tables 5).translate 0x40008 .read true false with | .error t => decide (t.cause = 0x09) | .ok _ => false) = true ∧
    (match demo.translate (2 ^ 57) .read true false with | .error t => decide (t.cause = 0x08) | .ok _ => false) = true := by decide

/-- A dirty pinned line 0x210 and a clean one 0x211 in the core's cache. -/
def cachedDemo (pin : Option Nat) : State :=
  { demo with core := { demo.core with dcache := [⟨0x210, List.replicate 128 5, true :: List.replicate 127 false, pin, false⟩,
      ⟨0x211, List.replicate 128 0, List.replicate 128 false, none, false⟩] } }

theorem witness_LocationResults :
    (cachedDemo none).LinesOnce ∧ (Loc.cached (0x210 * 128 + 124)).inLine 4 ∧ (Loc.home 0).inLine 128 ∧ (Loc.scratch 16380).inLine 8 ∧
    0x1087F % 128 + 1 ≤ 128 := by
  refine ⟨by decide, ?_, ?_, trivial, by decide⟩ <;> (unfold Loc.inLine; decide)

/-- Another core has pinned these lines. -/
def pinnedBy (s : State) (lines : List Nat) : State :=
  { s with cores := s.cores ++ [(1, { Core.start with dcache := lines.map fun l => ⟨l, List.replicate 128 0, List.replicate 128 false, some 0, false⟩ })] }

theorem sound_of_none {s : State} (h : s.hart.scratchBad = []) (l : Loc) (n : Nat) : s.Sound l n :=
  fun _ _ w hw => absurd hw (by simp [h])

/-- A scratchpad word that a location's read meets is in error. -/
theorem witness_LocationResults_error :
    { demo with hart := { demo.hart with scratchBad := [3] } }.hart.scratchBad = [3] ∧ 28 < 8 * 3 + 8 ∧ 8 * 3 < 28 + 4 ∧ demo.Sound (.scratch 28) 4 :=
  ⟨rfl, by decide, by decide, sound_of_none rfl _ _⟩

theorem witness_CoherenceOrderResults : (cachedDemo none).LinesOnce ∧ (cachedDemo (some 0)).LinesOnce ∧ demo.LinesOnce := by decide

theorem witness_ScalarAccessChecks :
    (demoE.isE = true ∧ 0xFFFFFFFEFFFFFFFF < 0xFFFFFFFF00000000) ∧ ¬ (demo.isE = true) ∧ 0x1003 % 4 ≠ 0 ∧
    (let a := 0xFFFFFFFF00003FFC; a % 4 = 0 ∧ a - 0xFFFFFFFF00000000 + 4 ≤ demo.hart.scratchSize ∧ 0xFFFFFFFF00000000 ≤ a) ∧
    (let a := 0xFFFFFFFF00004000; a % 4 = 0 ∧ demo.hart.scratchSize < a - 0xFFFFFFFF00000000 + 4) ∧
    (let a := 0xFFFFFFFE0007FFFC; a % 4 = 0 ∧ 0xFFFFFFFE00000000 ≤ a ∧ a < 0xFFFFFFFE00080000) ∧
    (let a := 0x10FFC; demo.interlocked a 4 true = false ∧ demo.walkWaits a .write demo.user = none ∧
      okAnd (demo.translate a .write demo.user false) (fun pa pte s1 => (s1.controlOf pa pte).isNone && pteMt pte != 3 && !pteCmp pte &&
        (s1.cached (pa / 128)).isNone && (s1.mustWait pa 4).isNone && (s1.setWaits (pa / 128)).isNone) = true) ∧
    okAnd ((cachedDemo none).translate 0x10800 .write true false) (fun pa _ s1 => (s1.cached (pa / 128)).isSome) = true ∧
    okAnd ((pinnedBy demo [0x202]).translate 0x10100 .write true false) (fun pa _ s1 => s1.mustWait pa 4 == some 0x202) = true ∧
    (pinnedBy (tables 5) [0x20000]).walkWaits 0x30000 .read true = some 0x20000 ∧
    (∃ t, demo.translate 0x20000 .read demo.user false = .error t) := by
  refine ⟨by decide, by decide, by decide, by decide, by decide, by decide, ⟨by decide, by decide +kernel, by decide +kernel⟩, by decide +kernel,
    by decide +kernel, by decide +kernel, _, rfl⟩

def atPage : State := setS demo [(5, 0x10100), (6, -1), (7, 0xFFFFFFFF00000010), (8, 0x20000), (9, 0x10101)]
def poisonedPage : State := { atPage with poison := [0x10100 / 128] }

theorem witness_LoadResults :
    atPage.Issues .both 1 [5] [24] ∧ atPage.Issues .both 1 [8] [0] ∧ atPage.Issues .both 2 [5] [4] ∧
    (∃ l pte s1, (atPage.popped [5]).findLoc 0x10100 8 .read true = .ok (l, pte, s1) ∧ (s1.settleLoc l 8).locPoisoned l 8 = false) ∧
    (∃ l pte s1, (poisonedPage.popped [5]).findLoc 0x10100 8 .read true = .ok (l, pte, s1) ∧ (s1.settleLoc l 8).locPoisoned l 8 = true) ∧
    (∃ t, (atPage.popped [8]).findLoc 0x20000 4 .read true = .trap t) ∧ atPage.orderWaits false true .die = none ∧
    chkAnd ((atPage.popped [5]).findLoc 0x10100 1 .read false) (fun x => !(x.2.2.settleLoc x.1 1).locPoisoned x.1 1) = true := by
  refine ⟨by decide +kernel, by decide +kernel, by decide +kernel, ⟨_, _, _, rfl, by decide +kernel⟩, ⟨_, _, _, rfl, by decide +kernel⟩, ⟨_, rfl⟩, by decide +kernel,
    by decide +kernel⟩

/-- The hart has a copy command queued on channel 0. -/
def copying : State :=
  { atPage with core := { atPage.core with chans := atPage.core.chans.set 0 { Channel.idle with
      queue := [{ id := 0, hart := 0, user := true, kind := .cpy none, dst := 0x10200, src := 0x10300, len := 8, span := 8, tb := 1, phase := false,
                  started := true, pos := 0, counted := 8, more := false, credited := 0, got := [], gj := 0, gx := 0, gt := 0, before := none }] } } }

/-- The line of s5 is in the core's cache, and pinned by another core. -/
def pinnedCopy : State :=
  pinnedBy { atPage with core := { atPage.core with dcache := [⟨0x202, List.replicate 128 0, List.replicate 128 false, none, false⟩] } } [0x202]

theorem witness_StoreResults :
    atPage.Issues .both 1 [5, 6] [] ∧ atPage.Issues .both 2 [5, 6] [] ∧ copying.Issues .both 2 [5, 6] [] ∧ copying.copiesOutstanding = true ∧
    (∃ t, (atPage.popped [9, 6]).findLoc 0x10101 2 .write true = .trap t) ∧ atPage.orderWaits true false .die = none ∧
    (∃ l pte s1, (atPage.popped [5, 6]).findLoc 0x10100 8 .write true = .ok (l, pte, s1) ∧ s1.pinWaits l = none) ∧
    chkAnd ((copying.popped [5, 6]).findLoc 0x10100 8 .write false) (fun x => (x.2.2.pinWaits x.1).isNone) = true ∧
    copying.orderWaits true false .die = some .channel ∧
    pinnedCopy.Issues .both 2 [5, 6] [] ∧
    (∃ l pte s1, (pinnedCopy.popped [5, 6]).findLoc 0x10100 8 .write true = .ok (l, pte, s1) ∧ s1.pinWaits l = some 0x202) := by
  refine ⟨by decide +kernel, by decide +kernel, by decide +kernel, by decide +kernel, ⟨_, rfl⟩, by decide +kernel, ⟨_, _, _, rfl, by decide +kernel⟩,
    by decide +kernel, by decide +kernel, by decide +kernel, ⟨_, _, _, rfl, by decide +kernel⟩⟩

theorem witness_MemoryFrame :
    (∃ l pte s1, (atPage.popped [5]).findLoc 0x10100 8 .read true = .ok (l, pte, s1) ∧ (s1.settleLoc l 8).locPoisoned l 8 = false ∧
      s1.LinesOnce ∧ l.inLine 8 ∧ s1.Sound l 8) ∧
    atPage.orderWaits false true .die = none ∧ atPage.orderWaits true false .die = none ∧
    (∃ l pte s1, (atPage.popped [7, 6]).findLoc 0xFFFFFFFF00000010 8 .write true = .ok (l, pte, s1) ∧ s1.pinWaits l = none ∧ s1.LinesOnce ∧
      l.inLine 8) := by
  refine ⟨⟨_, _, _, rfl, by decide +kernel, by decide, ?_, sound_of_none rfl _ _⟩, by decide +kernel, by decide +kernel, _, _, _, rfl, rfl, by decide, trivial⟩
  show 0x10100 % 128 + 8 ≤ 128; decide

theorem witness_FenceAndCacheResults :
    demo.Fits .both 1 ∧ relOf .ar = true ∧ acqOf .ar = true ∧ copying.copiesOutstanding = true ∧ copying.copiesReading = true ∧
    demo.copiesReading = false ∧ demo.opsUnread = false ∧ demo.orderWaits true true .die = none ∧ copying.orderWaits true false .die = some .channel ∧
    demo.Issues .aOnly 1 [5] [] ∧ atPage.walkWaits 0x10100 .read atPage.user = none ∧
    okAnd ((atPage.popped [5]).translate 0x10100 .read atPage.user true) (fun pa pte s2 => pteMt pte != 3 && !pteCmp pte && decide s2.LinesOnce &&
      (s2.mustWait pa 1).isNone) ∧
    okAnd ((tables 5).translate 0x40000 .read true true) (fun _ pte _ => pteCmp pte) := by
  and_intros <;> decide +kernel

theorem witness_AtomicResults :
    atPage.Issues .aOnly 1 [5, 6] [4] ∧ atPage.Issues .aOnly 2 [5, 6, 0] [4] ∧
    (let p := atPage.popped [5, 6]
     0x10100 % 8 = 0 ∧ p.interlocked 0x10100 8 true = false ∧ p.walkWaits 0x10100 .atomic atPage.user = none ∧
       atPage.orderWaits true true .die = none ∧ ∀ b, okAnd (p.translate 0x10100 .atomic atPage.user false) (fun pa pte s1 => (s1.controlOf pa pte).isNone &&
         chkAnd ((s1.release .die).atomicLoc pa b 8) (fun x => !(x.2.settleLoc x.1 8).poisoned pa 8) && decide (pteMt pte ≤ 1)) = true) := by
  and_intros <;> decide +kernel

/-- One line in the validate set, or the set full. -/
def validating (n : Nat) : State :=
  { atPage with hart := { atPage.hart with vset := (List.range n).map fun i => (0x300 + i, (0 : BitVec 48)) } }

theorem witness_VersionResults :
    atPage.Issues .aOnly 1 [5] [4] ∧ atPage.Issues .aOnly 1 [] [4] ∧ atPage.me.pend = [] ∧ demo.Fits .aOnly 1 ∧ atPage.Issues .aOnly 2 [5, 6, 0] [4] ∧
    (∀ n ∈ [0, 63, 64], ∃ pa s2, ((validating n).popped [5]).versionedLoc 0x10100 8 .read true = .ok (pa, s2) ∧
      (s2.homeRead pa 8).2.poisoned pa 8 = false ∧ (s2.homeRead pa 8).2.slotError (pa / 128) = false ∧ s2.hart.vset.length = n) ∧
    (∃ pa s2, (poisonedPage.popped [5]).versionedLoc 0x10100 8 .read true = .ok (pa, s2) ∧ (s2.homeRead pa 8).2.poisoned pa 8 = true) ∧
    (∃ pa s2, (atPage.popped [5, 6, 0]).versionedLoc 0x10100 8 .atomic true = .ok (pa, s2) ∧
      ((s2.release .die).beforeHome pa 8).poisoned pa 8 = false ∧ ((s2.release .die).beforeHome pa 8).slotError (pa / 128) = false) ∧
    atPage.orderWaits true true .die = none ∧ (∀ x ∈ (validating 1).hart.vset, (validating 1).mustWait (x.1 * 128) 1 = none) ∧
    (∀ x ∈ (validating 2).hart.vset, ∀ y ∈ (validating 2).hart.vset, x.1 ≠ y.1 →
      (validating 2).sideSlot (x.1 * 128) = none ∨ (validating 2).sideSlot (x.1 * 128) ≠ (validating 2).sideSlot (y.1 * 128)) ∧
    (-1 : Word).getLsbD 63 = true ∧ (0 : Word).toNat % 2 ^ 48 = (atPage.version 0x202).toNat := by
  refine ⟨by decide, by decide, rfl, by decide, by decide, fun n h => ?_, ⟨_, _, rfl, by decide +kernel⟩, ⟨_, _, rfl, by decide +kernel,
    by decide +kernel⟩, by decide +kernel, by decide +kernel, by decide +kernel, by decide, by decide +kernel⟩
  simp only [List.mem_cons, List.not_mem_nil, or_false] at h
  rcases h with rfl | rfl | rfl <;> exact ⟨_, _, rfl, by decide +kernel, by decide +kernel, by decide +kernel⟩

theorem witness_VersionResults_raise :
    ([0] : List Byte) ≠ [] ∧ 127 % 128 + ([0] : List Byte).length ≤ 128 ∧ demo.versioned (0xFFFFF / 128 * 128) = true ∧
    demo.versioned (0x100000 / 128 * 128) = false ∧ demo.sideSlot (0x203 * 128) ≠ demo.sideSlot (0x202 * 128) := by decide

-- Single accesses (R142 to R160); the version of a versioned line counts its writes at the home
theorem test_memory :
    let s := setMem atPage 0x10100 8 0xFEDCBA9876543210
    ([(.ld false .b 8 5 7, 0xFFFFFFFFFFFFFFFE), (.ld true .h 8 5 3, 0xFEDC), (.ld false .w 8 5 1, 0xFFFFFFFFFEDCBA98), (.ld false .d 8 5 0, 0xFEDCBA9876543210),
      (.ldo true .b .acq .die 8 5 0xFFFFFFFF, 0), (.ldo true .w .rlx .hart 8 5 0, 0x76543210), (.amo .swap .rlx .die 8 5 6, 0xFEDCBA9876543210),
      (.cas .w .ar .die 8 5 6 0, 0x76543210), (.ldv 8 5 0, 0xFEDCBA9876543210), (.vval 8, 1)] :
      List (Instr × Word)).all (fun p => shows (exec p.1 s) (regOf 8) p.2) = true := by decide

theorem test_stores :
    shows (exec (.st .h 6 5 1) atPage) (fun t => (t.mem.rd 0x10100 8, t.cacheByte 0x10102, t.cacheByte 0x10104)) (0, 0xFF, 0) = true ∧
    shows (exec (.sto .w .rel .die 6 5 4) atPage) (fun t => (t.mem.rd 0x10100 8, t.version 0x202)) (0xFFFFFFFF00000000, 1) = true ∧
    shows (exec (.st .d 6 7 1) atPage) (fun t => t.hart.scratch.rd 0x18 8) (2 ^ 64 - 1) = true ∧
    shows (exec (.amo .add .rel .die 8 5 6) (setMem atPage 0x10100 8 3)) (fun t => (t.mem.rd 0x10100 8, regOf 8 t)) (2, 3) = true ∧
    shows (exec (.cas .d .rlx .die 8 5 0 6) atPage) (fun t => (t.mem.rd 0x10100 8, regOf 8 t)) (2 ^ 64 - 1, 0) = true ∧
    shows (exec (.casv .d .rlx .die 8 5 0 6) atPage) (fun t => (t.mem.rd 0x10100 8, regOf 8 t)) (2 ^ 64 - 1, 2 ^ 63 + 1) = true ∧
    shows (exec (.ld false .d 8 8 0) atPage) (fun t => (t.me.tcause, t.me.tval, t.me.tpc)) (0x07, 0x20000, 0x10004) = true ∧
    shows (exec (.ld false .d 8 9 0) atPage) (fun t => t.me.tcause) 0x06 = true := by decide +kernel

theorem test_fence_and_cache :
    shows (exec (.fence .ar .die) (cachedDemo none)) (fun t => (t.mem.get 0x10800, t.core.dcache)) (5, []) = true ∧
    shows (exec (.cflush 5) (setS (cachedDemo none) [(5, 0x10800)])) (fun t => (t.mem.get 0x10800, t.core.dcache.length)) (5, 2) = true ∧
    shows (exec (.cinv 5) (setS (cachedDemo none) [(5, 0x10800)])) (fun t => (t.mem.get 0x10800, t.core.dcache.length)) (5, 1) = true ∧
    shows (exec .vclr (validating 3)) (fun t => t.hart.vset) [] = true := by decide +kernel

-- Control and system

/-- A line at 0x10040 whose slot 1 is a target, in the fetch buffer or in memory. -/
def targets : FetchLine := ⟨0x10040, 0x15010001 :: List.replicate 15 0x5E⟩
def branchy (held : Bool) : State :=
  let s := setS demo [(4, 0x10044), (5, 7), (6, 0x10045), (7, 0x100000000000000), (8, 0x10080), (9, 0x10048)]
  if held then { s with me := { s.me with fetchBuf := s.me.fetchBuf ++ [targets] } } else setMem s 0x10040 64 0x0000005E15010001

theorem witness_BranchResults :
    (branchy true).Issues .both 1 [] [23] ∧ (branchy true).Issues .both 1 [4] [0] ∧ (branchy true).Issues .both 2 [] [24] ∧
    (branchy true).Issues .both 1 [5, 0] [] ∧
    (0x10044 : Word).toNat % 4 = 0 ∧ (0x10044 : Word).toNat < 2 ^ 56 ∧ (0x10044 : Word).toNat % 64 ≠ 0 ∧ (0x1007C : Word).toNat % 64 ≠ 0 ∧
    ((branchy true).me.line? 0x10044).isSome = true ∧ ((branchy true).me.line? 0x1007C).isSome = true ∧
    (branchy true).me.isTarget 0x10044 = true ∧ (branchy true).me.isTarget 0x1007C = false ∧
    ((branchy false).me.line? 0x10044).isNone = true ∧
    chkAnd ((branchy false).readRaw 0x10044) (fun r => match r.1 with
      | .line l => headerOk l.header && (r.2.keepLine l).me.isTarget 0x10044 | _ => false) = true ∧
    (match (branchy false).readRaw 0x20044 with | .trap _ => true | _ => false) = true ∧
    -- a line with no header, a line in error: the branch goes, and the fetch at its target traps
    chkAnd ((branchy false).readRaw 0x100C4) (fun r => match r.1 with | .line l => !headerOk l.header | _ => false) = true ∧
    chkAnd ({ branchy false with poison := [0x10044 / 128] }.readRaw 0x10044) (fun r => match r.1 with | .poisoned _ => true | _ => false) = true ∧
    ((5 : Reg) = 5 ∧ (0 : Word) ≠ (branchy true).arg [5, 0] 0) := by
  and_intros <;> decide +kernel

theorem witness_BranchResults_traps :
    (branchy true).Issues .both 1 [4] [9] ∧ (0x10045 : Word).toNat % 4 ≠ 0 ∧
    (¬ ((0x100000000000000 : Word).toNat < 2 ^ 56 ∨ 2 ^ 64 - 2 ^ 56 ≤ (0x100000000000000 : Word).toNat)) ∧ (0x10080 : Word).toNat % 64 = 0 ∧
    ((branchy true).me.line? 0x10048).isSome = true ∧ (branchy true).me.isTarget 0x10048 = false ∧
    (branchy false).me.line? 0x10048 = none ∧
    chkAnd ((branchy false).readRaw 0x10048) (fun r => match r.1 with
      | .line l => headerOk l.header && !(r.2.keepLine l).me.isTarget 0x10048 | _ => false) = true ∧
    -- the four other forms: b, jal and bcc by a slot offset, jl by its 32 bits
    0x10004 + 4 * (15 : BitVec 24).signExtend 64 = (0x10040 : Word) ∧ 0x10004 + 4 * (17 : BitVec 19).signExtend 64 = (0x10048 : Word) ∧
    0x10004 + 4 * (17 : BitVec 11).signExtend 64 = (0x10048 : Word) ∧ 0x10004 + 4 * (31 : W32).signExtend 64 = (0x10080 : Word) := by
  and_intros <;> decide +kernel

theorem test_branches :
    let at_ (t : State) := (t.me.pc, t.me.reg 10)
    shows (exec (.b 16) (branchy true)) at_ (0x10044, 0) = true ∧ shows (exec (.jal 10 16) (branchy false)) at_ (0x10044, 0x10008) = true ∧
    shows (exec (.jalr 10 4 0) (branchy true)) at_ (0x10044, 0x10008) = true ∧ shows (exec (.jl 10 16) (branchy true)) at_ (0x10044, 0x1000C) = true ∧
    shows (exec (.bcc .ne 5 0 16) (branchy true)) at_ (0x10044, 0) = true ∧ shows (exec (.bcc .lt 5 0 16) (branchy true)) at_ (0x10008, 0) = true ∧
    shows (exec (.jalr 10 6 0) (branchy true)) (fun t => (t.me.tcause, t.me.tval, t.me.reg 10)) (0x06, 0x10045, 0) = true ∧
    shows (exec (.jalr 10 9 0) (branchy true)) (fun t => (t.me.tcause, t.me.tval)) (0x03, 0x10048) = true := by
  and_intros <;> decide +kernel

/-- A level whose body is slots 1 to 4, `left` iterations of it to come. -/
def enclosed (left : Word) : State :=
  { demo with me := { (runs.setAct 0 (some ⟨0x10004, 0x10010, left, 0, .u, [(6, 2)]⟩)) with pc := 0x10004 } }
def inS (s : State) : Strm := { s.me with mode := .s }

theorem witness_LoopResults :
    (2 : BitVec 3).toNat < 6 ∧ (5 : BitVec 3).toNat < 6 ∧ demo.Issues .both 1 [4] [] ∧ demo.Fits .both 1 ∧
    (∀ j : Fin 6, demo.me.active j = none) ∧ (setS demo [(4, -1)]).arg [4] 0 ≠ 0 ∧ demo.arg [4] 0 = 0 ∧
    ((looping 1).me.active 5).isSome = true ∧ (looping 1).Issues .both 1 [4] [] ∧ isQ 24 = true ∧
    -- a count of 0 whose body ends at the last slot of an enclosing level
    (enclosed 2).Issues .both 1 [4] [] ∧ ((enclosed 2).me.active 0).map (·.last) = some (slotsOn 0x10008 2) ∧
    (∀ k : Fin 6, k ≠ 0 → (enclosed 2).me.active k = none) ∧
    -- a level recorded in the other mode
    ((inS (enclosed 2)).loops[0].act).isSome = true ∧ (inS (enclosed 2)).active 0 = none := by
  and_intros <;> decide

-- The worked loop of 04: lstride 0x0020E016, loop 0x0010C012
theorem test_loop :
    shows (exec (.lstride 0 7 8) demo) (fun t => (t.me.loops[0]).pairs) [(7, 8)] = true ∧
    shows (exec (.loop 5 4 3) (setS demo [(4, 2)])) (fun t => (t.me.pc, (t.me.active 5).map (·.last))) (0x10008, some 0x10010) = true ∧
    shows (exec (.loop 5 4 3) demo) (fun t => t.me.pc) 0x10014 = true ∧
    shows (exec (.loop 4 0 1) (looping 1)) (fun t => t.me.tcause) 0x01 = true ∧
    shows (exec (.loop 5 4 3) (enclosed 2)) (fun t => (t.me.pc, (t.me.active 0).map (·.left), t.me.reg 6)) (0x10004, some 1, 2) = true ∧
    shows (exec (.loop 5 4 3) (enclosed 1)) (fun t => (t.me.pc, (t.me.active 0).isSome, t.me.reg 6)) (0x10014, false, 2) = true ∧
    shows (exec .nop (looping 2)) (fun t => (t.me.pc, t.me.reg 4, t.me.reg 5)) (0x1000C, 8, -1) = true ∧
    shows (exec .nop (looping 1)) (fun t => (t.me.pc, t.me.reg 4, (t.me.active 5).isSome)) (0x10014, 8, false) = true := by
  and_intros <;> decide

/-- A prefix at slot 1 with `w` after it, the slots of `mask` being targets; a level in its first of two iterations. -/
def prefixed (w : W32) (mask : W32) : State :=
  { demo with me := { (runs.setAct 0 (some ⟨0x10004, 0x10020, 2, 0, .u, []⟩)) with
      fetchBuf := [⟨0x10000, [0x00010001 ||| mask, 0xFE, w] ++ List.replicate 13 0x5E⟩] } }

theorem witness_SetupAndPrefixResults :
    demo.Fits .both 1 ∧ demo.Issues .both 1 [4] [24] ∧ demo.Issues .both 1 [] [0] ∧
    ((0 : Word).setWidth 21 : BitVec 21).toNat / 2 ^ 18 < 5 ∧ ¬ (((0x140000 : Word).setWidth 21 : BitVec 21).toNat / 2 ^ 18 < 5) ∧
    ¬ (((0x30000 : Word).setWidth 21 : BitVec 21).toNat / 2 ^ 16 % 4 < 3) ∧ (2 : BitVec 2) ≠ 3 := by
  and_intros <;> decide

theorem witness_SetupAndPrefixResults_prefix :
    (match (prefixed 0x00086300 0).me.find 0x10008 with | .ins i n => i == .add false 3 3 2 && n == 1 | _ => false) = true ∧ (prefixed 0x00086300 0).me.orphan 0x10008 = false ∧
    (prefixed 0x00086300 2).me.orphan 0x10008 = true ∧ (prefixed 0x00086300 0).me.lastOfBody 0x10004 = false ∧
    pfxRefused (.add false 3 3 2) false 1 0 = false ∧ pfxRefused (.add false 3 3 2) true 0 0 = true ∧
    ((prefixed 0x00086300 0).me.iterLevel 0).map (fun a => (a.iter, a.left)) = some (0, 2) ∧ (prefixed 0x00086300 0).me.iterLevel 5 = none := by
  and_intros <;> decide

theorem test_prefix :
    let s := prefixed 0x00086300 0
    shows (exec (.pfx 0 0 false 1 0) s) (fun t => (t.me.pc, t.me.pfx)) (0x10008, some ⟨0x10004, false, 1, 0⟩) = true ∧
    shows (exec (.pfx 0 1 false 1 0) s) (fun t => t.me.pfx) (some ⟨0x10004, false, 1, 0⟩) = true ∧
    shows (exec (.pfx 0 2 false 1 0) s) (fun t => (t.me.pc, t.me.pfx)) (0x1000C, none) = true ∧
    shows (exec (.pfx 5 1 false 1 0) s) (fun t => t.me.tcause) 0x01 = true ∧ shows (exec (.pfx 0 0 true 0 0) s) (fun t => t.me.tcause) 0x01 = true ∧
    shows (exec (.pfx 0 0 false 1 0) (prefixed 0x00086300 2)) (fun t => (t.me.tcause, t.me.tpc)) (0x04, 0x10004) = true := by
  and_intros <;> decide

theorem test_setup :
    shows (exec (.qflush 7) (setQ demo 31 [.val 1, .reserved, .val 2])) (fun t => t.hart.q 7) [.reserved] = true ∧
    shows (exec (.setvl 8 4) (setS demo [(4, 5000)])) (fun t => (t.me.vl, t.me.reg 8)) (2048, 2048) = true ∧
    shows (exec (.setvtReg 8 4) (setS demo [(4, 0x100F00)])) (fun t => (t.me.vtype, t.me.wD)) (0x100F00, 16) = true ∧
    shows (exec (.setvtReg 8 4) (setS demo [(4, 0x140000)])) (fun t => t.me.tcause) 0x0E = true ∧
    shows (exec (.setvtImm 1 true 15 false 5 true 3 0) demo) (fun t => (t.me.wA, t.me.wB, t.me.wD, t.me.sB)) (4, 6, 16, false) = true ∧
    shows (exec .exit demo) (fun t => t.me.exiting) true = true ∧ shows (exec .wfi demo) (fun t => t.me.wait) (some (.wfi 0x10004)) = true ∧
    shows (exec .yield demo) (fun t => t.me.pc) 0x10008 = true ∧ shows (exec .nop demo) (fun t => t.me.pc) 0x10008 = true := by
  and_intros <;> decide

def noHandler : State := { demo with me := { runs with tvec := 0x3F }, teams := [⟨demo.key, .resident, 0, 0, 1, 0, 0, 0, 0, 0, 0, 0, false, false⟩] }
def inHandler : State := { demo with me := { runs with mode := .s, tpc := 0x10010, tstat := 1, hvl := 3, vstat := 4, inHandler := true } }

theorem witness_TrapEntry :
    demo.deliverAll.me.tvec &&& ~~~(0x3F : Word) ≠ 0 ∧ noHandler.me.pend = [] ∧ noHandler.hart.live = true ∧ noHandler.me.tvec &&& ~~~(0x3F : Word) = 0 := by
  and_intros <;> decide

theorem witness_TrapRequestAndReturn : demo.Fits .both 1 ∧ demo.me.mode = .u ∧ inHandler.Fits .both 1 ∧ inHandler.me.mode = .s ∧
    { inHandler with isE := true, hart := { inHandler.hart with mtold := some 0x10010 } }.hart.mtold = some inHandler.me.tpc := by
  and_intros <;> decide

theorem test_traps :
    shows (exec (.ecall 5) demo) (fun t => (t.me.tcause, t.me.tval, t.me.tpc, t.me.pc, t.me.mode)) (0x10, 5, 0x10004, 0x10804, .s) = true ∧
    shows (exec .ebreak inHandler) (fun t => (t.me.tcause, t.me.tstat, t.me.vstat)) (0x11, 1, 6) = true ∧
    shows (exec .eret inHandler) (fun t => (t.me.pc, t.me.mode, t.me.vl, t.me.vstat)) (0x10010, .s, 3, 0) = true ∧
    shows (exec .eret demo) (fun t => t.me.tcause) 0x08 = true ∧
    shows (exec .ebreak noHandler) (fun t => (t.teams, t.me.stopped, t.out.length)) ([], true, 1) = true ∧
    shows (exec .mclr demo) (fun t => t.me.tcause) 0x02 = true := by and_intros <;> decide +kernel

theorem witness_WrongStreamTraps :
    streamClass (.vadd false false 0 1 2 3) = some (.eOnly, 1) ∧ Class.ok .eOnly demo.isE = false ∧
    streamClass (.cpstat 0 1 0) = some (.aOnly, 2) ∧ Class.ok .aOnly demoE.isE = false ∧
    ({ looping 1 with isE := true } : State).me.lastOfBody ({ looping 1 with isE := true } : State).me.pc = true := by and_intros <;> decide

theorem witness_SystemRegisterResults :
    demo.Issues .both 1 [] [4] ∧ demo.me.mode = .u ∧ inHandler.me.mode = .s ∧ inHandler.Issues .both 1 [4] [] ∧ inHandler.Issues .both 1 [] [24] ∧
    demo.hart.vset.length + demo.hart.endCount ≤ 64 ∧ srAccess 0x000 = none ∧ srAccess 0xFFF = none ∧ srAccess 0x025 = none ∧
    ¬ (5 ≤ ((0 : Word).setWidth 21 : BitVec 21).toNat / 2 ^ 18 ∨ ((0 : Word).setWidth 21 : BitVec 21).toNat / 2 ^ 16 % 4 = 3) := by
  and_intros <;> decide

theorem test_system_registers :
    shows (exec (.mfsr 8 0x064) demo) (regOf 8) 2048 = true ∧ shows (exec (.mfsr 8 0x063) demo) (regOf 8) 1 = true ∧
    shows (exec (.mfsr 8 0x023) inHandler) (regOf 8) 0x10800 = true ∧ shows (exec (.mfsr 8 0x023) demo) (fun t => t.me.tcause) 0x08 = true ∧
    shows (exec (.mfsr 8 0x025) demo) (fun t => t.me.tcause) 0x01 = true ∧
    shows (exec (.mtsr 4 0x001) (setS demo [(4, -1)])) (fun t => t.me.vl) 2048 = true ∧
    shows (exec (.mtsr 4 0x021) (setS inHandler [(4, -1)])) (fun t => t.me.tpc) (-4) = true ∧
    shows (exec (.mtsr 4 0x004) (setS { demo with me := { runs with vstat := 0x1E } } [(4, 0x1F)])) (fun t => t.me.vstat) 0x09 = true ∧
    shows (exec (.tlbinv .all 0) inHandler) (fun t => t.core.tlb) [] = true ∧ shows (exec (.tlbinv .va 4) demo) (fun t => t.me.tcause) 0x08 = true := by
  and_intros <;> decide +kernel

/-- A launch descriptor at 0x10200: code at 0x10000, `teams` teams of one hart, 8 harts a core, one scratchpad unit, DW8 = `w8`. -/
def launching (inlet teams w8 : Nat) : State :=
  let s := setMem (setMem (setMem (setMem (setS demo [(4, 0x10200), (5, 0x10208), (6, 5)]) 0x10200 8 0x10000) 0x10208 8 teams) 0x10210 8 0x10301)
    0x10240 8 w8
  { s with
    parts := [⟨0, [0], [], 256, [], Quota.all⟩]
    vds := s.vds.map fun v => { v with
      inlet := List.replicate inlet ⟨Vector.replicate 16 0, 0, 0, none, false, none⟩
      eps := [(2, ⟨some ⟨3, 0, [], 0, true⟩, [], [], false⟩)] } }
/-- The same with a dependence counter at 0x30008, which holds `n`, or at an address that is not mapped. -/
def counting (n : Option Nat) : State :=
  match n with
  | some n => setMem (setMem (tablesOn (launching 0 1 0) 4) 0x10218 8 0x30008) 0x20008 8 n
  | none => setMem (launching 0 1 0) 0x10218 8 0x30008
/-- The descriptor that s4 names is read, after the release; `p` holds of the VD, of it, and of the state. -/
def launchAnd (s : State) (p : Vd → Vector Word 16 → State → Bool) : Bool :=
  chkAnd (((s.popped [4]).release .module).readLaunch 0x10200) fun x => match x.1, s.vd? with | .ok raw, some v => p v raw x.2 | _, _ => false
/-- The ranges of a descriptor (R288). -/
def inRange (v : Vd) (raw : Vector Word 16) : Bool :=
  let bits (i : Fin 16) (lo n : Nat) : Nat := raw[i].toNat / 2 ^ lo % 2 ^ n
  let n := 2 ^ bits 2 8 2
  let counter (x : Word) : Bool :=
    decide (x.toNat % 8 = 0 ∧ x.toNat < 0xFFFFFFFF00000000 ∧ ¬ (0xFFFFFFFE00000000 ≤ x.toNat ∧ x.toNat < 0xFFFFFFFE00080000))
  let remote := bits 8 3 1 = 1
  decide (bits 1 33 31 = 0 ∧ bits 2 30 34 = 0 ∧ bits 2 27 1 = 0 ∧ bits 2 10 6 = 0 ∧ bits 2 7 1 = 0 ∧ bits 8 48 16 = 0 ∧ bits 9 10 54 = 0 ∧
    (∀ i : Fin 16, 10 ≤ i.val → raw[i] = 0) ∧ raw[0].toNat % 64 = 0 ∧ (raw[0].toNat < 2 ^ 56 ∨ 2 ^ 64 - 2 ^ 56 ≤ raw[0].toNat) ∧
    1 ≤ bits 1 0 33 ∧ bits 1 0 33 ≤ 2 ^ 32 ∧ 1 ≤ bits 2 0 7 ∧ bits 2 0 7 ≤ 8 * n ∧ bits 2 16 7 ≤ 64 / n ∧ counter raw[3] = true ∧
    counter raw[4] = true ∧ (¬ bits 8 2 1 = 1 → bits 8 0 2 = 0) ∧ (¬ remote → bits 8 12 20 = 0 ∧ bits 8 4 8 = 0)) &&
  (decide (¬ remote) || (v.epConfig (BitVec.ofNat 8 (bits 8 4 8))).any fun x => x.node == bits 8 12 20)

theorem witness_LaunchAndSignalResults :
    (launching 0 1 0).Issues .both 1 [4] [8] ∧ (0x10208 : Word).toNat % 64 ≠ 0 ∧ (launching 0 1 0).orderWaits true false .module = none ∧
    (launching 0 1 0).vd?.isSome = true ∧ launchAnd (launching 256 1 0) (fun v _ _ => decide (256 ≤ v.inlet.length)) = true ∧
    launchAnd (launching 0 0 0) (fun v raw s3 => !inRange v raw && decide (v.inlet.length < 256) && (s3.counterWaits v.id raw 0).isNone) = true ∧
    launchAnd (counting none) (fun v raw s3 => inRange v raw && raw[3] != 0 && (s3.readCounter v.id raw[3]).1.isNone &&
      (s3.counterWaits v.id raw (counting none).arrival).isNone) = true ∧
    launchAnd { launching 0 1 0 with parts := [] } (fun v raw s3 => inRange v raw && (s3.partClusters v).isEmpty) = true ∧
    launchAnd (launching 0 1 0) (fun v raw s3 => inRange v raw && raw[3] == 0 && s3.partClusters v == [0] && v.st == .active && v.inlet.isEmpty &&
      s3.removed.isEmpty && (s3.counterWaits v.id raw (launching 0 1 0).arrival).isNone && decide (raw[2].toNat % 2 ^ 7 = 1 ∧ raw[8] = 0)) = true ∧
    launchAnd (counting (some 5)) (fun v raw s3 => inRange v raw && (s3.readCounter v.id raw[3]).1 == some 5 && s3.partClusters v == [0] &&
      (s3.counterWaits v.id raw (counting (some 5)).arrival).isNone) = true ∧
    launchAnd (launching 255 1 0) (fun v raw _ => inRange v raw && decide (v.inlet.length = 255)) = true ∧
    launchAnd (launching 0 1 0x3028) (fun v raw s3 => inRange v raw && decide (raw[8].toNat / 2 ^ 3 % 2 = 1) &&
      (s3.counterWaits v.id raw 0).isNone) = true ∧ (launching 0 1 0).grids.length + 2 ≤ 2 ^ 32 := by
  and_intros <;> decide +kernel

theorem witness_LaunchAndSignalResults_signal :
    (setS atPage [(10, 0x10104)]).Issues .both 1 [10, 6] [] ∧ (0x10104 : Word).toNat % 8 ≠ 0 ∧ atPage.Issues .both 1 [5, 6] [] ∧
    atPage.interlocked 0x10100 8 true = false ∧ (atPage.popped [5, 6]).walkWaits 0x10100 .atomic atPage.user = none ∧
    atPage.orderWaits true false .sys = none ∧ atPage.LinesOnce ∧
    okAnd ((atPage.popped [5, 6]).translate 0x10100 .atomic atPage.user false) (fun pa pte s2 => (s2.controlOf pa pte).isNone &&
      (s2.mustWait pa 8).isNone && !((s2.counted pa 8).release .sys).poisoned pa 8 && decide (pa % 8 = 0)) = true ∧
    okAnd ((poisonedPage.popped [5, 6]).translate 0x10100 .atomic true false) (fun pa _ s2 => ((s2.counted pa 8).release .sys).poisoned pa 8) = true := by
  and_intros <;> decide +kernel

theorem test_launch_and_signal :
    shows (exec (.launch 8 4) (launching 0 1 0)) (fun t => (regOf 8 t, t.grids.map fun g => (g.vd, g.gid, g.st))) (1, [(1, 1, .ready)]) = true ∧
    shows (exec (.launch 8 4) (launching 256 1 0)) (regOf 8) 0x8000000000000001 = true ∧
    shows (exec (.launch 8 4) (launching 0 0 0)) (regOf 8) 0x8000000000000002 = true ∧
    shows (exec (.launch 8 4) (launching 0 1 0x3028)) (fun t => (t.me.wait, t.out.length)) (some (.answer 8 0x10004), 1) = true ∧
    shows (exec (.launch 8 4) (launching 2 1 0)) (fun t => (t.me.wait, t.vds.map (·.inlet.length), t.grids)) (some (.inlet 8 0x10004), [3], []) = true ∧
    shows (exec (.signal 5 6) (setMem atPage 0x10100 8 3)) (fun t => (t.mem.rd 0x10100 8, t.version 0x202)) (2, 1) = true := by
  and_intros <;> decide +kernel

-- Synchronisation

/-- Semaphore 5 set or clear, and streams waiting for it. -/
def semDemo (b : Bool) (w : List StreamId) : State :=
  demo.setComm { CommFile.start with sems := CommFile.start.sems.set 5 b, semq := w.map fun x => (5, x) }
def other : StreamId := ⟨9, true⟩

theorem witness_CommunicationFileResults :
    demo.Fits .both 1 ∧ { demo with hart := { demo.hart with cf := false } }.Fits .both 1 ∧ demo.hart.cf = true ∧
    pushOk demo.isE 8 = true ∧ pushOk demo.isE 31 = false ∧ popOk demo.isE 4 = true ∧ popOk demo.isE 24 = false ∧
    demo.orderWaits false true .die = none ∧ demo.orderWaits true false .die = none ∧
    copying.Fits .both 1 ∧ copying.hart.cf = true ∧ copying.copiesOutstanding = true ∧ demo.Issues .both 1 [] [8] ∧ demo.Issues .both 1 [4] [] ∧
    ((semDemo false []).clus.comm.sems[5]) = false ∧ ((semDemo true []).clus.comm.sems[5]) = true ∧
    ((semDemo false [demo.streamId]).clus.comm.semq.filter (fun x => x.1 = 5)).head? = some (5, demo.streamId) ∧
    (∃ x, ((semDemo false [other]).clus.comm.semq.filter (fun x => x.1 = 5)).head? = some x ∧ x.2 ≠ (semDemo false [other]).streamId) := by
  and_intros
  all_goals decide +kernel

theorem test_semaphores :
    shows (exec (.semtas .die 5) (semDemo false [])) (fun t => (t.clus.comm.sem 5, t.me.pc)) (true, 0x10008) = true ∧
    shows (exec (.semtas .die 5) (semDemo true [])) (fun t => (t.clus.comm.semq, t.me.wait)) ([(5, demo.streamId)], some .sync) = true ∧
    shows (exec (.semtas .die 5) (semDemo false [other])) (fun t => (t.clus.comm.semq.length, t.clus.comm.sem 5)) (2, false) = true ∧
    shows (exec (.semtry .die 5 8) (semDemo false [other])) (regOf 8) 1 = true ∧ shows (exec (.semtry .die 5 8) (semDemo false [])) (regOf 8) 0 = true ∧
    shows (exec (.semclr .die 5) (semDemo true [])) (fun t => t.clus.comm.sem 5) false = true ∧
    shows (exec (.cwr 63 6) atPage) (fun t => t.clus.comm.cws[63]) (-1) = true ∧
    shows (exec (.crd 63 8) { demo with clus := { demo.clus with comm := { CommFile.start with cws := CommFile.start.cws.set 63 7 } } }) (regOf 8) 7 = true ∧
    shows (exec (.crd 0 8) { demo with hart := { demo.hart with cf := false } }) (fun t => t.me.tcause) 0x08 = true := by
  and_intros <;> decide +kernel

/-- The peer stopped or not, with arrivals made in generation 0, or in generation 1 after this stream's arrival. -/
def barDemo (peerStopped : Bool) (gen : Nat) (arrive : Option Nat) : State :=
  { demo.setComm { CommFile.start with gen := gen } with peer := { demo.peer with stopped := peerStopped }, me := { demo.me with arrive := arrive } }

theorem witness_BarrierResults_tbar :
    (barDemo true 0 none).Fits .both 1 ∧ (barDemo true 0 none).hart.cf = true ∧ (barDemo true 0 none).me.arrive = none ∧
    (barDemo true 0 none).orderWaits true false .die = none ∧ (barDemo true 0 none).orderWaits false true .die = none ∧
    (let s := (barDemo false 0 none).setComm { CommFile.start with arrived := [demo.streamId] }
     s.Fits .both 1 ∧ s.hart.cf = true ∧ s.me.arrive = none ∧ s.streamId ∈ s.clus.comm.arrived) ∧
    copying.me.arrive = none ∧ copying.copiesOutstanding = true ∧ (barDemo true 0 none).streamId ∉ (barDemo true 0 none).clus.comm.arrived ∧
    (∀ x ∈ (barDemo true 0 none).ctx :: (barDemo true 0 none).parked, x.hart.live = true → x.key = (barDemo true 0 none).key →
      (x.a.stopped = true ∨ (⟨x.hart.id, false⟩ : StreamId) ∈ [(barDemo true 0 none).streamId]) ∧
      (x.e.stopped = true ∨ (⟨x.hart.id, true⟩ : StreamId) ∈ [(barDemo true 0 none).streamId])) ∧
    ¬ ((barDemo false 0 none).ctx.e.stopped = true ∨ (⟨(barDemo false 0 none).ctx.hart.id, true⟩ : StreamId) ∈ [(barDemo false 0 none).streamId]) ∧
    (barDemo false 1 (some 0)).me.arrive = some 0 ∧ (barDemo false 1 (some 0)).clus.comm.gen ≠ 0 ∧ (barDemo false 0 (some 0)).clus.comm.gen = 0 := by
  and_intros <;> decide +kernel

/-- Transfer barrier 2 with these values; s4 holds `v`. -/
def tbDemo (posted : Bool) (expected : Nat) (arrived : BitVec 40) (v : Word) : State :=
  let s := setS demo [(4, v)]
  { s with core := { s.core with tbs := s.core.tbs.set 2 ⟨false, posted, expected, arrived⟩ } }

theorem witness_BarrierResults :
    demo.Issues .aOnly 1 [4] [] ∧ demo.Issues .both 1 [4] [] ∧ demo.Issues .both 1 [4] [24] ∧
    2 ^ 39 ≤ (0x8000000000 : Word).toNat ∧ (0x7FFFFFFFFF : Word).toNat < 2 ^ 39 ∧ (0xFFFFFF7FFFFFFFFF : Word).toInt < -2 ^ 39 ∧
    -2 ^ 39 ≤ (0xFFFFFF8000000000 : Word).toInt ∧ 2 ^ 39 ≤ (0x8000000000 : Word).toInt ∧ (tbDemo true 8 8 0).orderWaits true false .die = none ∧
    (tbDemo true 8 8 0).orderWaits false true .die = none ∧
    (tbDemo true 8 8 1).core.tbs[2].phase ≠ (1 : Word).getLsbD 0 ∧ (tbDemo true 8 8 0).core.tbs[2].phase = (0 : Word).getLsbD 0 ∧
    ((tbDemo true 8 9 0).core.tbs[2].posted = true ∧ ((tbDemo true 8 9 0).core.tbs[2].expected : Int) < (tbDemo true 8 9 0).core.tbs[2].arrived.toInt) ∧
    (∀ i : Fin 8, (tbDemo true 8 9 0).core.chans[i].queue = []) := by
  and_intros <;> decide +kernel

theorem test_barriers :
    shows (exec (.tbar .die) ((barDemo false 0 none).setComm { CommFile.start with arrived := [demo.streamId] })) (fun t => t.me.tcause) 0x01 = true ∧
    shows (exec (.tbar .die) (barDemo true 0 none)) (fun t => (t.clus.comm.gen, t.me.pc)) (1, 0x10008) = true ∧
    shows (exec (.tbar .die) (barDemo false 0 none)) (fun t => (t.me.arrive, t.me.wait)) (some 0, some .sync) = true ∧
    shows (exec (.bexp 2 4) (tbDemo false 0 8 8)) (fun t => t.core.tbs[2]) ⟨true, false, 0, 0⟩ = true ∧
    shows (exec (.barv .die 2 4) (tbDemo true 8 16 (-8))) (fun t => t.core.tbs[2]) ⟨true, false, 0, 0⟩ = true ∧
    shows (exec (.barv .die 2 4) (tbDemo true 8 0 4)) (fun t => t.core.tbs[2]) ⟨false, true, 8, 4⟩ = true ∧
    shows (exec (.bwait .die 2 8 4) (tbDemo true 8 9 0)) (regOf 8) 1 = true ∧ shows (exec (.bwait .die 2 8 4) (tbDemo true 8 8 1)) (regOf 8) 0 = true ∧
    shows (exec (.bwait .die 2 8 4) (tbDemo true 8 4 0)) (fun t => t.me.wait) (some .sync) = true ∧
    shows (exec (.bexp 2 4) (tbDemo false 0 0 (-1))) (fun t => t.me.tcause) 0x01 = true := by
  and_intros <;> decide +kernel

-- Lanes and vector memory

/-- A and B four bits wide, A signed, D sixteen bits and signed: the worked setting of 06 with four lanes. -/
def laneDemo : State :=
  let s := setV (setV (setV demoE 2 4 [1, 0xE, 7, 0]) 3 6 [3, 60, 0, 9]) 5 16 [100, 0, 5, 0]
  { s with
    me := { s.me with vtype := 0xAF53 }, hart := { s.hart with masks := s.hart.masks.set 1 0b0101 |>.set 2 0b0011 } }
def wide (v : BitVec 21) : State := { laneDemo with me := { laneDemo.me with vtype := v } }

theorem witness_LaneArithmeticResults :
    laneDemo.LaneIssues ⟨[⟨2, laneDemo.me.wA, true⟩, ⟨3, laneDemo.me.wB, false⟩], some (6, laneDemo.me.wD), true, 0⟩ [] [] ∧
    laneDemo.LaneIssues ⟨[⟨2, laneDemo.me.wA, true⟩], some (6, laneDemo.me.wD), true, 0⟩ [] [] ∧ laneDemo.me.wB ≤ 6 ∧
    laneDemo.LaneIssues ⟨[⟨2, 4, false⟩, ⟨3, 6, false⟩, ⟨5, 16, false⟩], some (5, 16), true, 0⟩ [] [] ∧
    laneDemo.LaneIssues ⟨[], some (6, 16), true, 0⟩ [4] [] ∧ laneDemo.LaneIssues ⟨[], some (6, 16), true, 0⟩ [] [] ∧
    (wide 0x4AF53).me.xf ≠ 0 ∧ (wide 0x4AF53).me.wA = mxWidth (wide 0x4AF53).me.xf := by
  and_intros <;> decide +kernel

theorem witness_LaneArithmeticResults_waits :
    laneDemo.Fits .eOnly 1 ∧ (16 < (wide 0x1000).me.wD ∧ (7 : Reg).getLsbD 0 = true) ∧ 7 ≤ (wide 0xF60).me.wB ∧ ¬ (16 < laneDemo.me.wD) ∧
    ([2, 3] : List Reg).find? (fun r => !demoE.hart.full r) = some 2 ∧ (∀ r ∈ ([2, 3] : List Reg), laneDemo.hart.full r = true) ∧
    { laneDemo with hart := { laneDemo.hart with laneBusy := 1 } }.hart.laneBusy ≠ 0 := by
  and_intros <;> decide +kernel

/-- Lanes 0 to 3 of a register. -/
def lanesOf (r : Reg) (w : Nat) (sg : Bool) (t : State) : List Int := (List.range 4).map fun e => t.hart.value r w sg e

-- A = 1, -2, 7, 0 (signed, 4 bits), B = 3, 60, 0, 9 (unsigned, 6 bits), D = 16 bits signed (R181 to R186)
theorem test_lane_arithmetic :
    ([(.vadd false false 0 6 2 3, [4, 58, 7, 9]), (.vsub false false 0 6 2 3, [-2, -62, 7, -9]), (.vmul false false 0 6 2 3, [3, -120, 0, 0]),
      (.vmac false false 0 5 2 3, [103, -120, 5, 0]), (.vmin false false 0 6 2 3, [1, -2, 0, 0]), (.vmax false false 1 6 2 3, [3, 0, 7, 0]),
      (.vlog .andn false false 0 6 2 3, [0, -62, 7, 0]), (.vneg false 0 6 2, [-1, 2, -7, 0]), (.vabs false 0 6 2, [1, 2, 7, 0]),
      (.vshl false false 1 6 2 3, [8, 0, 7, 0]), (.vshr false false 1 6 2 3, [0, 0, 7, 0]), (.vsar false false 2 6 2 3, [0, -1, 0, 0]),
      (.vsel false false 1 6 2 3, [1, 60, 7, 9]), (.vmv true 0 6 2, [1, -2, 7, 0]), (.vbc 1 6 4, [9, 0, 9, 0]), (.vid 0 6, [0, 1, 2, 3]),
      (.vclz false 0 6 2, [3, 0, 1, 4]), (.vcvtw false 0 1 6 2, [0, -1, 4, 0])] : List (Instr × List Int)).all (fun p =>
        shows (exec p.1 (setS laneDemo [(4, 9)])) (lanesOf (match p.1 with | .vmac .. => 5 | _ => 6) 16 true) p.2) = true := by decide +kernel

theorem test_lane_presence_and_occupation :
    shows (exec (.vmul true false 0 6 2 3) laneDemo) (fun t => (t.hart.full 3, t.hart.full 2, t.hart.full 6, t.me.vstart)) (false, true, true, 0) = true ∧
    shows (exec (.vadd false false 0 6 2 4) laneDemo) (fun t => t.me.wait) (some (.presence false 4)) = true ∧
    shows (exec (.vshl false false 0 6 2 3) (wide 0xF60)) (fun t => t.me.tcause) 0x0E = true ∧
    shows (exec (.vxq false 0 6 2) (wide 0x4AF53)) (lanesOf 6 16 true) [1, -8, 12, 0] = true := by
  and_intros <;> decide +kernel

theorem witness_LaneMovementResults :
    laneDemo.LaneIssues ⟨[⟨2, laneDemo.me.wA, false⟩, ⟨3, laneDemo.me.wB, true⟩], none, true, 0⟩ [] [] ∧
    laneDemo.LaneIssues ⟨[], none, true, 0⟩ [] [] ∧ laneDemo.LaneIssues ⟨[], none, true, 0⟩ [] [8] ∧
    laneDemo.LaneIssues ⟨[⟨2, 4, true⟩, ⟨3, 6, false⟩], none, true, 0⟩ [] [28] ∧ laneDemo.LaneIssues ⟨[⟨2, 4, false⟩], none, true, 0⟩ [] [8] ∧
    laneDemo.LaneIssues ⟨[⟨2, 4, false⟩], none, true, 0⟩ [4] [8] ∧ laneDemo.LaneIssues ⟨[⟨5, 16, false⟩], none, true, 0⟩ [] [8] ∧
    laneDemo.LaneIssues ⟨[], some (6, 16), true, 0⟩ [4, 5] [] ∧ laneDemo.LaneIssues ⟨[⟨2, 4, false⟩], some (6, 16), true, 0⟩ [4] [] ∧
    laneDemo.LaneIssues ⟨[⟨2, 4, true⟩], some (6, 16), true, 0⟩ [] [] := by
  and_intros <;> decide +kernel

theorem test_lane_movement :
    let s := setS laneDemo [(4, 2), (5, -3)]
    ([(.vins 6 5 4, [0, 0, -3, 0]), (.vslide true false 0 6 2 4, [0, 0, 1, -2]), (.vslide false false 0 6 2 4, [7, 0, 0, 0]),
      (.vcompact false 1 6 2, [1, 7, 0, 0]), (.vexpand false 1 6 2, [1, 0, -2, 0]), (.vgred .sum false 0 0 6 2, [6, 0, 0, 0]),
      (.vgred .min false 1 0 6 2, [1, 0, 0, 0])] : List (Instr × List Int)).all (fun p => shows (exec p.1 s) (lanesOf 6 16 true) p.2) = true := by
  decide +kernel

theorem test_lane_scalars :
    let s := setS laneDemo [(4, 1), (5, 2048)]
    ([(.vdot false false 0 8 2 3, 3 - 120), (.vred .sum false 0 8 2, 6), (.vred .maxu false 0 8 2, 14), (.vred .min false 2 8 2, -2),
      (.vred .or false 0 8 2, -1), (.vext false 8 2 4, -2), (.vext false 8 2 5, 0), (.vmpop 0 8 1, 2), (.vmfirst 0 8 1, 0), (.vmfirst 2 8 7, -1),
      (.vzp false 8 3, 0xFFC0)] : List (Instr × Word)).all (fun p => shows (exec p.1 s) (regOf 8) p.2) = true ∧
    shows (exec (.vcmp .lt false false 0 3 2 3) s) (fun t => t.hart.masks[3]) 0b1011 = true ∧
    shows (exec (.vcmp .geu false false 1 3 2 3) s) (fun t => t.hart.masks[3]) 0b0100 = true ∧
    shows (exec (.vmlog .andn 0 3 1 2) s) (fun t => t.hart.masks[3]) 0b0100 = true := by
  and_intros <;> decide +kernel

/-- Four signed words from 0x10100 on; s5 points there, s7 to the partition, s9 holds a stride, s10 a page that is not there. -/
def vecDemo : State :=
  let s := setV (setMem (setS atPage [(4, 0x1FFF8), (9, 8), (11, 3)]) 0x10100 16 0x00000007000000030000FFFFFFFFFFFE) 8 16 [3, 0, 2, 1]
  { s with me := { s.me with vtype := 0xEFFF }, verRegs := #v[⟨0, 0, 0⟩, ⟨0, 0, 0⟩] }
/-- The same with two lanes. -/
def vecTwo : State := { vecDemo with me := { vecDemo.me with vl := 2 } }

-- What the relations of a vector access say, as functions

def readsOf (ea : Nat → Word) (n : Nat) : List Nat → State → Option (List (Nat × Nat) × State)
  | [], s => some ([], s)
  | e :: es, s => match s.findLoc (ea e).toNat n .read false with
    | .ok (l, _, s1) =>
      let m := s1.settleLoc l n
      if m.locPoisoned l n then none else (readsOf ea n es (m.readLoc l n).2).map fun x => ((e, (m.readLoc l n).1) :: x.1, x.2)
    | _ => none
theorem reads {ea : Nat → Word} {n : Nat} {es : List Nat} {s : State} {x : List (Nat × Nat) × State} (h : readsOf ea n es s = some x) :
    ReadsElems ea n es s x.1 x.2 := by
  induction es generalizing s x with
  | nil => cases h; exact .done s
  | cons e es ih =>
    simp only [readsOf] at h
    split at h
    · rename_i l p s1 hl
      split at h
      · cases h
      · rename_i hp
        obtain ⟨y, hy, rfl⟩ := Option.map_eq_some_iff.mp h
        exact .next hl (Bool.not_eq_true _ ▸ hp) (ih hy)
    · cases h
theorem reads_and {ea : Nat → Word} {n : Nat} {es : List Nat} {s : State} (p : State → Bool)
    (h : (readsOf ea n es s).any (fun x => p x.2) = true) : ∃ vs s2, ReadsElems ea n es s vs s2 ∧ p s2 = true := by
  cases hx : readsOf ea n es s with
  | none => rw [hx] at h; cases h
  | some x => rw [hx] at h; exact ⟨_, _, reads hx, h⟩
theorem reads_of {ea : Nat → Word} {n : Nat} {es : List Nat} {s : State} (h : (readsOf ea n es s).isSome = true) :
    ∃ vs s2, ReadsElems ea n es s vs s2 :=
  let ⟨_, hx⟩ := Option.isSome_iff_exists.mp h
  ⟨_, _, reads hx⟩

def writesOf (ea : Nat → Word) (n : Nat) (v : Nat → Nat) : List Nat → State → Option (List (Nat × Loc) × State)
  | [], s => some ([], s)
  | e :: es, s => match s.findLoc (ea e).toNat n .write false with
    | .ok (l, _, s1) => (writesOf ea n v es (s1.writeLoc l n (v e))).map fun x => ((e, l) :: x.1, x.2)
    | _ => none
theorem writes_of {ea : Nat → Word} {n : Nat} {v : Nat → Nat} {es : List Nat} {s : State} (h : (writesOf ea n v es s).isSome = true) :
    ∃ ls s2, WritesElems ea n v es s ls s2 := by
  induction es generalizing s with
  | nil => exact ⟨_, _, .done s⟩
  | cons e es ih =>
    simp only [writesOf] at h
    split at h
    · rename_i l p s1 hl
      obtain ⟨ls, s2, hw⟩ := ih (Option.isSome_map .. ▸ h)
      exact ⟨_, _, .next hl hw⟩
    · cases h

def wordsOf? (ea : Nat → Word) : List Nat → State → Option (List (Nat × Nat) × State)
  | [], s => some ([], s)
  | e :: es, s => match s.vamoElem (ea e) with
    | .ok pa s1 => (wordsOf? ea es s1).map fun x => ((e, pa) :: x.1, x.2)
    | _ => none
theorem finds {ea : Nat → Word} {es : List Nat} {s : State} {x : List (Nat × Nat) × State} (h : wordsOf? ea es s = some x) :
    FindsWords ea es s x.1 x.2 := by
  induction es generalizing s x with
  | nil => cases h; exact .done s
  | cons e es ih =>
    simp only [wordsOf?] at h
    split at h
    · rename_i pa s1 hl
      obtain ⟨y, hy, rfl⟩ := Option.map_eq_some_iff.mp h
      exact .next hl (ih hy)
    · cases h

theorem witness_VectorLoadResults :
    vecDemo.VecIssues true 6 [] [5] ∧ vecDemo.VecIssues true 6 [] [5, 9] ∧ vecDemo.VecIssues true 6 [8] [5] ∧
    (∃ vs s2, ReadsElems (fun e => 0x10100 + BitVec.ofNat 64 (e * 4)) 4 [0, 1] (vecTwo.popped [5]) vs s2) ∧
    (∃ vs s2, ReadsElems (fun e => 0x10100 + BitVec.ofNat 64 e * 8) 4 [0, 1] (vecTwo.popped [5, 9]) vs s2) :=
  ⟨by decide +kernel, by decide +kernel, by decide +kernel, reads_of (by decide +kernel), reads_of (by decide +kernel)⟩

/-- The check traps. -/
def Traps {α : Type} (c : Chk α) : Bool := match c with | .trap _ => true | _ => false
theorem trapOf {α : Type} {c : Chk α} (h : Traps c = true) : ∃ t, c = .trap t := by
  cases c <;> first | exact ⟨_, rfl⟩ | cases h

/-- Elements 0 and 1 lie in the page, element 2 in one that is not present. -/
theorem witness_VectorLoadResults_fault :
    vecDemo.VecIssues true 6 [] [4] ∧
    (List.range vecDemo.me.vl.toNat).filter (fun e => decide (vecDemo.me.vstart.toNat ≤ e) && vecDemo.hart.mask 0 e) = [0, 1] ++ 2 :: [3] ∧
    (∃ vs s2, ReadsElems (fun e => 0x1FFF8 + BitVec.ofNat 64 (e * 4)) 4 [0, 1] (vecDemo.popped [4]) vs s2 ∧
      ∃ tr, s2.findLoc 0x20000 4 .read false = .trap tr) := by
  obtain ⟨vs, s2, h, ht⟩ := reads_and (ea := fun e => 0x1FFF8 + BitVec.ofNat 64 (e * 4)) (n := 4) (es := [0, 1]) (s := vecDemo.popped [4])
    (fun s => Traps (s.findLoc 0x20000 4 .read false)) (by decide +kernel)
  exact ⟨by decide +kernel, by decide +kernel, vs, s2, h, trapOf ht⟩

/-- The row of element 0 of the offsets in v8 is in error (R409). -/
def badOffsets : State := { vecDemo with hart := { vecDemo.hart with laneBad := [16384 * 128 + 1] } }

theorem witness_VectorLoadResults_error :
    badOffsets.VecIssues true 6 [8] [5] ∧ badOffsets.hart.live = true ∧ badOffsets.hart.laneBad = [16384 * 128 + 1] ∧
    rowsHold [⟨8, vecDemo.me.wB, false⟩] (16384 * 128 + 1) = true ∧ (∃ e ∈ [0, 1], e / 64 = (16384 * 128 + 1) % 16384 / 64) ∧
    vecDemo.hart.badRow [⟨8, vecDemo.me.wB, false⟩] = none ∧
    (∃ vs s2, ReadsElems (fun e => 0x10100 + BitVec.ofNat 64 (e * 4)) 4 [0, 1] ({ badOffsets with me := vecTwo.me }.popped [5]) vs s2) :=
  ⟨by decide +kernel, by decide, by decide, by decide, ⟨0, by decide, by decide⟩, by decide +kernel, reads_of (by decide +kernel)⟩

theorem test_vector_loads :
    shows (exec (.vld false false .w 0 6 5 0) vecDemo) (fun t => (lanesOf 6 16 true t, t.hart.vloads.length, t.hart.full 6)) ([-2, -1, 3, 7], 1, false) = true ∧
    shows (exec (.vld false true .b 0 6 5 4) vecDemo) (lanesOf 6 16 true) [255, 255, 0, 0] = true ∧
    shows (exec (.vlds false false .w 0 6 5 9 0) vecDemo) (lanesOf 6 16 true) [-2, 3, 0, 0] = true ∧
    shows (exec (.vldx true false .w true 0 6 5 8 0) vecDemo) (fun t => (lanesOf 6 16 true t, t.hart.full 8)) ([7, -2, 3, -1], false) = true ∧
    shows (exec (.vldff false false .w 0 6 4 0) vecDemo) (fun t => (t.me.vl, t.me.vstat, t.me.tcause)) (2, 8, 0) = true ∧
    shows (exec (.vld false false .w 0 6 4 0) vecDemo) (fun t => (t.me.tcause, t.me.tval, t.me.hvstart)) (0x07, 0x20000, 2) = true := by
  and_intros <;> decide +kernel

theorem witness_VectorStoreResults :
    vecDemo.VecIssues false 8 [] [5] ∧ vecDemo.VecIssues false 8 [] [5, 9] ∧ vecDemo.VecIssues false 8 [8] [5] ∧
    (∃ ls s2, WritesElems (fun e => 0x10100 + BitVec.ofNat 64 (e * 4)) 4 (fun _ => 3) [0, 1] (vecTwo.popped [5]) ls s2) ∧
    (∃ ls s2, WritesElems (fun e => 0xFFFFFFFF00000010 + BitVec.ofNat 64 e * 8) 4 (fun _ => 3) [0, 1] (vecTwo.popped [7, 9]) ls s2) := by
  exact ⟨by decide +kernel, by decide +kernel, by decide +kernel, writes_of (by decide +kernel), writes_of (by decide +kernel)⟩

theorem witness_VectorStoreResults_bits :
    vecDemo.VecIssues false 8 [] [5, 11] ∧ 32 < (33 : Word).toNat ∧ (32 : Word).toNat ≤ 32 ∧
    (match (vecDemo.popped [5, 11]).byteLocs ((List.range 2).map fun j => 0x10100 + BitVec.ofNat 64 j) [] with
     | .inr (l, _) => l.length == 2 | .inl _ => false) = true := by
  and_intros <;> decide +kernel

theorem witness_VectorStoreResults_error :
    badOffsets.hart.laneBad = [16384 * 128 + 1] ∧ rowsHold [⟨8, vecDemo.me.wD, false⟩] (16384 * 128 + 1) = true ∧
    rowsHold [] (16384 * 128 + 1) = false ∧ (∃ e ∈ [0, 1], e / 64 = (16384 * 128 + 1) % 16384 / 64) ∧ badOffsets.VecIssues false 8 [] [5] ∧
    vecDemo.hart.badRow [⟨8, vecDemo.me.wD, false⟩] = none ∧
    -- a width error at issue
    (let s := { vecDemo with me := { vecDemo.me with vtype := 0x1F000 } }
     s.Fits .aOnly 2 ∧ popOk s.isE 5 = true ∧ popOk s.isE 9 = true ∧ 16 < s.me.wD ∧ (9 : Reg).getLsbD 0 = true) := by
  refine ⟨by decide, by decide, by decide, ⟨0, by decide, by decide⟩, by decide +kernel, by decide +kernel, ?_⟩
  and_intros <;> decide +kernel

-- R409, R411: the store goes on, reports the word and has its lane tested; R205, R207: a width error clears RESUME or VSTART
theorem test_vector_errors :
    let odd (vstat : BitVec 5) : State := { vecDemo with me := { vecDemo.me with vtype := 0x1F000, vstat := vstat, vstart := 2 } }
    shows (exec (.vst false .h false 0 8 5 0) badOffsets) (fun t => (t.mem.rd 0x10100 8, t.hart.tests)) (0x0001000200000003, [1]) = true ∧
    shows (exec (.vstx false .b false false 0 9 5 8 0) (odd 1)) (fun t => (t.me.tcause, t.me.vstat.getLsbD 0, t.me.hvstart)) (0x0E, false, 2) = true ∧
    shows (exec (.vstb false 0 9 5 11 0) (odd 0)) (fun t => (t.me.tcause, t.me.hvstart)) (0x0E, 0) = true := by
  and_intros <;> decide +kernel

-- R207: v8 = 3, 0, 2, 1 three planes wide gives the bits 1001, 1010, 0000 of planes 0, 1 and 2: bytes 0x59, 0x00
theorem test_vector_stores :
    let m (t : State) := t.mem.rd 0x10100 8
    shows (exec (.vst false .h false 0 8 5 0) vecDemo) m 0x0001000200000003 = true ∧
    shows (exec (.vsts false .b true 0 8 5 9 0) vecDemo) (fun t => (t.mem.rd 0x10108 1, t.hart.full 8)) (0, false) = true ∧
    shows (exec (.vstx false .b false false 0 8 5 8 0) vecDemo) (fun t => t.mem.rd 0x10100 4) 0x03020100 = true ∧
    shows (exec (.vstb false 0 8 5 11 0) vecDemo) (fun t => (t.mem.rd 0x10100 2, t.me.vmem.length)) (0x59, 1) = true ∧
    shows (exec (.vstb false 0 8 5 11 0) (setS { vecDemo with me := { vecDemo.me with vstart := 1 } } [(11, 33)])) (fun t => (t.me.tcause, t.me.hvstart)) (0x0E, 0) = true := by
  and_intros <;> decide +kernel

theorem witness_VectorAtomicResults :
    vecDemo.VecIssues false 8 [8] [5] ∧ AmoOp.add ≠ .swap ∧ vecDemo.orderWaits true true .die = none ∧
    (∃ ps s2, FindsWords (fun _ => 0x10100) [0, 1] (vecTwo.popped [5]) ps s2 ∧
      let r := s2.release .die
      r.LinesOnce ∧ vecDemo.hart.badRow [⟨8, vecDemo.me.wD, false⟩, ⟨8, vecDemo.me.wB, false⟩] = none ∧ 2 ≤ [16777216, 1, 1].length ∧ ∀ p ∈ ps, (r.beforeHome p.2 4).poisoned p.2 4 = false ∧ p.2 % 4 = 0) := by
  refine ⟨by decide +kernel, by decide, by decide +kernel, ?_⟩
  suffices hs : ∃ ps s2, FindsWords (fun _ => 0x10100) [0, 1] (vecTwo.popped [5]) ps s2 ∧ (s2.release .die).LinesOnce ∧
      ∀ p ∈ ps, ((s2.release .die).beforeHome p.2 4).poisoned p.2 4 = false ∧ p.2 % 4 = 0 from
    let ⟨ps, s2, hf, hl, hp⟩ := hs
    ⟨ps, s2, hf, hl, by decide +kernel, by decide, hp⟩
  have h : (wordsOf? (fun _ => 0x10100) [0, 1] (vecTwo.popped [5])).any (fun x => decide ((x.2.release .die).LinesOnce ∧
      ∀ p ∈ x.1, ((x.2.release .die).beforeHome p.2 4).poisoned p.2 4 = false ∧ p.2 % 4 = 0)) = true := by decide +kernel
  cases hx : wordsOf? (fun _ => 0x10100) [0, 1] (vecTwo.popped [5]) with
  | none => rw [hx] at h; cases h
  | some x => rw [hx] at h; exact ⟨_, _, finds hx, of_decide_eq_true h⟩

/-- The worked case of 06: 16,777,216 and three ones added pairwise to one word that holds +0.0. -/
def addAll : State :=
  let s := setV (setV vecDemo 8 32 [16777216, 1, 1, 1]) 10 16 [0, 0, 0, 0]
  { s with me := { s.me with vtype := 0xFFFF }, mem := [] }

theorem test_vector_atomic :
    shows (exec (.vamo .fadd false false false .rlx .die 0 8 5 10) addAll) (fun t => t.mem.rd 0x10100 4) 0x4B800001 = true ∧
    shows (exec (.vamo .maxu false false false .rlx .die 0 8 5 10) addAll) (fun t => t.mem.rd 0x10100 4) 16777216 = true := by
  and_intros <;> decide +kernel

-- Word unit

theorem witness_NumberFormatResults :
    Fmt.f32 ≠ .i32 ∧ 0xFFFFFFFF < 2 ^ fpWidth .f32 ∧ fpDecode .f32 false 0 ≠ .nan ∧ fpDecode .f32 false 0x80000001 ≠ .nan ∧
    fpDecode .f32 false 0xFFFFFFFF = .nan ∧ 0x7C00 < 2 ^ fpWidth .f16 ∧ fpDecode .f16 false 0x7C00 ≠ .nan ∧ fpDecode .bf16 false 0x7F81 = .nan := by
  decide

/-- Between two neighbours, half-way, beyond the largest magnitude; a remainder; and an MX block whose greatest value is 5 (R56, R57, R59, R67). -/
theorem witness_NumberFormatResults_rounding :
    (let mag (p : Nat) : Nat := if p < 2 ^ 23 then p else (2 ^ 23 + p % 2 ^ 23) * 2 ^ (p / 2 ^ 23 - 1)
     let p := 0x3F800000
     -- 2^24 + 1 in units of 2^-24
     let a := (2 ^ 24 + 1) * 2 ^ 125
     p < 0x7F800000 ∧ mag p * 1 ≤ a ∧ a < mag (p + 1) * 1 ∧ (mag p + mag (p + 1)) * 1 = 2 * a ∧ mag 0x7F800000 * 1 ≤ 2 ^ 128 * 2 ^ 149) ∧
    ((-3 : Int) % 2 = 1 ∧ (-1 : Int) < 0 ∧ (-128 : Int) ≤ 127) ∧
    (Fv.fin 5 0 ∈ [Fv.fin 5 0, .zero true, .fin (-1) (-1)] ∧ (∀ e, Fv.fin 0 e ∉ [Fv.fin 5 0, .zero true, .fin (-1) (-1)]) ∧ 2 ^ 2 ≤ (5 : Int).natAbs ∧
      (5 : Int).natAbs < 2 ^ (2 + 1) ∧ Fv.nan ∉ [Fv.fin 5 0, .zero true, .fin (-1) (-1)] ∧ ∀ b, Fv.inf b ∉ [Fv.fin 5 0, .zero true, .fin (-1) (-1)]) := by
  refine ⟨by decide +kernel, by decide, by decide, fun e h => ?_, by decide, by decide, by decide, by decide⟩
  simp at h

-- R56 to R59 and R67: ties and directions at 1 + 2^-24, overflow, the integer bounds, and blocks of E2M1 and of E8M0 scales
theorem test_number_formats :
    [Rm.rne, .rtz, .rdn, .rup, .rna].map (fun rm => fpEncode .f32 rm false (.fin (2 ^ 24 + 1) (-24))) =
      [0x3F800000, 0x3F800000, 0x3F800000, 0x3F800001, 0x3F800001] ∧
    [Rm.rne, .rtz, .rdn, .rup, .rna].map (fun rm => fpEncode .f32 rm false (.fin (-1) 200)) = [0xFF800000, 0xFF7FFFFF, 0xFF800000, 0xFF7FFFFF, 0xFF800000] ∧
    [Rm.rne, .rtz, .rdn, .rup, .rna].map (fun rm => Fv.toInt rm (-128) 127 (.fin (-5) (-1))) = [-2, -2, -3, -2, -3] ∧
    fpEncode .f32 .rne true (.fin 1 (-149)) = 0 ∧ mxQuant 1 [.fin 5 0, .zero true, .fin (-1) (-1)] = (0x7F, [6, 8, 9]) ∧
    mxQuant 4 [.fin 3 0, .nan] = (0xFF, [0, 0]) ∧ (List.range 8).map (mxExpand 1) = [0, 1, 2, 3, 4, 6, 8, 12] := by
  and_intros <;> decide +kernel

def setW (s : State) (r : Reg) (xs : List Nat) : State :=
  { s with hart := s.hart.setW r (Vector.ofFn fun i : Fin 64 => BitVec.ofNat 32 (xs.getD i.val 0)) }
/-- w1 = 1.5, -2.0; w2 = 2.25, 0.5; w3 = 1.0, 0; w4 = 1, 0; w5 = the first integer below overflow, -1. -/
def wordDemo : State :=
  setW (setW (setW (setW (setW demoE 1 [0x3FC00000, 0xC0000000]) 2 [0x40100000, 0x3F000000]) 3 [0x3F800000]) 4 [1]) 5 [0x7FFFFFFF, 0xFFFFFFFF]
def wordsOf (r : Reg) (n : Nat) (t : State) : List W32 := (t.hart.w r).toList.take n

theorem witness_WordArithmeticResults :
    wordDemo.WordIssues [] [] ∧ wordDemo.pfxSat = 0 ∧ (setPfx wordDemo 1).WordIssues [] [] ∧ (setPfx wordDemo 2).WordIssues [] [] := by
  and_intros <;> decide

-- Expected values by hand from R54 to R60 and R231 to R235
theorem test_word_arithmetic :
    ([(.wadd .f32 3 1 2, [0x40700000, 0xBFC00000]), (.wsub .f32 3 1 2, [0xBF400000, 0xC0200000]), (.wmul .f32 3 1 2, [0x40580000, 0xBF800000]),
      (.wfma .f32 3 1 2, [0x408C0000, 0xBF800000]), (.wmin .f32 3 1 2, [0x3FC00000, 0xC0000000]), (.wmax .f32 3 1 2, [0x40100000, 0x3F000000]),
      (.wun .neg .f32 3 1, [0xBFC00000, 0x40000000]), (.wun .abs .f32 3 1, [0x3FC00000, 0x40000000]), (.wcvt .i32 .f32 3 1, [2, 0xFFFFFFFE]),
      (.wcvt .bf16 .f32 3 1, [0x3FC0, 0xC000]), (.wcvt .f32 .i32 3 4, [0x3F800000, 0]), (.wcmp .lt .f32 3 1 2, [0xFFFFFFFF, 0xFFFFFFFF]),
      (.wcmp .ltu .i32 3 5 2, [0, 0]), (.wsel 3 1 2, [0x3FC00000, 0x3F000000]), (.wperm 3 1 4, [0xC0000000, 0x3FC00000])] :
      List (Instr × List W32)).all (fun p => shows (exec p.1 wordDemo) (wordsOf 3 2) p.2) = true := by decide +kernel

theorem test_word_integers :
    shows (exec (.wadd .i32 3 5 4) wordDemo) (wordsOf 3 2) [0x80000000, 0xFFFFFFFF] = true ∧
    shows (exec (.wadd .i32 3 5 4) (setPfx wordDemo 1)) (wordsOf 3 2) [0x7FFFFFFF, 0xFFFFFFFF] = true ∧
    shows (exec (.wmul .i32 3 5 5) wordDemo) (wordsOf 3 2) [1, 1] = true ∧
    shows (exec (.wmul .f32 3 1 2) demo) (fun t => t.me.tcause) 2 = true ∧
    shows (exec (.wsel 3 1 2) { wordDemo with hart := { wordDemo.hart with residue := 2 } }) (fun t => t.me.tcause) 0x0B = true := by
  and_intros <;> decide +kernel

/-- s4 names the partition's byte 64, s5 its byte 65, s6 memory; s8 = -3. -/
def wordMem : State := setS wordDemo [(4, 0xFFFFFFFF00000040), (5, 0xFFFFFFFF00000041), (6, 0x10000), (7, 0xFFFFFFFF00003F00), (8, -3)]
/-- The block of R67's example in w6, and the element format E2M1. -/
def mxDemo : State :=
  let s := setW wordMem 6 [0x40A00000, 0xBFA66666, 0x3E4CCCCD, 0x3F19999A]
  setW { s with me := { s.me with vtype := 0x4AF53 } } 7 [0x10B6]

theorem witness_WordMovementResults :
    wordMem.WordIssues [6] [] ∧ (0x10000 : Word).toNat < 0xFFFFFFFF00000000 ∧ wordMem.WordIssues [5] [] ∧ 0xFFFFFFFF00000041 % 4 ≠ 0 ∧
    wordMem.WordIssues [4] [] ∧ wordMem.WordIssues [4] [9] ∧ 0x40 + 64 * 4 ≤ wordMem.hart.scratchSize ∧
    wordMem.interlocked 0xFFFFFFFF00000040 256 false = false ∧ wordMem.interlocked 0xFFFFFFFF00000040 256 true = false ∧
    wordMem.hart.scratchSize = 0x3F00 + 64 * 4 ∧ wordMem.WordIssues [7] [] ∧ 0xFFFFFFFF00004000 % 4 = 0 ∧ 0xFFFFFFFF00000041 % 2 ≠ 0 ∧
    wordMem.WordIssues [5] [9] ∧ wordMem.WordIssues [6] [9] ∧ wordMem.hart.scratchSize < 0xFFFFFFFF00004000 - 0xFFFFFFFF00000000 + 64 * 4 ∧ wordMem.interlocked 0xFFFFFFFF00003F00 256 true = false ∧ wordMem.WordIssues [7] [9] ∧
    wordMem.WordIssues [] [] ∧ wordMem.WordIssues [4] [28] ∧ wordMem.WordIssues [4, 8] [] ∧ wordMem.me.xf = 0 ∧ mxDemo.me.xf ≠ 0 ∧
    wordMem.Fits .eOnly 1 ∧ popOk wordMem.isE 8 = true ∧ pushOk wordMem.isE 8 = true ∧
    mxDemo.WordIssues [8] [] ∧ mxDemo.WordIssues [] [8] := by
  and_intros <;> decide +kernel

theorem witness_WordMovementResults_sound : wordMem.Sound (.scratch 0x40) (64 * 4) := sound_of_none rfl _ _

theorem test_word_memory :
    let s : State := { wordMem with hart := { wordMem.hart with scratch := wordMem.hart.scratch.wr 0x40 4 0x44332211 } }
    shows (exec (.wld .f16 9 4 0) s) (wordsOf 9 2) [0x2211, 0x4433] = true ∧
    shows (exec (.wld .i32 9 5 0) s) (fun t => (t.me.tcause, t.me.tval)) (0x06, 0xFFFFFFFF00000041) = true ∧
    shows (exec (.wst .f32 1 4 9 0) s) (fun t => (t.hart.scratch.rd 0x40 8, t.me.reg 9)) (0xC00000003FC00000, 3) = true ∧
    shows (exec (.wst .f32 1 6 9 0) s) (fun t => t.me.tcause) 2 = true ∧
    shows (exec (.wst .f32 1 7 9 1) s) (fun t => (t.me.tcause, t.me.tval)) (8, 0xFFFFFFFF00004000) = true ∧
    shows (exec (.wst .bf16 1 5 9 0) s) (fun t => (t.me.tcause, t.me.tval)) (6, 0xFFFFFFFF00000041) = true := by
  and_intros <;> decide +kernel

theorem test_word_movement :
    let s := setS wordMem [(10, 1)]
    shows (exec (.wmov .ts .i32 9 5 10) s) (regOf 9) (-1) = true ∧ shows (exec (.wmov .ts .f32 9 5 10) s) (regOf 9) 0xFFFFFFFF = true ∧
    shows (exec (.wmov .st .i32 4 8 10) s) (wordsOf 4 3) [1, 0xFFFFFFFD, 0] = true ∧
    shows (exec (.wmov .bc .bf16 4 8 0) s) (wordsOf 4 2) [0xFFFD, 0xFFFD] = true ∧
    shows (exec (.wred .sum .i32 1 9 5) s) (wordsOf 9 2) [0x7FFFFFFE, 0] = true ∧
    shows (exec (.wred .maxu .i32 6 9 5) s) (wordsOf 9 2) [0xFFFFFFFF, 0] = true ∧
    shows (exec (.wred .max .f32 1 9 1) s) (wordsOf 9 2) [0x3FC00000, 0] = true := by
  and_intros <;> decide +kernel

-- R237's example, and its codes 6, B, 0, 1 read back under the scale 0x7F
theorem test_quantise :
    shows (exec (.wq false 9 6 8) mxDemo) (fun t => (wordsOf 9 2 t, t.me.reg 8)) ([0x10B6, 0], 0x7F) = true ∧
    shows (exec (.wq true 9 7 10) (setS mxDemo [(10, 0x7F7F)])) (wordsOf 9 4) [0x40800000, 0xBFC00000, 0, 0x3F000000] = true ∧
    shows (exec (.wq true 9 7 10) wordMem) (fun t => t.me.tcause) 0x0E = true := by
  and_intros <;> decide +kernel

-- Matrix engine: the integer tile of 07

def matDesc : Vector Word 8 := #v[0x0001004000000000, 0x0101000300010003, 0x02010101, 0x100, 0x0000004000000040, 0, 0, 0]
/-- The descriptor at 0, three rows of 64 bytes at 0x100, a 3 by 2 tile at 0x200, B in v8; s4 names the descriptor, s5 the tile. -/
def matDemo : State :=
  let s := setS demoE [(4, 0xFFFFFFFF00000000), (5, 0xFFFFFFFF00000200), (6, 0xFFFFFFFF00000201), (7, 0xFFFFFFFF00003FC0)]
  let sp : Memory := (matDesc.toList.zipIdx.foldl (fun (m : Memory) p => m.wr (8 * p.2) 8 p.1.toNat) ([] : Memory)).puts 0x100 [2, 1] |>.puts 0x180 [7, 8]
  { s with
    me := { s.me with vtype := 0xDF33 }
    hart := { (s.hart.putElems 8 4 [(0, 3), (1, 14), (64, 1), (65, 5)]).setFull true [8] with
      scratch := sp.wr 0x200 8 0x0001000200030000 } }
def matSet : State := { matDemo with hart := { matDemo.hart with mcfg := some matDesc } }
/-- The operation that mma.z s5, s0, v8 posts. -/
def matOp (f c : Bool) : MatOp :=
  { id := 0, masked := false, fp32 := f, zero := true, cons := c, tile := 0x200, m0 := 0, kchunk := 0, breg := 8, cfg := matDesc, vtype := 0xDF33,
    sat := 0, rows := 3, cols := 2, pitch := 1, stage := .posted, chain := [] }
/-- The operation is the oldest, with `r` rows done. -/
def matRun (f : Bool) (r : Nat) : State := { matSet with hart := { matSet.hart with mq := [matOp f true], mprog := r } }

theorem witness_MatrixSetup :
    matDemo.Issues .eOnly 1 [4] [] ∧ matDemo.Issues .eOnly 1 [6] [] ∧ 0xFFFFFFFF00000201 % 64 ≠ 0 ∧ 0xFFFFFFFF00000000 % 64 = 0 ∧
    matDemo.hart.scratchSize = 0x3FC0 + 64 ∧ matDemo.interlocked 0xFFFFFFFF00000000 64 false = false ∧
    matDesc[0].toNat / 4 % 64 = 0 ∧ (mcfgOf matDesc).c = 64 ∧ (mcfgOf matDesc).ow = 1 ∧ (mcfgOf matDesc).af = 0 ∧ mcfgBad matDesc = none ∧
    mcfgBad (matDesc.set 7 1) = some 56 ∧ matDemo.Fits .eOnly 1 ∧ matDemo.hart.mhalt = none ∧ matDemo.Issues .eOnly 1 [] [9] ∧
    { matDemo.hart with mhalt := some 0xFFFFFFFF00000100 }.mtold = none ∧ ({ matDemo.hart with mtold := some 0 } : Hart).mtold ≠ none := by
  and_intros <;> decide +kernel

theorem witness_MatrixPosting :
    matSet.Issues .eOnly 1 [0, 5] [] ∧ matSet.Issues .eOnly 1 [0, 6] [] ∧ matSet.hart.mcfg = some matDesc ∧ (mcfgOf matDesc).bf = 0 ∧
    (0xFFFFFFFF00000200 : Word).toNat % 16 = 0 ∧ matSet.interlocked 0xFFFFFFFF00000200 16 true = false ∧
    BitVec.ofNat 64 (matSet.hart.scratch.rd 0x200 8) = 0x0001000200030000 ∧ 2 ≤ 16384 / 2 ^ matSet.hart.lph.toNat / 64 / (mcfgOf matDesc).ks ∧
    (matOp false false).view.check matSet.hart false = none ∧ matSet.hart.mq.length < 32 ∧ matSet.hart.full 8 = true ∧
    matSet.hart.full 9 = false ∧ matSet.hart.ilocks.length < 32 ∧
    matSet.tileWaits 0x200 3 2 1 [] = false ∧ (matSet.hart.mhalt = none ∨ matSet.hart.mtold ≠ none) ∧
    ({ matSet with hart := { matSet.hart with ilocks := [⟨.cmd 0, 0xFFFFFFFF00000224, 4, false⟩] } } : State).tileWaits 0xFFFFFFFF00000200 3 2 1 [] = true ∧
    ({ matSet with hart := { matSet.hart with ilocks := [⟨.cmd 0, 0xFFFFFFFF00000224, 4, false⟩] } } : State).tileWaits 0xFFFFFFFF00000200 3 2 1 [0] = false ∧
    pushOk matSet.isE 9 = true ∧ popOk matSet.isE 5 = true ∧ matWidthBad (mcfgOf matDesc) matSet.me true = false ∧
    ({ (matOp false false).view with f := { mcfgOf matDesc with abase := 0xFFFF } } : MatView).check matSet.hart false ≠ none := by
  and_intros <;> decide +kernel

/-- The same operation with E2M1 elements in A and B. -/
def mxOp : MatOp := { matOp true true with cfg := (matDesc.set 0 (matDesc[0] ||| 0x1100)).set 5 0x0000030000000280 }
/-- The scales: 2^2 for A's row 0 at 0x280, 2^-1 for the columns at 0x300 and 0x321 (R66). -/
def matMx (r : Nat) : State :=
  { matSet with hart := { matSet.hart with
      mq := [mxOp], mprog := r, scratch := ((matSet.hart.scratch.puts 0x280 [0x81]).puts 0x300 [0x7E]).puts 0x321 [0x7E] } }

theorem witness_MatrixRowResults :
    (matRun false 0).hart.mq = [matOp false true] ∧ (matRun false 0).held = false ∧ (matOp false true).stage ≠ .consumed ∧
    (matRun false 0).hart.mhalt = none ∧ (matRun false 0).hart.laneBusy = 0 ∧ (matRun false 0).hart.tests = [] ∧ (matRun false 0).matrixWaits (matOp false true) = false ∧
    (matRun false 2).hart.mprog < (matOp false true).rows ∧ (matRun false 2).hart.rowError (matOp false true) 2 = none ∧
    (matRun false 0).hart.rowError (matOp false true) 0 = none ∧
    (matMx 0).hart.mq = [mxOp] ∧ (matMx 0).held = false ∧ mxOp.fp32 = true ∧ (matMx 0).matrixWaits mxOp = false ∧ (matMx 0).hart.mprog < mxOp.rows ∧
    (matMx 0).hart.rowError mxOp 0 = none ∧ (mcfgOf mxOp.cfg).af ≠ 0 ∧ (mcfgOf mxOp.cfg).bf ≠ 0 := by
  and_intros <;> decide +kernel

/-- A fence of the E-stream meets an operation that has rows to read (R146, R329). -/
theorem witness_FenceAndCacheResults_operations :
    (matRun false 0).Fits .both 1 ∧ (matRun false 0).opsUnread = true ∧ (matRun false 0).orderWaits true false .core = some .engine := by
  and_intros <;> decide +kernel

/-- A halted operation stands for the mode-S stream that names its resume row (R229). -/
def haltedS : State := { matRun false 0 with me := { (matRun false 0).me with mode := .s }, hart := { (matRun false 0).hart with mhalt := some 0 } }

theorem witness_SystemRegisterResults_halted :
    haltedS.Issues .both 1 [4] [] ∧ haltedS.me.mode = .s ∧ haltedS.hart.mq ≠ [] ∧ haltedS.hart.mhalt ≠ none ∧ demo.me.mode = .u := by
  and_intros <;> decide +kernel

theorem test_engine_registers :
    let ch : Channel := { Channel.idle with flt := true, oob := some (5, 1), rperr := some 2, abt := some ⟨false, 1, 4⟩, cpwp := 9 }
    let s := { demo with core := { demo.core with chans := demo.core.chans.set 1 ch } }
    shows (exec (.mtsr 4 0x048) (setS s [(4, 0x0600)])) (fun t => t.core.chans[1]) { ch with flt := false, oob := none } = true ∧
    shows (exec (.mtsr 4 0x048) (setS s [(4, 0x1806)])) (fun t => t.core.chans[1]) { ch with rperr := none, abt := none } = true ∧
    shows (exec (.mtsr 4 0x041) (setS s [(4, 77)])) (fun t => t.core.chans[1].cpwp) 9 = true ∧
    shows (exec (.mtsr 4 0x030) (setS haltedS [(4, 2)])) (fun t => t.hart.mprog) 2 = true ∧
    shows (exec (.mtsr 4 0x030) (setS demo [(4, 2)])) (fun t => (t.hart.mprog, t.me.tcause)) (0, 0) = true := by
  and_intros <;> decide +kernel

theorem test_mcfg :
    shows (exec (.mcfg 4) matDemo) (fun t => t.hart.mcfg) (some matDesc) = true ∧
    shows (exec (.mcfg 7) matDemo) (fun t => (t.me.tcause, t.me.tval)) (1, 4) = true := by
  and_intros <;> decide +kernel

-- The trace of 07: D becomes (4, 7), (0, 0), (5, 47) in 4, 1 and 8 cycles
theorem test_mma :
    shows (exec (.mma false false true 5 0 8) matSet) (fun t => (t.hart.mq, t.hart.scratch.rd 0x200 8)) ([matOp false false], 0x0001000200030001) = true ∧
    shows (exec (.mma false false false 5 0 8) matSet) (fun t => (t.me.tcause, t.me.tval)) (0x0D, 0xFFFFFFFF00000200) = true ∧
    shows (exec (.mmas false true true 5 0 8) matSet) (fun t => (t.hart.mq.map (·.masked), t.hart.scratch.rd 0x200 2)) ([true], 2) = true ∧
    shows (exec (.mmas false false true 5 0 9) matSet) (fun t => t.me.wait) (some (.presence false 9)) = true := by
  and_intros <;> decide +kernel

theorem test_matrix_rows :
    let d (r : Nat) (t : State) : Nat × Nat × Nat × Bool := (t.hart.scratch.rd (0x210 + 16 * r) 4, t.hart.scratch.rd (0x214 + 16 * r) 4, t.hart.laneBusy, t.hart.full 8)
    shows (exec .matrixRowStep (matRun false 0)) (d 0) (4, 7, 4, true) = true ∧ shows (exec .matrixRowStep (matRun false 1)) (d 1) (0, 0, 1, true) = true ∧
    shows (exec .matrixRowStep (matRun false 2)) (d 2) (5, 47, 8, false) = true ∧
    shows (exec .matrixRowStep (matRun true 0)) (d 0) (0x40800000, 0x40E00000, 4, true) = true ∧
    -- (4, 7) quarters of E2M1 products under 2^2 and 2^-1
    shows (exec .matrixRowStep (matMx 0)) (fun t => (t.hart.scratch.rd 0x210 4, t.hart.scratch.rd 0x214 4)) (0x40000000, 0x40600000) = true := by
  and_intros <;> decide +kernel

-- The example of R69: -0.3125 and 37 on 1.5 and on 16,777,216
theorem test_mx_accumulation :
    addRounded 0x3FC00000 (.fin 587 (-4)) = 0x4218C000 ∧ addRounded 0x4B800000 (.fin 587 (-4)) = 0x4B800012 := by decide +kernel

theorem test_matrix_progress :
    let s := matRun false 2
    let halted : State := { s with hart := { s.hart with mhalt := some 0xFFFFFFFF00000100 } }
    shows (exec (.mprog 9) s) (regOf 9) 0x100000002 = true ∧ shows (exec (.mwait true 4) (setS s [(4, 0)])) (fun t => t.me.wait) (some .engine) = true ∧
    shows (exec (.mwait true 4) (setS s [(4, 1)])) (fun t => t.me.pc) 0x10008 = true ∧
    shows (exec .mclr s) (fun t => (t.hart.mq, t.hart.mprog, t.hart.full 8)) ([], 0, false) = true ∧
    shows (exec (.mprog 9) halted) (fun t => (t.me.tcause, t.me.tval, t.hart.mtold)) (0x0B, 0xFFFFFFFF00000100, some 0x10004) = true ∧
    shows (exec .matrixDone { s with hart := { s.hart with mq := [{ matOp false true with stage := .consumed }] } }) (fun t => t.hart.mq) [] = true := by
  and_intros <;> decide +kernel

theorem witness_TransposeResults :
    laneDemo.hart.residue < 2 ∧ { laneDemo.hart with residue := 1 }.residue < 2 ∧ laneDemo.LaneIssues ⟨[⟨2, laneDemo.me.wA, true⟩], none, true, 0⟩ [5] [] ∧ laneDemo.LaneIssues ⟨[], some (6, laneDemo.me.wD), true, 0⟩ [5] [] := by
  and_intros <;> decide +kernel

-- A = 1, -2, 7, 0; D has 16 bits and sign (R238, R239)
theorem test_transposes :
    let s := setW laneDemo 5 [0x7FFFFFFF, 0xFFFFFFFF, 0xC0200000, 0x3F000000]
    shows (exec (.vtow false .i32 9 2 0) s) (wordsOf 9 4) [1, 0xFFFFFFFE, 7, 0] = true ∧
    shows (exec (.vtow true .f32 9 2 0) s) (fun t => (wordsOf 9 4 t, t.hart.full 2)) ([0x3F800000, 0xC0000000, 0x40E00000, 0], false) = true ∧
    shows (exec (.wtov .i32 6 5 0) { s with me := { s.me with vtype := 0xAF53 ||| 0x10000 } }) (fun t => (lanesOf 6 16 true t).take 2) [0x7FFF, -1] = true ∧
    shows (exec (.wtov .f32 6 5 0) s) (fun t => (lanesOf 6 16 true t).drop 2) [-2, 0] = true := by
  and_intros <;> decide +kernel

-- Key table, windows, rings, pools, links

/-- Keys 7, 9, 9 in lanes 0 to 2 of v2, values 1, 2, 3 in v3; mask 1 takes these lanes. -/
def keyDemo (t : KeyTab) : State :=
  let s := setV (setV laneDemo 2 4 [7, 9, 9, 0]) 3 6 [1, 2, 3, 4]
  { s with hart := { s.hart with masks := s.hart.masks.set 1 0b0111 }, core := { s.core with keytab := t } }
def smallTab : KeyTab := [(9, 5), (3, 0xFFFFFFFF)]

theorem witness_KeyTableResults :
    (keyDemo smallTab).LaneIssues ⟨[⟨2, laneDemo.me.wA, true⟩, ⟨3, laneDemo.me.wB, false⟩], none, true, 0⟩ [] [] ∧
    (keyDemo smallTab).LaneIssues ⟨[⟨2, laneDemo.me.wA, true⟩], some (6, laneDemo.me.wD), true, 0⟩ [] [] ∧ (keyDemo smallTab).Fits .eOnly 1 ∧
    (keyDemo smallTab).core.keytab.length ≤ 4096 ∧ (keyDemo smallTab).core.keytab ≠ [] ∧ (keyDemo []).core.keytab = [] ∧
    (setS (keyDemo []) [(4, 0xFFFFFFFF00080000)]).Issues .eOnly 1 [4] [9] ∧
    (setS (keyDemo []) [(4, 0xFFFFFFFF00080000)]).interlocked 0xFFFFFFFF00080000 0 true = false ∧ keyFind smallTab 7 = none ∧ keyFind smallTab 9 ≠ none ∧
    (let s := setS (keyDemo smallTab) [(4, 0xFFFFFFFF00003FF0), (5, 0xFFFFFFFF00003FF8), (6, 0x10000), (7, 0xFFFFFFFF00000004)]
     s.Issues .eOnly 1 [4] [9] ∧ s.hart.scratchSize = 0x3FF0 + 8 * 2 ∧ s.interlocked 0xFFFFFFFF00003FF0 16 true = false ∧
       s.Issues .eOnly 1 [5] [9] ∧ s.Issues .eOnly 1 [6] [9] ∧ s.Issues .eOnly 1 [7] [28]) := by
  and_intros <;> decide +kernel

-- The example of R269: 4,095 entries, none with key 7 or 9
theorem test_kins_fills_the_table :
    shows (exec (.kins false false 1 3 2 3) (keyDemo ((List.range 4095).map fun i => (BitVec.ofNat 32 (i + 100), 0))))
      (fun t => (t.core.keytab.length, t.core.keytab.getD 4095 (0, 0), t.hart.masks[3])) (4096, (7, 1), 0b110) = true := by decide +kernel

theorem test_key_table :
    let s := setS (keyDemo smallTab) [(4, 0xFFFFFFFF00000010)]
    shows (exec (.kins true false 1 3 2 3) s) (fun t => (t.core.keytab, t.hart.masks[3], t.hart.full 3)) ([(9, 3), (3, 0xFFFFFFFF), (7, 1)], 0, false) = true ∧
    shows (exec (.kacc .add false false 1 3 2 3) s) (fun t => t.core.keytab) [(9, 10), (3, 0xFFFFFFFF), (7, 1)] = true ∧
    shows (exec (.klook false 1 6 2 3) s) (fun t => (lanesOf 6 16 true t, t.hart.masks[3])) ([0, 5, 5, 0], 0b110) = true ∧
    shows (exec (.kdrain 9 4) s) (fun t => (t.hart.scratch.rd 0x10 8, t.hart.scratch.rd 0x18 8, t.me.reg 9)) (0x0000000500000009, 0xFFFFFFFF00000003, 2) = true ∧
    shows (exec (.kdrain 9 4) (setS (keyDemo []) [(4, 0xFFFFFFFF00080000)])) (fun t => (t.me.tcause, t.me.reg 9, t.me.pc)) (0, 0, 0x10008) = true ∧
    shows (exec .kclr s) (fun t => t.core.keytab) [] = true ∧ shows (exec (.kdrain 9 5) (setS s [(5, 12)])) (fun t => t.me.tcause) 2 = true := by
  and_intros <;> decide +kernel

/-- The demo VD with two windows; window 1 holds two records of step 5 of timer 0, whose grid is the hart's, and one untaken record. -/
def winVd : Vd :=
  let w : Window := { base := 0x40000, ctl := 0, hold := 0, cnt := 0x0000000200000001, accepted := 3, lastSlot := 5, cut := none, held := []
                      slots := [⟨3, 100, 0, .assigned (0, 5), false⟩, ⟨4, 90, 1, .assigned (0, 5), false⟩, ⟨5, 80, 2, .untaken, false⟩] }
  { vdOne with
    st := .active, vdcfg := 2 * 2 ^ 16, wins := vdOne.wins.set 1 w
    timers := vdOne.timers.set 0 { vdOne.timers[0] with period := 1000, phase := 200, guardNs := 50, k := 5, fired := some (5150, 5200), running := some ⟨5, some 1, [1]⟩ } }
def winDemo : State :=
  { setS demo [(4, 1)] with
    vds := [winVd], grids := [⟨1, 1, Vector.replicate 16 0, 0, 0, 0, .running, false, none, [], 1, 0, false, 0, some (0, 5)⟩] }
/-- One record is taken. -/
def winTaken : State :=
  { winDemo with vds := [{ winVd with wins := winVd.wins.set 1 { winVd.wins[1] with slots := [⟨3, 100, 0, .taken (0, 5), false⟩, ⟨4, 90, 1, .taken (0, 5), false⟩] } }] }

theorem witness_WindowInstructionResults :
    winDemo.vd? = some winVd ∧ winDemo.Issues .aOnly 1 [] [4] ∧ 1 < winVd.vdcfg.toNat / 2 ^ 16 % 2 ^ 11 ∧ ¬ 2 < winVd.vdcfg.toNat / 2 ^ 16 % 2 ^ 11 ∧
    (∃ r, winVd.timers[0].running = some r ∧ r.k = 5 ∧ 1 ∈ r.wins) ∧ winDemo.gridStep winVd 1 = some (0, 5) ∧ winDemo.gridStep winVd 0 = none ∧
    (∃ x ∈ winVd.wins[1].slots, x.st = .assigned (0, 5)) ∧ (∀ x ∈ winVd.wins[0].slots, x.st ≠ .assigned (0, 5)) ∧
    (∀ j : Fin 16, j ≠ 0 → winVd.timers[j].running = none) ∧ winVd.timers[0].fired = some (5150, 5200) ∧ winVd.timers[1].fired = none ∧
    4 ≤ (4 : BitVec 3).toNat ∧ 16 ≤ (16 : BitVec 6).toNat ∧ (3 : BitVec 3).toNat ≤ 3 ∧ winDemo.Issues .aOnly 1 [4] [24] ∧
    winDemo.orderWaits false true .die = none ∧ winDemo.orderWaits true false .die = none ∧
    ((winTaken.vds.flatMap fun v => v.wins[1].slots.map (·.slot)).Nodup) := by
  refine ⟨rfl, by decide, by decide, by decide, ⟨_, rfl, by decide⟩, by decide +kernel, by decide +kernel, ⟨_, .head _, rfl⟩, ?_⟩
  and_intros <;> decide +kernel

theorem test_windows :
    shows (exec (.twin false 1 0 8) winDemo) (regOf 8) 2 = true ∧ shows (exec (.twin false 1 1 8) winDemo) (regOf 8) 1 = true ∧
    shows (exec (.twin true 0 1 8) winDemo) (regOf 8) 5150 = true ∧ shows (exec (.twin true 0 3 8) winDemo) (regOf 8) 5200 = true ∧ shows (exec (.twin false 2 0 8) winDemo) (fun t => t.me.tcause) 0x08 = true ∧
    shows (exec (.twtake 1 8) winDemo) (fun t => (regOf 8 t, t.vds.map fun v => v.wins[1].slots.map (·.st))) (0x40100, [[.assigned (0, 5), .taken (0, 5), .untaken]]) = true ∧
    shows (exec (.twtake 0 8) winDemo) (fun t => t.me.tcause) 0x08 = true ∧
    shows (exec (.twin true 16 0 8) winDemo) (fun t => t.me.tcause) 0x08 = true ∧ shows (exec (.twin true 0 4 8) winDemo) (fun t => t.me.tcause) 0x01 = true ∧
    shows (exec (.twack 1 8 4) winTaken) (fun t => (regOf 8 t, t.vds.map fun v => v.wins[1].slots.map (·.slot))) (1, [[3]]) = true := by
  and_intros <;> decide +kernel

/-- A pool at 0x10200 with 10 of 16 pages free and 8 reserved, its stack at 0x10400; a ring at 0x10300 of two pages, its list at 0x10500;
s4 names the pool, s5 the ring, s6 asks for 3 pages into the partition, s7 returns a page. -/
def poolDemo : State :=
  let s := setS demo [(4, 0x10200), (5, 0x10300), (6, 0xFFFFFFFF00000042), (7, 0x70000), (8, 0x70001)]
  let ws : List (Nat × Nat) :=
    [(0x10200, 0x000000100000000A), (0x10208, 8), (0x10210, 0x10400), (0x10300, 0x0000000000000002), (0x10308, 100), (0x10310, 16), (0x10318, 0x10500),
     (0x10438, 0x80000), (0x10440, 0x90000), (0x10448, 0xA0000), (0x10500, 0x10000), (0x10508, 4), (0x10510, 0x20000)]
  ws.foldl (fun s p => setMem s p.1 8 p.2) s
def ringFull : State := setMem poolDemo 0x10300 8 0x0000000200000002

theorem witness_RingAndPoolResults :
    poolDemo.orderWaits true false .module = none ∧ poolDemo.Issues .aOnly 1 [5] [9] ∧ poolDemo.Issues .aOnly 1 [4, 6] [9] ∧
    chkAnd ((poolDemo.popped [5]).bankAddr 0x10300 64 true) (fun x => decide (x.1 = 0x10300 ∧ (x.2.release .module).poisoned x.1 64 = false ∧
      ringBad ((x.2.release .module).readDesc8 x.1).1 = false ∧
      chkAnd (((x.2.release .module).readDesc8 x.1).2.bankWords true [0x10500, 0x10508] []) (fun y => y.1 == [0x10500, 0x10508] && !y.2.poisoned 0x10500 16 &&
        decide ((y.2.beforeHome 0x10500 16).mem.rd 0x10500 8 % 65536 = 0)) = true)) = true ∧
    chkAnd ((ringFull.popped [5]).bankAddr 0x10300 64 true) (fun x =>
      chkAnd (((x.2.release .module).readDesc8 x.1).2.bankWords true [0x10500, 0x10508] []) (fun y =>
        ((y.2.beforeHome 0x10500 16).walkWaits 0x10000 .read true).isNone &&
        okAnd ((y.2.beforeHome 0x10500 16).translate 0x10000 .read true true) fun _ pte _ => !pteSink pte)) = true ∧
    chkAnd ((poolDemo.popped [4, 6]).bankAddr 0x10200 64 true) (fun x => decide (poolBad ((x.2.release .module).readDesc8 x.1).1 = false) &&
      chkAnd (x.2.bufferLocs [0xFFFFFFFF00000040, 0xFFFFFFFF00000048, 0xFFFFFFFF00000050] []) (fun y => y.1.length == 3 &&
        !(y.2.release .module).poisoned x.1 64) &&
      chkAnd (((x.2.release .module).readDesc8 x.1).2.bankWords true [0x10448, 0x10440, 0x10438] []) (fun y => y.1 == [0x10448, 0x10440, 0x10438] &&
        y.1.all fun z => !y.2.poisoned z 8)) = true ∧
    chkAnd ((poolDemo.popped [4, 7]).bankAddr 0x10200 64 true) (fun x =>
      chkAnd (((x.2.release .module).readDesc8 x.1).2.bankWords true [0x10450] []) (fun y => y.1 == [0x10450] && !y.2.poisoned 0x10450 8)) = true ∧
    poolDemo.LinesOnce ∧ 0x10448 / 128 ≠ 0x10200 / 128 ∧ 0x10448 % 8 = 0 ∧ 0x10200 % 64 = 0 ∧ 0x10200 + 64 ≤ 0x10448 := by
  and_intros <;> decide +kernel

-- The example of R280: FREE = 10 and RESV = 8, three pages asked for
theorem test_pools :
    shows (exec (.pgget false 9 4 6) poolDemo) (fun t => (regOf 9 t, t.mem.rd 0x10200 4)) (0x8000000000000001, 10) = true ∧
    shows (exec (.pgget true 9 4 6) poolDemo) (fun t => (regOf 9 t, t.mem.rd 0x10200 4, t.hart.scratch.rd 0x40 8, t.hart.scratch.rd 0x50 8)) (7, 7, 0xA0000, 0x80000) = true ∧
    shows (exec (.pgput 9 4 7) poolDemo) (fun t => (regOf 9 t, t.mem.rd 0x10200 8, t.mem.rd 0x10450 8)) (11, 0x000000100000000B, 0x70000) = true ∧
    shows (exec (.pgput 9 4 8) poolDemo) (regOf 9) 0x8000000000000002 = true := by
  and_intros <;> decide +kernel

theorem test_rings :
    shows (exec (.kvapp 9 5) poolDemo) (fun t => (regOf 9 t, t.mem.rd 0x10300 8, t.mem.rd 0x10308 8, t.mem.rd 0x10508 8)) (0x10000, 0x0000000100000002, 116, 100) = true ∧
    shows (exec (.kvapp 9 5) ringFull) (fun t => (regOf 9 t, t.mem.rd 0x10300 8, t.mem.rd 0x10320 8)) (0x10001, 0x0001000200000002, 4) = true ∧
    shows (exec (.kvapp 9 5) (setMem ringFull 0x10300 8 0x0000000200020002)) (regOf 9) 0x8000000000000001 = true ∧
    shows (exec (.kvapp 9 4) poolDemo) (regOf 9) 0x8000000000000002 = true := by
  and_intros <;> decide +kernel

/-- Endpoint 7 is configured, with one message that came; s4 names the partition, s6 is 4. -/
def linkVd (n : Nat) : Vd :=
  { vdOne with st := .active, eps := [(7, ⟨some ⟨1, 2, [0], 3, false⟩, List.replicate n ⟨[1], ⟨1, 1, 0⟩, 0, none⟩, [[5, 6]], false⟩)] }
def linkDemo (n : Nat) : State := { setS atPage [(4, 0xFFFFFFFF00000040), (6, 4)] with vds := [linkVd n], mem := Memory.wr [] 0x10100 4 0x04030201 }

/-- A linked copy to the endpoint was issued before and has not entered it. -/
def linkedDemo : State :=
  let s := linkDemo 0
  let c : CopyCmd := { id := 0, hart := s.hart.id, user := true, kind := .cpy (some 7), dst := 0, src := 0x10180, len := 8, span := 8, tb := 1, phase := false
                       started := false, pos := 0, counted := 8, more := false, credited := 0, got := [], gj := 0, gx := 0, gt := 0, before := none }
  { s with nextId := 1, core := { s.core with chans := s.core.chans.set 0 { Channel.idle with queue := [c] } } }

theorem witness_LinkInstructionResults :
    (linkDemo 0).vd? = some (linkVd 0) ∧ ((linkVd 0).eps.find? fun x => x.1 = 7).isSome = true ∧ (linkDemo 0).Issues .aOnly 1 [5, 6] [] ∧
    (linkDemo 0).Issues .aOnly 1 [4] [24] ∧ (linkDemo 0).Fits .aOnly 1 ∧ (linkVd 7).eps.map (fun x => x.2.out.length) = [7] ∧
    chkAnd (((linkDemo 0).popped [5, 6]).messageRange 0x10100 4 .read true) (fun x =>
      ((x.2.rangesHome x.1 [⟨0x10100, 4, false⟩]).rangesPoison x.1 [⟨0x10100, 4, false⟩]).isNone) = true ∧ (linkDemo 0).linkBefore 7 0 = false ∧
    linkedDemo.linkBefore 7 linkedDemo.nextId = true ∧ linkedDemo.Issues .aOnly 1 [5, 6] [] ∧
    chkAnd ((linkedDemo.popped [5, 6]).messageRange 0x10100 4 .read true) (fun _ => true) = true ∧
    chkAnd (((linkDemo 0).popped [4]).messageRange 0xFFFFFFFF00000040 2 .write true) (fun _ => true) = true ∧
    (linkDemo 0).Issues .aOnly 1 [5] [24] ∧ ([5, 6] : List Byte).length ≤ 65536 ∧
    chkAnd (((linkDemo 0).popped [5]).messageRange 0x10100 2 .write true) (fun x => decide x.2.LinesOnce && x.1.length == 1 &&
      (match pageTo x.1 0x10101 with | some (.mem b) => b + 0x10101 % 65536 == 0x10101 | _ => false)) = true ∧ (0 : Word).toNat = 0 ∧ 65536 < (65537 : Word).toNat := by
  and_intros <;> decide +kernel

theorem test_links :
    shows (exec (.send 7 5 6) (linkDemo 0)) (fun t => t.vds.map fun v => v.eps.map fun x => x.2.out.map (·.bytes)) [[([[1, 2, 3, 4]] : List (List Byte))]] = true ∧
    shows (exec (.send 7 5 6) (linkDemo 8)) (fun t => t.me.wait) (some .channel) = true ∧
    shows (exec (.send 7 5 6) linkedDemo) (fun t => t.me.wait) (some .channel) = true ∧ shows (exec (.send 8 5 6) (linkDemo 0)) (fun t => t.me.tcause) 0x08 = true ∧
    shows (exec (.recv 7 8 4) (linkDemo 0)) (fun t => (regOf 8 t, t.hart.scratch.rd 0x40 2, t.vds.flatMap fun v => v.eps.flatMap fun x => x.2.inn)) (2, 0x0605, []) = true ∧
    shows (exec (.recv 7 8 5) (linkDemo 0)) (fun t => (regOf 8 t, t.mem.rd 0x10100 4)) (2, 0x04030605) = true ∧
    shows (exec (.lnkwait 7) (linkDemo 0)) (fun t => t.me.wait) none = true ∧ shows (exec (.lnkwait 7) (linkDemo 1)) (fun t => t.me.wait) (some .remote) = true := by
  and_intros <;> decide +kernel

-- Copies

/-- s5 names 0x10100 and s7 the partition's byte 16; s6 = 16 bytes, s10 the strides of cpys, s11 a scale layout, s12 a gather's rows. -/
def copyDemo : State :=
  setMem (setS atPage [(4, 0x10180), (6, 16), (7, 0xFFFFFFFF00000000), (9, 0x10140), (10, 0x0000000200000002), (11, 0xFFFFFFFF00000400), (12, 0x0000000400010010), (13, 0), (14, 512)])
    0x10100 16 0x000000000000000000000000000010B6
def ops (d : Reg) : CopyOps := { ch := 0, tb := 1, b := 6, a := 5, d := d }
def Okay {α β : Type} (r : Except α β) : Bool := match r with | .ok _ => true | .error _ => false
/-- The copy command runs on channel 0 at its position 0. -/
def copying1 (k : CopyKind) (dst src len : Nat) : State :=
  let c : CopyCmd := { id := 0, hart := demo.hart.id, user := true, kind := k, dst := dst, src := src, len := len, span := len, tb := 1, phase := false
                       started := true, pos := 0, counted := len, more := false, credited := 0, got := [], gj := 0, gx := 0, gt := 0, before := none }
  { copyDemo with core := { copyDemo.core with chans := copyDemo.core.chans.set 0 { Channel.idle with queue := [c] } }, nextId := 1 }

theorem witness_CopyIssueResults :
    copyDemo.Issues .aOnly 2 [5, 6, 7] [] ∧ Okay (copyDemo.cpyReq false 0x10100 16 0xFFFFFFFF00000000) = true ∧
    Okay (copyDemo.cpyReq false 0x10100 (2 ^ 39) 0xFFFFFFFF00000000) = false ∧ copyDemo.Issues .aOnly 2 [5, 6, 10, 7] [] ∧
    Okay (copyDemo.cpysReq 2 0x10100 16 0x0000000200000002 0xFFFFFFFF00000000) = true ∧
    Okay (copyDemo.cpytReq false false 1 1 0 0 0x10100 16 0 0xFFFFFFFF00000000) = true ∧ copyDemo.Issues .aOnly 2 [5, 6, 11, 7] [] ∧
    Okay (copyDemo.cpytReq false false 2 1 0 1 0x10100 16 0xFFFFFFFF00000400 0xFFFFFFFF00000000) = true ∧
    Okay (copyDemo.cpyoReq false false .addi 0 0 0x10100 16 0 0x10180) = true ∧
    Okay (copyDemo.cpyoReq false true .none 1 1 0x10100 128 0xFFFFFFFF00000400 0xFFFFFFFF00000000) = true ∧
    Okay (copyDemo.cpygReq 2 false false false 0 false 0 0x10100 0x10140 0x0000000400010010 0xFFFFFFFF00000000 [0x10140]) = true ∧
    (setQ copyDemo 24 [.val 1]).Issues .aOnly 2 [5, 12, 7] [] := by
  and_intros <;> decide +kernel

theorem witness_CopyIssueResults_state :
    (∃ r, copyDemo.cpyReq false 0x10100 16 0xFFFFFFFF00000000 = .ok r ∧ copyDemo.core.chans[0].queue.length < 8 ∧
      copyDemo.hart.ilocks.length + ((r.reads ++ r.writes).filter fun y => decide (y.2 ≠ 0)).length ≤ 32 ∧
      ¬ ((∃ y ∈ r.reads, copyDemo.interlocked y.1 y.2 false = true) ∨ ∃ y ∈ r.writes, copyDemo.interlocked y.1 y.2 true = true)) ∧
    0xFFFFFFFE00000000 - 1 + 1 ≤ 0xFFFFFFFE00000000 ∧ 2 ^ 39 - 1 < 2 ^ 39 := by
  refine ⟨⟨_, rfl, by decide, by decide, by decide +kernel⟩, by decide, by decide⟩

/-- A request that is refused with this trap. -/
def fails (r : Except TrapInfo CopyReq) (t : TrapInfo) : Bool := match r with | .error x => x == t | .ok _ => false

-- Ranges that run out of the windows, an odd lane register, a scale base, a table that is too long (R246 to R255)
theorem witness_CopyIssueResults_checks :
    let s := copyDemo
    let P := 0xFFFFFFFF00000000
    let L := 0xFFFFFFFE00000000
    let ill := TrapInfo.plain 0x01 s.insWord
    fails (s.cpyReq false L 16 P) (.addr 0x08 (BitVec.ofNat 64 L) .read) = true ∧
    fails (s.cpyReq false 0x10100 32 (L - 16)) (.addr 0x08 (BitVec.ofNat 64 L) .write) = true ∧
    fails (s.cpyReq false 0x10100 32 (P + 16368)) (.addr 0x08 (BitVec.ofNat 64 (P + 16384)) .write) = true ∧
    Okay (s.cpyReq false 0x10100 0 (P + 16385)) = true ∧
    fails (s.cpyReq true 0x10100 16 256) ill = true ∧ fails (s.cpyReq true L 16 7) (.addr 0x08 (BitVec.ofNat 64 L) .read) = true ∧
    fails (s.cpyReq true 0x10100 16 7) (.plain 0x08 s.insWord) = true ∧ Okay ((linkDemo 0).cpyReq true 0x10100 16 7) = true ∧
    fails (s.cpysReq 4 0x10100 16 0x0000000200000002 P) ill = true ∧
    fails (s.cpysReq 2 0x10100 4 (2 ^ 32 * 16384) (P + 16382)) (.addr 0x08 (BitVec.ofNat 64 (P + 32766)) .write) = true ∧
    fails (s.cpysReq 2 (L - 2) 4 0x0000000400000004 P) (.addr 0x08 (BitVec.ofNat 64 (L + 2)) .read) = true ∧
    -- rows that pass over the lane-store window meet none of its bytes
    Okay (s.cpysReq 2 (L - 2) 4 0x0000000400080002 P) = true := by
  and_intros <;> decide +kernel

theorem witness_CopyIssueResults_more_checks :
    let s := copyDemo
    let P := 0xFFFFFFFF00000000
    let L := 0xFFFFFFFE00000000
    let ill := TrapInfo.plain 0x01 s.insWord
    fails (s.cpytReq true false 0 0 0 0 0x10100 8 0 P) ill = true ∧ fails (s.cpytReq true false 0 0 0 0 0x10180 256 0 P) (.addr 0x06 0x10180 .read) = true ∧
    fails (s.cpytReq false true 0 0 16 0 0x10100 8 0 (L + 0x4000)) ill = true ∧
    fails (s.cpytReq false true 0 0 3 0 0x10100 8 0 (L + 32)) (.addr 0x06 (BitVec.ofNat 64 (L + 32)) .write) = true ∧
    fails (s.cpytReq false true 0 0 3 0 L 8 0 L) (.addr 0x08 (BitVec.ofNat 64 L) .read) = true ∧
    fails (s.cpytReq false true 0 0 3 0 0x10100 8 0 P) (.addr 0x08 (BitVec.ofNat 64 P) .write) = true ∧
    fails (s.cpytReq false true 0 0 3 0 0x10100 128 0 (L + s.lanes - 64)) (.addr 0x08 (BitVec.ofNat 64 (L + s.lanes)) .write) = true ∧
    Okay (s.cpytReq false true 0 0 3 0 0x10100 8 0 L) = true ∧
    fails (s.cpytReq false false 2 1 0 1 0x10100 16 0x40 P) (.plain 0x0C 0x40) = true ∧
    fails (s.cpyoReq false false .addi 0 0 0x10101 16 0 0x10180) (.addr 0x06 0x10101 .read) = true ∧
    fails (s.cpyoReq false false .addi 0 0 0x10100 16 0 0x10182) (.addr 0x06 0x10182 .atomic) = true ∧
    fails (s.cpyoReq false false .addi 0 0 0x10100 16 0 P) (.addr 0x08 (BitVec.ofNat 64 P) .atomic) = true ∧
    fails (s.cpyoReq false false .addi 0 0 0x10100 32 0 (P - 16)) (.addr 0x08 (BitVec.ofNat 64 P) .atomic) = true ∧
    fails (s.cpyoReq true false .none 0 0 0x10100 100 0 P) ill = true ∧ Okay (s.cpyoReq true false .none 0 0 0x10100 256 0 P) = true ∧
    fails (s.cpyoReq false true .none 1 1 0x10100 128 0x40 P) (.plain 0x0C 0x40) = true := by
  and_intros <;> decide +kernel

theorem witness_CopyIssueResults_gathers :
    let s := copyDemo
    let P := 0xFFFFFFFF00000000
    fails (s.cpygReq 2 false false false 0 false 0 0x10100 0x10140 0x0000000400010000 P [0x10140]) (.plain 0x01 s.insWord) = true ∧
    fails (s.cpygReq 2 false false false 0 true 0 0x10100 0x10140 0x0000000400010010 P [0x10140]) (.plain 0x01 s.insWord) = true ∧
    fails (s.cpygReq 2 false false false 0 false 0 0x10100 0x10142 0x0000000400010010 P [0x10142]) (.addr 0x06 0x10142 .read) = true ∧
    fails (s.cpygReq 2 false false false 0 false 0 0x10100 0x10140 0x0000000400010010 (P + 16368) [0x10140])
      (.addr 0x08 (BitVec.ofNat 64 (P + 16384)) .write) = true ∧
    Okay (s.cpygReq 2 true false false 0 false 0 0x10100 1 0x0000000400010010 P [1, 0]) = true ∧
    Okay (s.cpygReq 2 true true false 0 false 0 0x10100 1 0x0000000400010010 P [0, 2, 3]) = true ∧
    Okay (s.cpygReq 2 false true true 0 false 0 0x10100 0x10140 0x0000000400010010 P [0x10140]) = true := by
  and_intros <;> decide +kernel

theorem test_copy_issue :
    let q (t : State) : List (CopyKind × Nat × Nat × Nat) := t.core.chans[0].queue.map fun c => (c.kind, c.src, c.dst, c.len)
    shows (exec (.cpy (ops 7) false) copyDemo) (fun t => (q t, t.hart.ilocks.length, t.me.pc)) ([(.cpy none, 0x10100, 0xFFFFFFFF00000000, 16)], 2, 0x1000C) = true ∧
    shows (exec (.cpys (ops 7) 2 10) copyDemo) q [(.cpys 2 2 2, 0x10100, 0xFFFFFFFF00000000, 16)] = true ∧
    shows (exec (.cpyt (ops 7) false false 1 1 0 0 0) copyDemo) q [(.cpyt false false 1 1 0 0 0, 0x10100, 0xFFFFFFFF00000000, 16)] = true ∧
    shows (exec (.cpyo (ops 4) false false .addi 0 0 0) copyDemo) (fun t => (q t).map (·.2)) [(0x10100, 0x10180, 16)] = true ∧
    shows (exec (.cpyo (ops 7) false false .addi 0 0 0) copyDemo) (fun t => t.me.tcause) 0x08 = true ∧
    shows (exec (.cpyg { ops 7 with b := 9 } 1 false false false 0xEE false 0 12) copyDemo) (fun t => t.core.chans[0].queue.map (·.counted)) [32] = true ∧
    shows (exec (.cpy (ops 7) false) (copying1 (.cpy none) 0xFFFFFFFF00000000 0x10100 16)) (fun t => t.core.chans[0].queue.length) 2 = true := by
  and_intros <;> decide +kernel

/-- The chunk of the command at the head of channel 0 meets no walk, fault, pin, error or control page. -/
def chunkReady (s : State) : Bool :=
  match s.core.chans[0].queue with
  | c :: _ =>
    let p := c.plan
    let all := p.srcs ++ p.scaleReads ++ p.scaleWrites ++ p.dsts
    let free (m : List (Nat × PageTo)) (r : Range) : Bool := match pageTo m r.lo with | some (.control _) => false | _ => true
    (s.planWalks (s.chanAsk 0).2 p c.user).isNone && 0 < p.n && (match s.checkPlan p c.user [] with
    | .ok (m, s2) => (s2.rangesPinned (s.chanAsk 0).2 m all).isNone && all.all (free m) &&
        ((s2.rangesHome m all).rangesBad m (p.srcs ++ p.scaleReads ++ p.dsts)).isNone
    | .error _ => false)
  | [] => false
/-- The command has entries, and delivers from another place. -/
def fetched (s : State) (got : List Nat) (gj gx pos : Nat) : State :=
  { s with core := { s.core with chans := s.core.chans.set 0 { s.core.chans[0] with
    queue := s.core.chans[0].queue.map fun c => { c with got := got, gj := gj, gx := gx, pos := pos } } } }
/-- Barrier 1 of the core expects this many bytes. -/
def expecting (s : State) (n : Nat) : State := { s with core := { s.core with tbs := s.core.tbs.set 1 ⟨false, true, n, 0⟩ } }
/-- The chunk that gathers the rows to come of a command whose entries were popped meets none either; `f` tells of the scan's end. -/
def gatherReady (s : State) (f : GScan → Bool) : Bool :=
  match s.core.chans[0].queue with
  | c :: _ =>
    match c.kind with
    | .cpyg n list rng iw fill sw srow rb pitch rc =>
      let g : Gather := ⟨n, list, rng, iw, fill, sw, srow, rb, pitch, rc⟩
      let x := GScan.run (s.chanAsk 0).2 g ((c.dst + c.gt * pitch + c.pos) / 4096 * 4096 + 4096) 8300 ⟨s, [], c, [], none, none, none⟩
      let srcs := x.pieces.flatMap fun y => match y.src with | some a => g.ranges y a | none => []
      let dsts := x.pieces.map fun y => (⟨y.dst, y.len, false⟩ : Range)
      let plan : Plan := ⟨0, srcs, [], [], dsts, .write⟩
      f x && (x.st.planWalks (s.chanAsk 0).2 plan c.user).isNone && (match x.st.checkPlan plan c.user x.m with
      | .ok (m, s2) => (s2.rangesPinned (s.chanAsk 0).2 m (srcs ++ dsts)).isNone && ((s2.rangesHome m (srcs ++ dsts)).rangesBad m srcs).isNone
      | .error _ => false)
    | _ => false
  | [] => false

/-- One state for each kind of command, its chunk ready (R246 to R257). -/
theorem witness_CopyProgressResults_chunks :
    let P := 0xFFFFFFFF00000000
    let L := 0xFFFFFFFE00000000
    let S := 0xFFFFFFFF00000400
    [copying1 (.cpy none) P 0x10100 16, copying1 (.cpys 1 1 4) P 0x10100 2, copying1 (.cpyt false false 0 0 0 0 0) P 0x10100 16,
     copying1 (.cpyt true false 0 0 0 0 0) P (P + 4096) 256, copying1 (.cpyt false false 1 1 0 0 0) P 0x10100 16,
     copying1 (.cpyt false false 2 1 0 1 S) P 0x10100 16, copying1 (.cpyt false true 0 0 7 0 0) L 0x10100 16,
     copying1 (.cpyt false true 0 0 7 0 0) (L + 4080) 0x10100 32,
     copying1 (.cpyo false false .none 0 0 0) P 0x10100 16, copying1 (.cpyo false true .none 1 1 S) P 0x10100 128,
     copying1 (.cpyo false false .addi 0 0 0) 0x10180 0x10100 16, copying1 (.cpyo true false .none 0 0 0) P 0x10100 256].all chunkReady = true := by
  decide +kernel

theorem witness_CopyProgressResults_stops :
    let P := 0xFFFFFFFF00000000
    let bad := copying1 (.cpy none) P 0x20000 16
    let at_ := copying1 (.cpy none) (P + 4080) 0x10100 32
    bad.core.chans[0].queue.map (fun c => ((bad.planWalks (bad.chanAsk 0).2 c.plan c.user).isNone, Okay (bad.checkPlan c.plan c.user []))) = [(true, false)] ∧
    chunkReady at_ = true ∧ at_.core.chans[0].queue.map (fun c => (c.plan.n, c.len)) = [(16, 32)] ∧
    -- the chunk's bytes meet the posted count, and fall short of it
    ((expecting bad 16).core.tbs[1].posted, (0 + BitVec.ofNat 40 16 : BitVec 40).toInt, (BitVec.ofNat 40 16 : BitVec 40).toInt == 24) = (true, 16, false) := by
  and_intros <;> decide +kernel

theorem witness_CopyProgressResults_gathers :
    let P := 0xFFFFFFFF00000000
    let popped (rng sw : Bool) (rb pitch rc : Nat) : State := copying1 (.cpyg 2 none rng false 0xEE sw 3 rb pitch rc) P 0x10100 0
    gatherReady (fetched (popped false false 16 16 1) [0, 5] 0 0 0) (fun x => x.pieces.length == 2 && x.oob == some (5, 1)) = true ∧
    gatherReady (fetched (popped true false 16 32 4) [0, 2, 3] 0 1 8) (fun x => x.pieces.map (·.len) == [8, 16]) = true ∧
    gatherReady (fetched (popped false true 256 256 1) [0, 0] 0 0 0) (fun x => x.pieces.length == 2) = true ∧
    (let s := copying1 (.cpyg 2 (some 0x10140) false false 0xEE false 0 16 16 1) P 0x10100 0
     let r : Range := ⟨0x10140, 4, false⟩
     (s.rangesWalkWait (s.chanAsk 0).2 [r] .read true).isNone && (match s.checkRanges [r] .read true [] with
     | .ok (m, s2) => (s2.rangesPinned (s.chanAsk 0).2 m [r]).isNone && ((s2.rangesHome m [r]).rangesBad m [r]).isNone
     | .error _ => false)) = true := by
  and_intros <;> decide +kernel

/-- A transpose under way writes row 32 of lanes 0 and 1, which held 1 in lane 0. -/
def transposing : State :=
  let ch := (copying1 (.cpyt false true 0 0 0 0 0) 0xFFFFFFFE00008000 0x10100 8192).core.chans[0]
  let ch := { ch with queue := ch.queue.map fun c => { c with before := some ⟨3, [(32, 1)]⟩ } }
  { laneDemo with core := { laneDemo.core with chans := laneDemo.core.chans.set 0 ch } }

/-- A page of MT 10; the running copy has passed S[A]; the first of a transpose's slices, and its second (R179, R252, R266). -/
theorem witness_CopyProgressResults_more :
    okAnd (({ demo with core := { demo.core with tlb := [⟨1, 0, 0x30, 0x80000000021DF⟩] } } : State).translate 0x300000 .atomic true true)
      (fun pa _ _ => decide (2 ^ 51 ≤ pa)) = true ∧
    (let s := setS (copying1 (.cpy none) 0xFFFFFFFF00000000 0x10100 16) [(7, 0xFFFFFFFF00000004)]
     let u := { s with core := { s.core with chans := s.core.chans.set 0 { s.core.chans[0] with cpwp := 0xFFFFFFFF00000008 } } }
     u.Issues .aOnly 2 [7] [] ∧ u.core.chans[0].queue.map (fun c => decide (c.started = true ∧ c.dst ≤ 0xFFFFFFFF00000004 ∧
       0xFFFFFFFF00000004 < c.dst + c.span ∧ 0xFFFFFFFF00000004 < u.core.chans[0].cpwp.toNat)) = [true]) ∧
    (let s := copying1 (.cpyt false true 0 0 7 0 0) 0xFFFFFFFE00000FF0 0x10100 32
     chunkReady s = true ∧ s.core.chans[0].queue.map (fun c => (c.plan.n, c.before)) = [(16, none)]) ∧
    transposing.core.chans[0].queue.map (fun c => c.before.isSome) = [true] := by
  and_intros <;> decide +kernel

theorem witness_CopyProgressResults :
    let s := copying1 (.cpy none) 0xFFFFFFFF00000000 0x10100 16
    s.Issues .aOnly 2 [] [4] ∧ s.Issues .aOnly 2 [7] [] ∧ s.held = false ∧ s.core.chans[0].flt = false ∧ demo.core.chans[7].queue = [] ∧
    s.core.chans[0].queue.map (fun c => decide (c.hart = s.hart.id ∧ c.kind = .cpy none ∧ c.started = true ∧ c.pos < c.len)) = [true] ∧
    s.orderWaits false true .die = none ∧ s.passed 0 0xFFFFFFFF00000010 = false ∧
    (copying1 (.cpy none) 0x10200 0x10100 16).core.chans[0].queue ≠ [] ∧
    s.rangesWalkWait (s.chanAsk 0).2 [⟨0x10100, 16, false⟩] .read true = none ∧
    s.rangesWalkWait (s.chanAsk 0).2 [⟨0xFFFFFFFF00000000, 16, false⟩] .write true = none ∧
    (match s.checkRanges [⟨0x10100, 16, false⟩] .read true [] with
     | .ok (m1, s1) => match s1.checkRanges [⟨0xFFFFFFFF00000000, 16, false⟩] .write true m1 with
       | .ok (m, s2) => (s2.rangesPinned (s.chanAsk 0).2 m [⟨0x10100, 16, false⟩, ⟨0xFFFFFFFF00000000, 16, false⟩]).isNone &&
         ((s2.rangesHome m [⟨0x10100, 16, false⟩, ⟨0xFFFFFFFF00000000, 16, false⟩]).rangesBad m [⟨0x10100, 16, false⟩]).isNone
       | .error _ => false
     | .error _ => false) = true ∧
    Okay ((copying1 (.cpy none) 0xFFFFFFFF00000000 0x20000 16).checkRanges [⟨0x20000, 16, false⟩] .read true []) = false := by
  and_intros <;> decide +kernel

-- Two bytes 0xB6, 0x10 are E2M1 codes 6, B, 0, 1: the integers 8, -3, 0, 1 (R64)
theorem test_copy_chunks :
    let ran (s : State) : Host.Outcome State Fault Refusal := exec (.copyChunk 0) s
    shows (ran (copying1 (.cpy none) 0xFFFFFFFF00000000 0x10100 16))
      (fun t => (t.hart.scratch.rd 0 4, t.core.chans[0].queue, t.core.chans[0].cpwp)) (0x10B6, [], 0xFFFFFFFF00000010) = true ∧
    shows (ran (copying1 (.cpy none) 0xFFFFFFFF00000000 0x20000 16))
      (fun t => (t.core.chans[0].flt, t.core.chans[0].fltCause, t.me.faults.map (·.tval))) (true, 0x07, [0x20000]) = true ∧
    shows (ran (copying1 (.cpys 1 1 4) 0xFFFFFFFF00000000 0x10100 2)) (fun t => t.hart.scratch.rd 0 8) 0x00000010000000B6 = true ∧
    shows (ran (copying1 (.cpyt false false 1 1 0 0 0) 0xFFFFFFFF00000000 0x10100 16)) (fun t => t.hart.scratch.rd 0 4) 0x0100FD08 = true ∧
    shows (ran (copying1 (.cpyo false false .addi 0 0 0) 0x10180 0x10100 4)) (fun t => t.mem.rd 0x10180 4) 0x10B6 = true ∧
    shows (ran (copying1 (.cpyg 2 (some 0x10140) false false 0xEE false 0 16 16 1) 0xFFFFFFFF00000000 0x10100 0)) (fun t => t.hart.scratch.rd 0 4) 0x10B6 = true := by
  and_intros <;> decide +kernel

/-- A chunk counts its bytes at its barrier: the phase is met, or two bytes of four are there (R164, R165); rows of popped entries, one out of
range filled with 0xEE (R253, R256). -/
theorem test_copy_counts :
    let P := 0xFFFFFFFF00000000
    let ran (s : State) : Host.Outcome State Fault Refusal := exec (.copyChunk 0) s
    shows (ran (expecting (copying1 (.cpy none) P 0x10100 16) 16)) (fun t => t.core.tbs[1]) ⟨true, false, 0, 0⟩ = true ∧
    shows (ran (expecting (copying1 (.cpy none) (P + 4094) 0x10100 4) 4)) (fun t => (t.core.tbs[1], t.core.chans[0].cpwp, t.core.chans[0].queue.length))
      (⟨false, true, 4, 2⟩, 0xFFFFFFFF00001000, 1) = true ∧
    shows (ran (fetched (copying1 (.cpyg 2 none false false 0xEE false 3 16 16 1) P 0x10100 0) [0, 5] 0 0 0))
      (fun t => (t.hart.scratch.rd 0 4, t.hart.scratch.rd 16 4, t.core.chans[0].oob)) (0x10B6, 0xEEEEEEEE, some (5, 1)) = true := by
  and_intros <;> decide +kernel

theorem test_copy_status :
    let s := copying1 (.cpy none) 0xFFFFFFFF00000000 0x10100 16
    shows (exec (.cpstat 0 8 4) s) (regOf 8) 16 = true ∧ shows (exec (.cpstat 0 8 0) s) (regOf 8) 1 = true ∧
    shows (exec (.cpwait 0 7 .core false) s) (fun t => t.me.wait) (some .sync) = true ∧ shows (exec (.cpwait 1 7 .core false) s) (fun t => t.me.pc) 0x1000C = true := by
  and_intros <;> decide +kernel

theorem witness_LaneArithmeticResults_shadow :
    laneDemo.transposes = [] ∧ transposing.transposes = [⟨3, [(32, 1)]⟩] ∧ ((⟨3, [(32, 1)]⟩ : Shadow).rows.map (·.1)).Nodup := by
  and_intros <;> decide +kernel

-- R179, R249: after the first of a transpose's two slices the plane rows hold its elements, and lane instructions read what stood there
theorem test_transpose_slices :
    shows (exec (.copyChunk 0) (copying1 (.cpyt false true 0 0 7 0 0) 0xFFFFFFFE00000FF0 0x10100 32))
      (fun t => (t.hart.elem 0 8 4080, t.laneHart.elem 0 8 4080, t.transposes.map fun x => x.rows.length)) (0xB6, 0, [8]) = true := by
  decide +kernel

-- The block of 08 with words 0, 5 and 31 not zero (R257)
theorem test_zb :
    let b : List Byte := (List.range 256).map fun i => if i = 2 then 0x80 else if i = 3 then 0x3F else if i = 47 then 0x80 else if i = 252 then 1 else 0
    (compress b).1 = [0x21, 0, 0, 0x80, 0, 0, 0x80, 0x3F, 0, 0, 0, 0, 0, 0, 0, 0, 0, 0, 0, 0x80, 0, 0, 0, 0, 1, 0, 0, 0] ++ List.replicate 228 0 ∧
    (compress b).2 = false ∧ (List.range 256).map (expandByte (fun i => (compress b).1.getD i 0) false 0) = b := by
  decide +kernel

-- Events of the streams

/-- s4 waits for a late value; queue 3 has a value and two reserved places. -/
def lateDemo : State := { setQ demo 27 [.val 1, .reserved, .reserved] with me := { runs with pend := [⟨4, 77⟩, ⟨27, 5⟩] } }
def lateQueue : State := { lateDemo with me := { runs with pend := [⟨27, 5⟩] } }
def waiting (w : Wait) : State := { demo with me := { runs with wait := some w } }
def faulted : State := { semDemo true [demo.streamId, other] with me := { runs with faults := [{ TrapInfo.addr 0x07 0x20000 .read with ef := true, ech := 3 }] } }
/-- A vector store with an acquire is outstanding. -/
def storing : State := { demo with me := { runs with vmem := [⟨some .die, none⟩] } }
/-- No line fetched; a plain line stands at 0x10000. -/
def unfetched : State :=
  { setMem (setMem demo 0x10000 4 0x15010001) 0x10004 4 0x5E with me := { runs with fetchBuf := [] } }

/-- The VD's control page is mapped at 0x300000, and can be fetched from. -/
def vdControl : State :=
  { demo with core := { demo.core with tlb := [⟨1, 0, 0x30, BitVec.ofNat 64 (vdOne.control / 65536 * 65536 + 0x31DF)⟩] } }
/-- The hart's team has been asked to stop. -/
def teamHeld : State := { demo with teams := [⟨demo.key, .stopping, 0, 0, 1, 0, 0, 0, 0, 0, 0, 0, false, false⟩] }
/-- A launch sent to another module awaits the answer for s9. -/
def answering : State := waiting (.answer 9 0x10004)
/-- The same for a queue, whose newest place is reserved for it. -/
def answeringQueue : State := setQ (waiting (.answer 24 0x10004)) 24 [.val 1, .reserved]
/-- The line has a bad header, and `w` in slot 1 with `w2` behind it. -/
def badLine (h w w2 : Nat) : State := setMem (setMem (setMem unfetched 0x10000 4 h) 0x10004 4 w) 0x10008 4 w2
/-- The E-stream waits to read a queue while the row step waits on channel 0. -/
def chainHeld : State :=
  let s := { matRun false 0 with me := { (matRun false 0).me with wait := some (.queue false 24) } }
  { s with
    hart := { s.hart with mq := [{ matOp false true with chain := [0] }], ilocks := [⟨.cmd 0, 0xFFFFFFFF00000100, 192, true⟩] }
    core := (copying1 (.cpy none) 0xFFFFFFFF00000100 0x10100 192).core }

theorem witness_StreamEventResults :
    (demo.me.line? demo.me.pc).isSome = true ∧ unfetched.me.line? unfetched.me.pc = none ∧
    chkAnd (unfetched.readRaw 0x10004) (fun x => match x.1 with | .line l => headerOk l.header | _ => false) = true ∧
    (∀ w2 ∈ [0x02, 0x5E], chkAnd ((badLine 0x14020001 0xFE w2).readRaw 0x10004) (fun x => match x.1 with
      | .line l => let h := l.words.getD 0 0
                 decide (h.toNat / 2 ^ 16 % 256 ≠ 1 ∧ (l.words.getD 1 0).toNat % 256 = 0xFE ∧
                   (h.getLsbD 1 = true ∨ (l.words.getD 2 0).toNat % 256 = w2))
      | _ => false) = true) ∧
    chkAnd ({ unfetched with poison := [0x200] }.readRaw 0x10004) (fun x => match x.1 with | .poisoned _ => true | _ => false) = true ∧
    chkAnd ((setMem unfetched 0x10004 1 0x5F).readRaw 0x10004) (fun x => match x.1 with | .parity => true | _ => false) = true ∧ unfetched.held = false ∧
    okAnd (vdControl.translate 0x300000 .fetch true false) (fun pa pte s1 => (s1.controlOf pa pte).isSome) = true ∧
    unfetched.me.stopped = false ∧ unfetched.me.faults = [] ∧
    Traps ({ unfetched with me := { unfetched.me with pc := 0x50004 } }.readRaw 0x50004) = true ∧ demo.me.pend = [] ∧
    lateDemo.me.pend = [⟨4, 77⟩, ⟨27, 5⟩] ∧ isQ (4 : Reg) = false ∧ isQ (27 : Reg) = true ∧ storing.me.vmem = [⟨some .die, none⟩] ∧ storing.dirtyWaits = none ∧ storing.dirtyWaitsAt storing.stamp = none ∧
    (pinnedBy (cachedDemo none) [0x210]).dirtyWaitsAt 0 = some 0x210 ∧ (∀ a ∈ (tables 5).walkLines 1 0x3FFFF, (tables 5).mustWait a 8 = none) ∧
    lateQueue.hart.q (qIdx 27) = [.val 1] ++ .reserved :: [.reserved] ∧ QEnt.reserved ∉ [QEnt.val 1] ∧ demo.hart.vloads = [] ∧
    { demo with hart := { demo.hart with vloads := [⟨6, true⟩] } }.hart.vloads = [⟨6, true⟩] ∧ demo.me.vmem = [] ∧ (0x3FFFF : Word).toNat < 2 ^ 56 ∧
    (match (tables 5).walkVd 1 0x3FFFF with
     | .ok l => permits l.pte .atomic true && permits l.pte .write true && !permits (l.pte &&& ~~~0x10) .write true | .error _ => false) = true ∧
    faulted.me.pfx = none ∧ faulted.me.stopped = false ∧ faulted.held = false ∧ faulted.me.launching = false ∧ answering.me.launching = true ∧ faulted.me.faults.length = 1 ∧ demo.me.faults = [] ∧
    (waiting (.queue true 27)).me.exiting = false ∧ (waiting (.queue true 27)).me.stopped = false ∧ (waiting (.queue true 27)).held = false ∧
    (waiting (.queue true 27)).me.faults = [] ∧ (waiting (.wfi 0x10004)).held = false ∧ teamHeld.held = true ∧ (waiting (.queue true 27)).peer.inHandler = false ∧
    ({ runs with inHandler := true, stopped := true } : Strm).stopped = true ∧
    { demo with peer := { runs with inHandler := true } }.peer.inHandler = true ∧ (waiting (.wfi 0x10004)).me.wait = some (.wfi 0x10004) ∧ demo.me.wait = none ∧
    chainHeld.isE = true ∧ chainHeld.rowHeld = true ∧ demo.isE = false ∧ { demoE with me := { runs with wait := some (.queue false 27) } }.rowHeld = false := by
  and_intros <;> decide +kernel

theorem test_stream_events :
    shows (exec .fetchLine unfetched) (fun t => t.me.fetchBuf.map fun l => (l.base, l.words.take 2)) [(0x10000, [0x15010001, 0x5E])] = true ∧
    shows (exec .fetchLine (badLine 0x14020001 0x5E 0x5E)) (fun t => (t.me.tcause, t.me.tval)) (0x01, 0x14020001) = true ∧
    shows (exec .fetchLine (badLine 0x14020001 0xFE 0x02)) (fun t => (t.me.tcause, t.me.tval)) (0x04, 0xFE) = true ∧
    shows (exec .fetchLine (badLine 0x14020001 0xFE 0x5E)) (fun t => t.me.tcause) 0x01 = true ∧
    shows (exec .fetchLine { unfetched with poison := [0x200] }) (fun t => (t.me.tcause, t.me.tval)) (0x0B, 0x10000) = true ∧
    shows (exec .fetchLine (setMem unfetched 0x10004 1 0x5F)) (fun t => (t.me.tcause, t.me.tval)) (0x05, 0x10000) = true ∧
    shows (exec .asyncDelivery lateDemo) (fun t => (t.me.reg 4, t.me.pend.length)) (77, 1) = true ∧
    shows (exec .asyncDelivery lateQueue) (fun t => t.hart.q 3) [.val 1, .val 5, .reserved] = true ∧
    shows (exec .vloadCompletion { demo with hart := { demo.hart with vloads := [⟨6, true⟩] } }) (fun t => (t.hart.full 6, t.hart.full 7, t.hart.full 8)) (true, true, false) = true ∧
    shows (exec .vectorMemoryCompletion { demo with me := { runs with vmem := [⟨some .die, none⟩, ⟨none, none⟩] } }) (fun t => (t.me.vmem, t.me.fetchBuf)) ([⟨none, none⟩], []) = true ∧
    shows (exec .laneCompletion { demo with hart := { demo.hart with laneBusy := 9 } }) (fun t => t.hart.laneBusy) 0 = true ∧
    shows (exec (.pageWalk 0x30008 .write) (tables 5)) (fun t => (t.core.tlb.length, t.mem.rd 0x1030018 8)) (2, 0x200DF) = true ∧
    shows (exec (.reservedOpcode 0xFE) demo) (fun t => (t.me.tcause, t.me.tval)) (0x01, 0xFE) = true := by
  and_intros <;> decide +kernel

-- R134, R342, R366: TVAL of a watchdog names the register and whether the wait was to write
theorem test_traps_of_events :
    shows (exec .trapEntry faulted) (fun t => (t.me.tcause, t.me.tval, t.me.faults, t.clus.comm.semq)) (0x07, 0x20000, [], [(5, other)]) = true ∧
    shows (exec .queueWatchdog (waiting (.queue true 27))) (fun t => (t.me.tcause, t.me.tval)) (0x12, 91) = true ∧
    shows (exec .queueWatchdog (waiting (.presence false 3))) (fun t => (t.me.tcause, t.me.tval)) (0x12, 35) = true ∧
    shows (exec .queueWatchdog chainHeld) (fun t => t.me.tcause) 0 = true ∧
    shows (exec .trapEntry { faulted with me := { faulted.me with wait := some (.wfi 0x10004) } }) (fun t => t.me.tpc) 0x10008 = true ∧
    shows (exec .trapEntry { faulted with me := { faulted.me with wait := some (.answer 9 0x10004) } }) (fun t => t.me.faults.length) 1 = true ∧
    shows (exec .queueWatchdog (waiting .sync)) (fun t => t.me.tcause) 0 = true ∧ shows (exec .wfiTimeout (waiting (.wfi 0x10004))) (fun t => t.me.pc) 0x10008 = true := by
  and_intros <;> decide +kernel

/-- The stream exits with nothing outstanding, the last of its team or not; a grid of two teams counts the end. -/
def exits (last : Bool) : State :=
  { demo with
    me := { runs with exiting := true }, peer := { runs with stopped := last }
    teams := [⟨demo.key, .resident, 0, 0, 1, 0, 0, 0, 0, 0, 0, 0, false, false⟩], grids := [⟨1, 1, (Vector.replicate 16 0).set 1 2, 0, 0, 0, .running, false, none, [], 1, 0, false, 0, none⟩] }

/-- The pinned line's home has answered with a retry. -/
def retriedDemo : State :=
  let s := cachedDemo (some 0)
  { s with core := { s.core with dcache := s.core.dcache.map fun l => if l.line = 0x210 then { l with retried := true } else l } }
/-- A second hart of the team, which has ended or not. -/
def secondHart (live : Bool) : State :=
  let h : Hart := { demo.hart with id := 1, live := live }
  { exits true with parked := [⟨{ runs with stopped := !live }, { runs with stopped := !live }, h⟩] }

/-- Core 1 has the line pinned and dirty, and a retry has been sent for it. -/
def retriedBeside : State :=
  { demo with cores := [(1, { Core.start with dcache := [⟨0x210, List.replicate 128 5, List.replicate 128 true, some 0, true⟩] })] }

theorem witness_CacheAndStopEvents :
    retriedDemo.LinesOnce ∧ (∀ c ∈ retriedDemo.cores, ∀ l ∈ c.2.dcache, l.line ≠ 0x210) ∧
    (retriedDemo.cached 0x210).map (fun l => (l.pin, l.retried)) = some (some 0, true) ∧
    (∃ l ∈ retriedDemo.core.dcache, l.line = lineOf (0x210 * 128) ∧ l.dirty.getD (0x210 * 128 % 128) false = true) ∧
    ((pinnedBy (cachedDemo none) [0x210]).cached 0x210).map CLine.isDirty = some true ∧ (pinnedBy (cachedDemo none) [0x210]).mustWait (0x210 * 128) 1 ≠ none ∧
    (cachedDemo none).mustWait (0x210 * 128) 1 = none ∧ (exits true).hart.live = true ∧
    (∀ c ∈ (secondHart false).parked, c.key = (secondHart false).key → c.hart.live = false) ∧
    (∃ c ∈ (secondHart true).parked, c.key = (secondHart true).key ∧ c.hart.live = true ∧ c.a.stopped = false) ∧
    (exits true).flushWaits ((exits true).coresOf (exits true).key) = none ∧
    (let s := pinnedBy { exits true with core := (cachedDemo none).core } [0x210]; s.flushWaits (s.coresOf s.key) = some 0x210) ∧
    (cachedDemo (some 0)).LinesOnce ∧ (∀ c ∈ (cachedDemo (some 0)).cores, ∀ l ∈ c.2.dcache, l.line ≠ 0x210) ∧
    ((cachedDemo (some 0)).cached 0x210).map (·.pin) = some (some 0) ∧ ((cachedDemo none).cached 0x210).map (·.pin) = some none ∧
    demo.me.exiting = false ∧ (exits true).me.exiting = true ∧ (exits true).me.stopped = false ∧ (exits true).quiet = true ∧
    (∃ c ∈ retriedBeside.cores, ∃ l ∈ c.2.dcache, l.line = 0x210 ∧ l.pin ≠ none ∧ l.retried = true ∧ l.dirty.getD (0x210 * 128 % 128) false = true) ∧
    (∀ x ∈ retriedBeside.core.dcache, x.line ≠ 0x210) ∧
    (let s := (exits true).setComm { CommFile.start with arrived := [other] }
     s.clus.comm.arrived ≠ [] ∧ ({ s with hart := { s.hart with cf := false } } : State).hart.cf = false) ∧
    (exits true).me.faults = [] ∧ (exits true).clus.comm.arrived = [] ∧ (exits false).peer.stopped = false ∧ (exits true).peer.stopped = true := by
  and_intros <;> decide +kernel

theorem test_cache_and_stop :
    shows (exec (.pinExpiry 0x210) retriedDemo) (fun t => (t.core.dcache.map (·.pin), t.mem.rd (0x210 * 128) 1)) ([none, none], 5) = true ∧
    shows (exec (.pinExpiry 0x210) retriedBeside) (fun t => (t.cores.map fun c => c.2.dcache.map (·.pin), t.mem.rd (0x210 * 128) 1)) ([[none]], 5) = true ∧
    shows (exec .streamStop { exits true with hart := (exits true).hart.setFull true [12] }) (fun t => (t.hart.full 12, t.hart.endPres[12])) (false, true) = true ∧
    shows (exec (.pinExpiry 0x210) (cachedDemo (some 0))) (fun t => t.core.dcache.map (·.pin)) [some 0, none] = true ∧
    shows (exec (.cacheEviction 0x210) (cachedDemo none)) (fun t => (t.core.dcache.map (·.line), t.mem.rd (0x210 * 128) 2)) ([0x211], 5) = true ∧
    shows (exec (.cacheEviction 0x210) (cachedDemo (some 0))) (fun t => t.core.dcache.length) 2 = true ∧
    shows (exec .streamStop (exits false)) (fun t => (t.me.stopped, t.teams.length)) (true, 1) = true ∧
    shows (exec .streamStop (exits true)) (fun t => (t.teams, t.grids.map (·.ended), t.hart.live)) ([], [1], false) = true ∧
    shows (exec .streamStop (setS (exits true) [(4, 7)])) (fun t => t.me.reg 4) 7 = true := by
  and_intros <;> decide +kernel

-- The scheduler

/-- A grid of two teams of one hart, 8 harts a core, class 0, priority 2, ready on cluster 1; `run`: its first team is resident. -/
def gridDesc : Vector Word 16 := (((Vector.replicate 16 0).set 0 0x10000).set 1 2).set 2 0x02010301
def gridDemo (run : Bool) : State :=
  { demo with
    parts := [⟨0, [1], [], 256, [], Quota.all⟩], dies := demo.dies.set 0 { Die.start with grant := 1000 }
    grids := [⟨1, 9, gridDesc, 0x10200, 2, 0, if run then .running else .ready, false, none, [], if run then 1 else 0, 0, false, 0, none⟩]
    teams := if run then [⟨⟨1, 9, 0⟩, .resident, 1, 0, 1, 0, 0, 200, 0, 0, 0, 0, false, false⟩] else [] }

/-- Another team has the other seven cores of the cluster. -/
def fullCluster : State := { gridDemo true with teams := (gridDemo true).teams ++ [⟨⟨1, 8, 0⟩, .resident, 1, 1, 7, 0, 0, 200, 0, 0, 0, 0, false, false⟩] }

/-- The grid has one team, which waits to start, or to be restored. -/
def oneTeam (saved : Bool) : State :=
  let s := gridDemo saved
  { s with
    grids := s.grids.map fun g => { g with desc := g.desc.set 1 1 }
    teams := s.teams.map fun x => { x with st := .saved ⟨[], [], none⟩ } }

/-- Before the grid in the order of the offers waits one of class 3, whose charge does not fit the die's grant. -/
def twoGrids : State :=
  let s := gridDemo false
  { s with
    dies := demo.dies.set 0 { Die.start with grant := 450 }
    grids := s.grids ++ s.grids.map fun g => { g with gid := 8, prio := 3, desc := g.desc.set 2 0x32010301 } }
/-- Every stack of the module and die 0 are hot. -/
def hotDemo : State := { gridDemo true with dies := demo.dies.set 0 { Die.start with grant := 1000, hot := true }, hbm := Vector.replicate 8 ⟨true, true⟩ }

/-- A team of VD 1, which WC0 keeps stopped on all the cores of the cluster while VD 1 is mitten; VD 2's grid waits (R304, R305, R390). -/
def keptDemo : State :=
  let s := gridDemo false
  { s with
    vds := [{ vdOne with st := .mitten, vdcfg := vdOne.vdcfg / 4 * 4 }, { vdOne with id := 2, st := .active }]
    grids := s.grids.flatMap fun g => [{ g with vd := 2 }, { g with gid := 8, st := .running, nextTeam := 2 }]
    teams := [⟨⟨1, 8, 0⟩, .stopping, 1, 0, 8, 0, 0, 200, 0x100000, 0x40000, 6, 0, false, false⟩] }

theorem witness_SchedulerResults_kept :
    keptDemo.keeps 1 = true ∧ (∃ t ∈ keptDemo.teams, t.st = .stopping ∧ keptDemo.stays t = true ∧ keptDemo.findTeam ⟨1, 8, 0⟩ = some t) ∧
    (∀ x ∈ keptDemo.teams, ∀ y ∈ keptDemo.teams, y.key = x.key → y = x) ∧
    (∃ x ∈ (oneTeam true).teams, x.st ≠ .resident ∧ (oneTeam true).stays x = false) := by
  refine ⟨by decide +kernel, ⟨_, .head _, rfl, by decide +kernel, by decide +kernel⟩, by decide +kernel, ⟨_, .head _, by decide, by decide +kernel⟩⟩

-- R305, R307: a quantum swaps the kept team out; a second never chooses it again while it is saved
theorem test_quantum_swaps_a_kept_team :
    shows (exec (.quantumExpiry [⟨1, 8, 0⟩]) keptDemo) (fun t => t.teams.map fun x => (x.st, x.out)) [(.stopping, true)] = true ∧
    shows (exec (.quantumExpiry []) keptDemo) (fun t => t.teams.map fun x => (x.st, x.out)) [(.stopping, false)] = true ∧
    shows (exec (.clocheSave ⟨1, 8, 0⟩ 0x100000 0x40000) keptDemo) (fun t => t.teams.map (·.st)) [.stopping] = true := by
  and_intros <;> decide +kernel

theorem witness_SchedulerResults :
    demo.waiting = [] ∧ (gridDemo false).offers.map (·.swapped) = [false, false] ∧
    (gridDemo false).offers.map (fun w => (gridDemo false).choosePlace (gridDemo false).occupying w.grid) = [some (1, 0), some (1, 0)] ∧
    (∀ b, (oneTeam b).offers.map (fun w => (w.swapped, (oneTeam b).choosePlace (oneTeam b).occupying w.grid, w.grid.vd, w.grid.gid)) =
      [(b, some (1, 0), 1, 9)]) ∧
    ((oneTeam false).grids.filter fun g => decide (g.vd = 1 ∧ g.gid = 9)) = (oneTeam false).grids ∧
    twoGrids.offers.map (fun w => (w.grid.gid, w.saving, w.swapped, twoGrids.choosePlace twoGrids.occupying w.grid)) =
      [(8, false, false, none), (8, false, false, none), (9, false, false, some (1, 0)), (9, false, false, some (1, 0))] ∧
    (oneTeam true).offers.map (·.saving) = [false] ∧
    (∀ g ∈ hotDemo.grids, g.prio ≠ 7 ∧ (1000 * (16 - ((List.finRange 8).filter fun i => hotDemo.hbm[i].hot).length) / 16) * 3 / 4 <
      200 + hotDemo.ecFig.toList.getD (g.desc[2].toNat / 2 ^ 28 % 4) 0 * dCores g.desc) ∧
    ((gridDemo false).findVd 1).map (·.id) = some 1 ∧ gridDesc[2].toNat % 2 ^ 7 = 1 ∧ 0 < 2 ^ 32 ∧ 9 < 2 ^ 32 ∧ (1 : Nat) < 2 ^ 10 ∧
    (∃ w ∈ (gridDemo false).waiting, w.grid.vd = 1 ∧ w.grid.gid = 9) ∧ (∃ t ∈ (gridDemo true).teams, t.key.vd = 1 ∧ t.key.gid = 9 ∧ t.st = .resident) ∧
    (¬ ∃ t ∈ (gridDemo false).teams, t.key.vd = 1 ∧ t.key.gid = 9 ∧ t.st = .resident) ∧
    ((gridDemo true).teams.filter fun y => decide (y.clus = 1) && (y.st == .resident || y.st == .stopping)).length = 1 ∧
    (∀ x ∈ (gridDemo true).teams, 64 * 0 ≤ x.clus ∧ x.clus < 64 * 0 + 64 ∧ x.cores ≠ 0) := by
  and_intros <;> decide +kernel

theorem test_scheduler :
    shows (exec .placementOffer (gridDemo false)) (fun t => t.teams.map fun x => (x.key, x.clus, x.core, x.charge)) [(⟨1, 9, 0⟩, 1, 0, 200), (⟨1, 9, 1⟩, 1, 1, 200)] = true ∧
    shows (exec .placementOffer (gridDemo false)) (fun t => t.parked.map fun c => (c.hart.id, c.a.pc, c.e.pc, c.a.reg 1)) [(64, 0x10004, 0x10044, 0x10200), (72, 0x10004, 0x10044, 0x10200)] = true ∧
    shows (exec .placementOffer twoGrids) (fun t => t.teams.map (·.key)) [⟨1, 9, 0⟩, ⟨1, 9, 1⟩] = true ∧
    hotDemo.grids.map (hotDemo.fitsIn hotDemo.teams · 1) = [none] ∧ hotDemo.grids.map (fun g => ((gridDemo true).fitsIn hotDemo.teams g 1).isSome) = [true] ∧
    shows (exec (.aging 1 9) (gridDemo false)) (fun t => t.grids.map (·.aged)) [1] = true ∧ shows (exec (.aging 1 9) (gridDemo true)) (fun t => t.grids.map (·.aged)) [0] = true ∧
    shows (exec (.energyWindow 0) ((gridDemo true).setClus 1 { Clus.start with energy := 300000000 })) (fun t => t.teams.map (·.charge)) [300] = true ∧
    shows (exec (.quantumExpiry [⟨1, 9, 0⟩]) fullCluster) (fun t => t.teams.map (·.st)) [.stopping, .resident] = true ∧
    shows (exec (.quantumExpiry []) fullCluster) (fun t => t.teams.map (·.st)) [.resident, .resident] = true ∧ (gridDemo true).dieShare 1000 0 = 1000 := by
  and_intros <;> decide +kernel

def params : VdParams := ⟨0, 65, 10, 1, 0x1000000, 0x2000000, 0x10801, 0x3000000, 0x30FF4⟩
def recorded : State := { demo with hart := { demo.hart with vset := [(0x202, 3)] }, parked := [⟨runs, runs, { demo.hart with id := 1 }⟩] }

/-- The VD's partition has a quota of one VD, or of two; its power share is 200. -/
def quotaDemo (n : Nat) : State := { demo with parts := [⟨0, [1], [], 200, [], { Quota.all with vds := n }⟩] }

theorem witness_PartitionAndVdResults :
    32 ≤ 32 ∧ 31 < 32 ∧ (gridDemo true).parts.map (fun p => (p.id, p.clusters)) = [(0, [1])] ∧
    (let rest := (quotaDemo 1).parts.filter fun x => decide (x.id ≠ 1)
     (rest.map (·.powerShare)).sum + 56 ≤ 256 ∧ (∀ i < 10, (rest.map fun x => x.shares.getD i 0).sum + ([] : List Nat).getD i 0 ≤ 256) ∧
       ¬ ((rest.map (·.powerShare)).sum + 57 ≤ 256)) ∧
    (∃ v ∈ demo.vds, v.id = 1 ∧ v.st ≠ .destroyed) ∧ (∀ v ∈ demo.vds, v.id = 1023 → v.st = .destroyed) ∧
    (quotaDemo 1).findPart (params.part % 32) = (quotaDemo 1).parts.head? ∧
    ((quotaDemo 1).vds.filter fun v => decide (v.st ≠ .destroyed ∧ v.vdcfg.toNat / 2 ^ 8 % 32 = params.part % 32)).length = 1 ∧
    (∃ v, demo.findVd 1 = some v ∧ v.st ≠ .created ∧ v.st ≠ .destroyed) ∧ demo.findVd 2 = none ∧
    recorded.hart.vd.toNat = 1 ∧ (∃ e ∈ recorded.hart.vset, 0x10100 / 128 ≤ e.1 ∧ e.1 < (0x10100 + 128) / 128) := by
  refine ⟨by decide, by decide, by decide, by decide +kernel, by decide, by decide, by decide +kernel, by decide +kernel, ⟨_, rfl, by decide, by decide⟩,
    by decide +kernel, by decide, by decide⟩

theorem test_partitions_and_vds :
    shows (exec (.partitionResize 0 [2, 300, 2] 128 []) (gridDemo true)) (fun t => (t.parts, t.teams.map (·.st))) ([⟨0, [2], [1], 128, [], Quota.all⟩], [.stopping]) = true ∧
    shows (exec (.vdCreation 2 params) (quotaDemo 1)) (fun t => t.vds.length) 1 = true ∧ shows (exec (.vdCreation 2 params) (quotaDemo 2)) (fun t => t.vds.length) 2 = true ∧
    shows (exec (.partitionResize 1 [2] 57 []) (quotaDemo 1)) (fun t => t.parts.length) 1 = true ∧
    shows (exec (.partitionResize 1 [1, 2] 0 []) (gridDemo true)) (fun t => t.parts.map (·.clusters)) [[1], [2]] = true ∧
    shows (exec (.vdCreation 2 params) demo) (fun t => (t.findVd 2).map fun v => (v.st, v.nmw, v.trapent, v.evbase)) (some (.created, 64, 0x10800, 0x30004)) = true ∧
    shows (exec (.vdCreation 1 params) demo) (fun t => t.vds.length) 1 = true ∧
    shows (exec (.vdDestruction 1) (gridDemo true)) (fun t => (t.grids, t.teams, t.vds.map (·.st))) ([], [], [.destroyed]) = true ∧
    shows (exec (.versionedPageMove 1 0x10000 0x50000 0x10000) recorded) (fun t => t.hart.vovf) true = true ∧
    shows (exec (.versionedPageMove 1 0x10000 0x50000 0x8000) { recorded with hart := { recorded.hart with vset := [(0x300, 3)] } }) (fun t => t.hart.vovf) false = true := by
  and_intros <;> decide +kernel

-- Cloche

/-- The team of the hart in focus; a save area at 0x100000 of four pinned pages. -/
def teamDemo (st : TeamState) : State :=
  let ws : List (Nat × Nat) :=
    [(0x1000000, 0x1010001), (0x1010000, 0x1020001), (0x1020000, 0x1030001), (0x1030080, 0x1004DF), (0x1030088, 0x1104DF), (0x1030090, 0x1204DF), (0x1030098, 0x1304DF)]
  { ws.foldl (fun s p => setMem s p.1 8 p.2) demo with teams := [⟨demo.key, st, 0, 0, 1, 0, 0, 200, 0x100000, 0x40000, 6, 0, false, false⟩] }
def theTeam (st : TeamState) : Team := ⟨demo.key, st, 0, 0, 1, 0, 0, 200, 0x100000, 0x40000, 6, 0, false, false⟩
/-- What Cloche saves of it. -/
def theImage : Saved := (teamDemo .stopping).imageOf (theTeam .stopping)

/-- The tables, which lie from 0x1000000 up, and what else a walk reads are those of `s`. -/
def SameTables (s t : State) : Prop := t.vds = s.vds ∧ t.verRegs = s.verRegs ∧ ∀ x, 0x1000000 ≤ x → t.mem.get x = s.mem.get x
/-- A walk reads from 0x1000000 up only. -/
def readsHigh (m : Memory) (va : Nat) : Nat → Nat → Bool
  | 0, _ => true
  | lvl + 1, t => decide (0x1000000 ≤ t + pteIndex va lvl * 8) && readsHigh m va lvl (pteBase (va64 (m.rd (t + pteIndex va lvl * 8) 8)))

theorem rd_same {m n : Memory} {b : Nat} (h : ∀ x, b ≤ x → n.get x = m.get x) (a k : Nat) (ha : b ≤ a) : n.rd a k = m.rd a k := by
  have hb : n.bytes a k = m.bytes a k := by
    induction k generalizing a with
    | zero => rfl
    | succ k ih => simp only [Memory.bytes, h a ha, ih (a + 1) (by omega)]
  simp only [Memory.rd, hb]

theorem walk_same {m n : Memory} (h : ∀ x, 0x1000000 ≤ x → n.get x = m.get x) (va k t : Nat) (hr : readsHigh m va k t = true) :
    walk n va k t = walk m va k t := by
  induction k generalizing t with
  | zero => rfl
  | succ k ih =>
    simp only [readsHigh, Bool.and_eq_true, decide_eq_true_eq] at hr
    simp only [walk, rd_same h _ _ hr.1, ih _ hr.2]

theorem sameTables_homePut {s t : State} (h : SameTables s t) (pa : Nat) (bs : List Byte) (hb : pa + bs.length ≤ 0x1000000) :
    SameTables s (t.homePut pa bs) := by
  refine ⟨?_, ?_, fun x hx => ?_⟩
  · exact (foldl_same State.vds _ (fun u l => by unfold State.raise; split <;> rfl) _ _).trans h.1
  · exact (foldl_same State.verRegs _ (fun u l => by unfold State.raise; split <;> rfl) _ _).trans h.2.1
  · rw [State.homePut_mem, Memory.get_puts, if_neg (by omega), h.2.2 x hx]

/-- The page of an area is found at `pa`, below the tables, and its leaf already has A and D. -/
def pageOk (s : State) (v : Vd) (va pa : Nat) (acc : Acc) : Bool :=
  readsHigh s.mem va 4 v.root && decide (pa + 4096 ≤ 0x1000000) && canonical va && !inLocal va && !inLane va &&
  match walk s.mem va 4 v.root with
  | .error _ => false
  | .ok l => decide (physOf l.lvl l.pte va = pa) && decide (pteUsed l.pte acc = l.pte) && pteR l.pte && pteW l.pte && !pteCmp l.pte && ptePin l.pte &&
      decide (pteMt l.pte ≤ 1) && s.reachable pa l.pte && permits l.pte acc false

theorem page_found {s t : State} (h : SameTables s t) {vd va pa : Nat} {acc : Acc} {v : Vd} (hv : s.vds.find? (fun v => v.id = vd) = some v)
    (ho : pageOk s v va pa acc = true) :
    t.areaPage vd va acc = .ok (pa, t) ∧ ∃ pte, pteMt pte ≤ 1 ∧ t.hubWalk vd va acc = some (pa, pte, t) := by
  simp only [pageOk, Bool.and_eq_true, decide_eq_true_eq, Bool.not_eq_true'] at ho
  obtain ⟨⟨⟨⟨⟨hr, hb⟩, hc⟩, hl⟩, hn⟩, ho⟩ := ho
  have hw : t.walkVd vd va = walk s.mem va 4 v.root := by simp only [State.walkVd, h.1, hv, walk_same h.2.2 va 4 v.root hr]
  have hre (p : Word) : t.reachable pa p = s.reachable pa p := by simp only [State.reachable, State.inSideSlots, h.2.1]
  cases hl0 : walk s.mem va 4 v.root with
  | error e => rw [hl0] at ho; cases ho
  | ok l =>
    rw [hl0] at ho
    simp only [Bool.and_eq_true, decide_eq_true_eq, Bool.not_eq_true'] at ho
    obtain ⟨⟨⟨⟨⟨⟨⟨⟨hp, hu⟩, hR⟩, hW⟩, hC⟩, hP⟩, hM⟩, hX⟩, hA⟩ := ho
    refine ⟨?_, l.pte, hM, ?_⟩
    · simp [State.areaPage, hc, hl, hn, hw, hl0, hp, hR, hW, hC, hP, hM, hre, hX, State.hubLeaf, hu]
    · simp [State.hubWalk, hc, hw, hl0, hp, hC, hre, hX, hA, State.hubLeaf, hu]

theorem saves {s : State} {vd : Nat} {v : Vd} (hv : s.vds.find? (fun v => v.id = vd) = some v) (area limit seed : Nat) (l : List Nat)
    (hl : l.all (fun i => decide (4096 * (i + 1) ≤ limit) && pageOk s v (area + 4096 * i) (area + 4096 * i) .write) = true) (t : State)
    (h : SameTables s t) : ∃ u, State.saveBlocks area limit seed vd none l t = .ok u ∧ SameTables s u := by
  induction l generalizing t with
  | nil => exact ⟨t, rfl, h⟩
  | cons i is ih =>
    simp only [List.all_cons, Bool.and_eq_true, decide_eq_true_eq] at hl
    have hpa : area + 4096 * i + 4096 ≤ 0x1000000 := by
      have := hl.1.2; simp only [pageOk, Bool.and_eq_true, decide_eq_true_eq] at this; exact this.1.1.1.1.2
    simp only [State.saveBlocks, (page_found h hv hl.1.2).1, if_neg (Nat.not_lt.mpr hl.1.1), reduceCtorEq, if_false]
    refine ih hl.2 _ (sameTables_homePut h _ _ ?_)
    split <;> simp [sectionBytes] <;> omega

def saveDemo : State := (teamDemo .stopping).flushCores (theTeam .stopping).coreIds
/-- The save has put 0 in the valid word. -/
def cleared : State := { saveDemo.clearValid 1 0x100000 with nextId := saveDemo.nextId + 1 }
/-- A dirty line of the team's core, which another core has pinned. -/
def dirtyTeam : State :=
  let s := teamDemo .stopping
  pinnedBy { s with core := { s.core with dcache := (cachedDemo none).core.dcache } } [0x210]

theorem cleared_tables {v : Vd} (hv : saveDemo.vds.find? (fun v => v.id = 1) = some v) (hok : pageOk saveDemo v 0x100000 0x100000 .write = true) :
    SameTables saveDemo cleared := by
  have next {s t : State} (n : Nat) (h : SameTables s t) : SameTables s { t with nextId := n } := h
  have same : SameTables saveDemo saveDemo := ⟨rfl, rfl, fun _ _ => rfl⟩
  obtain ⟨pte, hm, hw⟩ := (page_found same hv hok).2
  have hc : saveDemo.clearValid 1 0x100000 = saveDemo.homePut 0x100000 (leBytes 8 0) := by
    rw [State.clearValid, if_neg (by decide), hw]; exact if_pos hm
  rw [cleared, hc]
  exact next _ (sameTables_homePut same 0x100000 (leBytes 8 0) (by simp))

theorem witness_ClocheResults_save :
    (teamDemo .stopping).findTeam demo.key = some (theTeam .stopping) ∧ (theTeam .stopping).st = .stopping ∧
    (teamDemo .stopping).hubHas (.act (.clocheSave demo.key 0x100000 0x40000)) = false ∧ dirtyTeam.flushWaits [0] = some 0x210 ∧
    (teamDemo .stopping).flushWaits [0] = none ∧
    saveDemo.areaWaits 1 0x100000 (List.range ((saveDemo.imageOf (theTeam .stopping)).size / 4096)) .write (teamDemo .stopping).stamp = none ∧
    (∀ c ∈ (saveDemo.imageOf (theTeam .stopping)).ctxs, c.hart.unreadable = false) ∧
    (match State.saveBlocks 0x100000 0x1000 0 1 none [0, 1] cleared with | .ok _ => false | .error (e, _) => e.cause == 0x100 && e.addr == 0x101000) = true ∧
    ∃ s2 pa s3, State.saveBlocks 0x100000 0x40000 saveDemo.nextId 1 none (List.range ((saveDemo.imageOf (theTeam .stopping)).size / 4096)) cleared = .ok s2 ∧
      s2.areaPage 1 0x100000 .write = .ok (pa, s3) := by
  refine ⟨by decide +kernel, rfl, by decide +kernel, by decide +kernel, by decide +kernel, by decide +kernel, by decide +kernel, by decide +kernel, ?_⟩
  have hv : saveDemo.vds.find? (fun v => v.id = 1) = some { vdOne with st := .active } := by decide +kernel
  have hsize : (saveDemo.imageOf (theTeam .stopping)).size / 4096 = 59 := by decide +kernel
  have same : SameTables saveDemo saveDemo := ⟨rfl, rfl, fun _ _ => rfl⟩
  have hok : pageOk saveDemo { vdOne with st := .active } 0x100000 0x100000 .write = true := by decide +kernel
  obtain ⟨u, hu, hs⟩ := saves hv 0x100000 0x40000 saveDemo.nextId (List.range 59) (by decide +kernel) cleared (cleared_tables hv hok)
  rw [hsize]
  exact ⟨u, _, _, hu, (page_found hs hv hok).1⟩

/-- The team is to be restored; its area holds what the sixth save wrote. -/
def areaBytes : List Byte :=
  (validWord 6 :: headerWords (theTeam (.restoring theImage)) theImage).flatMap (leBytes 8) ++ ((List.range 59).flatMap (sectionBytes 0)).drop 64
def restoring : State :=
  let s := teamDemo (.restoring theImage)
  { s with mem := s.mem.puts 0x100000 areaBytes }

theorem slice_flatMap {α β : Type} (f : α → List β) (k : Nat) (l : List α) (h : ∀ x ∈ l, (f x).length = k) (r : List β) (i : Nat) (hi : i < l.length) :
    ((l.flatMap f ++ r).drop (k * i)).take k = f l[i] := by
  induction l generalizing i with
  | nil => exact absurd hi (by simp)
  | cons x xs ih =>
    have hx : (f x).length = k := h x (List.mem_cons_self ..)
    cases i with
    | zero => simp [List.take_append_of_le_length, hx]
    | succ i =>
      have := ih (fun y hy => h y (List.mem_cons_of_mem _ hy)) i (by simpa using hi)
      rw [show k * (i + 1) = (f x).length + k * i by rw [hx, Nat.mul_succ]; omega, List.flatMap_cons, List.append_assoc, ← List.drop_drop,
        List.drop_left]
      exact this

theorem bytes_puts (m : Memory) (a : Nat) (bs : List Byte) (k n : Nat) (h : k + n ≤ bs.length) :
    (m.puts a bs).bytes (a + k) n = (bs.drop k).take n := by
  refine List.ext_getElem (by simp; omega) fun j h1 h2 => ?_
  have hj : j < n := by simpa using h1
  have e := Memory.bytes_getD (m.puts a bs) (a + k) n j hj
  rw [List.getD_eq_getElem _ _ h1, Memory.get_puts, if_pos (by omega), show a + k + j - a = k + j by omega,
    List.getD_eq_getElem _ _ (by omega)] at e
  rw [e]; simp

theorem restoring_mem : restoring.mem = (teamDemo (.restoring theImage)).mem.puts 0x100000 areaBytes := by simp only [restoring]

theorem headerWords_length (t : Team) (x : Saved) : (headerWords t x).length = 7 := by simp only [headerWords, List.length_cons, List.length_nil]

theorem sections_length : ((List.range 59).flatMap (sectionBytes 0)).length = 241664 := by
  simp [List.length_flatMap, sectionBytes, List.map_const', List.sum_replicate]

theorem areaBytes_length : areaBytes.length = 241664 := by
  rw [areaBytes, List.length_append, List.length_drop, sections_length]; simp [List.length_flatMap, headerWords]

/-- The words of the header, and the sections after it. -/
theorem area_word (i : Nat) (hi : i < 5) : restoring.mem.rd (0x100000 + 8 * i) 8 =
    (validWord 6 :: (headerWords (theTeam (.restoring theImage)) theImage).take 4).getD i 0 := by
  have hlt : ∀ x ∈ (validWord 6 :: (headerWords (theTeam (.restoring theImage)) theImage).take 4), x < 2 ^ 64 := by
    intro x hx
    simp only [headerWords, List.take, List.mem_cons, List.not_mem_nil, or_false] at hx
    rcases hx with rfl | rfl | rfl | rfl | rfl
    · decide
    · decide +kernel
    · decide +kernel
    · decide +kernel
    · have := Config.implCode.isLt; omega
  have hw (j : Nat) (hj : j < 8) : restoring.mem.bytes (0x100000 + 8 * j) 8 =
      leBytes 8 ((validWord 6 :: headerWords (theTeam (.restoring theImage)) theImage)[j]'(by simpa [headerWords_length] using hj)) := by
    have e := bytes_puts (teamDemo (.restoring theImage)).mem 0x100000 areaBytes (8 * j) 8 (by rw [areaBytes_length]; omega)
    rw [restoring_mem, e, areaBytes,
      slice_flatMap (leBytes 8) 8 _ (by simp) _ j (by simpa [headerWords_length] using hj)]
  have he : ((validWord 6 :: headerWords (theTeam (.restoring theImage)) theImage)[i]'(by simp [headerWords_length]; omega)) =
      (validWord 6 :: (headerWords (theTeam (.restoring theImage)) theImage).take 4).getD i 0 := by
    match i, hi with
    | 0, _ => rfl
    | 1, _ => rfl
    | 2, _ => rfl
    | 3, _ => rfl
    | 4, _ => rfl
  have hl : (validWord 6 :: (headerWords (theTeam (.restoring theImage)) theImage).take 4).length = 5 := by simp [headerWords]
  rw [Memory.rd, hw i (by omega), he]
  have hx : (validWord 6 :: (headerWords (theTeam (.restoring theImage)) theImage).take 4).getD i 0 < 2 ^ 64 := by
    rw [List.getD_eq_getElem _ _ (by rw [hl]; exact hi)]; exact hlt _ (List.getElem_mem ..)
  generalize (validWord 6 :: (headerWords (theTeam (.restoring theImage)) theImage).take 4).getD i 0 = w at hx
  simp only [leBytes, ofLe, BitVec.toNat_ofNat]; omega

theorem area_section (i : Nat) (hi : i < 59) (skip : Nat) (hs : 64 ≤ 4096 * i + skip) :
    (restoring.mem.bytes (0x100000 + 4096 * i) 4096).drop skip = (sectionBytes 0 i).drop skip := by
  have e := bytes_puts (teamDemo (.restoring theImage)).mem 0x100000 areaBytes (4096 * i) 4096 (by rw [areaBytes_length]; omega)
  rw [restoring_mem, e]
  have hb := slice_flatMap (sectionBytes 0) 4096 (List.range 59) (by simp [sectionBytes]) [] i (by simpa using hi)
  rw [List.append_nil, List.getElem_range] at hb
  rw [← hb, List.drop_take, List.drop_take, List.drop_drop, List.drop_drop]
  refine congrArg (List.take (4096 - skip)) ?_
  have hlen : ((validWord 6 :: headerWords (theTeam (.restoring theImage)) theImage).flatMap (leBytes 8)).length = 64 := by
    simp [List.length_flatMap, headerWords]
  rw [areaBytes, List.drop_append, hlen, List.drop_eq_nil_of_le (by rw [hlen]; omega), List.nil_append, List.drop_drop]
  congr 1; omega

theorem drop_split {b h r : List Byte} (hh : (b.drop 40).take 24 = h) (hr : b.drop 64 = r) : b.drop 40 = h ++ r := by
  rw [← hh, ← hr]
  exact (List.take_append_drop 24 (b.drop 40)).symm.trans (by rw [List.drop_drop])

/-- The first block: after DW4 the header's reserved words, then the bytes of the section. -/
theorem area_first : (restoring.mem.bytes 0x100000 4096).drop 40 = List.replicate 24 0 ++ (sectionBytes 0 0).drop 64 := by
  have e := bytes_puts (teamDemo (.restoring theImage)).mem 0x100000 areaBytes 0 4096 (by rw [areaBytes_length]; omega)
  have hs := area_section 0 (by omega) 64 (by omega)
  rw [Nat.mul_zero, Nat.add_zero] at hs
  rw [Nat.add_zero] at e
  refine drop_split ?_ hs
  have hw : validWord 6 :: headerWords (theTeam (.restoring theImage)) theImage =
    (validWord 6 :: (headerWords (theTeam (.restoring theImage)) theImage).take 4) ++ [0, 0, 0] := rfl
  have hl : ((validWord 6 :: (headerWords (theTeam (.restoring theImage)) theImage).take 4).flatMap (leBytes 8)).length = 40 := by
    simp [headerWords]
  rw [restoring_mem, e, List.drop_zero, List.drop_take, List.take_take, areaBytes, hw, List.flatMap_append, List.append_assoc, List.drop_append, hl,
    List.drop_eq_nil_of_le (by rw [hl]), List.nil_append, Nat.sub_self, List.drop_zero, List.take_append_of_le_length (by simp)]
  rfl

theorem reads_area {s : State} {v : Vd} (hv : s.vds.find? (fun v => v.id = 1) = some v) (l : List Nat)
    (hl : l.all (fun i => pageOk s v (0x100000 + 4096 * i) (0x100000 + 4096 * i) .read) = true) {t : State} (h : SameTables s t) (hp : t.poison = [])
    (ps : List Nat) : State.readArea 1 0x100000 l ps t = .ok (ps ++ l.map (fun i => 0x100000 + 4096 * i), t) := by
  induction l generalizing ps with
  | nil => simp [State.readArea]
  | cons i is ih =>
    simp only [List.all_cons, Bool.and_eq_true] at hl
    simp only [State.readArea, (page_found h hv hl.1).1, State.poisoned, hp, List.any_nil, Bool.false_eq_true, if_false, ih hl.2]
    simp

theorem restoring_tables : SameTables (teamDemo (.restoring theImage)) restoring := by
  refine ⟨by simp only [restoring], by simp only [restoring], fun x hx => ?_⟩
  simp only [restoring]
  rw [Memory.get_puts, if_neg]
  rw [areaBytes_length]; omega

/-- No line is pinned and no request waits. -/
theorem areaWaits_free {s : State} (hc : s.cores = []) (hd : s.core.dcache = []) (hr : s.requests = []) (vd area : Nat) (l : List Nat) (acc : Acc) (n : Nat) :
    s.areaWaits vd area l acc n = none := by
  have hw (pa k : Nat) : s.hubWaits pa k n = none := by
    simp [State.hubWaits, State.pinnedAnywhere, State.pinnedElsewhere, State.askedBefore, hc, hd, hr]
  simp only [State.areaWaits, List.findSome?_eq_none_iff, State.hubAccessWaits, hw]
  intro i _
  rw [List.findSome?_eq_none_iff.mpr fun _ _ => rfl]
  dsimp only
  split <;> rfl

/-- With nothing in the caches, making room on cores writes no memory. -/
theorem emptied (s : State) (ids : List Nat) (hc : s.cores = []) (hd : s.core.dcache = []) :
    ((s.flushCores ids).clearCores ids).mem = s.mem ∧ ((s.flushCores ids).clearCores ids).vds = s.vds ∧
    ((s.flushCores ids).clearCores ids).verRegs = s.verRegs := by
  have hf : (s.flushCores ids).mem = s.mem ∧ (s.flushCores ids).vds = s.vds ∧ (s.flushCores ids).verRegs = s.verRegs := by
    simp only [State.flushCores, hc, List.foldl_nil, List.map_nil]
    split <;> simp [State.unpin, State.cleanLines, hd, State.setCache]
  have keep (t : State) : (t.clearCores ids).mem = t.mem ∧ (t.clearCores ids).vds = t.vds ∧ (t.clearCores ids).verRegs = t.verRegs := by
    simp only [State.clearCores, State.dropHarts]
    split <;> split <;> exact ⟨rfl, rfl, rfl⟩
  exact ⟨(keep _).1.trans hf.1, (keep _).2.1.trans hf.2.1, (keep _).2.2.trans hf.2.2⟩

theorem unsave_tables : SameTables (teamDemo (.restoring theImage)) (restoring.unsave (theTeam (.restoring theImage)) theImage) := by
  have key : ∀ {α : Type} (p : State → α), (∀ s c, p (State.putCtx s c) = p s) → (∀ s i c, p (State.setCore s i c) = p s) →
      (∀ s i c, p (State.setClus s i c) = p s) →
      p ((restoring.flushCores (theTeam (.restoring theImage)).coreIds).clearCores (theTeam (.restoring theImage)).coreIds) = p restoring →
      p (restoring.unsave (theTeam (.restoring theImage)) theImage) = p restoring := by
    intro α p h1 h2 h3 h4
    unfold State.unsave
    dsimp only
    split <;> simp only [h3, foldl_same p _ (fun b a => h2 _ _ _), foldl_same p _ (fun b a => h1 _ _), h4]
  obtain ⟨a, b, c⟩ := restoring_tables
  obtain ⟨m, v, r⟩ := emptied restoring (theTeam (.restoring theImage)).coreIds rfl rfl
  refine ⟨(key State.vds ?_ ?_ ?_ v).trans a, (key State.verRegs ?_ ?_ ?_ r).trans b, fun x hx => ?_⟩
  rotate_right
  · rw [key State.mem ?_ ?_ ?_ m]
    · exact c x hx
    all_goals intro s; intros; first | unfold State.putCtx | unfold State.setCore | unfold State.setClus
    all_goals split <;> rfl
  all_goals intro s; intros; first | unfold State.putCtx | unfold State.setCore | unfold State.setClus
  all_goals split <;> rfl

theorem witness_ClocheResults_restore :
    restoring.findTeam demo.key = some (theTeam (.restoring theImage)) ∧ restoring.hubHas (.act (.clocheRestore demo.key)) = false ∧
    (pinnedBy (teamDemo (.restoring theImage)) [0x2000]).areaWaits 1 0x100000 [0] .read 0 = some 0x2000 ∧
    restoring.areaWaits 1 0x100000 (List.range (theImage.size / 4096)) .read restoring.stamp = none ∧
    (teamDemo (.restoring theImage)).areaWaits 1 0x100000 (List.range (theImage.size / 4096)) .read 0 = none ∧
    (∃ s1, (teamDemo (.restoring theImage)).areaPage 1 0x100000 .read = .ok (0x100000, s1) ∧ s1.poisoned 0x100000 64 = false ∧
      ¬ ((List.range 5).map (fun i => s1.mem.rd (0x100000 + 8 * i) 8) =
        ((theTeam (.restoring theImage)).gen % 2 ^ 32 * 2 ^ 32 + 0xC10C * 2 ^ 16 + 1) :: (headerWords (theTeam (.restoring theImage)) theImage).take 4)) ∧
    (∃ s1, restoring.areaPage 1 0x100000 .read = .ok (0x100000, s1) ∧ s1.poisoned 0x100000 64 = false ∧
      (List.range 5).map (fun i => s1.mem.rd (0x100000 + 8 * i) 8) =
        ((theTeam (.restoring theImage)).gen % 2 ^ 32 * 2 ^ 32 + 0xC10C * 2 ^ 16 + 1) :: (headerWords (theTeam (.restoring theImage)) theImage).take 4 ∧
      ∃ ps s2, State.readArea 1 0x100000 (List.range (theImage.size / 4096)) [] s1 = .ok (ps, s2) ∧
        s2.intact (theTeam (.restoring theImage)).seed ps = true ∧
        ∃ pte s3, (s2.unsave (theTeam (.restoring theImage)) theImage).hubWalk 1 0x100000 .write = some (0x100000, pte, s3) ∧ pteMt pte ≤ 1) ∧
    canonical 0x100000 = true ∧ inLocal 0x100000 = false ∧ inLane 0x100000 = false ∧
    (theImage.ctxs.map (·.hart.id)).Nodup ∧ theImage.ctxs.length = 1 ∧ (∀ c ∈ theImage.ctxs, c.hart.live = true) := by
  have hv : (teamDemo (.restoring theImage)).vds.find? (fun v => v.id = 1) = some { vdOne with st := .active } := by decide +kernel
  have hok : pageOk (teamDemo (.restoring theImage)) { vdOne with st := .active } 0x100000 0x100000 .read = true := by decide +kernel
  have hokw : pageOk (teamDemo (.restoring theImage)) { vdOne with st := .active } 0x100000 0x100000 .write = true := by decide +kernel
  have hall : (List.range 59).all (fun i => pageOk (teamDemo (.restoring theImage)) { vdOne with st := .active } (0x100000 + 4096 * i)
      (0x100000 + 4096 * i) .read) = true := by decide +kernel
  have hsize : theImage.size / 4096 = 59 := by decide +kernel
  have same : SameTables (teamDemo (.restoring theImage)) (teamDemo (.restoring theImage)) := ⟨rfl, rfl, fun _ _ => rfl⟩
  refine ⟨by simp [State.findTeam, restoring, teamDemo, theTeam], by decide +kernel, by decide +kernel, areaWaits_free rfl rfl rfl .., areaWaits_free rfl rfl rfl ..,
    ⟨_, (page_found same hv hok).1, by decide +kernel, by decide +kernel⟩, ⟨_, (page_found restoring_tables hv hok).1, by decide +kernel, ?_, ?_⟩,
    by decide, by decide, by decide, by decide +kernel, by decide +kernel, by decide +kernel⟩
  · rw [show List.range 5 = [0, 1, 2, 3, 4] by decide]
    simp only [List.map, area_word 0 (by decide), area_word 1 (by decide), area_word 2 (by decide), area_word 3 (by decide), area_word 4 (by decide)]
    rfl
  · rw [hsize]
    refine ⟨_, _, reads_area hv (List.range 59) hall restoring_tables rfl [], ?_, ?_⟩
    · rw [show (theTeam (.restoring theImage)).seed = 0 from rfl]
      simp only [State.intact, List.nil_append, List.all_eq_true, decide_eq_true_eq]
      intro x hx
      obtain ⟨i, hi, hp⟩ := List.mem_iff_getElem.mp hx
      have hi' : i < 59 := by simpa using hi
      obtain rfl : x = (0x100000 + 4096 * i, i) := by rw [← hp]; simp
      dsimp only
      split
      · rename_i h0
        have h0 : i = 0 := h0
        subst h0
        exact decide_eq_true area_first
      · exact decide_eq_true (by simpa only [List.drop_zero] using area_section i hi' 0 (by omega))
    · obtain ⟨pte, hm, hw⟩ := (page_found unsave_tables hv hokw).2
      exact ⟨pte, _, hw, hm⟩

/-- The grid belongs to graph 7. -/
def graphed (run : Bool) : State := { gridDemo run with grids := (gridDemo run).grids.map fun g => { g with desc := g.desc.set 8 0x700000000 } }
/-- The walk has been at it. -/
def walked : State := { graphed false with grids := (graphed false).grids.map fun g => { g with held := true, stopped := some 5 } }
/-- A running grid without a team on cores. -/
def idleGrid : State := { graphed true with teams := [] }

theorem witness_ClocheResults :
    (teamDemo .stopping).findTeam ⟨1, 1, 1⟩ = none ∧ (teamDemo .resident).findTeam demo.key = some (theTeam .resident) ∧
    (∀ t, (teamDemo .resident).findTeam demo.key = some t → ∀ x, t.st ≠ .restoring x) ∧
    (∀ b, ((graphed b).grids.map fun x => (x.vd, x.gid)).Nodup) ∧ (graphed true).findVd 1 = some { vdOne with st := .active } ∧ (graphed true).findVd 2 = none ∧
    (∀ b, (graphed b).grids.map (fun x => (x.vd, dGraph x.desc, x.st == .running, x.held)) = [(1, 7, b, false)] ∧
      (graphed b).grids.map (fun x => (x.stopped, (graphed b).gridResident x, (graphed b).gridSending x)) = [(none, b, false)]) ∧
    (idleGrid.grids.map fun x => (x.st == .running, idleGrid.gridResident x, idleGrid.gridSending x)) = [(true, false, false)] ∧
    walked.grids.map (·.stopped) = [some 5] ∧ theImage.ctxs.all (fun c => !c.a.launching && !c.e.launching && c.hart.live) = true ∧
    (let v : Vd := { vdOne with st := .active }
     v.remotes = [] ∧ ∀ p ∈ (graphed true).nodes v 7, ∀ c ∈ (graphed true).nodes v 7, v.feeds p c = false) ∧
    (graphed true).findGrid 1 5 = none ∧ ((graphed true).findGrid 1 9).isSome = true ∧ (walked.findGrid 1 9).isSome = true := by
  refine ⟨by decide +kernel, by decide +kernel, ?_, by decide +kernel, by decide +kernel, by decide +kernel, ?_, by decide +kernel,
    by decide +kernel, by decide +kernel, by decide +kernel, by decide +kernel, by decide +kernel, by decide +kernel⟩
  rotate_left
  · intro b; cases b <;> decide +kernel
  intro t ht x
  have h : (teamDemo .resident).findTeam demo.key = some (theTeam .resident) := by decide +kernel
  rw [h] at ht; cases ht; exact fun e => by cases e

-- R350: 4,096 bytes, 49,152 a core, 24,576 with 72 bytes a lane and its partition a hart
theorem test_cloche :
    theImage.size = 4096 + 49152 + 24576 + 72 * 2048 + 16384 ∧ shows (exec (.clocheSave demo.key 0x100000 0x40000) (teamDemo .resident)) (fun t => t.teams.map (·.st)) [.resident] = true ∧
    shows (exec (.clocheSave demo.key 0x100000 0x1000) (teamDemo .stopping)) (fun t => t.teams.map (·.st)) [.resident] = true ∧
    shows (exec (.clocheRestore demo.key) (teamDemo (.restoring theImage))) (fun t => (t.out.length, t.parked.length)) (1, 0) = true := by
  and_intros <;> decide +kernel

theorem test_stop_walk :
    shows (exec (.stopWalk 1 7) (gridDemo true)) (fun t => (t.out, t.teams.map (·.st))) ([.stopWalkDone 1 7], [.resident]) = true ∧
    shows (exec (.stopWalk 1 0) (graphed true)) (fun t => (t.grids.map (·.held), t.teams.map (·.st), t.out)) ([true], [.stopping], []) = true ∧
    shows (exec (.stopWalk 1 7) idleGrid) (fun t => t.grids.map (·.stopped.isSome)) [true] = true ∧
    shows (exec (.stopWalk 1 7) walked) (fun t => t.out) [.stopWalkDone 1 7] = true ∧
    shows (exec (.remoteStopRequest 1 5) (gridDemo true)) (fun t => t.out) [.stopAck 1 5] = true ∧
    shows (exec (.remoteStopRequest 1 9) (gridDemo true)) (fun t => (t.out, t.teams.map (·.st))) ([], [.stopping]) = true := by
  and_intros <;> decide +kernel

-- Timers, windows, wake states

/-- Timer 0 of VD 1, bound to window 1, comes to tick 5 at 5,200 ns with guard 50; two records wait, one after the cutoff; the window's policy
and hold are given; the descriptor stands at 0x30200, the ring at 0x30000. -/
def timerVd (pol : Word) (f : Timer → Timer) : Vd :=
  let w : Window := { base := 0x30000, ctl := 0x8000000000040000 ||| pol, hold := 100, cnt := 0, accepted := 2, lastSlot := 4, cut := none, held := []
                      slots := [⟨3, 100, 0, .untaken, false⟩, ⟨4, 5200, 1, .untaken, false⟩] }
  { vdOne with
    st := .active, vdcfg := 2 * 2 ^ 16, wins := vdOne.wins.set 1 w
    timers := vdOne.timers.set 0 (f { vdOne.timers[0] with period := 1000, phase := 200, guardNs := 50, next := 5, ctl := 0x8000000000000081, desc := 0x30200 }) }
def timerDemo (pol : Word) (f : Timer → Timer) : State :=
  let s := setMem (setMem (setMem (tables 4) 0x20200 8 0x10000) 0x20208 8 1) 0x20210 8 0x10301
  { s with vds := [timerVd pol f], parts := [⟨0, [0], [], 256, [], Quota.all⟩] }
/-- HOLD for two records. -/
def holds : Word := 0x0000000200000001
def stepAt (k : Nat) : Option Step := some ⟨k, none, [1]⟩
def aRec : Rec := ⟨77, 1, 2, 0, []⟩

theorem witness_TimerAndWindowResults :
    (timerDemo 0 id).findVd 1 = some (timerVd 0 id) ∧ (timerVd 0 id).st ≠ .destroyed ∧ (timerVd 0 id).timers[0].ctl.getLsbD 63 = true ∧
    (timerVd 0 id).timers[1].ctl.getLsbD 63 = false ∧ (timerVd 0 id).timers[0].held = none ∧ (timerVd 0 id).timers[0].running = none ∧
    (timerVd 0 id).mayFire 5200 (timerVd 0 id).timers[0] 5 = true ∧ (timerVd holds id).mayFire 5200 (timerVd holds id).timers[0] 5 = false ∧
    (timerVd 0 (fun t => { t with running := stepAt 4 })).timers[0].running ≠ none ∧ (timerVd holds (fun t => { t with held := stepAt 5 })).timers[0].held = stepAt 5 ∧
    (timerVd 0 (fun t => { t with pending := stepAt 5 })).timers[0].pending = stepAt 5 ∧ (1 : BitVec 6) ∈ ttWins (timerVd 0 id).timers[0].ctl ∧
    (2 : BitVec 6) ∉ ttWins (timerVd 0 id).timers[0].ctl ∧ ((State.wake { timerDemo 0 id with time := 5200 } 1).findVd 1).isSome = true ∧
    (timerVd holds (fun t => { t with held := stepAt 5 })).mayFire 5200 (timerVd holds id).timers[0] 5 = false ∧
    (timerVd holds (fun t => { t with held := stepAt 5 })).mayFire 5300 (timerVd holds id).timers[0] 5 = true ∧
    (timerVd 0 (fun t => { t with pending := stepAt 5 })).mayFire 5200 (timerVd 0 id).timers[0] 5 = true ∧
    (timerVd holds (fun t => { t with pending := stepAt 5 })).mayFire 5200 (timerVd holds id).timers[0] 5 = false ∧
    (timerVd 0 (fun t => { t with running := stepAt 4 })).timers[0].running = stepAt 4 ∧
    (timerVd 0 (fun t => { t with running := stepAt 4 })).inlet = [] := by
  and_intros <;> decide +kernel

/-- Window 1 as another one, the VD in another state. -/
def windowed (st : VdState) (wc : Word) (f : Window → Window) : State :=
  let s := timerDemo 0 id
  { s with vds := s.vds.map fun v => { v with st := st, vdcfg := v.vdcfg ||| wc, wins := v.wins.set 1 (f v.wins[1]) } }
def hubRec : HubRec := ⟨aRec, 9, false, none, 2⟩
/-- The hub holds an earlier record of the window. -/
def earlier : State := { timerDemo 0 id with hubq := [⟨.act (.recordAcceptance 1 1 aRec), [0x400], 0⟩], stamp := 1 }

theorem witness_TimerAndWindowResults_records :
    let w := (timerVd 0 id).wins[1]
    1 < (timerVd 0 id).vdcfg.toNat / 2 ^ 16 % 2 ^ 11 ∧ w.ctl.getLsbD 63 = true ∧ ((timerVd 0 id).wins[0]).ctl.getLsbD 63 = false ∧ w.cut = none ∧
    ¬ ((timerVd 0 id).st = .mitten ∧ 2 ≤ (timerVd 0 id).vdcfg.toNat % 4) ∧ (∀ j : Fin 16, (timerVd 0 id).timers[j].held = none) ∧
    w.slots.length < 2 ^ (w.ctl.toNat / 2 ^ 16 % 32) ∧ ((timerVd 2 id).wins[1]).ctl.toNat % 4 = 2 ∧
    (List.range 16).all (fun i => match (timerDemo 0 id).now.hubTranslate 1 (0x30000 + 64 * i) .write with
      | some x => decide (pteMt x.2 ≤ 1) | none => false) = true ∧
    (windowed .active 0 fun w => { w with ctl := w.ctl ||| 2, cut := some 5150 }).vds.map (fun v => (v.wins[1].ctl.toNat % 4, v.wins[1].cut)) = [(2, some 5150)] ∧
    earlier.heldRecord 1 1 earlier.stamp = some 0x400 ∧ (timerDemo 0 id).heldRecord 1 1 0 = none ∧
    (pinnedBy (timerDemo 0 id) (List.range' 0x400 8)).vds.map (fun v => (pinnedBy (timerDemo 0 id) (List.range' 0x400 8)).recordWaits v 1 0) = [some 0x402] ∧
    (timerDemo 0 id).recordWaits (timerVd 0 id) 1 0 = none ∧
    -- slots 3 and 4 are used, 4 last, and the next free one is 5
    w.lastSlot = 4 ∧ w.slots.map (·.slot) = [3, 4] ∧ (4 + 1 + 0) % 2 ^ (w.ctl.toNat / 2 ^ 16 % 32) = 5 ∧
    ((timerDemo 0 id).now.hubWalk 1 (0x30000 + 64 * 5) .write).map (fun x => decide (pteMt x.2.1 ≤ 1)) = some true ∧
    -- a record of the held step's time, after an earlier cutoff at 5150 (R376)
    (timerVd holds (fun t => { t with held := stepAt 5 })).timers[0].held.map (fun h => decide ((5150 : Int) ≤ ((200 + h.k * 1000 : Nat) : Int) - 50)) = some true ∧
    (windowed .active 0 fun w => { w with held := [hubRec] }).vds.map (fun v => v.wins[1].held.length) = [1] ∧
    (windowed .mitten 2 id).vds.map (fun v => (v.st, v.vdcfg.toNat % 4, v.wins[1].held)) = [(.mitten, 2, [])] := by
  and_intros <;> decide +kernel

theorem test_timers :
    let st (t : State) : List (List SlotState) := t.vds.map fun v => v.wins[1].slots.map (·.st)
    let tm (t : State) : List (Word × Option Step × Option Step) := t.vds.map fun v => (v.timers[0].k, v.timers[0].held, v.timers[0].pending)
    shows (exec (.tick 1 0) (timerDemo 0 id)) (fun t => (st t, t.time, t.grids.map (·.timer))) ([[.assigned (0, 5), .untaken]], 5200, [some (0, 5)]) = true ∧
    shows (exec (.tick 1 0) (timerDemo 0 id)) tm [(5, none, none)] = true ∧ shows (exec (.tick 1 0) (timerDemo holds id)) tm [(0, some ⟨5, none, []⟩, none)] = true ∧
    shows (exec (.tick 1 0) (timerDemo 0 fun t => { t with running := stepAt 4, pending := stepAt 3 })) tm [(0, none, some ⟨5, none, []⟩)] = true ∧
    shows (exec (.tick 1 0) (timerDemo 0 fun t => { t with running := stepAt 4, pending := stepAt 3 })) (fun t => t.vds.map fun v => v.timers[0].ovr) [1] = true ∧
    shows (exec (.holdExpiry 1 0) (timerDemo holds fun t => { t with held := stepAt 5 })) (fun t => (t.time, st t)) (5300, [[.assigned (0, 5), .untaken]]) = true ∧
    shows (exec (.stepFire 1 0) { timerDemo 0 (fun t => { t with pending := stepAt 5 }) with time := 5200 }) tm [(5, none, none)] = true := by
  and_intros <;> decide +kernel

theorem test_records :
    shows (exec (.recordAcceptance 1 1 aRec) (timerDemo 0 id)) (fun t => t.vds.map fun v => v.wins[1].slots.map fun x => (x.slot, x.t, x.st, x.late))
      [[(3, 100, .untaken, false), (4, 5200, .untaken, false), (5, 77, .untaken, false)]] = true ∧
    -- the slots wrap, and a slot in use is passed over (R372)
    shows (exec (.recordAcceptance 1 1 aRec) (windowed .active 0 fun w => { w with lastSlot := 15, slots := [⟨0, 100, 0, .untaken, false⟩] }))
      (fun t => t.vds.map fun v => v.wins[1].slots.map (·.slot)) [[0, 1]] = true ∧
    -- a record at an earlier cutoff is late, but not for the held step (R376)
    shows (exec (.recordAcceptance 1 1 aRec) (windowed .active 0 fun w => { w with cut := some 100 }))
      (fun t => t.vds.map fun v => v.wins[1].slots.map (·.late)) [[false, false, true]] = true ∧
    shows (exec (.recordAcceptance 1 0 aRec) (timerDemo 0 id)) (fun t => t.vds.map fun v => v.wins[0].slots.length) [0] = true ∧
    shows (exec (.recordAcceptance 1 1 aRec) (windowed .mitten 2 id)) (fun t => t.vds.map fun v => v.wins[1].held.map fun h => (h.r.t, h.late)) [[(77, false)]] = true ∧
    (recBytes aRec 9 true).length = 64 ∧ (recBytes aRec 9 true).take 24 = [77, 0, 0, 0, 0, 0, 0, 0, 9, 0, 0, 0, 0, 0, 0, 0, 1, 0, 0, 0, 2, 0, 0, 1] := by
  and_intros <;> decide +kernel

/-- VD 1 in a state, without a grid on the hart in focus; `team`: one of its teams. -/
def wakeDemo (st : VdState) (col roused : Bool) (team : List TeamState) : State :=
  { demo with
    hart := { demo.hart with grid := 0 }, vds := [{ vdOne with st := st, col := col, roused := roused, remain := 3 }], moduleCollapsed := true
    teams := team.map fun x => ⟨⟨1, 9, 0⟩, x, 1, 0, 1, 0, 0, 0, 0, 0, 0, 0, false, false⟩ }
/-- The same with another wake class, and a frame of the HBM moved to the LPDDR tier. -/
def wakeClass (st : VdState) (wc : Word) (moved : List (Nat × Nat)) : State :=
  { wakeDemo st false false [] with vds := [{ vdOne with st := st, remain := 3, vdcfg := vdOne.vdcfg / 4 * 4 + wc, moved := moved }] }
def faultedTeam : Team := ⟨⟨1, 9, 0⟩, .resident, 1, 0, 1, 0, 0, 0, 0, 0, 0, 0, true, false⟩
/-- Core 0 holds a dirty line that another core has pinned (R347). -/
def dirtyAway (s : State) : State := pinnedBy { s with core := { s.core with dcache := (cachedDemo none).core.dcache } } [0x210]
def wakeStates (t : State) : List (VdState × Bool × Bool × Nat) := t.vds.map fun v => (v.st, v.wpend, v.roused, v.remain)

theorem witness_WakeResults :
    (wakeDemo .created false false []).vds.length = 1 ∧ (wakeDemo .active false false []).vdState { vdOne with st := .active, remain := 3 } = .idle ∧
    (wakeDemo .active false true []).vdState { vdOne with st := .active, roused := true, remain := 3 } = .active ∧
    (∃ t ∈ (wakeDemo .waking false false [.saved ⟨[], [], none⟩]).teams, t.key.vd = 1 ∧ t.out = false ∧ ∃ x, t.st = .saved x ∨ t.st = .restoring x) ∧
    (wakeDemo .active false false [.resident]).vdState { vdOne with st := .active, remain := 3 } = .idle ∧
    (∀ t ∈ (wakeDemo .active false false []).teams, t.key.vd ≠ 1) ∧
    (wakeClass .waking 2 [(0x40000000000, 0x1000000)]).vds.map (fun v => (v.st, v.moved.length)) = [(.waking, 1)] ∧
    (wakeDemo .mitten true false []).vds.map (fun v => (v.st, v.col)) = [(.mitten, true)] ∧
    (wakeClass .active 2 []).vds.map (fun v => (v.vdcfg.toNat % 4, decide ((wakeClass .active 2 []).vdState v = .idle), (wakeClass .active 2 []).hbmFrames v)) =
      [(2, true, [0x1000000])] ∧
    (wakeClass .active 1 []).vds.map (fun v => (v.vdcfg.toNat % 4, decide ((wakeClass .active 1 []).vdState v = .idle))) = [(1, true)] ∧
    (faultedTeam.key.vd = 1 ∧ faultedTeam.faulted = true) ∧
    (let s := { wakeDemo .active false false [] with teams := [faultedTeam] }
     s.vdState { vdOne with st := .active, remain := 3 } = .idle) ∧
    (wakeDemo .active false false [.resident]).teams = [] ++ [{ faultedTeam with faulted := false }] ∧
    (vdOne.vdcfg / 4 * 4).toNat % 4 = 0 ∧ (wakeDemo .active false false [.resident]).flushWaits [0] = none ∧
    (dirtyAway (wakeDemo .active false false [.resident])).flushWaits [0] = some 0x210 := by
  refine ⟨rfl, by decide +kernel, by decide +kernel, ⟨_, .head _, rfl, rfl, _, .inl rfl⟩, by decide +kernel, (fun t h => by cases h), ?_⟩
  and_intros <;> decide +kernel

theorem test_wake :
    shows (exec (.wakeWrite 1) (wakeDemo .created false false [])) wakeStates [(.active, false, false, 3)] = true ∧
    shows (exec (.wakeWrite 1) (wakeDemo .active false false [])) wakeStates [(.active, false, true, 3)] = true ∧
    shows (exec (.hatbandWake 1) (wakeDemo .mitten false false [])) (fun t => (wakeStates t, t.moduleCollapsed)) ([(.waking, false, false, 0)], false) = true ∧
    shows (exec (.wakeWrite 1) (wakeDemo .mitten true false [])) wakeStates [(.mitten, true, false, 3)] = true ∧
    shows (exec (.wakeComplete 1) (wakeDemo .waking false false [.stopping])) (fun t => (t.vds.map (·.st), t.teams.map (·.st))) ([.active], [.resident]) = true ∧
    shows (exec (.wakeComplete 1) (wakeDemo .waking false false [.saved ⟨[], [], none⟩])) (fun t => t.vds.map (·.st)) [.waking] = true ∧
    shows (exec (.collapse 1) (wakeDemo .active false false [])) (fun t => t.vds.map fun v => (v.st, v.col)) [(.mitten, false)] = true ∧
    shows (exec (.wakeComplete 1) (wakeClass .waking 2 [(0x40000000000, 0x1000000)])) (fun t => t.vds.map (·.st)) [.waking] = true ∧
    shows (exec (.collapse 1) (wakeClass .active 2 [])) (fun t => t.vds.map fun v => (v.st, v.col)) [(.mitten, true)] = true ∧
    shows (exec (.collapse 1) { wakeDemo .active false false [.resident] with
      vds := (wakeClass .active 0 []).vds, teams := [{ faultedTeam with clus := 0, faulted := false }], core := (cachedDemo none).core }) (fun t => (t.core.dcache.length, t.teams.map (·.st))) (0, [.stopping]) = true ∧
    shows (exec (.collapse 1) (wakeDemo .active false false [.resident])) (fun t => (t.vds.map fun v => (v.st, v.col), t.teams.map (·.st))) ([(.mitten, true)], [.stopping]) = true := by
  and_intros <;> decide +kernel

-- Host, links and time

def descWords : List Word := [0x10000, 1, 0x10301, 0, 0, 0, 0, 0, 8, 5]
def hosted (inlet : Nat) : State :=
  { demo with
    parts := [⟨0, [0], [], 256, [], Quota.all⟩]
    vds := [{ vdOne with
      st := .active, inlet := List.replicate inlet ⟨Vector.replicate 16 0, 0, 0, none, false, none⟩
      eps := [(7, ⟨some ⟨1, 2, [0], 3, false⟩, [⟨[1, 2], ⟨1, 1, 0⟩, 0, none⟩], [], false⟩), (8, ⟨some ⟨1, 2, [0], 3, false⟩, [], [], true⟩)] }] }
/-- The host's decoders expose the first MiB. -/
def exposed : State := { demo with decoders := [(0, 0x100000)] }
/-- A launch waits for DEPCTR = 0x10000. -/
def counted : List Word := descWords.take 3 ++ [0x10000] ++ descWords.drop 4
/-- VD 1 lies in partition 0, which has a quota of two endpoints, or of three. -/
def fewEndpoints (n : Nat) : State := { hosted 0 with parts := [⟨0, [0], [], 256, [], { Quota.all with endpoints := n }⟩] }

/-- The VD's event ring of 16 records stands at 0x30000; `more` records are in it. -/
def ringed (more : Nat) : State :=
  { tablesOn (hosted 0) 4 with vds := (hosted 0).vds.map fun v => { v with evbase := 0x30004, evCount := more } }
/-- VD 1's endpoint 7 is joined to endpoint 8 of the same module. -/
def joined : State :=
  { hosted 0 with vds := (hosted 0).vds.map fun v => { v with
      eps := [(7, ⟨some ⟨0, 8, [0], 1, true⟩, [⟨[1, 2], ⟨1, 1, 0⟩, 0, none⟩], [], false⟩), (8, ⟨some ⟨0, 7, [0], 1, true⟩, [], [], true⟩)] } }

theorem witness_HostAndLinkResults_more :
    exposed.hostReaches 0x8000000000 3 = false ∧ inDevice 0x20000 = true ∧
    (∀ n ∈ [0, 16], (ringed n).vds.map (fun v => (v.evbase.toNat % 16, decide (v.evCount - v.evhead.toNat < 16))) = [(4, decide (n = 0))]) ∧
    (ringed 0).heldEvent 1 (ringed 0).stamp = none ∧ (ringed 0).now.hubAccessWaits 1 0x30000 32 .write (ringed 0).stamp = none ∧
    ((ringed 0).now.hubWalk 1 0x30000 .write).map (fun x => (decide (pteMt x.2.1 ≤ 1), x.2.2.poisoned x.1 32)) = some (true, false) ∧
    (pinnedBy (ringed 0) [0x400]).now.hubAccessWaits 1 0x30000 32 .write (ringed 0).stamp = some 0x400 ∧
    ({ ringed 0 with hubq := [⟨.event 1 9 0 0 0, [0x400], 0⟩], stamp := 1 }.heldEvent 1 1).isSome = true ∧
    joined.vds.map (fun v => (v.ep 7).map fun p => (p.cfg.map (fun k => (k.onModule, k.remoteVd, k.remoteEp)), p.down, p.out.map (·.credit.isNone))) =
      [some (some (true, 1, 8), false, [true])] ∧ joined.vds.map (fun v => (v.ep 8).map (·.cfg.isSome)) = [some true] := by
  and_intros <;> decide +kernel

theorem witness_HostAndLinkResults :
    exposed.hostReaches 0x20000 3 = true ∧ 0x20000 / 64 = (0x20000 + 3 - 1) / 64 ∧ exposed.hubWaits 0x20000 3 0 = none ∧
    (pinnedBy exposed [0x400]).hubWaits 0x20000 3 0 = some 0x400 ∧ ¬ (0x2003E / 64 = (0x2003E + 3 - 1) / 64) ∧
    exposed.hostReaches (2 ^ 39) 1 = false ∧ (exposed.sideSlot (0x20000 / 128 * 128)).isSome = true ∧ (∀ v, demo.findVd 2 = some v → v.st = .destroyed) ∧
    (hosted 255).vds.map (fun v => (decide (v.inlet.length < 256), v.st, (hosted 255).vdState v, (hosted 255).refusalOf v (arrived (descOf descWords) 1))) = [(true, .active, .active, none)] ∧
    (hosted 256).vds.map (·.inlet.length) = [256] ∧ (hosted 0).vds.map (fun v => (hosted 0).refusalOf v (arrived (descOf []) 1)) = [some 2] ∧
    (hosted 0).vds.map (fun v => (v.inlet, (hosted 0).refusalOf v (arrived (descOf descWords) 1))) = [([], none)] ∧
    (hosted 255).counterWaits 1 (arrived (descOf descWords) 1) 0 = none ∧
    (pinnedBy (tablesOn (hosted 0) 5) [0x20000]).counterWaits 1 (arrived (descOf counted) 1) 0 = some 0x20000 ∧
    demo.awaiting = [] ∧ demo.me.wait = none ∧ (∀ v ∈ demo.vds, v.remotes = []) ∧ isQ (9 : Reg) = false ∧
    answering.me.wait = some (.answer 9 0x10004) ∧ answeringQueue.me.wait = some (.answer 24 0x10004) ∧ isQ (24 : Reg) = true ∧
    answeringQueue.hart.q (qIdx 24) = [.val 1] ++ .reserved :: [] ∧ QEnt.reserved ∉ [QEnt.val 1] ∧
    (hosted 0).vds.map (fun v => (v.ep 7).map fun p => (p.cfg.map (·.onModule), p.out.map (·.credit.isNone), p.down)) = [some (some false, [true], false)] ∧
    (hosted 0).vds.map (fun v => (v.ep 8).map (·.down)) = [some true] ∧ (hosted 0).vds.map (fun v => v.ep 9) = [none] ∧ 399999 < 400000 ∧
    (fewEndpoints 2).vds.map (fun v => (v.eps.length, ((fewEndpoints 2).findPart (v.vdcfg.toNat / 2 ^ 8 % 32)).map (·.quota.endpoints))) = [(2, some 2)] := by
  refine ⟨by decide +kernel, by decide, by decide +kernel, by decide +kernel, by decide, by decide +kernel, by decide +kernel, fun v h => ?_, ?_⟩
  · have h2 : demo.findVd 2 = none := by decide +kernel
    rw [h2] at h; cases h
  · and_intros <;> decide +kernel

theorem test_host :
    shows (exec (.hostMemoryWrite 0x20000 [some 1, none, some 3]) (setMem exposed 0x20000 2 0x0907)) (fun t => (t.mem.rd 0x20000 8, t.version 0x400)) (0x030901, 1) = true ∧
    shows (exec (.hostMemoryWrite 0x20000 [some 1]) demo) (fun t => t.mem.rd 0x20000 8) 0 = true ∧
    shows (exec (.hostMemoryRead 0x20000 2) (setMem { exposed with poison := [0x400] } 0x20000 2 0x0201)) (fun t => t.out) [.hostRead 0x20000 [1, 2] true] = true ∧
    shows (exec (.remoteLaunch 1 descWords) (hosted 0)) (fun t => (t.out, t.grids.map fun g => (g.vd, g.gid, g.desc[8], g.desc[9]))) ([.remoteAnswer 1], [(1, 1, 0, 1)]) = true ∧
    shows (exec (.remoteLaunch 1 descWords) (hosted 256)) (fun t => t.out) [.remoteAnswer 0x8000000000000001] = true ∧
    shows (exec (.remoteLaunchAnswer 5) answering) (fun t => (t.me.reg 9, t.me.wait)) (0x4000000000000005, none) = true ∧
    shows (exec (.remoteLaunchAnswer 5) answeringQueue) (fun t => t.hart.q 0) [.val 1, .val 0x4000000000000005] = true := by
  and_intros <;> decide +kernel

theorem test_messages :
    shows (exec (.messageAcceptance 1 7 none) (hosted 0)) (fun t => (t.out, t.vds.map fun v => (v.ep 7).map (·.out.length))) ([.message 0 1 7 [1, 2]], [some 0]) = true ∧
    shows (exec (.messageAcceptance 1 7 (some [9])) (hosted 0)) (fun t => t.vds.map fun v => (v.ep 7).map (·.inn)) [some [[9]]] = true ∧
    shows (exec (.linkEndpointDown 1 7) (hosted 0)) (fun t => t.vds.map fun v => ((v.ep 7).map (·.down), v.evlost)) [(some true, 1)] = true ∧
    shows (exec (.messageAcceptance 1 7 none) joined) (fun t => t.vds.map fun v => ((v.ep 7).map (·.out.length), (v.ep 8).map (·.inn))) [(some 0, some [[1, 2]])] = true ∧
    shows (exec (.linkEndpointDown 1 7) (ringed 0)) (fun t => t.vds.map fun v => (v.evCount, v.evlost)) [(1, 0)] = true ∧
    shows (exec (.linkEndpointUp 1 8) (ringed 0)) (fun t => t.vds.map fun v => (v.evCount, v.evlost)) [(1, 0)] = true ∧
    shows (exec (.linkEndpointUp 1 8) (hosted 0)) (fun t => t.vds.map fun v => (v.ep 8).map (·.down)) [some false] = true ∧
    shows (exec (.linkEndpointConfiguration 1 9 ⟨4, 0, [], 0, true⟩) (hosted 0)) (fun t => t.vds.map fun v => (v.epConfig 9).map (·.node)) [some 4] = true ∧
    shows (exec (.linkEndpointConfiguration 1 9 ⟨400000, 0, [], 0, true⟩) (hosted 0)) (fun t => t.vds.map fun v => v.epConfig 9) [none] = true ∧
    shows (exec (.linkEndpointConfiguration 1 9 ⟨4, 0, [], 0, true⟩) (fewEndpoints 2)) (fun t => t.vds.map fun v => v.eps.length) [2] = true ∧
    shows (exec (.linkEndpointConfiguration 1 9 ⟨4, 0, [], 0, true⟩) (fewEndpoints 3)) (fun t => t.vds.map fun v => v.eps.length) [3] = true := by
  and_intros <;> decide +kernel

theorem witness_TimeResults :
    State.reset.vds = [] ∧ demo.timeLocked = false ∧ { demo with timeLocked := true }.timeLocked = true ∧ demo.vds.Nodup ∧ (200 : Int).natAbs * 1000000 ≤ 200 * 1000000 := by
  and_intros <;> decide +kernel

theorem test_time :
    shows (exec (.ptpMessage 300 1000000) demo) (fun t => t.time) 1000200 = true ∧ shows (exec (.ptpMessage (-300) 1000000) demo) (fun t => t.time) 999800 = true ∧
    shows (exec (.timeStep 5200) (timerDemo 0 id)) (fun t => (t.time, t.vds.map fun v => v.timers[0].k)) (5200, [5]) = true ∧
    shows (exec .timeHoldover { demo with timeLocked := true }) (fun t => (t.timeLocked, t.vds.map (·.evlost))) (false, [1]) = true ∧
    shows (exec (.timeLocked 3) demo) (fun t => (t.timeLocked, t.vds.map (·.evlost))) (true, [1]) = true := by
  and_intros <;> decide +kernel

-- Power, resets, trust

/-- Rail 1 of die 2 (clusters 144 to 159): partition 0 holds cluster 150 and votes 8; the rail stands at `v`. -/
def railDemo (v : Nat) (dwell falling : Bool) : State :=
  State.setRail { demo with parts := [⟨0, [150], [], 256, [], Quota.all⟩] } 2 1 { volt := v, votes := [(0, 8)], dwell := dwell, falling := falling }

theorem witness_PowerResults :
    (∃ p, (railDemo 8 false false).findPart 0 = some p ∧ ∃ c ∈ p.held, 64 * 2 + 16 * 1 ≤ c ∧ c < 64 * 2 + 16 * 1 + 16) ∧
    ((railDemo 7 false false).dies[2].rails[1]).volt < 8 ∧ ((railDemo 8 true false).dies[2].rails[1]).dwell = true ∧
    ((railDemo 9 false true).dies[2].rails[1]).falling = true ∧ 8 < ((railDemo 9 false true).dies[2].rails[1]).volt ∧
    fmax 8 < (((railDemo 9 false true).setClus 150 { Clus.start with freq := 72 }).clusOf 150).freq ∧
    (∀ c ∈ List.range' 144 16, ((railDemo 9 false true).clusOf c).freq ≤ fmax 8) ∧ demo.spares = [] ∧
    ([(193, 0), (194, 1)].filter fun x : Nat × Nat => decide (x.1 / 64 = 200 / 64)).length = 2 ∧ 64 * 2 + 16 * 1 ≤ 150 ∧ 150 < 64 * 2 + 16 * 1 + 16 ∧
    { demo with moduleCollapsed := true }.moduleCollapsed = true ∧ 16384 ≤ 16384 ∧ 200 < 16384 := by
  refine ⟨⟨_, rfl, 150, .head _, by decide, by decide⟩, ?_⟩
  and_intros <;> decide +kernel

-- R403: fmax is 2.5 GHz at 0.800 V; R404, R408, R411
theorem test_power :
    fmax 0 = 48 ∧ fmax 32 = 100 ∧ fmax 48 = 112 ∧ fmax 8 = 60 ∧
    shows (exec (.thermalThreshold .other 115 true) demo) (fun t => (t.powered, t.vds, t.out)) (false, [], [.powerOff .other]) = true ∧
    shows (exec (.thermalThreshold (.stack 3) 95 true) demo) (fun t => t.hbm[3].hot) true = true ∧
    shows (exec (.thermalThreshold (.stack 3) 85 true) demo) (fun t => (t.hbm[3].derated, t.vds.map (·.evlost))) (true, [1]) = true ∧
    shows (exec (.railVote 2 1 0 (some 60)) (railDemo 8 false false)) (fun t => t.dies[2].rails[1]) ⟨8, [(0, 48)], false, false⟩ = true ∧
    shows (exec (.railVote 2 1 0 none) (railDemo 8 false false)) (fun t => t.dies[2].rails[1]) ⟨8, [], true, false⟩ = true ∧
    shows (exec (.railVote 2 2 0 (some 60)) (railDemo 8 false false)) (fun t => t.dies[2].rails[2].votes) [] = true := by
  and_intros <;> decide +kernel

theorem test_rails_and_lanes :
    shows (exec (.railDwell 2 1) (railDemo 9 true false)) (fun t => t.dies[2].rails[1].falling) true = true ∧
    shows (exec (.railStep 2 1) (railDemo 7 false false)) (fun t => (t.dies[2].rails[1].volt, (t.clusOf 150).freq)) (8, 60) = true ∧
    shows (exec (.railStep 2 1) (railDemo 9 false true)) (fun t => t.dies[2].rails[1].volt) 8 = true ∧
    shows (exec (.railStep 2 1) ((railDemo 9 false true).setClus 150 { Clus.start with freq := 72 })) (fun t => (t.dies[2].rails[1].volt, (t.clusOf 150).freq)) (9, 60) = true ∧
    shows (exec (.currentLimit 1 3) demo) (fun t => t.dies[1].cl) 3 = true ∧ shows (exec (.laneTest 200 false) demo) (fun t => (t.spares, t.out)) ([(200, 0)], [.laneFault 0 200]) = true ∧
    shows (exec (.laneTest 200 false) { demo with spares := [(193, 0), (194, 1)] }) (fun t => t.out) [.coreFault 0] = true ∧
    shows (exec (.laneTest 16384 false) demo) (fun t => t.out) [.coreFault 0] = true ∧
    (State.leak { demo with clus := { Clus.start with gated := true } } 0).clus.energy = 0 ∧
    shows (exec .leakageAccounting { demo with moduleCollapsed := true }) (fun t => (t.clusOf 3).energy) 0 = true := by
  and_intros <;> decide +kernel

def image (v : Nat) (ok : Bool) : Image := { slot := 2, digest := [7], secVersion := v, sigOk := ok }
/-- In recovery, with security version 3 fused for slot 2. -/
def recovering : State := { demo with booted := false, trust := { Trust.start with fused := [0, 0, 3], recovery := true } }

theorem witness_ResetAndTrustResults :
    demo.trust.staged = [] ∧ (demo.vds.map (·.id)).Nodup ∧ (∀ v, demo.findVd 1 = some v → v.st ≠ .created) ∧ recovering.trust.recovery = true ∧ recovering.trust.staged = [] ∧
    ((image 3 true).sigOk = true ∧ recovering.trust.fused.getD (image 3 true).slot.toNat 0 ≤ (image 3 true).secVersion) ∧
    ¬ (recovering.trust.fused.getD (image 2 true).slot.toNat 0 ≤ (image 2 true).secVersion) ∧ demo.trust.spdm = .start ∧
    { demo with trust := { Trust.start with spdm := .version } }.trust.spdm = .version ∧
    { demo with trust := { Trust.start with session := some 5 } }.trust.session = some 5 ∧ demo.trust.finished = false ∧ (6 : BitVec 8).toNat ≤ 6 ∧
    ((∀ k < 4, ∃ x ∈ demo.trust.images, x.slot.toNat = k) ∧
      ∀ x ∈ demo.trust.images, x.sigOk = true ∧ demo.trust.fused.getD x.slot.toNat 0 ≤ x.secVersion) := by
  refine ⟨by decide +kernel, by decide +kernel, fun v h => ?_, ?_⟩
  · have h2 : demo.findVd 1 = some { vdOne with st := .active } := by decide +kernel
    rw [h2] at h; cases h; decide
  and_intros <;> decide +kernel

theorem test_resets_and_trust :
    shows (exec .coldReset { demo with trust := { Trust.start with images := [image 2 false] } }) (fun t => (t.vds, t.trust.recovery)) ([], true) = true ∧
    shows (exec .cxlHotReset { demo with time := 9 }) (fun t => (t.vds.map (·.st), t.time)) ([.destroyed], 9) = true ∧
    shows (exec .functionLevelResetPf demo) (fun t => t.vds.map (·.st)) [.destroyed] = true ∧ shows (exec (.functionLevelResetVf 2) demo) (fun t => t.vds.map (·.st)) [.active] = true ∧
    shows (exec (.recoveryImage (image 3 true)) recovering) (fun t => (t.trust.recovery, t.trust.images.length, t.booted)) (false, 4, false) = true ∧
    shows (exec .coldReset { demo with spares := [(5, 1)] }) (fun t => (t.spares, t.trust.recovery, t.booted)) ([(5, 1)], false, false) = true ∧
    shows (exec (.recoveryImage (image 3 true)) { recovering with trust := { recovering.trust with images := [] } }) (fun t => t.trust.recovery) true = true ∧
    shows (exec (.functionLevelResetVf 1) { demo with vds := [vdOne] }) (fun t => t.vds.map (·.st)) [.destroyed] = true ∧
    shows (exec (.recoveryImage (image 2 true)) recovering) (fun t => t.trust.recovery) true = true ∧
    shows (exec (.pldmFirmwareUpdate (image 3 true)) recovering) (fun t => t.trust.staged.length) 1 = true := by
  and_intros <;> decide +kernel

theorem test_spdm :
    let at_ (p : SpdmPhase) : State := { demo with trust := { Trust.start with spdm := p } }
    let kind (t : State) : List Nat := t.out.map fun | .response k _ => k | _ => 0
    shows (exec .getVersion demo) (fun t => (kind t, t.trust.spdm)) ([4], .version) = true ∧ shows (exec .getCapabilities (at_ .version)) (fun t => (kind t, t.trust.spdm)) ([0x61], .capabilities) = true ∧
    shows (exec .getCapabilities demo) (fun t => t.out) [.response 0x7F [0x7F, 4]] = true ∧ shows (exec .negotiateAlgorithms (at_ .capabilities)) (fun t => t.trust.spdm) .negotiated = true ∧
    shows (exec .getDigests (at_ .negotiated)) kind [1] = true ∧ shows (exec (.getCertificate 3) (at_ .negotiated)) kind [2] = true ∧ shows (exec (.challenge []) (at_ .version)) kind [0x7F] = true ∧
    shows (exec (.getMeasurements 7) (at_ .negotiated)) (fun t => t.out) [.response 0x7F [0x7F, 1]] = true ∧ shows (exec (.keyExchange 5) (at_ .negotiated)) (fun t => t.trust.session) (some 5) = true ∧
    shows (exec (.finish 5) { demo with trust := { Trust.start with session := some 5 } }) (fun t => t.trust.finished) true = true ∧ shows (exec (.mctpControl []) demo) kind [0x100] = true ∧
    shows (exec (.pldmMonitoring []) demo) (fun t => t.out.length) 1 = true := by
  and_intros <;> decide +kernel

-- Registers with rules of their own

theorem witness_RegisterWriteResults :
    let v := timerVd 0 id
    1 < v.vdcfg.toNat / 2 ^ 16 % 2 ^ 11 ∧ (0x50000 : Word) &&& ~~~(0x3F : Word) ≠ v.wins[1].base ∧ v.wins[1].ctl.getLsbD 63 = true ∧
    (0x30010 : Word) &&& ~~~(0x3F : Word) = v.wins[1].base ∧ v.wins[0].ctl.getLsbD 63 = false ∧ (∀ y ∈ v.wins[0].slots, y.st = .free ∨ y.st = .untaken) ∧
    (0x8000000000050000 ^^^ v.wins[1].ctl) &&& 0x0000FFFF001F0003 ≠ 0 ∧ (0x8000000000000082 ^^^ v.timers[0].ctl) &&& 0xBFBFBFBF ≠ 0 ∧
    4 ≤ (0x8000000000040002 : Word).toNat / 2 ^ 16 % 32 ∧ (0x8000000000040002 : Word).toNat % 4 ≠ 3 ∧ demo.me.mode = .u ∧ inHandler.me.mode = .s ∧
    { matRun false 0 with me := { inHandler.me with vtype := 0 } }.hart.mq ≠ [] ∧ (0x80000004 : Word).getLsbD 31 = true ∧ (0x80000004 : Word).toNat % 16 ≠ 0 := by
  and_intros <;> decide +kernel

theorem test_register_writes :
    let win (n : Fin 64) (t : State) : List (Word × Word) := t.vds.map fun v => (v.wins[n].base, v.wins[n].ctl)
    shows (exec (.mwbaseWrite 1 1 0x50000) (timerDemo 0 id)) (win 1) [(0x30000, 0xA000000000040000)] = true ∧ shows (exec (.mwbaseWrite 1 0 0x50010) (timerDemo 0 id)) (win 0) [(0x50000, 0)] = true ∧
    shows (exec (.mwctlWrite 1 1 0x8000000000050000) (timerDemo 0 id)) (win 1) [(0x30000, 0xA000000000040000)] = true ∧
    shows (exec (.mwctlWrite 1 0 0x8000000000040002) (timerDemo 0 id)) (win 0) [(0, 0x8000000000040002)] = true ∧
    shows (exec (.ttctlWrite 1 0 0x8000000000000082) (timerDemo 0 id)) (fun t => t.vds.map fun v => v.timers[0].ctl) [0xC000000000000081] = true ∧
    shows (exec (.ttctlWrite 1 0 0) (timerDemo 0 id)) (fun t => t.vds.map fun v => v.timers[0].ctl) [0] = true ∧
    shows (exec (.rrctlWrite 1 2 0x8000000D) demo) (fun t => t.dies[1].rr[2].ctl) 0x40000000 = true ∧ shows (exec (.rrctlWrite 1 2 0x80000004) demo) (fun t => t.dies[1].rr[2].ctl) 0x80000004 = true := by
  and_intros <;> decide +kernel

theorem test_register_writes_more :
    let flagged : State := demo.setChan 2 { Channel.idle with flt := true, oob := some (1, 2), rperr := some 3, abt := some ⟨true, 4, 5⟩ }
    shows (exec (.cpstatFltRestart 2) flagged) (fun t => (t.chan 2).status) 28 = true ∧ shows (exec (.cpstatAbtClear 2) flagged) (fun t => (t.chan 2).status) 14 = true ∧
    shows (exec (.cpstatOobClear 2) flagged) (fun t => (t.chan 2).status) 26 = true ∧ shows (exec (.cpstatRperrClear 2) flagged) (fun t => (t.chan 2).status) 22 = true ∧
    shows (exec (.mprogWrite 2) { matRun false 0 with me := inHandler.me, hart := { (matRun false 0).hart with mhalt := some 0 } }) (fun t => t.hart.mprog) 2 = true ∧
    shows (exec (.mprogWrite 2) (matRun false 0)) (fun t => t.hart.mprog) 0 = true ∧
    shows (exec (.registerWrite (.system 0x023) 0x10ABC) inHandler) (fun t => t.me.tvec) 0x10A80 = true ∧ shows (exec (.registerWrite (.control 1 0x20) 7) demo) (fun t => t.vds.map (·.evhead)) [7] = true ∧
    shows (exec (.registerWrite (.verBase true) 7) demo) (fun t => t.verRegs[1].base) 7 = true ∧ shows (exec (.registerWrite .railDwell 7) demo) (fun t => t.railDwellUs) 7 = true := by
  and_intros <;> decide +kernel

-- Decoding, steps, reset, memory

theorem witness_EncodingRoundTrip :
    Instr.isEvent (.fshl 1 2 3 true 63 0) = false ∧ Instr.wf (.fshl 1 2 3 true 63 0) = true ∧ (∃ i, decode 0x0000005E 0 = .ok i) ∧
    (encode (.fshl 1 2 3 true 63 0)).length = 2 := ⟨by decide, by decide, ⟨_, rfl⟩, by decide⟩

theorem witness_StepRunsDecoded :
    demo.powered = true ∧ demo.trust.recovery = false ∧ demo.me.pfx = none ∧ demo.agenda = [] ∧ demo.offerDue = false ∧ demo.booted = true ∧ demo.held = false ∧
    demo.me.stopped = false ∧ demo.me.launching = false ∧ demo.me.exiting = false ∧ demo.pick.isSome = true ∧ faulted.me.faults ≠ [] ∧ faulted.me.pfx = none ∧
    (setPfx demo 0).me.pfx ≠ none ∧ (waiting (.wfi 0x10004)).me.wait = some (.wfi 0x10004) ∧ (waiting (.wfi 0x10004)).me.faults = [] ∧
    recovering.trust.recovery = true ∧ hatbandServes (.recoveryImage (image 3 true)) = true ∧ hatbandServes (.vdDestruction 1) = false ∧
    demo.me.wait = none ∧ demo.turn < 64 ∧ demo.me.faults = [] ∧ (∃ l, demo.me.line? demo.me.pc = some l ∧ l.words.getD 1 0 = 0x5E) ∧
    demo.me.pc.toNat / 4 % 16 ≠ 0 ∧ decode 0x5E 0x5E = .ok .nop ∧ unfetched.me.line? unfetched.me.pc = none ∧ Instr.isEvent .coldReset = true ∧
    { demo with turn := 63 }.turn < 64 := by
  refine ⟨rfl, rfl, rfl, rfl, by decide +kernel, rfl, by decide +kernel, rfl, rfl, rfl, by decide +kernel, by decide, rfl, by decide, rfl, rfl, rfl, rfl, rfl,
    rfl, by decide, rfl, ⟨_, rfl, rfl⟩, by decide, rfl, by decide, by decide, by decide⟩

/-- A queue entry arrives while the stream waits in a wfi (R134). -/
theorem witness_StepRunsDecoded_wakes :
    let s := waiting (.wfi 0x10004)
    (∀ w, some w = s.me.wait → w = .wfi 0x10004) ∧ s.wakes (setQ s 28 [.val 1]) s.hart.id s.isE s.me = true ∧
    ((s.conclude (setQ s 28 [.val 1])).me.wait, (s.conclude (setQ s 28 [.val 1])).me.pc) = (none, 0x10008) := by
  refine ⟨fun w h => ?_, by decide +kernel, by decide +kernel⟩
  cases h; rfl

theorem witness_StepRunsDecoded_bad :
    decode 0x01000000 0 = .error .firstWord ∧ decode 0x0000000F 0x00001000 = .error .extWord ∧ decode 0x0000007C 0 = .error .reservedOp ∧
    (0x0000007C : W32).toNat % 256 ≠ 0xFE := ⟨rfl, rfl, rfl, by decide⟩

theorem witness_MemoryFormKept : demo.mem.wf ∧ ∃ t, step demo = .next t := ⟨by decide, _, rfl⟩

/-- The word stands at slot 1 of the line in focus. -/
def wordAt (w e : W32) : State := { demo with agenda := [.issue], me := { runs with fetchBuf := [⟨0x10000, 0x00010001 :: w :: e :: List.replicate 13 0x5E⟩] } }

theorem test_steps :
    shows (step (wordAt 0x00008625 0)) (fun t => (t.me.reg 6, t.me.pc, t.turn)) (4, 0x10008, 1) = true ∧
    shows (step (wordAt 0x01000000 0)) (fun t => (t.me.tcause, t.me.tval)) (0x01, 0x01000000) = true ∧
    shows (step (wordAt 0x0000000F 0x00001000)) (fun t => (t.me.tcause, t.me.tval)) (0x01, 0x000010000000000F) = true ∧
    shows (step { demo with agenda := [.event (.vdDestruction 1), .focus 0 true] }) (fun t => (t.vds.map (·.st), t.agenda.length, t.turn)) ([.destroyed], 1, 0) = true ∧
    shows (step { demo with agenda := [.focus 0 true] }) (fun t => (t.isE, t.agenda)) (true, []) = true ∧
    shows (step unfetched) (fun t => t.me.fetchBuf.length) 1 = true := by
  and_intros <;> decide +kernel

/-- With the power off, or in recovery, only Hatband serves events (R412, R414); bring-up ends by itself (R416). -/
theorem test_step_off :
    shows (step { demo with powered := false, agenda := [.event (.vdDestruction 1)] }) (fun t => t.vds.map (·.st)) [.active] = true ∧
    shows (step { recovering with agenda := [.event (.vdDestruction 1)] }) (fun t => t.vds.map (·.st)) [.active] = true ∧
    shows (step { recovering with agenda := [.event (.recoveryImage (image 3 true))] }) (fun t => t.trust.recovery) false = true ∧
    shows (step { demo with booted := false }) (fun t => t.booted) true = true ∧ step { demo with agenda := [.event .nop] } = .refused .notAnEvent := by
  refine ⟨?_, ?_, ?_, ?_, rfl⟩ <;> decide +kernel

/-- Instructions placed by withFetchWord run: movi s6, 4, the 64-bit ldo of 05 and mma.z, which trap with no handler set up (R344). -/
theorem test_fetch_word :
    let cause (t : State) : List (BitVec 8) := t.out.map fun | .unhandledTrap c .. => c | _ => 0
    shows (step (State.reset.withFetchWord 32 0x00008625)) (fun t => t.me.reg 6) 4 = true ∧
    shows (step (State.reset.withFetchWord 64 0x000000102580C52B)) cause [0x07] = true ∧
    shows (step (State.reset.withFetchWord 32 0x00A00586)) cause [0x01] = true := by
  and_intros <;> decide +kernel


end Sys2Proof.Tests
end

section
/-! PROOFS. What an instruction does on a stream that is not of its class (R98, R126): the law that holds, and the vector memory instructions
that part from it by clearing RESUME or VSTART when they trap at issue (R205, R207, log 93). -/
namespace Sys2Proof.Machine

/-- The state on which a trap at issue acts: a gather, scatter or vamo has cleared RESUME and vstb has set VSTART to 0 (R205, R207, log 93);
every other instruction has changed nothing. -/
def State.trapBase (s : State) : Instr → State
  | .vldx .. | .vstx .. | .vamo .. => s.noResume
  | .vstb .. => s.setVstart 0
  | _ => s

/-- What `trapBase` clears is not read by the issue checks, nor by the value that their traps report. -/
theorem State.trapBase_keeps (s : State) (i : Instr) :
    (s.trapBase i).isE = s.isE ∧ (s.trapBase i).me.lastOfBody (s.trapBase i).me.pc = s.me.lastOfBody s.me.pc ∧
      (s.trapBase i).insWord = s.insWord := by
  unfold State.trapBase
  split <;> exact ⟨rfl, rfl, rfl⟩

/-- An instruction of one stream's class begins with the issue checks of its class and length; `k` is the rest of its arm of exec. -/
theorem exec_issues {i : Instr} {c : Class} {n : Nat} (h : streamClass i = some (c, n)) (s : State) :
    ∃ k, exec i s = (s.trapBase i).issue c n k := by
  cases i <;> cases h
  case wmov op _ _ _ _ => cases op <;> exact ⟨_, rfl⟩
  all_goals exact ⟨_, rfl⟩

/-- Issue on the other stream: "wrong stream", but "illegal instruction" for two words in the last slot of a body (R98, R126). -/
theorem State.issue_otherStream {s : State} {c : Class} (hc : c.ok s.isE = false) (n : Nat) (k : Res) :
    s.issue c n k =
      s.trap (.plain (if n = 2 ∧ s.me.lastOfBody s.me.pc = true then illegalInstruction else wrongStream) s.insWord) := by
  simp only [State.issue, hc, Bool.false_eq_true, if_false]
  split <;> rfl

/-- R98, R126 as the model has them: on the other stream an instruction traps at issue, on the state of `trapBase`. -/
theorem exec_otherStream {i : Instr} {c : Class} {n : Nat} (h : streamClass i = some (c, n)) {s : State} (hc : c.ok s.isE = false) :
    exec i s = (s.trapBase i).trap
      (.plain (if n = 2 ∧ s.me.lastOfBody s.me.pc = true then illegalInstruction else wrongStream) s.insWord) := by
  obtain ⟨k, hk⟩ := exec_issues h s
  obtain ⟨hE, hlast, hword⟩ := s.trapBase_keeps i
  rw [hk, State.issue_otherStream (hE ▸ hc), hlast, hword]

/-- A gather of one byte a lane into v0, which only the A-stream executes. -/
def gather : Instr := .vldx false false .b false 0 0 0 0 0

/-- An E-stream at `gather`, with a trap handler, and with RESUME set as mtsr sets it on either stream (R34). -/
def resumingE : State :=
  { State.reset with
    isE := true
    me := { Strm.start 4 0 16384 0x1000 with vstat := 1, fetchBuf := [⟨0, 0x00010001 :: encode gather⟩] }
    hart := Hart.start 0 0 0 0 0 0 false }

theorem gather_class : streamClass gather = some (.aOnly, 2) := rfl

theorem resumingE_not_aStream : Class.ok .aOnly resumingE.isE = false := rfl

/-- The gather stands in no body's last slot. -/
theorem resumingE_not_lastSlot : ¬ ((2 : Nat) = 2 ∧ resumingE.me.lastOfBody resumingE.me.pc = true) := by decide

/-- The model's outcome: the trap is taken with RESUME cleared already (R205). -/
theorem exec_gather_resumingE : exec gather resumingE = .next (resumingE.noResume.takeTrap (.plain wrongStream resumingE.insWord)) := by
  rw [exec_otherStream gather_class resumingE_not_aStream, if_neg resumingE_not_lastSlot]
  rfl

/-- Refutes O22: a vldx on the E-stream traps with "wrong stream", but its trap leaves RESUME clear, where a trap before every effect of the
instruction leaves it set, trap entry not touching it (R205 against R98; R35, log 93). -/
theorem not_wrongStreamTraps : ¬ Obligations.WrongStreamTraps := by
  unfold Obligations.WrongStreamTraps
  intro h
  have hclaim := (h resumingE gather .aOnly 2 gather_class resumingE_not_aStream).1 resumingE_not_lastSlot
  have hsame : resumingE.noResume.takeTrap (.plain wrongStream resumingE.insWord) = resumingE.takeTrap (.plain 0x02 resumingE.insWord) :=
    Host.Outcome.next.inj (exec_gather_resumingE.symm.trans hclaim)
  have hcleared : (resumingE.noResume.takeTrap (.plain wrongStream resumingE.insWord)).me.resume = false := by decide
  have hkept : (resumingE.takeTrap (.plain 0x02 resumingE.insWord)).me.resume = true := by decide
  rw [hsame, hkept] at hcleared
  exact absurd hcleared (by decide)

end Sys2Proof.Machine
end

section
/-! PROOFS. The model's exact integers read as bit vectors (R51, R52, R107): the operand of an instruction of width N as its low N bits, a
result modulo 2^N as their sign-extension, and what each arithmetic operation on integers is on bit vectors of any width. -/
namespace Sys2Proof.Machine

-- Operands and results

theorem signed_eq_toInt (n x : Nat) : signed n x = (BitVec.ofNat n x).toInt := by
  cases n with
  | zero => simp [signed, BitVec.of_length_zero]
  | succ n =>
    have h : 2 ^ (n + 1) = 2 * 2 ^ n := Nat.pow_succ'
    simp only [signed, Nat.succ_ne_zero, if_false, Nat.add_sub_cancel, BitVec.toInt_eq_toNat_cond, BitVec.toNat_ofNat]
    split <;> split <;> omega

theorem pat_eq_toNat (n : Nat) (v : Int) : pat n v = (BitVec.ofInt n v).toNat := by simp [pat, BitVec.toNat_ofInt]

/-- A result of width N is the sign-extension of its low N bits (R107). -/
theorem narrow_eq (w : Bool) (v : Int) : narrow w v = (BitVec.ofInt (opWidth w) v).signExtend 64 := by
  rw [narrow, signed_eq_toInt, pat_eq_toNat, BitVec.ofNat_toNat, BitVec.setWidth_eq]
  rfl

theorem narrow_toNat (w : Bool) (x : Word) : narrow w x.toNat = (x.setWidth (opWidth w)).signExtend 64 := by
  rw [narrow_eq, BitVec.ofInt_natCast, BitVec.ofNat_toNat]

theorem uns_eq (w : Bool) (x : Word) : uns w x = (x.setWidth (opWidth w)).toNat := (BitVec.toNat_setWidth ..).symm

theorem sgn_eq (w : Bool) (x : Word) : sgn w x = (x.setWidth (opWidth w)).toInt := by
  rw [sgn, signed_eq_toInt, BitVec.ofNat_toNat]

theorem opWidth_le (w : Bool) : opWidth w ≤ 64 := by cases w <;> decide

theorem opWidth_pos (w : Bool) : 0 < opWidth w := by cases w <;> decide

/-- Both widths of `atWidth` at once. -/
theorem atWidth_eq (w : Bool) (f : (n : Nat) → BitVec n → BitVec n → BitVec n) (x y : Word) :
    atWidth w f x y = (f (opWidth w) (x.setWidth (opWidth w)) (y.setWidth (opWidth w))).signExtend 64 := by
  cases w with
  | true => rfl
  | false => simp [atWidth, opWidth]

/-- A shift count in a register counts modulo the width (R108). -/
theorem shiftAmount_eq (w : Bool) (y : Word) : shiftAmount w y = (y.setWidth (opWidth w)).toNat % opWidth w := by
  have hdvd : opWidth w ∣ 2 ^ opWidth w := by cases w <;> decide
  rw [shiftAmount, BitVec.toNat_setWidth, Nat.mod_mod_of_dvd _ hdvd]

theorem shiftAmount_lt (w : Bool) (y : Word) : shiftAmount w y < opWidth w := Nat.mod_lt _ (opWidth_pos w)

-- The operations, at any width

section
variable {n : Nat} (x y : BitVec n)

theorem ofInt_toNat_add : BitVec.ofInt n (x.toNat + y.toNat) = x + y := by
  simp [BitVec.ofInt_add]

theorem ofInt_toNat_sub : BitVec.ofInt n (x.toNat - y.toNat) = x - y := by
  simp [Int.sub_eq_add_neg, BitVec.ofInt_add, BitVec.ofInt_neg, BitVec.sub_eq_add_neg]

theorem ofInt_toNat_mul : BitVec.ofInt n (x.toNat * y.toNat) = x * y := by
  simp [BitVec.ofInt_mul]

theorem ofInt_toNat_mul_two_pow (k : Nat) : BitVec.ofInt n (x.toNat * 2 ^ k) = x <<< k := by
  apply BitVec.eq_of_toNat_eq
  rw [show (x.toNat * 2 ^ k : Int) = (x.toNat * 2 ^ k : Nat) by simp, BitVec.ofInt_natCast, BitVec.toNat_ofNat, BitVec.toNat_shiftLeft,
    Nat.shiftLeft_eq]

theorem ofNat_toNat_div_two_pow (k : Nat) : BitVec.ofNat n (x.toNat / 2 ^ k) = x >>> k := by
  apply BitVec.eq_of_toNat_eq
  rw [BitVec.toNat_ofNat, BitVec.toNat_ushiftRight, Nat.shiftRight_eq_div_pow,
    Nat.mod_eq_of_lt (lt_of_le_of_lt (Nat.div_le_self ..) x.isLt)]

theorem ofInt_toInt_div_two_pow (k : Nat) : BitVec.ofInt n (x.toInt / 2 ^ k) = x.sshiftRight k := by
  rw [BitVec.sshiftRight, Int.shiftRight_eq_div_pow]; simp

/-- The bits that a rotation brings round fill the places that its shift left empties. -/
theorem ofNat_rotateLeft {k : Nat} (hk : k < n) :
    BitVec.ofNat n (x.toNat * 2 ^ k % 2 ^ n + x.toNat / 2 ^ (n - k)) = x.rotateLeft k := by
  have hn : 2 ^ n = 2 ^ k * 2 ^ (n - k) := by rw [← Nat.pow_add, Nat.add_sub_cancel' hk.le]
  have hhigh : x.toNat * 2 ^ k % 2 ^ n = (x.toNat % 2 ^ (n - k)) <<< k := by
    rw [hn, Nat.mul_comm, Nat.mul_mod_mul_left, Nat.shiftLeft_eq, Nat.mul_comm]
  have hlow : x.toNat / 2 ^ (n - k) < 2 ^ k := Nat.div_lt_of_lt_mul (by rw [Nat.mul_comm, ← hn]; exact x.isLt)
  apply BitVec.eq_of_toNat_eq
  rw [BitVec.toNat_ofNat, BitVec.toNat_rotateLeft, Nat.mod_eq_of_lt hk, Nat.shiftLeft_eq, hhigh, Nat.shiftLeft_add_eq_or_of_lt hlow,
    ← hhigh, Nat.shiftRight_eq_div_pow]
  exact Nat.mod_eq_of_lt (Nat.or_lt_two_pow (Nat.mod_lt _ (Nat.two_pow_pos n)) (lt_of_le_of_lt (Nat.div_le_self ..) x.isLt))

/-- The high half of a product of 2N bits (R109). -/
theorem ofInt_high_half (v : Int) : ((BitVec.ofInt (2 * n) v) >>> n).setWidth n = BitVec.ofInt n (v / 2 ^ n) := by
  have hpos : (0 : Int) < 2 ^ n := by positivity
  have hmod : 0 ≤ v % (2 ^ n * 2 ^ n) := Int.emod_nonneg _ (by positivity)
  have hhigh : v % (2 ^ n * 2 ^ n) / 2 ^ n % 2 ^ n = v / 2 ^ n % 2 ^ n := by
    rw [Int.emod_def v, Int.mul_assoc, Int.sub_mul_ediv_left _ _ hpos.ne', Int.sub_mul_emod_self_left]
  apply BitVec.eq_of_toNat_eq
  apply Int.ofNat.inj
  simp [Nat.shiftRight_eq_div_pow, Nat.two_mul, Nat.pow_add, max_eq_left hmod, hhigh, max_eq_left (Int.emod_nonneg _ hpos.ne')]

theorem ofInt_mulh : BitVec.ofInt n (x.toInt * y.toInt / 2 ^ n) =
    ((x.signExtend (2 * n) * y.signExtend (2 * n)) >>> n).setWidth n := by
  rw [← ofInt_high_half, BitVec.ofInt_mul]; rfl

theorem ofInt_mulhu : BitVec.ofInt n (x.toNat * y.toNat / 2 ^ n) =
    ((x.zeroExtend (2 * n) * y.zeroExtend (2 * n)) >>> n).setWidth n := by
  rw [← ofInt_high_half, BitVec.ofInt_mul]; simp

theorem toInt_eq_zero : x.toInt = 0 ↔ x = 0 := by
  rw [← BitVec.toInt_inj]; simp

theorem toNat_cast_eq_zero : (x.toNat : Int) = 0 ↔ x = 0 := by
  rw [← BitVec.toNat_inj]; simp

theorem ofInt_neg_one : BitVec.ofInt n (-1) = -1 := by
  rw [BitVec.ofInt_neg]; simp

theorem ofInt_tdiv : BitVec.ofInt n (x.toInt.tdiv y.toInt) = x.sdiv y := by
  apply BitVec.eq_of_toInt_eq
  rw [BitVec.toInt_ofInt, BitVec.toInt_sdiv]

theorem ofInt_tmod : BitVec.ofInt n (x.toInt.tmod y.toInt) = x.srem y := by
  rw [← BitVec.toInt_srem, BitVec.ofInt_toInt]

theorem ofInt_toNat_tdiv : BitVec.ofInt n ((x.toNat : Int).tdiv y.toNat) = x / y := by
  rw [← Int.ofNat_tdiv, BitVec.ofInt_natCast, ← BitVec.toNat_udiv, BitVec.ofNat_toNat, BitVec.setWidth_eq]

theorem ofInt_toNat_tmod : BitVec.ofInt n ((x.toNat : Int).tmod y.toNat) = x % y := by
  rw [← Int.ofNat_tmod, BitVec.ofInt_natCast, ← BitVec.toNat_umod, BitVec.ofNat_toNat, BitVec.setWidth_eq]

theorem ofInt_min : BitVec.ofInt n (min x.toInt y.toInt) = if x.slt y then x else y := by
  rw [min_def_lt, apply_ite (BitVec.ofInt n), BitVec.ofInt_toInt, BitVec.ofInt_toInt]
  simp [BitVec.slt_iff_toInt_lt]

theorem ofInt_max : BitVec.ofInt n (max x.toInt y.toInt) = if x.slt y then y else x := by
  rw [max_def_lt, apply_ite (BitVec.ofInt n), BitVec.ofInt_toInt, BitVec.ofInt_toInt]
  simp [BitVec.slt_iff_toInt_lt]

theorem ofNat_min : BitVec.ofNat n (min x.toNat y.toNat) = if x.ult y then x else y := by
  rw [min_def_lt, apply_ite (BitVec.ofNat n), BitVec.ofNat_toNat, BitVec.ofNat_toNat, BitVec.setWidth_eq, BitVec.setWidth_eq]
  simp [BitVec.ult_iff_toNat_lt]

theorem ofNat_max : BitVec.ofNat n (max x.toNat y.toNat) = if x.ult y then y else x := by
  rw [max_def_lt, apply_ite (BitVec.ofNat n), BitVec.ofNat_toNat, BitVec.ofNat_toNat, BitVec.setWidth_eq, BitVec.setWidth_eq]
  simp [BitVec.ult_iff_toNat_lt]

end
end Sys2Proof.Machine
end

section
/-! PROOFS. Two-source scalar instructions (R107 to R110): what each computes from its operands, and its completion. -/
namespace Sys2Proof.Machine

-- Completion

/-- An instruction that reads registers writes the value that it computes of them and completes. -/
theorem State.compute_next {s : State} {n : Nat} {srcs : List Reg} {d : Reg} (h : s.Issues .both n srcs [d])
    (v : (Nat → Word) → Word) :
    s.compute n srcs d (fun l => v (nth l)) = .next (s.wrote n srcs d (v (s.arg srcs))) := State.compute_issues h _

/-- A two-source instruction writes its value and completes. -/
theorem State.binary_next {s : State} {d a b : Reg} (h : s.Issues .both 1 [a, b] [d]) {g v : Word → Word → Word}
    (hv : ∀ x y, g x y = v x y) : s.binary d a b g = .next (s.wrote 1 [a, b] d (v (s.arg [a, b] 0) (s.arg [a, b] 1))) := by
  rw [← hv]; exact State.compute_next h fun r => g (r 0) (r 1)

-- Results reduced under the prefix SAT (R110)

/-- The pattern of an exact result clamped to the signed range of width n (R110). -/
def signedClamp (n : Nat) (v : Int) : BitVec n := BitVec.ofInt n (max (-2 ^ (n - 1)) (min (2 ^ (n - 1) - 1) v))

/-- The pattern of an exact result clamped to the unsigned range of width n (R110). -/
def unsignedClamp (n : Nat) (v : Int) : BitVec n := BitVec.ofInt n (max 0 (min (2 ^ n - 1) v))

theorem clampInt_eq {lo hi : Int} (h : lo ≤ hi) (v : Int) : clampInt lo hi v = max lo (min hi v) := by
  unfold clampInt
  split
  · omega
  · split <;> omega

section
variable {sat : BitVec 2} (w : Bool) (f : Int → Int → Int) (x y : Word)

/-- Without SAT the exact result of the unsigned operands wraps. -/
theorem arith_wraps (h : sat = 0) : arith w sat f x y =
    (BitVec.ofInt (opWidth w) (f (x.setWidth (opWidth w)).toNat (y.setWidth (opWidth w)).toNat)).signExtend 64 := by
  subst h
  rw [← uns_eq, ← uns_eq, ← narrow_eq]; rfl

theorem arith_clamps_signed (h : sat = 1) : arith w sat f x y =
    (signedClamp (opWidth w) (f (x.setWidth (opWidth w)).toInt (y.setWidth (opWidth w)).toInt)).signExtend 64 := by
  have hrange : (-2 ^ (opWidth w - 1) : Int) ≤ 2 ^ (opWidth w - 1) - 1 := by cases w <;> decide
  subst h
  rw [signedClamp, ← sgn_eq, ← sgn_eq, ← clampInt_eq hrange, ← narrow_eq]; rfl

theorem arith_clamps_unsigned (h : sat = 2) : arith w sat f x y =
    (unsignedClamp (opWidth w) (f (x.setWidth (opWidth w)).toNat (y.setWidth (opWidth w)).toNat)).signExtend 64 := by
  have hrange : (0 : Int) ≤ 2 ^ opWidth w - 1 := by cases w <;> decide
  subst h
  rw [unsignedClamp, ← uns_eq, ← uns_eq, ← clampInt_eq hrange, ← narrow_eq]; rfl

theorem shiftLeft_clamps_signed (h : sat = 1) : shiftLeft w sat x (shiftAmount w y) =
    (signedClamp (opWidth w) ((x.setWidth (opWidth w)).toInt *
      2 ^ ((y.setWidth (opWidth w)).toNat % opWidth w))).signExtend 64 := by
  rw [shiftLeft, arith_clamps_signed _ _ _ _ h, shiftAmount_eq]

theorem shiftLeft_clamps_unsigned (h : sat = 2) : shiftLeft w sat x (shiftAmount w y) =
    (unsignedClamp (opWidth w) ((x.setWidth (opWidth w)).toNat *
      2 ^ ((y.setWidth (opWidth w)).toNat % opWidth w))).signExtend 64 := by
  rw [shiftLeft, arith_clamps_unsigned _ _ _ _ h, shiftAmount_eq]

end

-- The value that each operation computes

section
variable (w : Bool) (x y : Word)

theorem arith_add {sat : BitVec 2} (h : sat = 0) : arith w sat (· + ·) x y = atWidth w (fun _ x y => x + y) x y := by
  rw [arith_wraps _ _ _ _ h, atWidth_eq, ofInt_toNat_add]

theorem arith_sub {sat : BitVec 2} (h : sat = 0) : arith w sat (· - ·) x y = atWidth w (fun _ x y => x - y) x y := by
  rw [arith_wraps _ _ _ _ h, atWidth_eq, ofInt_toNat_sub]

theorem arith_mul {sat : BitVec 2} (h : sat = 0) : arith w sat (· * ·) x y = atWidth w (fun _ x y => x * y) x y := by
  rw [arith_wraps _ _ _ _ h, atWidth_eq, ofInt_toNat_mul]

theorem narrow_and : narrow w (x &&& y).toNat = atWidth w (fun _ x y => x &&& y) x y := by
  rw [narrow_toNat, atWidth_eq, BitVec.setWidth_and]

theorem narrow_or : narrow w (x ||| y).toNat = atWidth w (fun _ x y => x ||| y) x y := by
  rw [narrow_toNat, atWidth_eq, BitVec.setWidth_or]

theorem narrow_xor : narrow w (x ^^^ y).toNat = atWidth w (fun _ x y => x ^^^ y) x y := by
  rw [narrow_toNat, atWidth_eq, BitVec.setWidth_xor]

theorem narrow_andn : narrow w (x &&& ~~~y).toNat = atWidth w (fun _ x y => x &&& ~~~y) x y := by
  rw [narrow_toNat, atWidth_eq, BitVec.setWidth_and, BitVec.setWidth_not (opWidth_le w)]

theorem shiftLeft_eq {sat : BitVec 2} (h : sat = 0) (k : Nat) :
    shiftLeft w sat x k = (x.setWidth (opWidth w) <<< k).signExtend 64 := by
  rw [shiftLeft, arith_wraps _ _ _ _ h, ofInt_toNat_mul_two_pow]

theorem shiftRight_eq (k : Nat) : shiftRight w x k = (x.setWidth (opWidth w) >>> k).signExtend 64 := by
  rw [shiftRight, narrow_eq, uns_eq, BitVec.ofInt_natCast, ofNat_toNat_div_two_pow]

theorem shiftArith_eq (k : Nat) : shiftArith w x k = ((x.setWidth (opWidth w)).sshiftRight k).signExtend 64 := by
  rw [shiftArith, narrow_eq, sgn_eq, ofInt_toInt_div_two_pow]

theorem shiftLeft_amount {sat : BitVec 2} (h : sat = 0) :
    shiftLeft w sat x (shiftAmount w y) = atWidth w (fun n x y => x <<< (y.toNat % n)) x y := by
  rw [shiftLeft_eq w x h, shiftAmount_eq, atWidth_eq]

theorem shiftRight_amount : shiftRight w x (shiftAmount w y) = atWidth w (fun n x y => x >>> (y.toNat % n)) x y := by
  rw [shiftRight_eq, shiftAmount_eq, atWidth_eq]

theorem shiftArith_amount : shiftArith w x (shiftAmount w y) = atWidth w (fun n x y => x.sshiftRight (y.toNat % n)) x y := by
  rw [shiftArith_eq, shiftAmount_eq, atWidth_eq]

theorem rotateLeft_amount : rotateLeft w x (shiftAmount w y) = atWidth w (fun n x y => x.rotateLeft (y.toNat % n)) x y := by
  rw [rotateLeft, narrow_eq, uns_eq, BitVec.ofInt_natCast, ofNat_rotateLeft _ (shiftAmount_lt w y), shiftAmount_eq, atWidth_eq]

theorem narrow_mulh : narrow w (sgn w x * sgn w y / 2 ^ opWidth w) =
    atWidth w (fun n x y => ((x.signExtend (2 * n) * y.signExtend (2 * n)) >>> n).setWidth n) x y := by
  rw [narrow_eq, sgn_eq, sgn_eq, ofInt_mulh, atWidth_eq]

theorem narrow_mulhu : narrow w ((uns w x * uns w y / 2 ^ opWidth w : Nat) : Int) =
    atWidth w (fun n x y => ((x.zeroExtend (2 * n) * y.zeroExtend (2 * n)) >>> n).setWidth n) x y := by
  rw [narrow_eq, uns_eq, uns_eq, atWidth_eq, ← ofInt_mulhu]; push_cast; rfl

/-- Signed division, the divisor 0 apart (R109). -/
theorem divOf_sgn : divOf w (sgn w x) (sgn w y) = atWidth w (fun _ x y => if y = 0 then -1 else x.sdiv y) x y := by
  rw [divOf, narrow_eq, narrow_eq, sgn_eq, sgn_eq, ofInt_tdiv, atWidth_eq]
  simp only [toInt_eq_zero, apply_ite (BitVec.signExtend 64), ofInt_neg_one]

theorem divOf_uns : divOf w (uns w x) (uns w y) = atWidth w (fun _ x y => if y = 0 then -1 else x / y) x y := by
  rw [divOf, narrow_eq, narrow_eq, uns_eq, uns_eq, ofInt_toNat_tdiv, atWidth_eq]
  simp only [toNat_cast_eq_zero, apply_ite (BitVec.signExtend 64), ofInt_neg_one]

theorem remOf_sgn : remOf w (sgn w x) (sgn w y) = atWidth w (fun _ x y => if y = 0 then x else x.srem y) x y := by
  rw [remOf, narrow_eq, narrow_eq, sgn_eq, sgn_eq, ofInt_tmod, atWidth_eq, BitVec.ofInt_toInt]
  simp only [toInt_eq_zero, apply_ite (BitVec.signExtend 64)]

theorem remOf_uns : remOf w (uns w x) (uns w y) = atWidth w (fun _ x y => if y = 0 then x else x % y) x y := by
  rw [remOf, narrow_eq, narrow_eq, uns_eq, uns_eq, ofInt_toNat_tmod, atWidth_eq]
  simp only [toNat_cast_eq_zero, apply_ite (BitVec.signExtend 64), BitVec.ofInt_natCast, BitVec.ofNat_toNat, BitVec.setWidth_eq]

theorem narrow_min : narrow w (min (sgn w x) (sgn w y)) = atWidth w (fun _ x y => if x.slt y then x else y) x y := by
  rw [narrow_eq, sgn_eq, sgn_eq, ofInt_min, atWidth_eq]

theorem narrow_max : narrow w (max (sgn w x) (sgn w y)) = atWidth w (fun _ x y => if x.slt y then y else x) x y := by
  rw [narrow_eq, sgn_eq, sgn_eq, ofInt_max, atWidth_eq]

theorem narrow_minu : narrow w ((min (uns w x) (uns w y) : Nat) : Int) = atWidth w (fun _ x y => if x.ult y then x else y) x y := by
  rw [narrow_eq, uns_eq, uns_eq, BitVec.ofInt_natCast, ofNat_min, atWidth_eq]

theorem narrow_maxu : narrow w ((max (uns w x) (uns w y) : Nat) : Int) = atWidth w (fun _ x y => if x.ult y then y else x) x y := by
  rw [narrow_eq, uns_eq, uns_eq, BitVec.ofInt_natCast, ofNat_max, atWidth_eq]

/-- A flag of either width is the word 1 or 0 (R109). -/
theorem flagWord_eq (p : Bool) : flagWord p = (if p then (1 : BitVec (opWidth w)) else 0).signExtend 64 := by
  cases w <;> cases p <;> rfl

theorem flagWord_slt : flagWord (sgn w x < sgn w y) = atWidth w (fun _ x y => if x.slt y then 1 else 0) x y := by
  rw [flagWord_eq w, sgn_eq, sgn_eq, atWidth_eq]; rfl

theorem flagWord_ult : flagWord (uns w x < uns w y) = atWidth w (fun _ x y => if x.ult y then 1 else 0) x y := by
  rw [flagWord_eq w, uns_eq, uns_eq, atWidth_eq]; rfl

theorem flagWord_eqWord : flagWord (uns w x == uns w y) = atWidth w (fun _ x y => if x = y then 1 else 0) x y := by
  rw [flagWord_eq w, uns_eq, uns_eq, atWidth_eq]
  simp only [beq_iff_eq, BitVec.toNat_inj]

end

/-- Settles O3: each operation is its bit-vector counterpart, or the exact result clamped, at either width. -/
theorem scalarArithmeticResults : Obligations.ScalarArithmeticResults := by
  unfold Obligations.ScalarArithmeticResults
  refine ⟨fun s w d a b h hsat => ?_, fun s w d a b h => ?_⟩
  · exact ⟨(State.binary_next h fun x y => arith_add w x y hsat :), (State.binary_next h fun x y => arith_sub w x y hsat :),
      (State.binary_next h (narrow_and w) :), (State.binary_next h (narrow_or w) :), (State.binary_next h (narrow_xor w) :),
      (State.binary_next h (narrow_andn w) :), (State.binary_next h fun x y => shiftLeft_amount w x y hsat :),
      (State.binary_next h (shiftRight_amount w) :), (State.binary_next h (shiftArith_amount w) :),
      (State.binary_next h (rotateLeft_amount w) :), (State.binary_next h fun x y => arith_mul w x y hsat :),
      (State.binary_next h (narrow_mulh w) :), (State.binary_next h (narrow_mulhu w) :), (State.binary_next h (divOf_sgn w) :),
      (State.binary_next h (divOf_uns w) :), (State.binary_next h (remOf_sgn w) :), (State.binary_next h (remOf_uns w) :),
      (State.binary_next h (narrow_min w) :), (State.binary_next h (narrow_max w) :), (State.binary_next h (narrow_minu w) :),
      (State.binary_next h (narrow_maxu w) :), (State.binary_next h (flagWord_slt w) :), (State.binary_next h (flagWord_ult w) :),
      (State.binary_next h (flagWord_eqWord w) :)⟩
  · constructor
    · intro hsat
      have hclamp (f : Int → Int → Int) (x y : Word) := arith_clamps_signed w f x y hsat
      exact ⟨(State.binary_next h (hclamp _) :), (State.binary_next h (hclamp _) :), (State.binary_next h (hclamp _) :),
        (State.binary_next h fun x y => shiftLeft_clamps_signed w x y hsat :)⟩
    · intro hsat
      have hclamp (f : Int → Int → Int) (x y : Word) := arith_clamps_unsigned w f x y hsat
      exact ⟨(State.binary_next h (hclamp _) :), (State.binary_next h (hclamp _) :), (State.binary_next h (hclamp _) :),
        (State.binary_next h fun x y => shiftLeft_clamps_unsigned w x y hsat :)⟩

end Sys2Proof.Machine
end

section
/-! PROOFS. One-source and immediate scalar instructions (R108, R111, R112): counts of bits, byte reversal, extension, queue counts, and
the immediate forms as the 64-bit operations on the sign-extended immediate. -/
namespace Sys2Proof.Machine

/-- A one-source instruction writes its value and completes. -/
theorem State.unary_next {s : State} {d a : Reg} (h : s.Issues .both 1 [a] [d]) {g v : Word → Word}
    (hv : ∀ x, g x = v x) : s.unary d a g = .next (s.wrote 1 [a] d (v (s.arg [a] 0))) := by
  rw [← hv]; exact State.compute_next h fun r => g (r 0)

-- Counts of bits

theorem leadZeros_le (x n : Nat) : leadZeros x n ≤ n := by
  induction n with
  | zero => exact Nat.le_refl 0
  | succ n ih => unfold leadZeros; split <;> omega

/-- The leading bits counted are 0. -/
theorem lt_of_leadZeros {x n : Nat} (h : x < 2 ^ n) : x < 2 ^ (n - leadZeros x n) := by
  induction n with
  | zero => exact h
  | succ n ih =>
    unfold leadZeros
    split
    · exact h
    · rename_i hbit
      rw [Nat.add_sub_add_right]
      exact ih (Nat.lt_pow_two_of_testBit _ fun i hi => by
        rcases Nat.eq_or_lt_of_le hi with rfl | hlt
        · simpa using hbit
        · exact Nat.testBit_lt_two_pow (lt_of_lt_of_le h (Nat.pow_le_pow_right (by decide) hlt)))

/-- The bit below the counted ones is 1. -/
theorem testBit_leadZeros {x n : Nat} (h : leadZeros x n < n) : x.testBit (n - 1 - leadZeros x n) = true := by
  induction n with
  | zero => omega
  | succ n ih =>
    unfold leadZeros at h ⊢
    split at h
    · rename_i hbit
      simp [hbit]
    · rename_i hbit
      rw [if_neg hbit, show n + 1 - 1 - (leadZeros x n + 1) = n - 1 - leadZeros x n by omega]
      exact ih (by omega)

theorem getMsbD_leadZeros {n : Nat} (x : BitVec n) (h : leadZeros x.toNat n < n) : x.getMsbD (leadZeros x.toNat n) = true := by
  rw [BitVec.getMsbD, decide_eq_true h, Bool.true_and]
  exact testBit_leadZeros h

theorem trailZeros_le (x n i : Nat) : trailZeros x n i ≤ n := by
  induction n generalizing i with
  | zero => exact Nat.le_refl 0
  | succ n ih =>
    have := ih (i + 1)
    unfold trailZeros; split <;> omega

/-- The trailing bits counted are 0. -/
theorem testBit_lt_trailZeros (x n i j : Nat) (h : j < trailZeros x n i) : x.testBit (i + j) = false := by
  induction n generalizing i j with
  | zero => exact absurd h (Nat.not_lt_zero j)
  | succ n ih =>
    unfold trailZeros at h
    split at h
    · omega
    · rename_i hbit
      cases j with
      | zero => simpa using hbit
      | succ j =>
        rw [show i + (j + 1) = i + 1 + j by omega]
        exact ih (i + 1) j (by omega)

/-- The bit above the counted ones is 1. -/
theorem testBit_trailZeros (x n i : Nat) (h : trailZeros x n i < n) : x.testBit (i + trailZeros x n i) = true := by
  induction n generalizing i with
  | zero => omega
  | succ n ih =>
    unfold trailZeros at h ⊢
    split at h
    · rename_i hbit
      simp [hbit]
    · rename_i hbit
      rw [if_neg hbit, show i + (trailZeros x n (i + 1) + 1) = i + 1 + trailZeros x n (i + 1) by omega]
      exact ih (i + 1) (by omega)

theorem getLsbD_trailZeros {n : Nat} (x : BitVec n) (h : trailZeros x.toNat n 0 < n) : x.getLsbD (trailZeros x.toNat n 0) = true := by
  have hbit := testBit_trailZeros x.toNat n 0 h
  rwa [Nat.zero_add] at hbit

theorem mod_two_pow_trailZeros (x n : Nat) : x % 2 ^ trailZeros x n 0 = 0 :=
  Nat.eq_of_testBit_eq fun j => by
    rw [Nat.testBit_mod_two_pow, Nat.zero_testBit]
    by_cases h : j < trailZeros x n 0
    · rw [show x.testBit j = false by simpa using testBit_lt_trailZeros x n 0 j h, Bool.and_false]
    · simp [h]

theorem popCount_eq (x n : Nat) : popCount x n = ((List.range n).filter fun i => x.testBit i).length := by
  induction n with
  | zero => rfl
  | succ n ih =>
    rw [popCount, ih, List.range_succ, List.filter_append, List.length_append]
    cases h : x.testBit n <;> simp [h, boolNat]

section
variable (w : Bool) (x : Word)

theorem va64_leadZeros : va64 (leadZeros (uns w x) (opWidth w)) =
    BitVec.ofNat 64 (leadZeros (x.setWidth (opWidth w)).toNat (opWidth w)) := by rw [uns_eq, va64]

theorem va64_trailZeros : va64 (trailZeros (uns w x) (opWidth w) 0) =
    BitVec.ofNat 64 (trailZeros (x.setWidth (opWidth w)).toNat (opWidth w) 0) := by rw [uns_eq, va64]

theorem va64_popCount : va64 (popCount (uns w x) (opWidth w)) =
    BitVec.ofNat 64 ((List.range (opWidth w)).filter fun i => (x.setWidth (opWidth w)).getLsbD i).length := by
  rw [uns_eq, va64, popCount_eq]; rfl

end

-- Byte reversal

/-- The bytes of a pattern in reverse order (R108). -/
def byteReverse {n : Nat} (x : BitVec n) : BitVec n := BitVec.ofNat n (ofLe (leBytes (n / 8) x.toNat).reverse)

theorem byteSwap_eq (w : Bool) (x : Word) : byteSwap w x = (byteReverse (x.setWidth (opWidth w))).signExtend 64 := by
  rw [byteSwap, narrow_eq, uns_eq, BitVec.ofInt_natCast, byteReverse]

theorem extractLsb'_ofNat_byte (n x i : Nat) (h : 8 * i + 8 ≤ n) :
    (BitVec.ofNat n x).extractLsb' (8 * i) 8 = BitVec.ofNat 8 (x / 256 ^ i) := by
  apply BitVec.eq_of_getLsbD_eq
  intro j hj
  rw [BitVec.getLsbD_extractLsb', BitVec.getLsbD_ofNat, BitVec.getLsbD_ofNat, show 256 ^ i = 2 ^ (8 * i) by rw [Nat.pow_mul],
    Nat.testBit_div_two_pow]
  have hin : j + 8 * i < n := by omega
  simp [hj, hin, Nat.add_comm (8 * i)]

/-- Byte i of the reversal is the i-th byte from the top. -/
theorem byteReverse_byte {n : Nat} (hn : 8 ∣ n) (x : BitVec n) {i : Nat} (h : i < n / 8) :
    (byteReverse x).extractLsb' (8 * i) 8 = x.extractLsb' (n - 8 - 8 * i) 8 := by
  have hbytes : n = 8 * (n / 8) := (Nat.mul_div_cancel' hn).symm
  rw [byteReverse, extractLsb'_ofNat_byte n _ i (by omega), ofLe_byte, List.getD_reverse _ (by simpa using h), leBytes_length,
    leBytes_getD _ _ _ (by omega), ← extractLsb'_ofNat_byte n _ _ (by omega), BitVec.ofNat_toNat, BitVec.setWidth_eq,
    show 8 * (n / 8 - 1 - i) = n - 8 - 8 * i by omega]

-- Extension and queue counts

theorem wordOf_signed (k : Nat) (x : Word) : wordOf (signed k x.toNat) = (x.setWidth k).signExtend 64 := by
  rw [signed_eq_toInt, BitVec.ofNat_toNat]; rfl

theorem va64_mod_two_pow (k : Nat) (x : Word) : va64 (x.toNat % 2 ^ k) = (x.setWidth k).zeroExtend 64 := by
  rw [va64, ← BitVec.toNat_setWidth, BitVec.ofNat_toNat]

theorem entries_eq (q : List QEnt) : entries q = (q.filter fun e => e ≠ .reserved).length := by
  simp [entries, bne, beq_eq_decide]

-- Operations of 64 bits, which the immediate forms are

theorem signExtend_setWidth_word (f : Word → Word) (x : Word) : (f (x.setWidth 64)).signExtend 64 = f x := by
  rw [BitVec.setWidth_eq, BitVec.signExtend_eq]

section
variable {sat : BitVec 2} (f : Int → Int → Int) (x y : Word) (k : Nat)

theorem arith_word_clamps_signed (h : sat = 1) : arith false sat f x y = signedClamp 64 (f x.toInt y.toInt) := by
  rw [arith_clamps_signed false f x y h]; simp [opWidth]

theorem arith_word_clamps_unsigned (h : sat = 2) : arith false sat f x y = unsignedClamp 64 (f x.toNat y.toNat) := by
  rw [arith_clamps_unsigned false f x y h]; simp [opWidth]

theorem shiftLeft_word (h : sat = 0) : shiftLeft false sat x k = x <<< k :=
  (shiftLeft_eq false x h k).trans (signExtend_setWidth_word (· <<< k) x)

theorem shiftRight_word : shiftRight false x k = x >>> k :=
  (shiftRight_eq false x k).trans (signExtend_setWidth_word (· >>> k) x)

theorem shiftArith_word : shiftArith false x k = x.sshiftRight k :=
  (shiftArith_eq false x k).trans (signExtend_setWidth_word (·.sshiftRight k) x)

end

/-- Settles O4: counts of bits by what their recursions find, and the immediate forms as the two-source operations of 64 bits. -/
theorem scalarUnaryResults : Obligations.ScalarUnaryResults := by
  unfold Obligations.ScalarUnaryResults
  refine ⟨fun s w z q d a h => ?_, fun s d a imm sh big h => ?_⟩
  · intro n x put
    refine ⟨?_, ?_, ?_, ?_, ?_, ?_, ?_⟩
    · exact ⟨leadZeros x.toNat n, leadZeros_le _ _, (State.unary_next h (va64_leadZeros w) :), lt_of_leadZeros x.isLt, getMsbD_leadZeros x⟩
    · exact ⟨trailZeros x.toNat n 0, trailZeros_le _ _ _, (State.unary_next h (va64_trailZeros w) :),
        mod_two_pow_trailZeros _ _, getLsbD_trailZeros x⟩
    · exact (State.unary_next h (va64_popCount w) :)
    · have hn : 8 ∣ n := by cases w <;> decide
      exact ⟨byteReverse x, (State.unary_next h (byteSwap_eq w) :), fun i hi => byteReverse_byte hn x hi⟩
    · exact (State.unary_next h (wordOf_signed _) :)
    · exact (State.unary_next h (va64_mod_two_pow _) :)
    · intro hr
      rw [← entries_eq]
      exact (State.compute_next ⟨h.1, hr⟩ fun _ => va64 (entries (s.hart.q q.toFin)) :)
  · intro x m put ssat usat
    refine ⟨fun hsat => ?_, fun hsat => ?_, fun hsat => ?_, ?_⟩
    · exact ⟨(State.unary_next h fun x => arith_add false x m hsat :), (State.unary_next h fun x => shiftLeft_word x sh.toNat hsat :)⟩
    · exact ⟨(State.unary_next h fun x => arith_word_clamps_signed (· + ·) x m hsat :),
        (State.unary_next h fun x => arith_word_clamps_signed (fun v _ => v * 2 ^ sh.toNat) x 0 hsat :)⟩
    · exact ⟨(State.unary_next h fun x => arith_word_clamps_unsigned (· + ·) x m hsat :),
        (State.unary_next h fun x => arith_word_clamps_unsigned (fun v _ => v * 2 ^ sh.toNat) x 0 hsat :)⟩
    · exact ⟨(State.unary_next h fun x => Eq.refl (x &&& m) :), (State.unary_next h fun x => Eq.refl (x ||| m) :),
        (State.unary_next h fun x => Eq.refl (x ^^^ m) :), (State.unary_next h fun x => shiftRight_word x sh.toNat :),
        (State.unary_next h fun x => shiftArith_word x sh.toNat :), (State.unary_next h fun x => flagWord_slt false x m :),
        (State.unary_next h fun x => flagWord_ult false x m :), fun hr => (State.compute_next ⟨h.1, hr⟩ fun _ => sx big :)⟩

end Sys2Proof.Machine
end

section
/-! PROOFS. Wide constants, funnel shifts, bit fields and select (R113, R114). -/
namespace Sys2Proof.Machine

-- Funnel shifts

theorem pairOf_eq (x y : Word) : pairOf x y = (x ++ y).toNat := by
  rw [BitVec.toNat_append, ← Nat.shiftLeft_add_eq_or_of_lt y.isLt, Nat.shiftLeft_eq, pairOf]

theorem funnelLeft_eq (p : BitVec 128) (k : Nat) : va64 (p.toNat * 2 ^ k / 2 ^ 64) = (p <<< k).extractLsb' 64 64 := by
  apply BitVec.eq_of_toNat_eq
  rw [va64, BitVec.toNat_ofNat, BitVec.extractLsb'_toNat, BitVec.toNat_shiftLeft, Nat.shiftLeft_eq, Nat.shiftRight_eq_div_pow,
    show 2 ^ 128 = 2 ^ 64 * 2 ^ 64 by decide, Nat.mod_mul_right_div_self, Nat.mod_mod]

theorem funnelRight_eq (p : BitVec 128) (k : Nat) : va64 (p.toNat / 2 ^ k) = (p >>> k).extractLsb' 0 64 := by
  apply BitVec.eq_of_toNat_eq
  rw [va64, BitVec.toNat_ofNat, BitVec.extractLsb'_toNat, BitVec.toNat_ushiftRight, Nat.shiftRight_zero,
    Nat.shiftRight_eq_div_pow]

-- Bit fields

/-- A field read out is extended in the given signedness (R113). -/
theorem wordOf_valueOf (g : Bool) (len pos : Nat) (x : Word) :
    wordOf (valueOf g len (x.toNat / 2 ^ pos)) =
      if g then (x.extractLsb' pos len).signExtend 64 else (x.extractLsb' pos len).zeroExtend 64 := by
  have hfield : BitVec.ofNat len (x.toNat / 2 ^ pos) = x.extractLsb' pos len := by
    apply BitVec.eq_of_toNat_eq
    rw [BitVec.toNat_ofNat, BitVec.extractLsb'_toNat, Nat.shiftRight_eq_div_pow]
  cases g with
  | true =>
    rw [valueOf, if_pos rfl, signed_eq_toInt, hfield]; rfl
  | false =>
    rw [valueOf, if_neg Bool.false_ne_true, ← BitVec.toNat_ofNat, hfield, wordOf, BitVec.ofInt_natCast, BitVec.ofNat_toNat]; rfl

/-- The word but for its field: the bits above, the new field, the bits below. -/
theorem setFld_split (x : Word) (lo len v : Nat) :
    setFld x lo len v = BitVec.ofNat 64 (2 ^ lo * (2 ^ len * (x.toNat / 2 ^ (lo + len)) + v % 2 ^ len) + x.toNat % 2 ^ lo) := by
  have hlow : x.toNat = 2 ^ lo * (x.toNat / 2 ^ lo) + x.toNat % 2 ^ lo := (Nat.div_add_mod ..).symm
  have hfield : x.toNat / 2 ^ lo = 2 ^ len * (x.toNat / 2 ^ (lo + len)) + fld x lo len := by
    rw [Nat.pow_add, ← Nat.div_div_eq_div_mul, fld, Nat.div_add_mod]
  rw [hfield] at hlow
  have hfit : x.toNat - fld x lo len * 2 ^ lo = 2 ^ lo * (2 ^ len * (x.toNat / 2 ^ (lo + len))) + x.toNat % 2 ^ lo := by
    rw [Nat.mul_add, Nat.mul_comm _ (fld x lo len)] at hlow
    omega
  rw [setFld, hfit]
  congr 1
  ring

theorem setFld_getLsbD (x y : Word) (lo len i : Nat) (hi : i < 64) :
    (setFld x lo len y.toNat).getLsbD i = if lo ≤ i ∧ i < lo + len then y.getLsbD (i - lo) else x.getLsbD i := by
  rw [setFld_split, BitVec.getLsbD_ofNat, decide_eq_true hi, Bool.true_and,
    Nat.testBit_two_pow_mul_add _ (Nat.mod_lt _ (Nat.two_pow_pos lo)), Nat.testBit_two_pow_mul_add _ (Nat.mod_lt _ (Nat.two_pow_pos len))]
  by_cases hbelow : i < lo
  · rw [if_pos hbelow, if_neg (by omega), Nat.testBit_mod_two_pow, decide_eq_true hbelow, Bool.true_and]; rfl
  rw [if_neg hbelow]
  by_cases hin : i - lo < len
  · rw [if_pos hin, if_pos (by omega), Nat.testBit_mod_two_pow, decide_eq_true hin, Bool.true_and]; rfl
  · rw [if_neg hin, if_neg (by omega), Nat.testBit_div_two_pow, show i - lo - len + (lo + len) = i by omega]; rfl

/-- Settles O5: each value as the model's arithmetic on 128-bit pairs and on fields gives it. -/
theorem wideResults : Obligations.WideResults := by
  unfold Obligations.WideResults
  intro s d a b c imm f sh pos g len
  refine ⟨fun h => ?_, fun h => ?_, fun h => ?_, fun h => ?_, fun _ _ => ⟨fun h => ?_, fun h => ?_⟩⟩
  · exact (State.compute_next h fun _ => sx imm :)
  · exact (State.compute_next h fun v => imm ++ (v 0).extractLsb' 0 32 :)
  · exact (State.compute_next h fun v => v 0 + sx imm :)
  · intro pair k
    refine ⟨?_, ?_, (State.compute_next h fun v => if v 2 ≠ 0 then v 0 else v 1 :)⟩
    · rw [← funnelLeft_eq, ← pairOf_eq]
      exact (State.compute_next h fun v => va64 (pairOf (v 0) (v 1) * 2 ^ funnelCount f sh (v 2) / 2 ^ 64) :)
    · rw [← funnelRight_eq, ← pairOf_eq]
      exact (State.compute_next h fun v => va64 (pairOf (v 0) (v 1) / 2 ^ funnelCount f sh (v 2)) :)
  · intro x
    rw [← wordOf_valueOf]
    exact (State.compute_next h fun v => wordOf (valueOf g len.toNat ((v 0).toNat / 2 ^ pos.toNat)) :)
  · exact ⟨_, (State.compute_next h fun v => setFld (v 1) pos.toNat len.toNat (v 0).toNat :), fun i hi => setFld_getLsbD _ _ _ _ i hi⟩

end Sys2Proof.Machine
end

section
/-! PROOFS. Traps on request and the return from a trap (R132, R133, R35, R229). -/
namespace Sys2Proof.Machine

/-- Clearing a bit of VSTAT clears that bit alone. -/
theorem vstatSet_false_getLsbD (v : BitVec 5) (i j : Nat) : (vstatSet v i false).getLsbD j = (decide (j ≠ i) && v.getLsbD j) := by
  rw [vstatSet, if_neg Bool.false_ne_true, BitVec.getLsbD_and, BitVec.getLsbD_not, BitVec.getLsbD_ofNat, Nat.testBit_two_pow]
  by_cases hj : j < 5
  · simp [hj, Bool.and_comm, eq_comm]
  · rw [BitVec.getLsbD_of_ge v j (Nat.le_of_not_lt hj), Bool.false_and, Bool.and_false]

/-- eret in mode S (R133): the stream leaves its handler, and a halted operation that this instruction reported goes on (R229). -/
theorem exec_eret_supervisor {s : State} (h : s.Fits .both 1) (hm : s.me.mode = .s) :
    exec .eret s = .next { s with me := s.me.eret, hart := if s.isE then s.hart.unhalt s.me.tpc else s.hart } :=
  (State.issue_fits h _).trans (if_pos hm)

/-- eret in mode U (R133). -/
theorem exec_eret_user {s : State} (h : s.Fits .both 1) (hm : s.me.mode = .u) :
    exec .eret s = .next (s.takeTrap (.plain protection s.insWord)) :=
  have hne : ¬ s.me.mode = .s := by rw [hm]; decide
  (State.issue_fits h _).trans (if_neg hne)

/-- A return to any instruction but the one that reported a halt leaves the hart as it is (R229). -/
theorem Hart.unhalt_of_ne {h : Hart} {pc : Word} (hne : h.mtold ≠ some pc) : h.unhalt pc = h := if_neg hne

theorem Hart.unhalt_of_eq {h : Hart} {pc : Word} (heq : h.mtold = some pc) : h.unhalt pc = { h with mhalt := none, mtold := none } := if_pos heq

/-- Settles O21: each is its issue, and eret in mode S the fields that `Strm.eret` and `Hart.unhalt` write. -/
theorem trapRequestAndReturn : Obligations.TrapRequestAndReturn := by
  unfold Obligations.TrapRequestAndReturn
  intro s code h
  refine ⟨State.issue_fits h _, State.issue_fits h _, State.issue_fits h _, exec_eret_user h, fun hm => ⟨_, exec_eret_supervisor h hm, ?_⟩⟩
  refine ⟨rfl, rfl, rfl, rfl, rfl, vstatSet_false_getLsbD _ 2 2,
    fun j hj => (vstatSet_false_getLsbD _ 2 j).trans (by rw [decide_eq_true hj, Bool.true_and]), rfl, rfl, rfl, rfl, rfl,
    rfl, rfl, rfl, rfl, rfl, rfl, ?_, ?_⟩
  · rintro (hA | hother)
    · exact if_neg (by rw [hA]; decide)
    · exact ite_eq_right_iff.mpr fun _ => Hart.unhalt_of_ne hother
  · intro hE htold
    exact (if_pos hE).trans (Hart.unhalt_of_eq htold)

end Sys2Proof.Machine
end

section
/-! PROOFS. Taking a trap, with a handler line and without one (R339, R340, R344, R35, R87). -/
namespace Sys2Proof.Machine

-- Deliveries (R115, R339)

/-- What deliveries write: queue places of the hart and registers of the stream. -/
abbrev State.DeliveryFrame (s t : State) : Prop := t = { s with hart := t.hart, me := { s.me with regs := t.me.regs } }

theorem State.DeliveryFrame.trans {s t u : State} (h : s.DeliveryFrame t) (k : t.DeliveryFrame u) : s.DeliveryFrame u := by
  unfold State.DeliveryFrame at *
  rw [k, h]

theorem State.place_frame (s : State) (p : Delivery) : s.DeliveryFrame (s.place p) := by
  unfold State.place State.DeliveryFrame
  split
  · rfl
  · rw [Strm.setReg_only]

/-- Making every delivery leaves none pending and writes nothing else (R339). -/
theorem State.deliverAll_writes (s : State) :
    ∃ hart regs, s.deliverAll = { s with hart := hart, me := { s.me with pend := [], regs := regs } } :=
  have hframe : State.DeliveryFrame { s with me := { s.me with pend := [] } } s.deliverAll :=
    foldl_keeps (State.DeliveryFrame _) State.place (fun t p h => h.trans (t.place_frame p)) _ _ rfl
  ⟨_, _, hframe⟩

theorem State.deliverAll_of_none {s : State} (h : s.me.pend = []) : s.deliverAll = s := by
  rw [State.deliverAll, h, List.foldl_nil, ← h]

-- What entry writes of the handler line, TSTAT and VSTAT (R339, R340, R34, R35)

theorem handlerEntry_eq_add (tvec : Word) : handlerEntry tvec = (tvec &&& ~~~(0x3F : Word)) + 4 := by
  have hlow : (tvec &&& ~~~(0x3F : Word)) &&& 4 = 0 := by
    rw [BitVec.and_assoc, show ~~~(0x3F : Word) &&& 4 = 0#64 by decide, BitVec.and_zero]; rfl
  rw [handlerEntry, BitVec.add_eq_or_of_and_eq_zero _ _ hlow]

theorem Mode.bit_eq (m : Mode) : m.bit = (m == .s) := by cases m <;> rfl

theorem b01_getLsbD (b : Bool) : (b01 b).getLsbD 0 = b := by cases b <;> rfl

section
variable (i : TrapInfo) (e : Bool) (m : Mode)

theorem tstatOf_mode : (tstatOf i e m).getLsbD 0 = (m == .s) := by
  simp only [tstatOf, BitVec.getLsbD_append, Nat.reduceLT, reduceIte, b01_getLsbD, Mode.bit_eq]

theorem tstatOf_stream : (tstatOf i e m).getLsbD 1 = e := by
  simp only [tstatOf, BitVec.getLsbD_append, Nat.reduceLT, Nat.reduceSub, reduceIte, b01_getLsbD]

theorem tstatOf_mh : (tstatOf i e m).getLsbD 6 = i.mh := by
  simp only [tstatOf, BitVec.getLsbD_append, Nat.reduceLT, Nat.reduceSub, reduceIte, b01_getLsbD]

theorem tstatOf_ef : (tstatOf i e m).getLsbD 7 = i.ef := by
  simp only [tstatOf, BitVec.getLsbD_append, Nat.reduceLT, Nat.reduceSub, reduceIte, b01_getLsbD]

theorem tstatOf_ech : (tstatOf i e m).extractLsb' 8 3 = i.ech := by
  simp (disch := omega) only [tstatOf, BitVec.extractLsb'_append_eq_of_le, BitVec.extractLsb'_append_eq_of_add_le]
  exact BitVec.extractLsb'_eq_self

theorem tstatOf_ak : (tstatOf i e m).extractLsb' 11 2 = i.ak := by
  simp (disch := omega) only [tstatOf, BitVec.extractLsb'_append_eq_of_le, BitVec.extractLsb'_append_eq_of_add_le]
  exact BitVec.extractLsb'_eq_self

theorem tstatOf_wlvl : (tstatOf i e m).extractLsb' 13 3 = i.wlvl := by
  simp (disch := omega) only [tstatOf, BitVec.extractLsb'_append_eq_of_le]
  exact BitVec.extractLsb'_eq_self

end

/-- Setting a bit of VSTAT sets that bit alone. -/
theorem vstatSet_true_getLsbD (v : BitVec 5) {i : Nat} (hi : i < 5) (j : Nat) :
    (vstatSet v i true).getLsbD j = (decide (j = i) || v.getLsbD j) := by
  rw [vstatSet, if_pos rfl, BitVec.getLsbD_or, BitVec.getLsbD_ofNat, Nat.testBit_two_pow, Bool.or_comm]
  by_cases hj : j = i
  · simp [hj, hi]
  · simp [hj, Ne.symm hj]

/-- The handler-bank step sets HBUSY, and VLOST if HBUSY was set already (R35). -/
theorem Strm.bank_vstat_getLsbD (t : Strm) (j : Nat) :
    t.bank.vstat.getLsbD j = (decide (j = 2) || (decide (j = 1) && t.hbusy) || t.vstat.getLsbD j) := by
  rw [Strm.bank, vstatSet_true_getLsbD _ (by decide)]
  cases hb : t.hbusy with
  | true => rw [if_pos rfl, vstatSet_true_getLsbD _ (by decide), Bool.and_true, Bool.or_assoc]
  | false => rw [if_neg Bool.false_ne_true, Bool.and_false, Bool.or_false]

theorem Strm.bank_hbusy (t : Strm) : t.bank.vstat.getLsbD 2 = true := t.bank_vstat_getLsbD 2

theorem Strm.bank_vlost (t : Strm) : t.bank.vstat.getLsbD 1 = (t.vstat.getLsbD 1 || t.vstat.getLsbD 2) :=
  (t.bank_vstat_getLsbD 1).trans (Bool.or_comm _ _)

theorem Strm.bank_vstat_others (t : Strm) {j : Nat} (h1 : j ≠ 1) (h2 : j ≠ 2) : t.bank.vstat.getLsbD j = t.vstat.getLsbD j := by
  rw [Strm.bank_vstat_getLsbD, decide_eq_false h1, decide_eq_false h2]; rfl

-- The two outcomes (R339, R344)

/-- The trap of a stream whose TVEC names a handler line. -/
theorem State.trap_handled {s : State} (h : s.deliverAll.me.tvec &&& ~~~(0x3F : Word) ≠ 0) (i : TrapInfo) :
    s.trap i = .next { s.deliverAll with me := s.deliverAll.me.enterTrap i s.deliverAll.isE } :=
  congrArg Host.Outcome.next (if_neg h)

/-- The trap of a stream whose TVEC names none, nothing being outstanding. -/
theorem State.trap_unhandled {s : State} (hp : s.me.pend = []) (h : s.me.tvec &&& ~~~(0x3F : Word) = 0) (i : TrapInfo) :
    s.trap i = .next (s.unhandledTrap i) := by
  rw [State.trap, State.takeTrap, State.deliverAll_of_none hp, if_pos h]

-- Giving up the cores of a team (R318, R344)

/-- What flushing and clearing cores change: memory and what goes with it, the cores, and harts that are not in focus. -/
abbrev State.CoresFrame (s t : State) : Prop :=
  t = { s with
    mem := t.mem, vers := t.vers, poison := t.poison, dirtyLog := t.dirtyLog, core := t.core, cores := t.cores, parked := t.parked }

theorem State.CoresFrame.trans {s t u : State} (h : s.CoresFrame t) (k : t.CoresFrame u) : s.CoresFrame u := by
  unfold State.CoresFrame at *
  rw [k, h]

theorem State.raise_frame (s : State) (line : Nat) : s.CoresFrame (s.raise line) := by
  unfold State.raise; split <;> rfl

theorem State.writeBack_frame (s : State) (l : CLine) : s.CoresFrame (s.writeBack l) := by
  have hput (m : Memory) : s.CoresFrame (State.raise { s with mem := m } l.line) :=
    State.CoresFrame.trans (t := { s with mem := m }) rfl (State.raise_frame _ _)
  unfold State.writeBack
  split
  · exact (hput _).trans rfl
  · rfl

theorem writeBacks_frame (ls : List CLine) (s : State) : s.CoresFrame (ls.foldl State.writeBack s) :=
  foldl_keeps s.CoresFrame State.writeBack (fun t l h => h.trans (t.writeBack_frame l)) ls s rfl

theorem State.unpin_frame (s : State) (p : CLine → Bool) : s.CoresFrame (s.unpin p) :=
  (writeBacks_frame (s.core.dcache.filter p) s).trans rfl

theorem State.flushCores_frame (s : State) (ids : List Nat) : s.CoresFrame (s.flushCores ids) := by
  have hback : s.CoresFrame (s.cores.foldl (fun t c =>
      if ids.contains c.1 then (c.2.dcache.filter (fun l => !s.stuck c.1 l)).foldl State.writeBack t else t) s) := by
    refine foldl_keeps s.CoresFrame _ (fun t c h => ?_) _ _ rfl
    split
    · exact h.trans (writeBacks_frame _ t)
    · exact h
  unfold State.flushCores
  split
  · exact (hback.trans rfl).trans ((State.unpin_frame _ _).trans rfl)
  · exact hback.trans rfl

@[simp] theorem State.ctx_hart (s : State) : s.ctx.hart = s.hart := by unfold State.ctx; split <;> rfl

/-- A hart in focus that is not dropped stays as it is. -/
theorem State.dropHarts_keepsFocus {s : State} {p : Ctx → Bool} (h : p s.ctx = false) :
    s.dropHarts p = { s with parked := s.parked.filter (fun c => !p c) } := if_neg (by rw [h]; exact Bool.false_ne_true)

/-- A live hart in focus stays when the ended harts of the cores go. -/
theorem State.clearCores_frame {s : State} (h : s.hart.live = true) (ids : List Nat) : s.CoresFrame (s.clearCores ids) := by
  have hstay : (!s.ctx.hart.live && ids.contains (s.ctx.hart.id.toNat / 8)) = false := by
    rw [State.ctx_hart, h, Bool.not_true, Bool.false_and]
  rw [State.clearCores, State.dropHarts_keepsFocus hstay]
  split <;> rfl

/-- A live hart in focus is one of its own team. -/
theorem State.ctx_of_key {s : State} (h : s.hart.live = true) : s.ctx.of s.key = true := by
  simp [Ctx.of, Ctx.key, State.key, h]

theorem Ctx.key_ne_of_not_of {c : Ctx} {k : TeamKey} (hof : (!c.of k) = true) (hl : c.hart.live = true) : c.key ≠ k := by
  simpa [Ctx.of, hl] using hof

/-- Removing the team of the hart in focus leaves no hart in focus and no other hart of the team. -/
theorem State.dropTeam_ofFocus {s : State} {k : TeamKey} (h : s.ctx.of k = true) :
    s.dropTeam k = { s with
      parked := s.parked.filter (fun c => !c.of k), me := Strm.off, peer := Strm.off, hart := Hart.vacant s.hart.id } := if_pos h

/-- Discarding the team of a live hart in focus: the team and its harts are gone, and the rest is as the flush of its cores leaves it. -/
theorem State.discardTeam_live {s : State} (h : s.hart.live = true) :
    ∃ t, s.CoresFrame t ∧ s.discardTeam s.key = { t with
      teams := s.teams.filter (fun x => x.key ≠ s.key), parked := t.parked.filter (fun c => !c.of s.key),
      me := Strm.off, peer := Strm.off, hart := Hart.vacant s.hart.id } := by
  have hflush := s.flushCores_frame (s.coresOf s.key)
  have hlive : (s.flushCores (s.coresOf s.key)).hart.live = true := by rw [hflush]; exact h
  have hframe := hflush.trans (State.clearCores_frame hlive (s.coresOf s.key))
  have hfocus : ((s.flushCores (s.coresOf s.key)).clearCores (s.coresOf s.key)).ctx.of s.key = true := by
    rw [hframe]; exact State.ctx_of_key (s := s) h
  refine ⟨_, hframe, ?_⟩
  rw [State.discardTeam, State.dropTeam_ofFocus]
  · rw [hframe]
  · exact hfocus

/-- Changing the entries that meet a proposition. -/
theorem upd_decide {α : Type} (P : α → Prop) [DecidablePred P] (f : α → α) (l : List α) :
    upd (fun x => decide (P x)) f l = l.map fun x => if P x then f x else x :=
  List.map_congr_left fun _ _ => if_congr decide_eq_true_iff rfl rfl

/-- Settles O20: the writes of entry on a stream of which deliveries changed registers only, and the discard of the team. -/
theorem trapEntry : Obligations.TrapEntry := by
  unfold Obligations.TrapEntry
  refine ⟨fun s i hline => ?_, fun s i hpend hnoline hlive => ?_⟩
  · have htrap := State.trap_handled hline i
    have hnone : s.me.pend = [] → s.deliverAll = s := State.deliverAll_of_none
    obtain ⟨hart, regs, hdeliver⟩ := s.deliverAll_writes
    rw [hdeliver] at htrap hnone ⊢
    exact ⟨htrap, rfl, rfl, rfl, rfl, handlerEntry_eq_add _, rfl, tstatOf_mode .., tstatOf_stream .., tstatOf_wlvl .., tstatOf_ak ..,
      tstatOf_ech .., tstatOf_ef .., tstatOf_mh .., rfl, rfl, rfl, rfl, rfl, rfl, Strm.bank_hbusy _, Strm.bank_vlost _,
      fun j h1 h2 => Strm.bank_vstat_others _ h1 h2, rfl, rfl, rfl, rfl, rfl, rfl, hnone⟩
  · obtain ⟨u, hframe, hdiscard⟩ := State.discardTeam_live hlive
    refine ⟨_, State.trap_unhandled hpend hnoline i, ?_⟩
    rw [State.unhandledTrap, hdiscard, hframe]
    have hgrids := upd_decide (fun g : Grid => g.vd = s.hart.vd.toNat ∧ g.gid = s.hart.grid.toNat)
      (fun g => { g with ended := g.ended + 1, unhandled := true }) s.grids
    exact ⟨fun x hx => of_decide_eq_true (List.mem_filter.mp hx).2, rfl, rfl,
      fun c hc hl => Ctx.key_ne_of_not_of (List.mem_filter.mp hc).2 hl, hgrids, rfl⟩

end Sys2Proof.Machine
end
